-- ==== Sys2Proof/Word.lean ====
section
/-! DEFINITION. Words, bytes and the two floating-point formats (spec 00_scope.md R6, 40_basic_arith.md R110). -/

namespace Sys2Proof

/-- A 32-bit word: an ARM register, a single-precision VFP register, a memory word, an instruction (R20, R24, R70). -/
abbrev Word := BitVec 32

/-- A 64-bit double-precision register (R21). -/
abbrev DWord := BitVec 64

/-- One byte of memory (R52). -/
abbrev Byte := BitVec 8

/-- The two floating-point formats of R110. -/
inductive Fmt where
  | sgl
  | dbl
deriving DecidableEq, Repr

/-- Width in bits of a bit pattern of the format (R110). -/
abbrev Fmt.width : Fmt → Nat
  | .sgl => 32
  | .dbl => 64

/-- A bit pattern of format `f`: `Pat .sgl` is `Word`, `Pat .dbl` is `DWord`. -/
abbrev Pat (f : Fmt) := BitVec f.width

/-- A double-precision value from its most and least significant words (R21). -/
def dwordOf (hi lo : Word) : DWord := hi ++ lo

/-- `D[63:32]`, the most significant word (R21). -/
def hiWord (d : DWord) : Word := d.extractLsb' 32 32

/-- `D[31:0]`, the least significant word (R21). -/
def loWord (d : DWord) : Word := d.extractLsb' 0 32

end Sys2Proof
end

