-- ==== Sys2Proof/Syntax.lean ====
section
/-! DEFINITION. The instructions: one constructor for each of the 83 rows of spec/opcode_table.json, in the table's order
(30_encoding.md R90). Register operands are register numbers, assembled from their fields by the decoder (R75). -/

namespace Sys2Proof

/-- The fifteen ARM conditions of R72; `1111` is no VFP instruction. -/
inductive Cond where
  | eq | ne | cs | cc | mi | pl | vs | vc | hi | ls | ge | lt | gt | le | al
deriving DecidableEq, Repr

/-- An ARM register number `R0` to `R15` (R24). -/
abbrev RReg := Fin 16

/-- A single-precision register number `S0` to `S31` (R20). -/
abbrev SReg := Fin 32

/-- A double-precision register number `D0` to `D15` (R21). -/
abbrev DReg := Fin 16

/-- A system register named by the 5 bits `Fn:N` (10_state.md R28). `subArch low` is the sub-architecture defined
register with `Fn:N = 1:low`; `low = 0` is FPEXC and no such register. -/
inductive SysReg where
  | fpsid
  | fpscr
  | fpexc
  | subArch (low : BitVec 4)
deriving DecidableEq, Repr

/-- A VFP instruction. `d`, `n`, `m` are VFP registers as in R75; `rd`, `rn` are ARM registers; `up` is the `U` bit and
`offset` the 8-bit offset field of the load/store format (R81, R89). -/
inductive Instr where
  | fmacs (c : Cond) (d n m : SReg)
  | fmacd (c : Cond) (d n m : DReg)
  | fnmacs (c : Cond) (d n m : SReg)
  | fnmacd (c : Cond) (d n m : DReg)
  | fmscs (c : Cond) (d n m : SReg)
  | fmscd (c : Cond) (d n m : DReg)
  | fnmscs (c : Cond) (d n m : SReg)
  | fnmscd (c : Cond) (d n m : DReg)
  | fmuls (c : Cond) (d n m : SReg)
  | fmuld (c : Cond) (d n m : DReg)
  | fnmuls (c : Cond) (d n m : SReg)
  | fnmuld (c : Cond) (d n m : DReg)
  | fadds (c : Cond) (d n m : SReg)
  | faddd (c : Cond) (d n m : DReg)
  | fsubs (c : Cond) (d n m : SReg)
  | fsubd (c : Cond) (d n m : DReg)
  | fdivs (c : Cond) (d n m : SReg)
  | fdivd (c : Cond) (d n m : DReg)
  | fcpys (c : Cond) (d m : SReg)
  | fcpyd (c : Cond) (d m : DReg)
  | fabss (c : Cond) (d m : SReg)
  | fabsd (c : Cond) (d m : DReg)
  | fnegs (c : Cond) (d m : SReg)
  | fnegd (c : Cond) (d m : DReg)
  | fsqrts (c : Cond) (d m : SReg)
  | fsqrtd (c : Cond) (d m : DReg)
  | fcmps (c : Cond) (d m : SReg)
  | fcmpd (c : Cond) (d m : DReg)
  | fcmpes (c : Cond) (d m : SReg)
  | fcmped (c : Cond) (d m : DReg)
  | fcmpzs (c : Cond) (d : SReg)
  | fcmpzd (c : Cond) (d : DReg)
  | fcmpezs (c : Cond) (d : SReg)
  | fcmpezd (c : Cond) (d : DReg)
  | fcvtds (c : Cond) (d : DReg) (m : SReg)
  | fcvtsd (c : Cond) (d : SReg) (m : DReg)
  | fuitos (c : Cond) (d m : SReg)
  | fuitod (c : Cond) (d : DReg) (m : SReg)
  | fsitos (c : Cond) (d m : SReg)
  | fsitod (c : Cond) (d : DReg) (m : SReg)
  | ftouis (c : Cond) (d m : SReg)
  | ftouid (c : Cond) (d : SReg) (m : DReg)
  | ftouizs (c : Cond) (d m : SReg)
  | ftouizd (c : Cond) (d : SReg) (m : DReg)
  | ftosis (c : Cond) (d m : SReg)
  | ftosid (c : Cond) (d : SReg) (m : DReg)
  | ftosizs (c : Cond) (d m : SReg)
  | ftosizd (c : Cond) (d : SReg) (m : DReg)
  | flds (c : Cond) (up : Bool) (d : SReg) (rn : RReg) (offset : BitVec 8)
  | fsts (c : Cond) (up : Bool) (d : SReg) (rn : RReg) (offset : BitVec 8)
  | fldd (c : Cond) (up : Bool) (d : DReg) (rn : RReg) (offset : BitVec 8)
  | fstd (c : Cond) (up : Bool) (d : DReg) (rn : RReg) (offset : BitVec 8)
  | fldmsUnindexed (c : Cond) (d : SReg) (rn : RReg) (offset : BitVec 8)
  | fldmsIncrement (c : Cond) (d : SReg) (rn : RReg) (offset : BitVec 8)
  | fldmsDecrement (c : Cond) (d : SReg) (rn : RReg) (offset : BitVec 8)
  | fstmsUnindexed (c : Cond) (d : SReg) (rn : RReg) (offset : BitVec 8)
  | fstmsIncrement (c : Cond) (d : SReg) (rn : RReg) (offset : BitVec 8)
  | fstmsDecrement (c : Cond) (d : SReg) (rn : RReg) (offset : BitVec 8)
  | fldmdUnindexed (c : Cond) (d : DReg) (rn : RReg) (offset : BitVec 8)
  | fldmdIncrement (c : Cond) (d : DReg) (rn : RReg) (offset : BitVec 8)
  | fldmdDecrement (c : Cond) (d : DReg) (rn : RReg) (offset : BitVec 8)
  | fstmdUnindexed (c : Cond) (d : DReg) (rn : RReg) (offset : BitVec 8)
  | fstmdIncrement (c : Cond) (d : DReg) (rn : RReg) (offset : BitVec 8)
  | fstmdDecrement (c : Cond) (d : DReg) (rn : RReg) (offset : BitVec 8)
  | fldmxUnindexed (c : Cond) (d : DReg) (rn : RReg) (offset : BitVec 8)
  | fldmxIncrement (c : Cond) (d : DReg) (rn : RReg) (offset : BitVec 8)
  | fldmxDecrement (c : Cond) (d : DReg) (rn : RReg) (offset : BitVec 8)
  | fstmxUnindexed (c : Cond) (d : DReg) (rn : RReg) (offset : BitVec 8)
  | fstmxIncrement (c : Cond) (d : DReg) (rn : RReg) (offset : BitVec 8)
  | fstmxDecrement (c : Cond) (d : DReg) (rn : RReg) (offset : BitVec 8)
  | fmstat (c : Cond)
  | fmsr (c : Cond) (n : SReg) (rd : RReg)
  | fmrs (c : Cond) (rd : RReg) (n : SReg)
  | fmxr (c : Cond) (reg : SysReg) (rd : RReg)
  | fmrx (c : Cond) (rd : RReg) (reg : SysReg)
  | fmdlr (c : Cond) (n : DReg) (rd : RReg)
  | fmrdl (c : Cond) (rd : RReg) (n : DReg)
  | fmdhr (c : Cond) (n : DReg) (rd : RReg)
  | fmrdh (c : Cond) (rd : RReg) (n : DReg)
  | fmsrr (c : Cond) (m : SReg) (rd rn : RReg)
  | fmrrs (c : Cond) (rd rn : RReg) (m : SReg)
  | fmdrr (c : Cond) (m : DReg) (rd rn : RReg)
  | fmrrd (c : Cond) (rd rn : RReg) (m : DReg)
deriving DecidableEq, Repr

end Sys2Proof
end

