-- ==== Sys2Proof/WellFormed.lean ====
section
/-! DEFINITION. Well-formed instructions: the terms of `Instr` that some instruction word encodes (30_encoding.md R82, R85,
R86). Every field of a term has its width by its type; what the types leave is checked here. -/

namespace Sys2Proof

/-- FLDMD and FSTMD have an even offset field (R82). -/
def evenOffset (offset : BitVec 8) : Bool := offset.toNat % 2 == 0

/-- FLDMX and FSTMX have an odd offset field (R82). -/
def oddOffset (offset : BitVec 8) : Bool := offset.toNat % 2 == 1

/-- `Fn:N = 10000` is FPEXC and no sub-architecture defined register (R28). -/
def sysRegOk : SysReg → Bool
  | .fpsid => true
  | .fpscr => true
  | .fpexc => true
  | .subArch low => low != 0

/-- FMRX with the FPSCR as source and `Rd = R15` is FMSTAT, which has a constructor of its own (R86, R100). -/
def notFmstat (rd : RReg) (reg : SysReg) : Bool := !(rd == 15 && reg == .fpscr)

/-- The instruction is the reading of some instruction word. -/
def Instr.wellFormed : Instr → Bool
  | .fmacs _ _ _ _ => true
  | .fmacd _ _ _ _ => true
  | .fnmacs _ _ _ _ => true
  | .fnmacd _ _ _ _ => true
  | .fmscs _ _ _ _ => true
  | .fmscd _ _ _ _ => true
  | .fnmscs _ _ _ _ => true
  | .fnmscd _ _ _ _ => true
  | .fmuls _ _ _ _ => true
  | .fmuld _ _ _ _ => true
  | .fnmuls _ _ _ _ => true
  | .fnmuld _ _ _ _ => true
  | .fadds _ _ _ _ => true
  | .faddd _ _ _ _ => true
  | .fsubs _ _ _ _ => true
  | .fsubd _ _ _ _ => true
  | .fdivs _ _ _ _ => true
  | .fdivd _ _ _ _ => true
  | .fcpys _ _ _ => true
  | .fcpyd _ _ _ => true
  | .fabss _ _ _ => true
  | .fabsd _ _ _ => true
  | .fnegs _ _ _ => true
  | .fnegd _ _ _ => true
  | .fsqrts _ _ _ => true
  | .fsqrtd _ _ _ => true
  | .fcmps _ _ _ => true
  | .fcmpd _ _ _ => true
  | .fcmpes _ _ _ => true
  | .fcmped _ _ _ => true
  | .fcmpzs _ _ => true
  | .fcmpzd _ _ => true
  | .fcmpezs _ _ => true
  | .fcmpezd _ _ => true
  | .fcvtds _ _ _ => true
  | .fcvtsd _ _ _ => true
  | .fuitos _ _ _ => true
  | .fuitod _ _ _ => true
  | .fsitos _ _ _ => true
  | .fsitod _ _ _ => true
  | .ftouis _ _ _ => true
  | .ftouid _ _ _ => true
  | .ftouizs _ _ _ => true
  | .ftouizd _ _ _ => true
  | .ftosis _ _ _ => true
  | .ftosid _ _ _ => true
  | .ftosizs _ _ _ => true
  | .ftosizd _ _ _ => true
  | .flds _ _ _ _ _ => true
  | .fsts _ _ _ _ _ => true
  | .fldd _ _ _ _ _ => true
  | .fstd _ _ _ _ _ => true
  | .fldmsUnindexed _ _ _ _ => true
  | .fldmsIncrement _ _ _ _ => true
  | .fldmsDecrement _ _ _ _ => true
  | .fstmsUnindexed _ _ _ _ => true
  | .fstmsIncrement _ _ _ _ => true
  | .fstmsDecrement _ _ _ _ => true
  | .fldmdUnindexed _ _ _ offset => evenOffset offset
  | .fldmdIncrement _ _ _ offset => evenOffset offset
  | .fldmdDecrement _ _ _ offset => evenOffset offset
  | .fstmdUnindexed _ _ _ offset => evenOffset offset
  | .fstmdIncrement _ _ _ offset => evenOffset offset
  | .fstmdDecrement _ _ _ offset => evenOffset offset
  | .fldmxUnindexed _ _ _ offset => oddOffset offset
  | .fldmxIncrement _ _ _ offset => oddOffset offset
  | .fldmxDecrement _ _ _ offset => oddOffset offset
  | .fstmxUnindexed _ _ _ offset => oddOffset offset
  | .fstmxIncrement _ _ _ offset => oddOffset offset
  | .fstmxDecrement _ _ _ offset => oddOffset offset
  | .fmstat _ => true
  | .fmsr _ _ _ => true
  | .fmrs _ _ _ => true
  | .fmxr _ reg _ => sysRegOk reg
  | .fmrx _ rd reg => sysRegOk reg && notFmstat rd reg
  | .fmdlr _ _ _ => true
  | .fmrdl _ _ _ => true
  | .fmdhr _ _ _ => true
  | .fmrdh _ _ _ => true
  | .fmsrr _ _ _ _ => true
  | .fmrrs _ _ _ _ => true
  | .fmdrr _ _ _ _ => true
  | .fmrrd _ _ _ _ => true

end Sys2Proof
end

