-- ==== Sys2Proof/Decode.lean ====
section
/-! DEFINITION. The decoder and the encoder (30_encoding.md). Each of the four formats has a record of its fields, a reading
of the fields from a word and the word of given fields; the decoder and the encoder say what the fields mean. -/

namespace Sys2Proof

/-- The four bits of a condition (R72). -/
def Cond.bits : Cond → BitVec 4
  | .eq => 0 | .ne => 1 | .cs => 2 | .cc => 3 | .mi => 4 | .pl => 5 | .vs => 6 | .vc => 7
  | .hi => 8 | .ls => 9 | .ge => 10 | .lt => 11 | .gt => 12 | .le => 13 | .al => 14

/-- The condition of a `cond` field; `1111` is none (R72). -/
def condOf (b : BitVec 4) : Option Cond :=
  match b.toNat with
  | 0 => some .eq | 1 => some .ne | 2 => some .cs | 3 => some .cc
  | 4 => some .mi | 5 => some .pl | 6 => some .vs | 7 => some .vc
  | 8 => some .hi | 9 => some .ls | 10 => some .ge | 11 => some .lt
  | 12 => some .gt | 13 => some .le | 14 => some .al
  | _ => none

/-! ### Register numbers (R75) -/

/-- A single-precision register number from its field and its extra bit: `field:extra`. -/
def sregOf (field : BitVec 4) (extra : BitVec 1) : SReg :=
  ⟨2 * field.toNat + extra.toNat, by have := field.isLt; have := extra.isLt; omega⟩

/-- The top four bits of a single-precision register number. -/
def sregField (r : SReg) : BitVec 4 := BitVec.ofNat 4 (r.val / 2)

/-- The bottom bit of a single-precision register number. -/
def sregExtra (r : SReg) : BitVec 1 := BitVec.ofNat 1 (r.val % 2)

/-- A double-precision or an ARM register number from its field. -/
def regOf (field : BitVec 4) : Fin 16 := ⟨field.toNat, field.isLt⟩

/-- The field of a double-precision or an ARM register number. -/
def regField (r : Fin 16) : BitVec 4 := BitVec.ofNat 4 r.val

/-! ### The fields of the four formats -/

/-- Format `DP` (R73). -/
structure DpFields where
  cond : BitVec 4
  p : BitVec 1
  D : BitVec 1
  q : BitVec 1
  r : BitVec 1
  Fn : BitVec 4
  Fd : BitVec 4
  cp : BitVec 4
  N : BitVec 1
  s : BitVec 1
  M : BitVec 1
  Fm : BitVec 4
deriving DecidableEq, Repr

/-- Format `LS` (R81). -/
structure LsFields where
  cond : BitVec 4
  P : BitVec 1
  U : BitVec 1
  D : BitVec 1
  W : BitVec 1
  L : BitVec 1
  Rn : BitVec 4
  Fd : BitVec 4
  cp : BitVec 4
  offset : BitVec 8
deriving DecidableEq, Repr

/-- Format `XFER1` (R83). -/
structure Xfer1Fields where
  cond : BitVec 4
  opcode : BitVec 3
  L : BitVec 1
  Fn : BitVec 4
  Rd : BitVec 4
  cp : BitVec 4
  N : BitVec 1
  sbzHi : BitVec 2
  sbzLo : BitVec 4
deriving DecidableEq, Repr

/-- Format `XFER2` (R87). -/
structure Xfer2Fields where
  cond : BitVec 4
  L : BitVec 1
  Rn : BitVec 4
  Rd : BitVec 4
  cp : BitVec 4
  M : BitVec 1
  Fm : BitVec 4
deriving DecidableEq, Repr

/-- The word with the given `DP` fields: `cond 1110 p D q r Fn Fd cp N s M 0 Fm`. -/
def DpFields.word (f : DpFields) : Word :=
  (f.cond ++ 0b1110#4 ++ f.p ++ f.D ++ f.q ++ f.r ++ f.Fn ++ f.Fd ++ f.cp ++ f.N ++ f.s ++ f.M ++ 0#1 ++ f.Fm).cast (by decide)

/-- The `DP` fields of a word. -/
def dpFields (w : Word) : DpFields where
  cond := w.extractLsb' 28 4
  p := w.extractLsb' 23 1
  D := w.extractLsb' 22 1
  q := w.extractLsb' 21 1
  r := w.extractLsb' 20 1
  Fn := w.extractLsb' 16 4
  Fd := w.extractLsb' 12 4
  cp := w.extractLsb' 8 4
  N := w.extractLsb' 7 1
  s := w.extractLsb' 6 1
  M := w.extractLsb' 5 1
  Fm := w.extractLsb' 0 4

/-- The word with the given `LS` fields: `cond 110 P U D W L Rn Fd cp offset`. -/
def LsFields.word (f : LsFields) : Word :=
  (f.cond ++ 0b110#3 ++ f.P ++ f.U ++ f.D ++ f.W ++ f.L ++ f.Rn ++ f.Fd ++ f.cp ++ f.offset).cast (by decide)

/-- The `LS` fields of a word. -/
def lsFields (w : Word) : LsFields where
  cond := w.extractLsb' 28 4
  P := w.extractLsb' 24 1
  U := w.extractLsb' 23 1
  D := w.extractLsb' 22 1
  W := w.extractLsb' 21 1
  L := w.extractLsb' 20 1
  Rn := w.extractLsb' 16 4
  Fd := w.extractLsb' 12 4
  cp := w.extractLsb' 8 4
  offset := w.extractLsb' 0 8

/-- The word with the given `XFER1` fields: `cond 1110 opcode L Fn Rd cp N sbz 1 sbz`. -/
def Xfer1Fields.word (f : Xfer1Fields) : Word :=
  (f.cond ++ 0b1110#4 ++ f.opcode ++ f.L ++ f.Fn ++ f.Rd ++ f.cp ++ f.N ++ f.sbzHi ++ 1#1 ++ f.sbzLo).cast (by decide)

/-- The `XFER1` fields of a word. -/
def xfer1Fields (w : Word) : Xfer1Fields where
  cond := w.extractLsb' 28 4
  opcode := w.extractLsb' 21 3
  L := w.extractLsb' 20 1
  Fn := w.extractLsb' 16 4
  Rd := w.extractLsb' 12 4
  cp := w.extractLsb' 8 4
  N := w.extractLsb' 7 1
  sbzHi := w.extractLsb' 5 2
  sbzLo := w.extractLsb' 0 4

/-- The word with the given `XFER2` fields: `cond 1100010 L Rn Rd cp 00 M 1 Fm`. -/
def Xfer2Fields.word (f : Xfer2Fields) : Word :=
  (f.cond ++ 0b1100010#7 ++ f.L ++ f.Rn ++ f.Rd ++ f.cp ++ 0b00#2 ++ f.M ++ 1#1 ++ f.Fm).cast (by decide)

/-- The `XFER2` fields of a word. -/
def xfer2Fields (w : Word) : Xfer2Fields where
  cond := w.extractLsb' 28 4
  L := w.extractLsb' 20 1
  Rn := w.extractLsb' 16 4
  Rd := w.extractLsb' 12 4
  cp := w.extractLsb' 8 4
  M := w.extractLsb' 5 1
  Fm := w.extractLsb' 0 4

/-! ### Decoding -/

/-- Why a word is no instruction. -/
inductive DecodeError where
  /-- An encoding the spec calls UNDEFINED (R92). -/
  | undefined
  /-- An SBZ bit that is not zero (R94). -/
  | sbz
  /-- A transfer from `R15` (R86), with an SBZ bit that is not zero: R91 checks `Rd` before the SBZ bits. -/
  | fromArmR15
  /-- A transfer to `R15` other than FMSTAT (R86), with an SBZ bit that is not zero. -/
  | toArmR15
  /-- A `PUW = 000` word that is not the two-register pattern (R95 item 1). -/
  | unallocatedTwoReg
  /-- FCMPZ or FCMPEZ with a non-zero `Fm` or `M` (R95 item 5). -/
  | unallocatedCompareZero
  /-- `cond = 1111`, another coprocessor, or no coprocessor instruction (R91). -/
  | notVfp
deriving DecidableEq, Repr

/-- What the decoder answers. -/
abbrev Decoded := Except DecodeError Instr

/-- The primary opcode `p:q:r:s` (R73). -/
def DpFields.pqrs (f : DpFields) : BitVec 4 := f.p ++ f.q ++ f.r ++ f.s

/-- The extension opcode `Fn:N` (R78). -/
def DpFields.ext (f : DpFields) : BitVec 5 := f.Fn ++ f.N

/-- Three single-precision registers (R75). -/
def DpFields.sss (f : DpFields) (mk : SReg → SReg → SReg → Instr) : Decoded :=
  .ok (mk (sregOf f.Fd f.D) (sregOf f.Fn f.N) (sregOf f.Fm f.M))

/-- Three double-precision registers, whose extra bits must be 0 (R76). -/
def DpFields.ddd (f : DpFields) (mk : DReg → DReg → DReg → Instr) : Decoded :=
  if f.D = 0 ∧ f.N = 0 ∧ f.M = 0 then .ok (mk (regOf f.Fd) (regOf f.Fn) (regOf f.Fm)) else .error .undefined

/-- Destination and source both single-precision (R76). -/
def DpFields.ss (f : DpFields) (mk : SReg → SReg → Instr) : Decoded :=
  .ok (mk (sregOf f.Fd f.D) (sregOf f.Fm f.M))

/-- Destination and source both double-precision (R76). -/
def DpFields.dd (f : DpFields) (mk : DReg → DReg → Instr) : Decoded :=
  if f.D = 0 ∧ f.M = 0 then .ok (mk (regOf f.Fd) (regOf f.Fm)) else .error .undefined

/-- Double-precision destination, single-precision source (R76). -/
def DpFields.ds (f : DpFields) (mk : DReg → SReg → Instr) : Decoded :=
  if f.D = 0 then .ok (mk (regOf f.Fd) (sregOf f.Fm f.M)) else .error .undefined

/-- Single-precision destination, double-precision source (R76). -/
def DpFields.sd (f : DpFields) (mk : SReg → DReg → Instr) : Decoded :=
  if f.M = 0 then .ok (mk (sregOf f.Fd f.D) (regOf f.Fm)) else .error .undefined

/-- A single-precision register compared with zero: `Fm` and `M` must be 0 (R80). -/
def DpFields.sz (f : DpFields) (mk : SReg → Instr) : Decoded :=
  if f.Fm = 0 ∧ f.M = 0 then .ok (mk (sregOf f.Fd f.D)) else .error .unallocatedCompareZero

/-- A double-precision register compared with zero: `D` or `M` of 1 is UNDEFINED, `Fm` must be 0 (R80). -/
def DpFields.dz (f : DpFields) (mk : DReg → Instr) : Decoded :=
  if f.D = 0 ∧ f.M = 0 then
    if f.Fm = 0 then .ok (mk (regOf f.Fd)) else .error .unallocatedCompareZero
  else .error .undefined

/-- The extension instructions of coprocessor 10 (R78). -/
def decodeExtSgl (c : Cond) (f : DpFields) : Decoded :=
  match f.ext.toNat with
  | 0 => f.ss (.fcpys c)
  | 1 => f.ss (.fabss c)
  | 2 => f.ss (.fnegs c)
  | 3 => f.ss (.fsqrts c)
  | 8 => f.ss (.fcmps c)
  | 9 => f.ss (.fcmpes c)
  | 10 => f.sz (.fcmpzs c)
  | 11 => f.sz (.fcmpezs c)
  | 15 => f.ds (.fcvtds c)
  | 16 => f.ss (.fuitos c)
  | 17 => f.ss (.fsitos c)
  | 24 => f.ss (.ftouis c)
  | 25 => f.ss (.ftouizs c)
  | 26 => f.ss (.ftosis c)
  | 27 => f.ss (.ftosizs c)
  | _ => .error .undefined

/-- The extension instructions of coprocessor 11 (R78). -/
def decodeExtDbl (c : Cond) (f : DpFields) : Decoded :=
  match f.ext.toNat with
  | 0 => f.dd (.fcpyd c)
  | 1 => f.dd (.fabsd c)
  | 2 => f.dd (.fnegd c)
  | 3 => f.dd (.fsqrtd c)
  | 8 => f.dd (.fcmpd c)
  | 9 => f.dd (.fcmped c)
  | 10 => f.dz (.fcmpzd c)
  | 11 => f.dz (.fcmpezd c)
  | 15 => f.sd (.fcvtsd c)
  | 16 => f.ds (.fuitod c)
  | 17 => f.ds (.fsitod c)
  | 24 => f.sd (.ftouid c)
  | 25 => f.sd (.ftouizd c)
  | 26 => f.sd (.ftosid c)
  | 27 => f.sd (.ftosizd c)
  | _ => .error .undefined

/-- Data-processing instructions (R77). -/
def decodeDp (c : Cond) (f : DpFields) : Decoded :=
  if f.cp = 10 then
    match f.pqrs.toNat with
    | 0 => f.sss (.fmacs c)
    | 1 => f.sss (.fnmacs c)
    | 2 => f.sss (.fmscs c)
    | 3 => f.sss (.fnmscs c)
    | 4 => f.sss (.fmuls c)
    | 5 => f.sss (.fnmuls c)
    | 6 => f.sss (.fadds c)
    | 7 => f.sss (.fsubs c)
    | 8 => f.sss (.fdivs c)
    | 15 => decodeExtSgl c f
    | _ => .error .undefined
  else
    match f.pqrs.toNat with
    | 0 => f.ddd (.fmacd c)
    | 1 => f.ddd (.fnmacd c)
    | 2 => f.ddd (.fmscd c)
    | 3 => f.ddd (.fnmscd c)
    | 4 => f.ddd (.fmuld c)
    | 5 => f.ddd (.fnmuld c)
    | 6 => f.ddd (.faddd c)
    | 7 => f.ddd (.fsubd c)
    | 8 => f.ddd (.fdivd c)
    | 15 => decodeExtDbl c f
    | _ => .error .undefined

/-- The bits `P:U:W` (R82). -/
def LsFields.puw (f : LsFields) : BitVec 3 := f.P ++ f.U ++ f.W

/-- The single-precision register and the base register of a load or store. -/
def LsFields.sgl (f : LsFields) (mk : SReg → RReg → BitVec 8 → Instr) : Decoded :=
  .ok (mk (sregOf f.Fd f.D) (regOf f.Rn) f.offset)

/-- The double-precision register and the base register of a load or store; `D = 1` is UNDEFINED (R81). -/
def LsFields.dbl (f : LsFields) (mk : DReg → RReg → BitVec 8 → Instr) : Decoded :=
  if f.D = 0 then .ok (mk (regOf f.Fd) (regOf f.Rn) f.offset) else .error .undefined

/-- A load or store multiple of one addressing mode: `s`, `d` and `x` are the single, double and unknown precision
instruction, each its store (`L = 0`) and its load (`L = 1`) (R82). -/
def LsFields.multiple (f : LsFields) (storeS loadS : SReg → RReg → BitVec 8 → Instr)
    (storeD loadD storeX loadX : DReg → RReg → BitVec 8 → Instr) : Decoded :=
  if f.cp = 10 then
    if f.L = 0 then f.sgl storeS else f.sgl loadS
  else if evenOffset f.offset then
    if f.L = 0 then f.dbl storeD else f.dbl loadD
  else
    if f.L = 0 then f.dbl storeX else f.dbl loadX

/-- A load or store of one register with an offset (R82). -/
def LsFields.single (c : Cond) (f : LsFields) (up : Bool) : Decoded :=
  if f.cp = 10 then
    if f.L = 0 then f.sgl (.fsts c up) else f.sgl (.flds c up)
  else
    if f.L = 0 then f.dbl (.fstd c up) else f.dbl (.fldd c up)

/-- Two-register transfers (R88). -/
def decodeXfer2 (c : Cond) (f : Xfer2Fields) : Decoded :=
  if f.cp = 10 then
    if f.L = 0 then .ok (.fmsrr c (sregOf f.Fm f.M) (regOf f.Rd) (regOf f.Rn))
    else .ok (.fmrrs c (regOf f.Rd) (regOf f.Rn) (sregOf f.Fm f.M))
  else if f.M = 0 then
    if f.L = 0 then .ok (.fmdrr c (regOf f.Fm) (regOf f.Rd) (regOf f.Rn))
    else .ok (.fmrrd c (regOf f.Rd) (regOf f.Rn) (regOf f.Fm))
  else .error .undefined

/-- The word is in the exact two-register pattern of R87: bit 22 is 1, bits 7 and 6 are 0, bit 4 is 1. -/
def twoRegPattern (w : Word) : Bool :=
  w.extractLsb' 22 1 == 1 && w.extractLsb' 6 2 == 0 && w.extractLsb' 4 1 == 1

/-- Loads, stores and two-register transfers (R82). -/
def decodeLs (c : Cond) (w : Word) : Decoded :=
  let f := lsFields w
  match f.puw.toNat with
  | 0 => if twoRegPattern w then decodeXfer2 c (xfer2Fields w) else .error .unallocatedTwoReg
  | 2 => f.multiple (.fstmsUnindexed c) (.fldmsUnindexed c) (.fstmdUnindexed c) (.fldmdUnindexed c)
      (.fstmxUnindexed c) (.fldmxUnindexed c)
  | 3 => f.multiple (.fstmsIncrement c) (.fldmsIncrement c) (.fstmdIncrement c) (.fldmdIncrement c)
      (.fstmxIncrement c) (.fldmxIncrement c)
  | 4 => f.single c false
  | 5 => f.multiple (.fstmsDecrement c) (.fldmsDecrement c) (.fstmdDecrement c) (.fldmdDecrement c)
      (.fstmxDecrement c) (.fldmxDecrement c)
  | 6 => f.single c true
  | _ => .error .undefined

/-- An instruction of the `XFER1` format with its SBZ bits checked last (R91, R94). -/
def Xfer1Fields.sbzChecked (f : Xfer1Fields) (i : Instr) : Decoded :=
  if f.sbzHi = 0 ∧ f.sbzLo = 0 then .ok i else .error .sbz

/-- An instruction of the `XFER1` format other than FMSTAT, with `Rd = R15` checked before the SBZ bits (R91). The instruction
with `Rd = R15` whose SBZ bits are zero is refused by its meaning. -/
def Xfer1Fields.rdChecked (f : Xfer1Fields) (i : Instr) : Decoded :=
  if f.Rd = 15 ∧ ¬(f.sbzHi = 0 ∧ f.sbzLo = 0) then .error (if f.L = 0 then .fromArmR15 else .toArmR15) else f.sbzChecked i

/-- The system register of `Fn:N` (R28, R85); none where the encoding is UNDEFINED. -/
def sysRegOf (field : BitVec 4) (extra : BitVec 1) : Option SysReg :=
  match (field ++ extra).toNat with
  | 0 => some .fpsid
  | 2 => some .fpscr
  | 16 => some .fpexc
  | k => if k < 16 then none else some (.subArch (BitVec.ofNat 4 (k % 16)))

/-- Single register transfers (R84, R85, R86). -/
def decodeXfer1 (c : Cond) (f : Xfer1Fields) : Decoded :=
  if f.cp = 10 then
    match f.opcode.toNat with
    | 0 =>
      if f.L = 0 then f.rdChecked (.fmsr c (sregOf f.Fn f.N) (regOf f.Rd))
      else f.rdChecked (.fmrs c (regOf f.Rd) (sregOf f.Fn f.N))
    | 7 =>
      match sysRegOf f.Fn f.N with
      | none => .error .undefined
      | some reg =>
        if f.L = 0 then f.rdChecked (.fmxr c reg (regOf f.Rd))
        else if notFmstat (regOf f.Rd) reg then f.rdChecked (.fmrx c (regOf f.Rd) reg)
        else f.sbzChecked (.fmstat c)
    | _ => .error .undefined
  else
    match f.opcode.toNat with
    | 0 =>
      if f.N = 0 then
        if f.L = 0 then f.rdChecked (.fmdlr c (regOf f.Fn) (regOf f.Rd))
        else f.rdChecked (.fmrdl c (regOf f.Rd) (regOf f.Fn))
      else .error .undefined
    | 1 =>
      if f.N = 0 then
        if f.L = 0 then f.rdChecked (.fmdhr c (regOf f.Fn) (regOf f.Rd))
        else f.rdChecked (.fmrdh c (regOf f.Rd) (regOf f.Fn))
      else .error .undefined
    | _ => .error .undefined

/-- The decoder, total on every word (R91). -/
def decode (w : Word) : Decoded :=
  match condOf (w.extractLsb' 28 4) with
  | none => .error .notVfp
  | some c =>
    if w.extractLsb' 8 4 = 10 ∨ w.extractLsb' 8 4 = 11 then
      if w.extractLsb' 24 4 = 0b1110 then
        if w.extractLsb' 4 1 = 0 then decodeDp c (dpFields w) else decodeXfer1 c (xfer1Fields w)
      else if w.extractLsb' 25 3 = 0b110 then decodeLs c w
      else .error .notVfp
    else .error .notVfp

/-- The decoder's reading of an instruction whose bits are `w`, numbered as spec/opcode_table.json numbers them. An
instruction is one 32-bit word (R70), so its byte order in memory does not show. -/
def decodeTableWord (nbits w : Nat) : Option Instr :=
  match decode (BitVec.ofNat 32 (w % 2 ^ nbits)) with
  | .ok i => some i
  | .error _ => none

/-! ### Encoding -/

/-- A primary data-processing instruction on single-precision registers (R77). -/
def dpSgl (c : Cond) (pqrs : BitVec 4) (d n m : SReg) : Word :=
  DpFields.word
    { cond := c.bits, p := pqrs.extractLsb' 3 1, D := sregExtra d, q := pqrs.extractLsb' 2 1, r := pqrs.extractLsb' 1 1,
      Fn := sregField n, Fd := sregField d, cp := 10, N := sregExtra n, s := pqrs.extractLsb' 0 1, M := sregExtra m,
      Fm := sregField m }

/-- A primary data-processing instruction on double-precision registers (R77). -/
def dpDbl (c : Cond) (pqrs : BitVec 4) (d n m : DReg) : Word :=
  DpFields.word
    { cond := c.bits, p := pqrs.extractLsb' 3 1, D := 0, q := pqrs.extractLsb' 2 1, r := pqrs.extractLsb' 1 1,
      Fn := regField n, Fd := regField d, cp := 11, N := 0, s := pqrs.extractLsb' 0 1, M := 0, Fm := regField m }

/-- An extension instruction: the extension opcode `Fn:N` and the two register specifiers as field and extra bit (R78). -/
def dpExt (c : Cond) (cp : BitVec 4) (ext : BitVec 5) (Fd : BitVec 4) (D : BitVec 1) (Fm : BitVec 4) (M : BitVec 1) : Word :=
  DpFields.word
    { cond := c.bits, p := 1, D := D, q := 1, r := 1, Fn := ext.extractLsb' 1 4, Fd := Fd, cp := cp,
      N := ext.extractLsb' 0 1, s := 1, M := M, Fm := Fm }

/-- Both operands single-precision. -/
def extSS (c : Cond) (ext : BitVec 5) (d m : SReg) : Word :=
  dpExt c 10 ext (sregField d) (sregExtra d) (sregField m) (sregExtra m)

/-- Both operands double-precision. -/
def extDD (c : Cond) (ext : BitVec 5) (d m : DReg) : Word :=
  dpExt c 11 ext (regField d) 0 (regField m) 0

/-- Double-precision destination, single-precision source. -/
def extDS (c : Cond) (cp : BitVec 4) (ext : BitVec 5) (d : DReg) (m : SReg) : Word :=
  dpExt c cp ext (regField d) 0 (sregField m) (sregExtra m)

/-- Single-precision destination, double-precision source. -/
def extSD (c : Cond) (ext : BitVec 5) (d : SReg) (m : DReg) : Word :=
  dpExt c 11 ext (sregField d) (sregExtra d) (regField m) 0

/-- A load or store of single-precision registers; `puw` is `P:U:W` (R81). -/
def lsSgl (c : Cond) (puw : BitVec 3) (L : BitVec 1) (d : SReg) (rn : RReg) (offset : BitVec 8) : Word :=
  LsFields.word
    { cond := c.bits, P := puw.extractLsb' 2 1, U := puw.extractLsb' 1 1, D := sregExtra d, W := puw.extractLsb' 0 1, L := L,
      Rn := regField rn, Fd := sregField d, cp := 10, offset := offset }

/-- A load or store of double-precision registers (R81). -/
def lsDbl (c : Cond) (puw : BitVec 3) (L : BitVec 1) (d : DReg) (rn : RReg) (offset : BitVec 8) : Word :=
  LsFields.word
    { cond := c.bits, P := puw.extractLsb' 2 1, U := puw.extractLsb' 1 1, D := 0, W := puw.extractLsb' 0 1, L := L,
      Rn := regField rn, Fd := regField d, cp := 11, offset := offset }

/-- `P:U:W` of the two offset modes of a single load or store (R82). -/
def offsetPuw (up : Bool) : BitVec 3 := if up then 6 else 4

/-- A single register transfer, its SBZ bits 0 (R83). -/
def xfer1 (c : Cond) (opcode : BitVec 3) (L : BitVec 1) (cp : BitVec 4) (Fn : BitVec 4) (N : BitVec 1) (rd : RReg) : Word :=
  Xfer1Fields.word
    { cond := c.bits, opcode := opcode, L := L, Fn := Fn, Rd := regField rd, cp := cp, N := N, sbzHi := 0, sbzLo := 0 }

/-- A two-register transfer (R87). -/
def xfer2 (c : Cond) (L : BitVec 1) (cp : BitVec 4) (Fm : BitVec 4) (M : BitVec 1) (rd rn : RReg) : Word :=
  Xfer2Fields.word
    { cond := c.bits, L := L, Rn := regField rn, Rd := regField rd, cp := cp, M := M, Fm := Fm }

/-- The 5 bits `Fn:N` of a system register (R28). -/
def SysReg.bits : SysReg → BitVec 5
  | .fpsid => 0
  | .fpscr => 2
  | .fpexc => 16
  | .subArch low => 1#1 ++ low

/-- The word of a well-formed instruction. -/
def encode : Instr → Word
  | .fmacs c d n m => dpSgl c 0 d n m
  | .fmacd c d n m => dpDbl c 0 d n m
  | .fnmacs c d n m => dpSgl c 1 d n m
  | .fnmacd c d n m => dpDbl c 1 d n m
  | .fmscs c d n m => dpSgl c 2 d n m
  | .fmscd c d n m => dpDbl c 2 d n m
  | .fnmscs c d n m => dpSgl c 3 d n m
  | .fnmscd c d n m => dpDbl c 3 d n m
  | .fmuls c d n m => dpSgl c 4 d n m
  | .fmuld c d n m => dpDbl c 4 d n m
  | .fnmuls c d n m => dpSgl c 5 d n m
  | .fnmuld c d n m => dpDbl c 5 d n m
  | .fadds c d n m => dpSgl c 6 d n m
  | .faddd c d n m => dpDbl c 6 d n m
  | .fsubs c d n m => dpSgl c 7 d n m
  | .fsubd c d n m => dpDbl c 7 d n m
  | .fdivs c d n m => dpSgl c 8 d n m
  | .fdivd c d n m => dpDbl c 8 d n m
  | .fcpys c d m => extSS c 0 d m
  | .fcpyd c d m => extDD c 0 d m
  | .fabss c d m => extSS c 1 d m
  | .fabsd c d m => extDD c 1 d m
  | .fnegs c d m => extSS c 2 d m
  | .fnegd c d m => extDD c 2 d m
  | .fsqrts c d m => extSS c 3 d m
  | .fsqrtd c d m => extDD c 3 d m
  | .fcmps c d m => extSS c 8 d m
  | .fcmpd c d m => extDD c 8 d m
  | .fcmpes c d m => extSS c 9 d m
  | .fcmped c d m => extDD c 9 d m
  | .fcmpzs c d => dpExt c 10 10 (sregField d) (sregExtra d) 0 0
  | .fcmpzd c d => dpExt c 11 10 (regField d) 0 0 0
  | .fcmpezs c d => dpExt c 10 11 (sregField d) (sregExtra d) 0 0
  | .fcmpezd c d => dpExt c 11 11 (regField d) 0 0 0
  | .fcvtds c d m => extDS c 10 15 d m
  | .fcvtsd c d m => extSD c 15 d m
  | .fuitos c d m => extSS c 16 d m
  | .fuitod c d m => extDS c 11 16 d m
  | .fsitos c d m => extSS c 17 d m
  | .fsitod c d m => extDS c 11 17 d m
  | .ftouis c d m => extSS c 24 d m
  | .ftouid c d m => extSD c 24 d m
  | .ftouizs c d m => extSS c 25 d m
  | .ftouizd c d m => extSD c 25 d m
  | .ftosis c d m => extSS c 26 d m
  | .ftosid c d m => extSD c 26 d m
  | .ftosizs c d m => extSS c 27 d m
  | .ftosizd c d m => extSD c 27 d m
  | .flds c up d rn offset => lsSgl c (offsetPuw up) 1 d rn offset
  | .fsts c up d rn offset => lsSgl c (offsetPuw up) 0 d rn offset
  | .fldd c up d rn offset => lsDbl c (offsetPuw up) 1 d rn offset
  | .fstd c up d rn offset => lsDbl c (offsetPuw up) 0 d rn offset
  | .fldmsUnindexed c d rn offset => lsSgl c 2 1 d rn offset
  | .fldmsIncrement c d rn offset => lsSgl c 3 1 d rn offset
  | .fldmsDecrement c d rn offset => lsSgl c 5 1 d rn offset
  | .fstmsUnindexed c d rn offset => lsSgl c 2 0 d rn offset
  | .fstmsIncrement c d rn offset => lsSgl c 3 0 d rn offset
  | .fstmsDecrement c d rn offset => lsSgl c 5 0 d rn offset
  | .fldmdUnindexed c d rn offset => lsDbl c 2 1 d rn offset
  | .fldmdIncrement c d rn offset => lsDbl c 3 1 d rn offset
  | .fldmdDecrement c d rn offset => lsDbl c 5 1 d rn offset
  | .fstmdUnindexed c d rn offset => lsDbl c 2 0 d rn offset
  | .fstmdIncrement c d rn offset => lsDbl c 3 0 d rn offset
  | .fstmdDecrement c d rn offset => lsDbl c 5 0 d rn offset
  | .fldmxUnindexed c d rn offset => lsDbl c 2 1 d rn offset
  | .fldmxIncrement c d rn offset => lsDbl c 3 1 d rn offset
  | .fldmxDecrement c d rn offset => lsDbl c 5 1 d rn offset
  | .fstmxUnindexed c d rn offset => lsDbl c 2 0 d rn offset
  | .fstmxIncrement c d rn offset => lsDbl c 3 0 d rn offset
  | .fstmxDecrement c d rn offset => lsDbl c 5 0 d rn offset
  | .fmstat c => xfer1 c 7 1 10 1 0 15
  | .fmsr c n rd => xfer1 c 0 0 10 (sregField n) (sregExtra n) rd
  | .fmrs c rd n => xfer1 c 0 1 10 (sregField n) (sregExtra n) rd
  | .fmxr c reg rd => xfer1 c 7 0 10 (reg.bits.extractLsb' 1 4) (reg.bits.extractLsb' 0 1) rd
  | .fmrx c rd reg => xfer1 c 7 1 10 (reg.bits.extractLsb' 1 4) (reg.bits.extractLsb' 0 1) rd
  | .fmdlr c n rd => xfer1 c 0 0 11 (regField n) 0 rd
  | .fmrdl c rd n => xfer1 c 0 1 11 (regField n) 0 rd
  | .fmdhr c n rd => xfer1 c 1 0 11 (regField n) 0 rd
  | .fmrdh c rd n => xfer1 c 1 1 11 (regField n) 0 rd
  | .fmsrr c m rd rn => xfer2 c 0 10 (sregField m) (sregExtra m) rd rn
  | .fmrrs c rd rn m => xfer2 c 1 10 (sregField m) (sregExtra m) rd rn
  | .fmdrr c m rd rn => xfer2 c 0 11 (regField m) 0 rd rn
  | .fmrrd c rd rn m => xfer2 c 1 11 (regField m) 0 rd rn

/-- The condition of an instruction (R71). -/
def Instr.cond : Instr → Cond
  | .fmacs c _ _ _ => c
  | .fmacd c _ _ _ => c
  | .fnmacs c _ _ _ => c
  | .fnmacd c _ _ _ => c
  | .fmscs c _ _ _ => c
  | .fmscd c _ _ _ => c
  | .fnmscs c _ _ _ => c
  | .fnmscd c _ _ _ => c
  | .fmuls c _ _ _ => c
  | .fmuld c _ _ _ => c
  | .fnmuls c _ _ _ => c
  | .fnmuld c _ _ _ => c
  | .fadds c _ _ _ => c
  | .faddd c _ _ _ => c
  | .fsubs c _ _ _ => c
  | .fsubd c _ _ _ => c
  | .fdivs c _ _ _ => c
  | .fdivd c _ _ _ => c
  | .fcpys c _ _ => c
  | .fcpyd c _ _ => c
  | .fabss c _ _ => c
  | .fabsd c _ _ => c
  | .fnegs c _ _ => c
  | .fnegd c _ _ => c
  | .fsqrts c _ _ => c
  | .fsqrtd c _ _ => c
  | .fcmps c _ _ => c
  | .fcmpd c _ _ => c
  | .fcmpes c _ _ => c
  | .fcmped c _ _ => c
  | .fcmpzs c _ => c
  | .fcmpzd c _ => c
  | .fcmpezs c _ => c
  | .fcmpezd c _ => c
  | .fcvtds c _ _ => c
  | .fcvtsd c _ _ => c
  | .fuitos c _ _ => c
  | .fuitod c _ _ => c
  | .fsitos c _ _ => c
  | .fsitod c _ _ => c
  | .ftouis c _ _ => c
  | .ftouid c _ _ => c
  | .ftouizs c _ _ => c
  | .ftouizd c _ _ => c
  | .ftosis c _ _ => c
  | .ftosid c _ _ => c
  | .ftosizs c _ _ => c
  | .ftosizd c _ _ => c
  | .flds c _ _ _ _ => c
  | .fsts c _ _ _ _ => c
  | .fldd c _ _ _ _ => c
  | .fstd c _ _ _ _ => c
  | .fldmsUnindexed c _ _ _ => c
  | .fldmsIncrement c _ _ _ => c
  | .fldmsDecrement c _ _ _ => c
  | .fstmsUnindexed c _ _ _ => c
  | .fstmsIncrement c _ _ _ => c
  | .fstmsDecrement c _ _ _ => c
  | .fldmdUnindexed c _ _ _ => c
  | .fldmdIncrement c _ _ _ => c
  | .fldmdDecrement c _ _ _ => c
  | .fstmdUnindexed c _ _ _ => c
  | .fstmdIncrement c _ _ _ => c
  | .fstmdDecrement c _ _ _ => c
  | .fldmxUnindexed c _ _ _ => c
  | .fldmxIncrement c _ _ _ => c
  | .fldmxDecrement c _ _ _ => c
  | .fstmxUnindexed c _ _ _ => c
  | .fstmxIncrement c _ _ _ => c
  | .fstmxDecrement c _ _ _ => c
  | .fmstat c => c
  | .fmsr c _ _ => c
  | .fmrs c _ _ => c
  | .fmxr c _ _ => c
  | .fmrx c _ _ => c
  | .fmdlr c _ _ => c
  | .fmrdl c _ _ => c
  | .fmdhr c _ _ => c
  | .fmrdh c _ _ => c
  | .fmsrr c _ _ _ => c
  | .fmrrs c _ _ _ => c
  | .fmdrr c _ _ _ => c
  | .fmrrd c _ _ _ => c

end Sys2Proof
end

