-- ==== Sys2Proof/Config.lean ====
section
/-! DEFINITION. The implementation parameters of spec 00_scope.md R5, as plain data, and the free values that no
implementation parameter of plain data can hold, as opaque constants. A `Config` is a field of the machine's state that no
step changes, so a statement about every state is a statement about every value of every parameter. -/

namespace Sys2Proof

/-- The six floating-point exceptions of 60_exceptions.md R297. -/
inductive FpExc where
  | invalidOp
  | divByZero
  | overflow
  | underflow
  | inexact
  | inputDenormal
deriving DecidableEq, Repr

/-- A set of floating-point exceptions: the ones an operation signals, the trap enables, the cumulative flags. -/
structure ExcSet where
  invalidOp : Bool
  divByZero : Bool
  overflow : Bool
  underflow : Bool
  inexact : Bool
  inputDenormal : Bool
deriving DecidableEq, Repr

/-- `OVERLAP` (R5, R23): whether a word last written in one precision may be read in the other. -/
inductive Overlap where
  | tagged
  | transparent
deriving DecidableEq, Repr

/-- `FZ_SIGN` (R5, R114): the sign of a flushed zero. -/
inductive FzSign where
  | keep
  | positive
deriving DecidableEq, Repr

/-- `TININESS` (R5, R112): underflow detection before or after rounding. -/
inductive Tininess where
  | beforeRounding
  | afterRounding
deriving DecidableEq, Repr

/-- `SREG_PAIR_ORDER` (R5, 47_two_reg_transfer.md R277, R278). -/
inductive SregPairOrder where
  | source
  | swapped
deriving DecidableEq, Repr

/-- `NaNSelect` (R5, R118): the recommended selection, or any selection that the constraints of R118 allow. -/
inductive NanSelect where
  | recommended
  | free
deriving DecidableEq, Repr

/-- `FSTMX_FORMAT` (R5, 45_load_store.md R236): the recommended format, or any format under the law of R236. -/
inductive FstmxFormat where
  | standard
  | free
deriving DecidableEq, Repr

/-- One region of `MemMap` (R5, 20_memory.md R60): the word accesses inside it that are admitted. -/
structure MemRegion where
  base : Nat
  size : Nat
  readable : Bool
  writable : Bool
deriving DecidableEq, Repr

/-- The implementation parameters of R5 that are not fixed by the spec. -/
structure Config where
  /-- `HAS_DOUBLE`: D variant or single-precision-only variant. -/
  hasDouble : Bool
  /-- `BIGEND`: byte order of memory (R53). -/
  bigEnd : Bool
  /-- `OVERLAP`. -/
  overlap : Overlap
  /-- `FZ_SIGN`. -/
  fzSign : FzSign
  /-- `FZ_FLAGS`: what a flushed operand signals (R114). -/
  fzInput : ExcSet
  /-- `FZ_FLAGS`: what a flushed operand of a float-to-integer conversion signals (R114, R175). -/
  fzInputToInt : ExcSet
  /-- `FZ_FLAGS`: what a flushed result signals (R114). -/
  fzResult : ExcSet
  /-- `TININESS`. -/
  tininess : Tininess
  /-- `NaNSelect`. -/
  nanSelect : NanSelect
  /-- `FSTMX_FORMAT`. -/
  fstmxFormat : FstmxFormat
  /-- `SubArchSysReg` (60_exceptions.md R293): the selectors `Fn:N` of the sub-architecture defined system registers that are
  supplied. How such a register answers a read and takes a write is `Config.subArchRead` and `Config.subArchWrite`. -/
  subArch : List (BitVec 5)
  /-- `SREG_PAIR_ORDER`. -/
  pairOrder : SregPairOrder
  /-- `USER_MODE` (60_exceptions.md R306). -/
  userMode : Bool
  /-- `MemMap`: the admitted regions (R60). -/
  memMap : List MemRegion
deriving DecidableEq, Repr

/-- No exception. -/
def ExcSet.none : ExcSet := ⟨false, false, false, false, false, false⟩

/-- The defaults of R5; where R5 gives none, the recommended value of the rule named in the field; where there is neither,
the DESIGN CHOICE of notes/assumptions/2.md. -/
def Config.default : Config where
  hasDouble := true
  bigEnd := false
  overlap := .tagged
  fzSign := .keep
  fzInput := { ExcSet.none with inputDenormal := true }
  fzInputToInt := { ExcSet.none with inputDenormal := true }
  fzResult := { ExcSet.none with underflow := true }
  tininess := .beforeRounding
  nanSelect := .recommended
  fstmxFormat := .standard
  subArch := []
  pairOrder := .source
  userMode := false
  memMap := [⟨0, 2 ^ 32, true, true⟩]

/-- The operations that select a NaN (R118). -/
inductive NanOp where
  | add
  | sub
  | mul
  | div
  | sqrt
deriving DecidableEq, Repr

/-- Free value: the bits a `NaNSelect` other than the recommended one answers, for an operation, the DN bit of the FPSCR
and the operands (R118). The machine uses it only after making it a quiet NaN. -/
opaque Config.freeNan : (f : Fmt) → NanOp → (dn : Bool) → Pat f → Pat f → Pat f

/-- Free value: `NaNConvert_SD` of a `NaNSelect` other than the recommended one (R171). -/
opaque Config.freeNanToDbl : (dn : Bool) → Word → DWord

/-- Free value: `NaNConvert_DS` of a `NaNSelect` other than the recommended one (R172). -/
opaque Config.freeNanToSgl : (dn : Bool) → DWord → Word

/-- Free value: what FSTMX does with the next word of its image under a format other than the recommended one: write the
given word, or leave the memory word as it is (R236). -/
opaque Config.freeFstmxWord : Nat → Option Word

/-- Free value: the read behaviour that `SubArchSysReg` gives the register of a selector, what FMRX reads of its content
(R293). -/
opaque Config.subArchRead : (selector : BitVec 5) → (content : Word) → Word

/-- Free value: the write behaviour that `SubArchSysReg` gives the register of a selector, its content after FMXR has written
a word over a content (R293). -/
opaque Config.subArchWrite : (selector : BitVec 5) → (written content : Word) → Word

end Sys2Proof
end

