-- ==== Sys2Proof/Machine/State.lean ====
section
/-! DEFINITION. The machine's state, all of it plain data, its value after reset, and the reasons a step stops. -/

namespace Sys2Proof.Machine

/-- Content tag of a register word (10_state.md R23): what the word was last written as. -/
inductive Tag where
  | none
  | sgl
  | dbl
  | any
deriving DecidableEq, Repr

/-- Pairing state of a double-precision register between FMDLR and FMDHR (R41, 70_reset_and_hazards.md R325). -/
inductive Pairing where
  | whole
  | lowOnly
  | highOnly
deriving DecidableEq, Repr

/-- The four condition flags N, Z, C, V, of the CPSR (R26) and of the FPSCR (R30). -/
structure Nzcv where
  n : Bool
  z : Bool
  c : Bool
  v : Bool
deriving DecidableEq, Repr

/-- The rounding modes (R33). -/
inductive RMode where
  | rn
  | rp
  | rm
  | rz
deriving DecidableEq, Repr

/-- The FPSCR (R30). The places of its fields in the 32-bit word are the layout of R31, in Machine/Flags.lean; its reserved
bits are no state, since they read as 0 and are never written (R31, R259, R261). -/
structure Fpscr where
  flags : Nzcv
  dn : Bool
  fz : Bool
  rmode : RMode
  stride : BitVec 2
  len : BitVec 3
  /-- The trap enables IOE, DZE, OFE, UFE, IXE, IDE. -/
  enables : ExcSet
  /-- The cumulative flags IOC, DZC, OFC, UFC, IXC, IDC. -/
  cumulative : ExcSet
deriving DecidableEq, Repr

/-- What the machine keeps of an FSTMX, or in the recommended format of an FSTMD, whose image in memory is untouched since
(45_load_store.md R236): the start address, the first register, the `2k` register words it saved and the `k` pairing states it
recorded. -/
structure FstmxImage where
  start : Word
  first : DReg
  words : List Word
  pairs : List Pairing
deriving DecidableEq, Repr

/-- Memory: the bytes that differ from what an unlisted address reads as, addresses strictly rising. -/
abbrev Memory := List Host.Cell

/-- What a byte of memory that nothing has written reads as: DESIGN CHOICE, notes/assumptions/5.md. -/
def unlistedByte : Byte := 0

/-- The canonical form of memory. -/
abbrev Memory.wf (m : Memory) : Prop :=
  m.Pairwise (fun a b => a.1 < b.1) ∧ ∀ c ∈ m, c.1 < 2 ^ 32 ∧ c.2 ≠ unlistedByte

/-- Everything the spec gives the machine. -/
structure State where
  /-- The register file: 32 words `V[0..31]`; `S[i]` is `V[i]`, `D[i]` is `V[2i+1]:V[2i]` (R20, R21, R22). -/
  vreg : Vector Word 32
  /-- The content tags `K[0..31]` (R23). -/
  tag : Vector Tag 32
  /-- The pairing states `P[0..15]` (R41). -/
  pair : Vector Pairing 16
  /-- The ARM registers `R0` to `R14` (R24); `R15` is the program counter (R25). -/
  arm : Vector Word 15
  /-- The program counter (R27). -/
  pc : Word
  /-- The ARM condition code flags (R26). -/
  cpsr : Nzcv
  /-- The Floating-point Status and Control Register (R30). -/
  fpscr : Fpscr
  /-- The constant `FPSID_VALUE` (R29). -/
  fpsid : Word
  /-- The Floating-point Exception Register (R37). -/
  fpexc : Word
  /-- The contents of the sub-architecture defined system registers, that with `Fn:N = 1:low` at place `low`; place 0 is the
  selector of FPEXC and no such register (R38, 60_exceptions.md R293; DESIGN CHOICE, notes/assumptions/12.md). -/
  subArch : Vector Word 16
  /-- Memory (20_memory.md R50). -/
  mem : Memory
  /-- The untouched images that FLDMX may restore (R236). -/
  images : List FstmxImage
  /-- Where the program text begins (70_reset_and_hazards.md R322). -/
  textBase : Word
  /-- The program text, fixed at launch (R64, R322). -/
  text : List Word
  /-- The implementation parameters (00_scope.md R5), which no step changes. -/
  cfg : Config
  /-- The model's own field: how many free values the machine has taken (notes/assumptions/4.md). -/
  freeNext : Nat
deriving DecidableEq, Repr

/-- Why an instruction or an operand value is UNPREDICTABLE (30_encoding.md R93, R94). -/
inductive UnpredictableReason where
  /-- R93 item 1. -/
  | registerListPastEnd
  /-- R93 item 2. -/
  | fromArmR15
  /-- R93 item 3. -/
  | toArmR15
  /-- R93 item 4. -/
  | twoRegR15
  /-- R94: a non-zero SBZ bit. -/
  | sbz
deriving DecidableEq, Repr

/-- Which of the five cases of 30_encoding.md R95. -/
inductive UnallocatedReason where
  /-- Item 1: a `PUW = 000` word that is not the two-register pattern. -/
  | twoRegPattern
  /-- Item 2: a multiple that transfers no register. -/
  | noRegister
  /-- Item 3: `Rn = R15` as a load/store base. -/
  | baseR15
  /-- Item 4: FMSRR or FMRRS with `m = 31`. -/
  | pairPastEnd
  /-- Item 4: FMRRS or FMRRD with `Rn = Rd`. -/
  | sameArmRegister
  /-- Item 5: FCMPZ or FCMPEZ with a non-zero `Fm` or `M`. -/
  | compareZeroOperand
deriving DecidableEq, Repr

/-- The faults of 60_exceptions.md R295: the hardware traps, and the spec gives no entry (R290, R303), or the model has no
value to give. Each is terminal and safe: no claim about a later state follows from it. -/
inductive Fault where
  /-- An UNDEFINED instruction whose condition passes, with its address and its word (R290). Safe. -/
  | undefinedInstruction (pc w : Word)
  /-- A word access that `MemMap` does not admit, with the byte address of the first such word (R294). Safe. -/
  | dataAbort (address : Word)
  /-- A read of the register word `V[j]` while its tag is `None` (R23, R325). Safe. -/
  | unwrittenRegister (j : SReg)
  /-- A floating-point exception whose trap enable is set (R296); unreachable while the enables are clear. Safe. -/
  | fpTrap (e : FpExc)
deriving DecidableEq, Repr

/-- The refusals of 60_exceptions.md R295: the spec gives the instruction no meaning. All are safe. -/
inductive Refusal where
  /-- An instruction that has no meaning yet, raised by `exec` alone. Safe. -/
  | notModelled (mnemonic : String)
  /-- R291. Safe. -/
  | unpredictable (reason : UnpredictableReason)
  /-- FMXR or FMRX of a sub-architecture defined register that is not supplied (R293). Safe. -/
  | subArchDefined
  /-- R95. Safe. -/
  | unallocatedEncoding (reason : UnallocatedReason)
  /-- R72, R91. Safe. -/
  | notVfp
  /-- R23. Safe. -/
  | crossPrecisionRead
  /-- R325. Safe. -/
  | halfWrittenDouble
  /-- R55. Safe. -/
  | misalignedAccess
  /-- R64. Safe. -/
  | storeToProgramText
  /-- R113. Safe. -/
  | shortVectorNotModelled
  /-- R236 item 3. Safe. -/
  | unmatchedFldmx
  /-- R261. Safe. -/
  | writeToFpsid
  /-- R261. Safe. -/
  | badFpscrWrite
  /-- R261. Safe. -/
  | badFpexcWrite
  /-- The program counter is just past the program text: the state is final and has no step (R322). Safe. -/
  | finalState
  /-- The program counter is elsewhere outside the program text: the state is stuck (R322). Safe. -/
  | outsideText
deriving DecidableEq, Repr

/-- All four flags 0. -/
def Nzcv.clear : Nzcv := ⟨false, false, false, false⟩

/-- The FPSCR at 0: rounding to nearest, Flush-to-zero off, `LEN` scalar, no trap enabled, every flag clear. -/
def Fpscr.reset : Fpscr where
  flags := .clear
  dn := false
  fz := false
  rmode := .rn
  stride := 0
  len := 0
  enables := .none
  cumulative := .none

/-- The value of FPEXC that R37 and R259 give: `EN = 1`, `EX = 0`, every other bit 0. -/
def fpexcLaunch : Word := 0x40000000

/-- The machine right after reset. The spec says that every value is unspecified after reset (R42, R320); where R42 has a
launch premise it is taken, every other value is the one notes/assumptions/3.md names: the program counter is where the
programs of 95_test_vectors.md are launched. No program is loaded. -/
def State.reset : State where
  vreg := Vector.replicate 32 0
  tag := Vector.replicate 32 .any
  pair := Vector.replicate 16 .whole
  arm := Vector.replicate 15 0
  pc := 0x8000
  cpsr := .clear
  fpscr := .reset
  fpsid := 0
  fpexc := fpexcLaunch
  subArch := Vector.replicate 16 0
  mem := []
  images := []
  textBase := 0x8000
  text := []
  cfg := .default
  freeNext := 0

end Sys2Proof.Machine
end

