-- ==== Sys2Proof/Machine/Flags.lean ====
section
/-! DEFINITION. Sets of exceptions, the ARM condition test, the comparison flags and the layout of the FPSCR. -/

namespace Sys2Proof

/-- The exceptions of either set: an instruction of two operations signals the union (R115, R140). -/
def ExcSet.union (a b : ExcSet) : ExcSet where
  invalidOp := a.invalidOp || b.invalidOp
  divByZero := a.divByZero || b.divByZero
  overflow := a.overflow || b.overflow
  underflow := a.underflow || b.underflow
  inexact := a.inexact || b.inexact
  inputDenormal := a.inputDenormal || b.inputDenormal

/-- Invalid Operation alone. -/
def ExcSet.invalid : ExcSet := { ExcSet.none with invalidOp := true }

/-- Division by Zero alone. -/
def ExcSet.zeroDivide : ExcSet := { ExcSet.none with divByZero := true }

/-- `s` if the condition holds, else no exception. -/
def ExcSet.when (b : Bool) (s : ExcSet) : ExcSet := if b then s else .none

/-- The exception is in the set. -/
def ExcSet.has (s : ExcSet) : FpExc → Bool
  | .invalidOp => s.invalidOp
  | .divByZero => s.divByZero
  | .overflow => s.overflow
  | .underflow => s.underflow
  | .inexact => s.inexact
  | .inputDenormal => s.inputDenormal

namespace Machine

/-- A signalled exception whose trap enable is set (60_exceptions.md R297): the first in the order of R297's table, where
there are several. R297 calls that order unobservable, and R300 item 7 gives none (DESIGN CHOICE, notes/assumptions/27.md). -/
def trapped (enables signalled : ExcSet) : Option FpExc :=
  [FpExc.invalidOp, .divByZero, .overflow, .underflow, .inexact, .inputDenormal].find?
    (fun e => enables.has e && signalled.has e)

/-- `ConditionPassed(cond)` on the ARM condition code flags (30_encoding.md R72). -/
def conditionPassed (c : Cond) (f : Nzcv) : Bool :=
  match c with
  | .eq => f.z
  | .ne => !f.z
  | .cs => f.c
  | .cc => !f.c
  | .mi => f.n
  | .pl => !f.n
  | .vs => f.v
  | .vc => !f.v
  | .hi => f.c && !f.z
  | .ls => !f.c || f.z
  | .ge => f.n == f.v
  | .lt => f.n != f.v
  | .gt => !f.z && f.n == f.v
  | .le => f.z || f.n != f.v
  | .al => true

/-- The four relations of 42_compare.md R150. -/
inductive Relation where
  | equal
  | less
  | greater
  | unordered
deriving DecidableEq, Repr

/-- The flags a comparison writes (R151). -/
def relationFlags : Relation → Nzcv
  | .equal => ⟨false, true, true, false⟩
  | .less => ⟨true, false, false, false⟩
  | .greater => ⟨false, false, true, false⟩
  | .unordered => ⟨false, false, true, true⟩

/-! ### The layout of the FPSCR (10_state.md R31) -/

/-- The code of a rounding mode in bits 23:22. -/
def RMode.bits : RMode → BitVec 2
  | .rn => 0
  | .rp => 1
  | .rm => 2
  | .rz => 3

/-- The rounding mode of a code. -/
def rmodeOf (b : BitVec 2) : RMode :=
  match b.toNat with
  | 0 => .rn
  | 1 => .rp
  | 2 => .rm
  | _ => .rz

/-- The flags as bits 31:28, or as the top four bits of the CPSR (R31, G6). -/
def Nzcv.bits (f : Nzcv) : BitVec 4 :=
  BitVec.ofBool f.n ++ BitVec.ofBool f.z ++ BitVec.ofBool f.c ++ BitVec.ofBool f.v

/-- The flags of four bits. -/
def nzcvOf (b : BitVec 4) : Nzcv := ⟨b.getLsbD 3, b.getLsbD 2, b.getLsbD 1, b.getLsbD 0⟩

/-- The FPSCR as FMRX reads it; reserved bits are 0 (R31, R259). -/
def Fpscr.word (f : Fpscr) : Word :=
  (f.flags.bits ++ 0#2 ++ BitVec.ofBool f.dn ++ BitVec.ofBool f.fz ++ f.rmode.bits ++ f.stride ++ 0#1 ++ f.len
    ++ BitVec.ofBool f.enables.inputDenormal ++ 0#2 ++ BitVec.ofBool f.enables.inexact
    ++ BitVec.ofBool f.enables.underflow ++ BitVec.ofBool f.enables.overflow ++ BitVec.ofBool f.enables.divByZero
    ++ BitVec.ofBool f.enables.invalidOp ++ BitVec.ofBool f.cumulative.inputDenormal ++ 0#2
    ++ BitVec.ofBool f.cumulative.inexact ++ BitVec.ofBool f.cumulative.underflow
    ++ BitVec.ofBool f.cumulative.overflow ++ BitVec.ofBool f.cumulative.divByZero
    ++ BitVec.ofBool f.cumulative.invalidOp).cast (by decide)

/-- The trap enables of a word: IDE 15, IXE 12, UFE 11, OFE 10, DZE 9, IOE 8. -/
def enablesOf (w : Word) : ExcSet where
  invalidOp := w.getLsbD 8
  divByZero := w.getLsbD 9
  overflow := w.getLsbD 10
  underflow := w.getLsbD 11
  inexact := w.getLsbD 12
  inputDenormal := w.getLsbD 15

/-- The cumulative flags of a word: IDC 7, IXC 4, UFC 3, OFC 2, DZC 1, IOC 0. -/
def cumulativeOf (w : Word) : ExcSet where
  invalidOp := w.getLsbD 0
  divByZero := w.getLsbD 1
  overflow := w.getLsbD 2
  underflow := w.getLsbD 3
  inexact := w.getLsbD 4
  inputDenormal := w.getLsbD 7

/-- The FPSCR whose fields are those of a word. -/
def fpscrOf (w : Word) : Fpscr where
  flags := nzcvOf (w.extractLsb' 28 4)
  dn := w.getLsbD 25
  fz := w.getLsbD 24
  rmode := rmodeOf (w.extractLsb' 22 2)
  stride := w.extractLsb' 20 2
  len := w.extractLsb' 16 3
  enables := enablesOf w
  cumulative := cumulativeOf w

/-- FMXR may write the word to the FPSCR: reserved bits 27:26, 19, 14:13 and 6:5 clear, every trap enable clear, `STRIDE`
not `01` or `10` (46_single_transfer.md R261). -/
def fpscrWriteOk (w : Word) : Bool :=
  w.extractLsb' 26 2 == 0 && w.extractLsb' 19 1 == 0 && w.extractLsb' 13 2 == 0 && w.extractLsb' 5 2 == 0
    && enablesOf w == .none && (w.extractLsb' 20 2 == 0 || w.extractLsb' 20 2 == 3)

end Machine

end Sys2Proof
end

