-- ==== Sys2Proof/Machine/Fp.lean ====
section
/-! DEFINITION. Floating-point formats, rounding, NaN handling and Flush-to-zero mode (40_basic_arith.md R110 to R120). All
arithmetic is exact on integers and is rounded once, in `round`. -/

namespace Sys2Proof

/-! ### Formats (R110) -/

/-- `T`, the width of the fraction field. -/
def Fmt.fracBits : Fmt → Nat
  | .sgl => 23
  | .dbl => 52

/-- The width of the exponent field. -/
def Fmt.expBits : Fmt → Nat
  | .sgl => 8
  | .dbl => 11

/-- `emin`. -/
def Fmt.emin : Fmt → Int
  | .sgl => -126
  | .dbl => -1022

/-- `emax`, which is also the bias. -/
def Fmt.emax : Fmt → Int
  | .sgl => 127
  | .dbl => 1023

/-- The exponent field of all ones. -/
def Fmt.expOnes (f : Fmt) : Nat := 2 ^ f.expBits - 1

namespace Machine

/-- The sign bit: bit 31 or bit 63. -/
def signOf (f : Fmt) (a : Pat f) : Bool := a.msb

/-- The exponent field. -/
def expOf (f : Fmt) (a : Pat f) : Nat := a.toNat / 2 ^ f.fracBits % 2 ^ f.expBits

/-- The fraction field. -/
def fracOf (f : Fmt) (a : Pat f) : Nat := a.toNat % 2 ^ f.fracBits

/-- The pattern with the given sign and the given other bits. -/
def patOf (f : Fmt) (sign : Bool) (magnitude : Nat) : Pat f :=
  BitVec.ofNat f.width ((if sign then 2 ^ (f.width - 1) else 0) + magnitude)

/-- A zero of the given sign. -/
def zeroPat (f : Fmt) (sign : Bool) : Pat f := patOf f sign 0

/-- An infinity of the given sign. -/
def infPat (f : Fmt) (sign : Bool) : Pat f := patOf f sign (f.expOnes * 2 ^ f.fracBits)

/-- `MaxNorm_F` with the given sign. -/
def maxNormPat (f : Fmt) (sign : Bool) : Pat f := patOf f sign (f.expOnes * 2 ^ f.fracBits - 1)

/-- `DefaultNaN_F` (R119). -/
def defaultNan (f : Fmt) : Pat f := patOf f false (f.expOnes * 2 ^ f.fracBits + 2 ^ (f.fracBits - 1))

def isZero (f : Fmt) (a : Pat f) : Bool := expOf f a == 0 && fracOf f a == 0
def isDenorm (f : Fmt) (a : Pat f) : Bool := expOf f a == 0 && fracOf f a != 0
def isInf (f : Fmt) (a : Pat f) : Bool := expOf f a == f.expOnes && fracOf f a == 0
def isNan (f : Fmt) (a : Pat f) : Bool := expOf f a == f.expOnes && fracOf f a != 0

/-- A NaN whose top fraction bit is 0. -/
def isSnan (f : Fmt) (a : Pat f) : Bool := isNan f a && decide (fracOf f a < 2 ^ (f.fracBits - 1))

/-- A NaN whose top fraction bit is 1. -/
def isQnan (f : Fmt) (a : Pat f) : Bool := isNan f a && !isSnan f a

/-- The significand of a numeric pattern as an integer: `t`, or `2^T + t` when normalized. -/
def mantOf (f : Fmt) (a : Pat f) : Nat :=
  if expOf f a == 0 then fracOf f a else 2 ^ f.fracBits + fracOf f a

/-- The exponent of the significand: the magnitude of a numeric pattern is `mantOf * 2^scaleOf` (R110). -/
def scaleOf (f : Fmt) (a : Pat f) : Int :=
  if expOf f a == 0 then f.emin - f.fracBits else (expOf f a : Int) - f.emax - f.fracBits

/-- The value of a numeric pattern in units of `2^(emin - T)`, the smallest denormalized magnitude: an integer. -/
def unitsOf (f : Fmt) (a : Pat f) : Int :=
  let u : Nat := mantOf f a * 2 ^ (expOf f a - 1)
  if signOf f a then -(u : Int) else u

/-! ### Sign-bit operations (R120) -/

/-- `FPNeg_F`: the sign bit inverted. -/
def fpNeg (f : Fmt) (a : Pat f) : Pat f := a ^^^ BitVec.ofNat f.width (2 ^ (f.width - 1))

/-- `FPAbs_F`: the sign bit 0. -/
def fpAbs (f : Fmt) (a : Pat f) : Pat f := a &&& BitVec.ofNat f.width (2 ^ (f.width - 1) - 1)

/-! ### Rounding (R112) -/

/-- A positive magnitude: `m * 2^e` if `sticky` is false, else strictly between that and `(m + 1) * 2^e`. -/
structure Magnitude where
  m : Nat
  e : Int
  sticky : Bool
deriving DecidableEq, Repr

/-- What a floating-point operation reads beside its operands: the parameters, the rounding mode and the FZ and DN bits. -/
structure FpEnv where
  cfg : Config
  mode : RMode
  fz : Bool
  dn : Bool
deriving DecidableEq, Repr

/-- A result of an operation and the exceptions it signals. -/
structure FpResult (f : Fmt) where
  val : Pat f
  exc : ExcSet
deriving DecidableEq, Repr

/-- The rounding mode takes the upper of the two neighbours in magnitude; `odd` is the parity of the lower neighbour and
`half` says how the part cut off compares with half a unit. -/
def roundsUp (mode : RMode) (sign odd inexact : Bool) (half : Ordering) : Bool :=
  match mode with
  | .rn => half == .gt || (half == .eq && odd)
  | .rp => inexact && !sign
  | .rm => inexact && sign
  | .rz => false

/-- The multiple of `2^q` that the mode chooses for a value of the given sign and magnitude, and whether it differs from the
value. A magnitude with `sticky` set needs `x.e < q`. -/
def roundAt (mode : RMode) (sign : Bool) (x : Magnitude) (q : Int) : Nat × Bool :=
  if q ≤ x.e then (x.m * 2 ^ (x.e - q).toNat, x.sticky)
  else
    let unit := 2 ^ (q - x.e).toNat
    let cut := x.m % unit
    let inexact := cut != 0 || x.sticky
    let half := if 2 * cut == unit && x.sticky then .gt else compare (2 * cut) unit
    (x.m / unit + (roundsUp mode sign (x.m / unit % 2 == 1) inexact half).toNat, inexact)

/-- `floor(log2 x)` of a magnitude that is not 0. -/
def log2Of (x : Magnitude) : Int := (Nat.log2 x.m : Int) + x.e

/-- The magnitude is smaller than `MinNorm_F`. -/
def belowNormal (f : Fmt) (x : Magnitude) : Bool := decide (log2Of x < f.emin)

/-- `tiny`, for the Underflow exception, before or after rounding as `TININESS` says (R112, D31). The spec does not define
tininess after rounding: PRESUMED (notes/assumptions/9.md), IEEE 754's, the value rounded to `T + 1` significant bits with an
exponent that has no bound. -/
def isTiny (f : Fmt) (env : FpEnv) (sign : Bool) (x : Magnitude) : Bool :=
  match env.cfg.tininess with
  | .beforeRounding => belowNormal f x
  | .afterRounding =>
    let q := log2Of x - f.fracBits
    belowNormal f ⟨(roundAt env.mode sign x q).1, q, false⟩

/-- The pattern of the numeric value with magnitude `n * 2^q`, where `n ≤ 2^(T+1)`, `q ≥ emin - T`, and `q = emin - T` if
`n < 2^T`: the exponent field counts the units `q` is above `emin - T`, and a carry out of `n` runs into it. -/
def encodePat (f : Fmt) (sign : Bool) (n : Nat) (q : Int) : Pat f :=
  patOf f sign ((q - (f.emin - f.fracBits)).toNat * 2 ^ f.fracBits + n)

/-- The exponent of the unit in the last place. -/
def ulpExp (f : Fmt) (x : Magnitude) : Int := max (log2Of x) f.emin - f.fracBits

/-- The result of an overflow (R112). -/
def overflowPat (f : Fmt) (mode : RMode) (sign : Bool) : Pat f :=
  match mode with
  | .rn => infPat f sign
  | .rz => maxNormPat f sign
  | .rp => if sign then maxNormPat f sign else infPat f sign
  | .rm => if sign then infPat f sign else maxNormPat f sign

/-- A flushed zero (`FZ_SIGN`, R114). -/
def flushedZero (f : Fmt) (cfg : Config) (sign : Bool) : Pat f :=
  match cfg.fzSign with
  | .keep => zeroPat f sign
  | .positive => zeroPat f false

/-- `Round_F` of a value that is not 0 (R112), with the flush of R114. -/
def round (f : Fmt) (env : FpEnv) (sign : Bool) (x : Magnitude) : FpResult f :=
  if env.fz && belowNormal f x then ⟨flushedZero f env.cfg sign, env.cfg.fzResult⟩
  else
    let q := ulpExp f x
    let (n, inexact) := roundAt env.mode sign x q
    if f.emax < (Nat.log2 n : Int) + q then
      ⟨overflowPat f env.mode sign, { ExcSet.none with overflow := true, inexact := true }⟩
    else
      ⟨encodePat f sign n q, { ExcSet.none with underflow := isTiny f env sign x && inexact, inexact := inexact }⟩

/-! ### Flush-to-zero mode on operands (R114) -/

/-- The operand is one that Flush-to-zero mode treats as zero. -/
def flushes (f : Fmt) (env : FpEnv) (a : Pat f) : Bool := env.fz && isDenorm f a

/-- `FZin_F`. -/
def fzIn (f : Fmt) (env : FpEnv) (a : Pat f) : Pat f :=
  if flushes f env a then flushedZero f env.cfg (signOf f a) else a

/-- The result with what a flushed operand signals; Invalid Operation and Division by Zero come alone (R115, R300). -/
def noteFlush {f : Fmt} (flushed : Bool) (signals : ExcSet) (r : FpResult f) : FpResult f :=
  { r with exc := r.exc.union (.when (flushed && !(r.exc.invalidOp || r.exc.divByZero)) signals) }

/-! ### NaNs (R118, R119) -/

/-- The untrapped result of an Invalid Operation: the default NaN. -/
def invalidResult (f : Fmt) : FpResult f := ⟨defaultNan f, .invalid⟩

/-- A result that signals nothing. -/
def quiet {f : Fmt} (a : Pat f) : FpResult f := ⟨a, .none⟩

/-- The top fraction bit set: a signaling NaN made quiet. -/
def quieten (f : Fmt) (a : Pat f) : Pat f := a ||| BitVec.ofNat f.width (2 ^ (f.fracBits - 1))

/-- Any bits made a quiet NaN. -/
def asQuietNan (f : Fmt) (a : Pat f) : Pat f :=
  a ||| BitVec.ofNat f.width (f.expOnes * 2 ^ f.fracBits + 2 ^ (f.fracBits - 1))

/-- The recommended `NaNSelect` (R118). -/
def recommendedNan (f : Fmt) (dn : Bool) (a b : Pat f) : Pat f :=
  if dn then defaultNan f
  else if isSnan f a then quieten f a
  else if isSnan f b then quieten f b
  else if isNan f a then a
  else b

/-- Any `NaNSelect` that R118 allows: a free quiet NaN, but the second operand of a subtraction exactly where it is a quiet
NaN and the first is no NaN (R118 item 4). -/
def freeNanResult (f : Fmt) (op : NanOp) (dn : Bool) (a b : Pat f) : Pat f :=
  if op = .sub && !isNan f a && isQnan f b then b else asQuietNan f (Config.freeNan f op dn a b)

/-- `FPProcessNaNs_F`: a signaling NaN operand signals Invalid Operation, and `NaNSelect` gives the result. -/
def processNans (f : Fmt) (env : FpEnv) (op : NanOp) (a b : Pat f) : FpResult f where
  val :=
    match env.cfg.nanSelect with
    | .recommended => recommendedNan f env.dn a b
    | .free => freeNanResult f op env.dn a b
  exc := .when (isSnan f a || isSnan f b) .invalid

/-! ### Addition and subtraction (R116) -/

/-- The sum of two operands that are no NaNs. -/
def addValues (f : Fmt) (env : FpEnv) (a b : Pat f) : FpResult f :=
  if isInf f a && isInf f b && signOf f a != signOf f b then invalidResult f
  else if isInf f a then quiet a
  else if isInf f b then quiet b
  else
    let x := unitsOf f a + unitsOf f b
    if x ≠ 0 then round f env (decide (x < 0)) ⟨x.natAbs, f.emin - f.fracBits, false⟩
    else if isZero f a && isZero f b && signOf f a == signOf f b then quiet a
    else quiet (zeroPat f (env.mode == .rm))

/-- `FPAdd_F`. -/
def fpAdd (f : Fmt) (env : FpEnv) (a b : Pat f) : FpResult f :=
  let a' := fzIn f env a
  let b' := fzIn f env b
  noteFlush (flushes f env a || flushes f env b) env.cfg.fzInput
    (if isNan f a' || isNan f b' then processNans f env .add a' b' else addValues f env a' b')

/-- `FPSub_F`: the sum of `a` and `b` with its sign inverted, but the NaN rule is applied to the operand that is not
negated, which is flushed like every operand (R114, R116). -/
def fpSub (f : Fmt) (env : FpEnv) (a b : Pat f) : FpResult f :=
  let a' := fzIn f env a
  let b' := fzIn f env (fpNeg f b)
  noteFlush (flushes f env a || flushes f env b) env.cfg.fzInput
    (if isNan f a' || isNan f b then processNans f env .sub a' (fzIn f env b) else addValues f env a' b')

/-! ### Multiplication, division and square root (R117) -/

/-- The product of two operands that are no NaNs. -/
def mulValues (f : Fmt) (env : FpEnv) (a b : Pat f) : FpResult f :=
  let s := signOf f a != signOf f b
  if (isZero f a && isInf f b) || (isInf f a && isZero f b) then invalidResult f
  else if isInf f a || isInf f b then quiet (infPat f s)
  else if isZero f a || isZero f b then quiet (zeroPat f s)
  else round f env s ⟨mantOf f a * mantOf f b, scaleOf f a + scaleOf f b, false⟩

/-- `FPMul_F`. -/
def fpMul (f : Fmt) (env : FpEnv) (a b : Pat f) : FpResult f :=
  let a' := fzIn f env a
  let b' := fzIn f env b
  noteFlush (flushes f env a || flushes f env b) env.cfg.fzInput
    (if isNan f a' || isNan f b' then processNans f env .mul a' b' else mulValues f env a' b')

/-- A quotient of magnitudes `ma * 2^ea / (mb * 2^eb)`, to more than `T + 2` bits and a sticky bit for the rest. -/
def quotient (f : Fmt) (ma : Nat) (ea : Int) (mb : Nat) (eb : Int) : Magnitude :=
  let k := f.fracBits + 4 + Nat.log2 mb
  ⟨ma * 2 ^ k / mb, ea - eb - k, ma * 2 ^ k % mb != 0⟩

/-- The quotient of two operands that are no NaNs. -/
def divValues (f : Fmt) (env : FpEnv) (a b : Pat f) : FpResult f :=
  let s := signOf f a != signOf f b
  if (isZero f a && isZero f b) || (isInf f a && isInf f b) then invalidResult f
  else if isInf f a then quiet (infPat f s)
  else if isInf f b then quiet (zeroPat f s)
  else if isZero f b then ⟨infPat f s, .zeroDivide⟩
  else if isZero f a then quiet (zeroPat f s)
  else round f env s (quotient f (mantOf f a) (scaleOf f a) (mantOf f b) (scaleOf f b))

/-- `FPDiv_F`. -/
def fpDiv (f : Fmt) (env : FpEnv) (a b : Pat f) : FpResult f :=
  let a' := fzIn f env a
  let b' := fzIn f env b
  noteFlush (flushes f env a || flushes f env b) env.cfg.fzInput
    (if isNan f a' || isNan f b' then processNans f env .div a' b' else divValues f env a' b')

/-- The integer square root by its bits from bit `k - 1` down, added to the bits `r` already found. -/
def isqrtFrom (n : Nat) : Nat → Nat → Nat
  | 0, r => r
  | k + 1, r => isqrtFrom n k (if (r + 2 ^ k) * (r + 2 ^ k) ≤ n then r + 2 ^ k else r)

/-- The largest integer whose square is at most `n`. -/
def isqrt (n : Nat) : Nat := isqrtFrom n (Nat.log2 n / 2 + 1) 0

/-- The square root of `m * 2^e`, to more than `T + 2` bits and a sticky bit for the rest. -/
def rootOf (f : Fmt) (m : Nat) (e : Int) : Magnitude :=
  let k := f.fracBits + 3
  let radicand := m * 2 ^ (e % 2).toNat * 2 ^ (2 * k)
  ⟨isqrt radicand, e / 2 - k, isqrt radicand * isqrt radicand != radicand⟩

/-- The square root of an operand that is no NaN. -/
def sqrtValue (f : Fmt) (env : FpEnv) (a : Pat f) : FpResult f :=
  if isZero f a then quiet a
  else if signOf f a then invalidResult f
  else if isInf f a then quiet a
  else round f env false (rootOf f (mantOf f a) (scaleOf f a))

/-- `FPSqrt_F`. -/
def fpSqrt (f : Fmt) (env : FpEnv) (a : Pat f) : FpResult f :=
  let a' := fzIn f env a
  noteFlush (flushes f env a) env.cfg.fzInput
    (if isNan f a' then processNans f env .sqrt a' a' else sqrtValue f env a')

/-! ### Operations of two parts -/

/-- A result with its sign bit inverted, after rounding and NaN handling (R128). -/
def FpResult.neg {f : Fmt} (r : FpResult f) : FpResult f := { r with val := fpNeg f r.val }

/-- `MAC_F`: two roundings, the accumulator the first operand of the addition (41_mac.md R140). -/
def fpMac (f : Fmt) (env : FpEnv) (negProduct negAcc : Bool) (acc a b : Pat f) : FpResult f :=
  let p := fpMul f env a b
  let t := if negProduct then fpNeg f p.val else p.val
  let acc' := if negAcc then fpNeg f acc else acc
  let r := fpAdd f env acc' t
  { r with exc := p.exc.union r.exc }

/-! ### Comparison (42_compare.md R150, R152) -/

/-- `FPCompare_F` on operands already flushed. -/
def fpCompare (f : Fmt) (a b : Pat f) : Relation :=
  if isNan f a || isNan f b then .unordered
  else if isInf f a then
    if isInf f b && signOf f a == signOf f b then .equal else if signOf f a then .less else .greater
  else if isInf f b then
    if signOf f b then .greater else .less
  else if unitsOf f a = unitsOf f b then .equal
  else if unitsOf f a < unitsOf f b then .less
  else .greater

/-- The relation a comparison finds and what it signals; `e` is true for the FCMPE type. -/
structure CompareResult where
  relation : Relation
  exc : ExcSet
deriving DecidableEq, Repr

/-- `Compare_F`. -/
def compareValues (f : Fmt) (env : FpEnv) (e : Bool) (a b : Pat f) : CompareResult :=
  let a' := fzIn f env a
  let b' := fzIn f env b
  let invalid := isSnan f a' || isSnan f b' || (e && (isNan f a' || isNan f b'))
  let flushed := flushes f env a || flushes f env b
  { relation := fpCompare f a' b'
    exc := (ExcSet.when invalid .invalid).union
      (.when (flushed && !invalid) env.cfg.fzInput) }

/-! ### Conversions (43_convert.md) -/

/-- The fraction `t` of a single-precision NaN moved to a double-precision quiet NaN, the sign kept (R171). -/
def widenNan (a : Word) : DWord :=
  quieten .dbl (patOf .dbl (signOf .sgl a) (Fmt.dbl.expOnes * 2 ^ 52 + fracOf .sgl a * 2 ^ 29))

/-- The fraction bits 51:29 of a double-precision NaN moved to a single-precision quiet NaN, the sign kept (R172). -/
def narrowNan (a : DWord) : Word :=
  quieten .sgl (patOf .sgl (signOf .dbl a) (Fmt.sgl.expOnes * 2 ^ 23 + fracOf .dbl a / 2 ^ 29))

/-- `NaNConvert_SD` (R171). -/
def nanToDbl (env : FpEnv) (a : Word) : DWord :=
  match env.cfg.nanSelect with
  | .recommended => if env.dn then defaultNan .dbl else widenNan a
  | .free => asQuietNan .dbl (Config.freeNanToDbl env.dn a)

/-- `NaNConvert_DS` (R172). -/
def nanToSgl (env : FpEnv) (a : DWord) : Word :=
  match env.cfg.nanSelect with
  | .recommended => if env.dn then defaultNan .sgl else narrowNan a
  | .free => asQuietNan .sgl (Config.freeNanToSgl env.dn a)

/-- A value that the format represents exactly, encoded. -/
def encodeExact (f : Fmt) (sign : Bool) (x : Magnitude) : Pat f :=
  encodePat f sign (roundAt .rz sign x (ulpExp f x)).1 (ulpExp f x)

/-- `FPSingleToDouble` (R171). -/
def singleToDouble (env : FpEnv) (a : Word) : FpResult .dbl :=
  let a' := fzIn .sgl env a
  noteFlush (flushes .sgl env a) env.cfg.fzInput
    (if isNan .sgl a' then ⟨nanToDbl env a', .when (isSnan .sgl a') .invalid⟩
    else if isInf .sgl a' then quiet (infPat .dbl (signOf .sgl a'))
    else if isZero .sgl a' then quiet (zeroPat .dbl (signOf .sgl a'))
    else quiet (encodeExact .dbl (signOf .sgl a') ⟨mantOf .sgl a', scaleOf .sgl a', false⟩))

/-- `FPDoubleToSingle` (R172). -/
def doubleToSingle (env : FpEnv) (a : DWord) : FpResult .sgl :=
  let a' := fzIn .dbl env a
  noteFlush (flushes .dbl env a) env.cfg.fzInput
    (if isNan .dbl a' then ⟨nanToSgl env a', .when (isSnan .dbl a') .invalid⟩
    else if isInf .dbl a' then quiet (infPat .sgl (signOf .dbl a'))
    else if isZero .dbl a' then quiet (zeroPat .sgl (signOf .dbl a'))
    else round .sgl env (signOf .dbl a') ⟨mantOf .dbl a', scaleOf .dbl a', false⟩)

/-- The largest destination integer. -/
def intMax (unsigned : Bool) : Int := if unsigned then 2 ^ 32 - 1 else 2 ^ 31 - 1

/-- The smallest destination integer. -/
def intMin (unsigned : Bool) : Int := if unsigned then 0 else -(2 ^ 31)

/-- An out-of-range conversion: Invalid Operation and the given default result (R175). -/
def invalidInt (i : Int) : FpResult .sgl := ⟨BitVec.ofInt 32 i, .invalid⟩

/-- The value of a numeric pattern rounded to an integer, and whether that differs from the value. -/
def roundToInt (f : Fmt) (mode : RMode) (a : Pat f) : Int × Bool :=
  let (n, inexact) := roundAt mode (signOf f a) ⟨mantOf f a, scaleOf f a, false⟩ 0
  (if signOf f a then -(n : Int) else n, inexact)

/-- The conversion of an operand already flushed. -/
def toIntValue (f : Fmt) (unsigned : Bool) (mode : RMode) (a : Pat f) : FpResult .sgl :=
  if isNan f a then invalidInt 0
  else if isInf f a then invalidInt (if signOf f a then intMin unsigned else intMax unsigned)
  else
    let (i, inexact) := roundToInt f mode a
    if intMax unsigned < i then invalidInt (intMax unsigned)
    else if i < intMin unsigned then invalidInt (intMin unsigned)
    else ⟨BitVec.ofInt 32 i, { ExcSet.none with inexact := inexact }⟩

/-- `FPToInt_F` (R175); the result is a 32-bit integer. -/
def fpToInt (f : Fmt) (env : FpEnv) (unsigned : Bool) (mode : RMode) (a : Pat f) : FpResult .sgl :=
  noteFlush (flushes f env a) env.cfg.fzInputToInt (toIntValue f unsigned mode (fzIn f env a))

/-- `IntToFP_F` (R184). -/
def intToFp (f : Fmt) (env : FpEnv) (unsigned : Bool) (i : Word) : FpResult f :=
  let x : Int := if unsigned then i.toNat else i.toInt
  if x = 0 then quiet (zeroPat f false)
  else round f env (decide (x < 0)) ⟨x.natAbs, 0, false⟩

end Machine

end Sys2Proof
end

