-- ==== Sys2Proof/Machine/Operands.lean ====
section
/-! DEFINITION. The operands: VFP registers with their content tags and pairing states (10_state.md R20 to R23, R41;
70_reset_and_hazards.md R325), ARM registers (R24), register lists and addressing modes (45_load_store.md R216, R217). -/

namespace Sys2Proof.Machine

/-- How an instruction ends without a next state (60_exceptions.md R295). -/
inductive Stop where
  | fault (f : Fault)
  | refused (r : Refusal)
deriving DecidableEq, Repr

/-! ### Words of the register file -/

/-- The word that holds `D[n][31:0]` (R22). -/
def loIndex (n : DReg) : SReg := ⟨2 * n.val, by omega⟩

/-- The word that holds `D[n][63:32]` (R22). -/
def hiIndex (n : DReg) : SReg := ⟨2 * n.val + 1, by omega⟩

/-- The double-precision register of which `S[j]` is one half (R22). -/
def doubleOf (j : SReg) : DReg := ⟨j.val / 2, by omega⟩

/-- Word `V[j]` of the register file (R22). -/
def State.word (s : State) (j : SReg) : Word := s.vreg[j]

/-- The content tag `K[j]` (R23). -/
def State.tagAt (s : State) (j : SReg) : Tag := s.tag[j]

/-- The pairing state `P[n]` (R41). -/
def State.pairAt (s : State) (n : DReg) : Pairing := s.pair[n]

/-- Word `j` written with a value and a content tag (R23). -/
def State.setWord (s : State) (j : SReg) (t : Tag) (w : Word) : State :=
  { s with vreg := s.vreg.set j w, tag := s.tag.set j t }

/-- Both words of `D[n]` written, with the tag `t` for the low and `u` for the high one. -/
def State.setWords (s : State) (n : DReg) (t u : Tag) (lo hi : Word) : State :=
  (s.setWord (loIndex n) t lo).setWord (hiIndex n) u hi

/-- The pairing state of `D[n]` written (R41). -/
def State.setPair (s : State) (n : DReg) (p : Pairing) : State := { s with pair := s.pair.set n p }

/-- The bits of `D[n]`, without any check. -/
def State.rawDouble (s : State) (n : DReg) : DWord := dwordOf (s.word (hiIndex n)) (s.word (loIndex n))

/-- `D[n]` is not between FMDLR and FMDHR (R325). -/
def requireWhole (n : DReg) (s : State) : Except Stop Unit :=
  if s.pairAt n = .whole then .ok () else .error (.refused .halfWrittenDouble)

/-- Word `j` has a value, and not one last written in the precision `other` (R23). -/
def requireTag (other : Tag) (j : SReg) (s : State) : Except Stop Unit :=
  if s.tagAt j = .none then .error (.fault (.unwrittenRegister j))
  else if s.tagAt j = other ∧ s.cfg.overlap = .tagged then .error (.refused .crossPrecisionRead)
  else .ok ()

/-! ### Registers of either format -/

/-- The register numbers of a format (R20, R21). -/
abbrev VReg : Fmt → Type
  | .sgl => SReg
  | .dbl => DReg

/-- The number of a register. -/
def regIndex (f : Fmt) (r : VReg f) : Nat :=
  match f, r with
  | .sgl, r => r.val
  | .dbl, r => r.val

/-- The register with a number; the register-list check comes first (R217). -/
def regAt (f : Fmt) (i : Nat) : VReg f :=
  match f with
  | .sgl => Fin.ofNat 32 i
  | .dbl => Fin.ofNat 16 i

/-- How many registers the format has (R5). -/
def regCount : Fmt → Nat
  | .sgl => 32
  | .dbl => 16

/-- The double-precision register that a register is, or is one half of. -/
def pairOf (f : Fmt) (r : VReg f) : DReg :=
  match f, r with
  | .sgl, r => doubleOf r
  | .dbl, r => r

/-- The tags allow a read in the format (R23); of a double, the low word's tag is checked first (DESIGN CHOICE,
notes/assumptions/30.md). -/
def requireReadable (f : Fmt) (r : VReg f) (s : State) : Except Stop Unit :=
  match f, r with
  | .sgl, r => requireTag .dbl r s
  | .dbl, r => do
    requireTag .sgl (loIndex r) s
    requireTag .sgl (hiIndex r) s

/-- The bits of a register, without any check. -/
def State.rawReg (s : State) (f : Fmt) (r : VReg f) : Pat f :=
  match f, r with
  | .sgl, r => s.word r
  | .dbl, r => s.rawDouble r

/-- A read of `S[r]` or `D[r]` (R23, R325). The pairing state is checked before the tags, which neither R23 nor
60_exceptions.md R300 item 5 orders (DESIGN CHOICE, notes/assumptions/30.md). -/
def readReg (f : Fmt) (r : VReg f) (s : State) : Except Stop (Pat f) := do
  requireWhole (pairOf f r) s
  requireReadable f r s
  .ok (s.rawReg f r)

/-- A write of `S[r]` or `D[r]` with its tag (R23); that the double is whole is checked before. -/
def State.setReg (s : State) (f : Fmt) (r : VReg f) (v : Pat f) : State :=
  match f, r, v with
  | .sgl, r, v => s.setWord r .sgl v
  | .dbl, r, v => s.setWords r .dbl .dbl (loWord v) (hiWord v)

/-- The values of `k` registers from number `i` up, each checked wholly before the next (DESIGN CHOICE,
notes/assumptions/30.md). -/
def readRegs (f : Fmt) : Nat → Nat → State → Except Stop (List (Pat f))
  | _, 0, _ => .ok []
  | i, k + 1, s => do
    let v ← readReg f (regAt f i) s
    let vs ← readRegs f (i + 1) k s
    .ok (v :: vs)

/-- None of the `k` registers from number `i` up is part of a half-written double. -/
def requireWholes (f : Fmt) : Nat → Nat → State → Except Stop Unit
  | _, 0, _ => .ok ()
  | i, k + 1, s => do
    requireWhole (pairOf f (regAt f i)) s
    requireWholes f (i + 1) k s

/-- Values written to the registers from number `i` up. -/
def State.setRegs (f : Fmt) : State → Nat → List (Pat f) → State
  | s, _, [] => s
  | s, i, v :: vs => State.setRegs f (s.setReg f (regAt f i) v) (i + 1) vs

/-! ### ARM registers (R24, R25) -/

/-- `R[r]`; `R15` is the program counter, and no instruction reads it (R93, R95). -/
def State.armReg (s : State) (r : RReg) : Word := if h : r.val < 15 then s.arm[r.val] else s.pc

/-- A write of `R[r]`; no instruction writes `R15`. -/
def State.setArm (s : State) (r : RReg) (v : Word) : State :=
  if h : r.val < 15 then { s with arm := s.arm.set r.val v } else s

/-- An ARM register operand that must not be `R15` (R93). -/
def requireNotR15 (reason : UnpredictableReason) (r : RReg) : Except Stop Unit :=
  if r = 15 then .error (.refused (.unpredictable reason)) else .ok ()

/-! ### Addressing modes (R216) -/

/-- The five rows of the table of R216. -/
inductive AddrMode where
  | negativeOffset
  | positiveOffset
  | unindexed
  | increment
  | decrement
deriving DecidableEq, Repr

/-- The offset mode of the `U` bit (R89). -/
def offsetMode (up : Bool) : AddrMode := if up then .positiveOffset else .negativeOffset

/-- `off4 = 4 * offset`. -/
def off4 (offset : BitVec 8) : Word := BitVec.ofNat 32 (4 * offset.toNat)

/-- The start address, from the base register value. -/
def startAddress (mode : AddrMode) (base : Word) (offset : BitVec 8) : Word :=
  match mode with
  | .negativeOffset => base - off4 offset
  | .positiveOffset => base + off4 offset
  | .unindexed => base
  | .increment => base
  | .decrement => base - off4 offset

/-- The value written back to the base register, if the mode has write-back. -/
def newBase (mode : AddrMode) (base : Word) (offset : BitVec 8) : Option Word :=
  match mode with
  | .negativeOffset => none
  | .positiveOffset => none
  | .unindexed => none
  | .increment => some (base + off4 offset)
  | .decrement => some (base - off4 offset)

/-- Base register write-back. -/
def State.writeBack (s : State) (mode : AddrMode) (rn : RReg) (offset : BitVec 8) : State :=
  match newBase mode (s.armReg rn) offset with
  | none => s
  | some v => s.setArm rn v

/-- The refusals of a load or store by its operands, in the order in which 45_load_store.md R218 lists them: the base
register, the number of registers, the register list (R217), the alignment (20_memory.md R55). That the list is an order is
DEDUCED (notes/assumptions/30.md). -/
def requireTransfer (f : Fmt) (first k : Nat) (rn : RReg) (s : State) : Except Stop Unit :=
  if rn = 15 then .error (.refused (.unallocatedEncoding .baseR15))
  else if k = 0 then .error (.refused (.unallocatedEncoding .noRegister))
  else if regCount f < first + k then .error (.refused (.unpredictable .registerListPastEnd))
  else if (s.armReg rn).extractLsb' 0 2 ≠ 0 then .error (.refused .misalignedAccess)
  else .ok ()

end Sys2Proof.Machine
end

