-- ==== Sys2Proof/Machine/Ops.lean ====
section
/-! DEFINITION. The shared operations: memory, exceptions, and the templates of 40_basic_arith.md R121, 45_load_store.md R218,
46_single_transfer.md R251 and 47_two_reg_transfer.md R276, over which every instruction is written. -/

namespace Sys2Proof.Machine

/-! ### Bytes and words of memory (20_memory.md R50 to R54) -/

/-- The byte at an address. -/
def readByte (a : Nat) : Memory → Byte
  | [] => unlistedByte
  | (b, v) :: m => if b = a then v else readByte a m

/-- A byte put in front, unless it is what an unlisted address reads as. -/
def consByte (a : Nat) (v : Byte) (m : Memory) : Memory := if v = unlistedByte then m else (a, v) :: m

/-- A byte written, in the canonical form. -/
def writeByte (a : Nat) (v : Byte) : Memory → Memory
  | [] => consByte a v []
  | (b, w) :: m =>
    if a < b then consByte a v ((b, w) :: m)
    else if a = b then consByte a v m
    else (b, w) :: writeByte a v m

/-- The address of byte `i` of the word at `a`, modulo 2^32 (R50). -/
def byteAddr (a : Word) (i : Nat) : Nat := (a + BitVec.ofNat 32 i).toNat

/-- The offset in the word of the byte that holds bits `8i+7:8i` (R52). -/
def byteOffset (bigEnd : Bool) (i : Nat) : Nat := if bigEnd then 3 - i else i

/-- `MemRead(a, 4)` (R52). -/
def readWord (bigEnd : Bool) (a : Word) (m : Memory) : Word :=
  readByte (byteAddr a (byteOffset bigEnd 3)) m ++ readByte (byteAddr a (byteOffset bigEnd 2)) m
    ++ readByte (byteAddr a (byteOffset bigEnd 1)) m ++ readByte (byteAddr a (byteOffset bigEnd 0)) m

/-- Byte `i` of a word written. -/
def writeByteOf (bigEnd : Bool) (a : Word) (v : Word) (i : Nat) (m : Memory) : Memory :=
  writeByte (byteAddr a (byteOffset bigEnd i)) (v.extractLsb' (8 * i) 8) m

/-- `MemWrite(a, 4, v)` (R52). -/
def writeWord (bigEnd : Bool) (a : Word) (v : Word) (m : Memory) : Memory :=
  writeByteOf bigEnd a v 3 (writeByteOf bigEnd a v 2 (writeByteOf bigEnd a v 1 (writeByteOf bigEnd a v 0 m)))

/-- How many words of memory a register takes (R56). -/
def wordsOf : Fmt → Nat
  | .sgl => 1
  | .dbl => 2

/-- The address `n` words above `a`. -/
def wordAddr (a : Word) (n : Nat) : Word := a + BitVec.ofNat 32 (4 * n)

/-- The value of a register loaded from address `a`, a double in the word order of R54. -/
def loadPat (f : Fmt) (bigEnd : Bool) (a : Word) (m : Memory) : Pat f :=
  match f with
  | .sgl => readWord bigEnd a m
  | .dbl =>
    if bigEnd then dwordOf (readWord bigEnd a m) (readWord bigEnd (wordAddr a 1) m)
    else dwordOf (readWord bigEnd (wordAddr a 1) m) (readWord bigEnd a m)

/-- The value of a register stored to address `a`, a double in the word order of R54. -/
def storePat (f : Fmt) (bigEnd : Bool) (a : Word) (v : Pat f) (m : Memory) : Memory :=
  match f, v with
  | .sgl, v => writeWord bigEnd a v m
  | .dbl, v =>
    let first := if bigEnd then hiWord v else loWord v
    let second := if bigEnd then loWord v else hiWord v
    writeWord bigEnd (wordAddr a 1) second (writeWord bigEnd a first m)

/-- `k` registers loaded from ascending addresses (R57). -/
def loadPats (f : Fmt) (bigEnd : Bool) : Word → Nat → Memory → List (Pat f)
  | _, 0, _ => []
  | a, k + 1, m => loadPat f bigEnd a m :: loadPats f bigEnd (wordAddr a (wordsOf f)) k m

/-- Registers stored to ascending addresses (R57). -/
def storePats (f : Fmt) (bigEnd : Bool) : Word → List (Pat f) → Memory → Memory
  | _, [], m => m
  | a, v :: vs, m => storePats f bigEnd (wordAddr a (wordsOf f)) vs (storePat f bigEnd a v m)

/-! ### Which accesses are admitted (R60, R64) -/

/-- `MemMap` admits the word access. -/
def admits (regions : List MemRegion) (write : Bool) (a : Word) : Bool :=
  regions.any fun r =>
    decide (r.base ≤ a.toNat ∧ a.toNat + 4 ≤ r.base + r.size) && (if write then r.writable else r.readable)

/-- The lower of two addresses, if there is a second. -/
def lowerAddr (a : Word) : Option Word → Word
  | none => a
  | some b => if b.toNat < a.toNat then b else a

/-- The lowest address among `n` consecutive words that satisfies a test. -/
def lowestWord (test : Word → Bool) : Word → Nat → Option Word
  | _, 0 => none
  | a, n + 1 =>
    let rest := lowestWord test (wordAddr a 1) n
    if test a then some (lowerAddr a rest) else rest

/-- Every one of `n` words is admitted, or the instruction ends in a data abort at the lowest-addressed one that is not
(R294, R300). -/
def requireAdmitted (write : Bool) (a : Word) (n : Nat) (s : State) : Except Stop Unit :=
  match lowestWord (fun b => !admits s.cfg.memMap write b) a n with
  | some b => .error (.fault (.dataAbort b))
  | none => .ok ()

/-- The address is in the program text (70_reset_and_hazards.md R322). -/
def inText (s : State) (a : Word) : Bool := decide ((a - s.textBase).toNat < 4 * s.text.length)

/-- None of `n` words is in the program text (R64). -/
def requireOutsideText (a : Word) (n : Nat) (s : State) : Except Stop Unit :=
  match lowestWord (inText s) a n with
  | some _ => .error (.refused .storeToProgramText)
  | none => .ok ()

/-- The image has the word at the address among its `2k + 1` words (45_load_store.md R236). -/
def covers (img : FstmxImage) (a : Word) : Bool :=
  decide ((a - img.start).toNat < 4 * (2 * img.pairs.length + 1))

/-- The images that a store of `n` words leaves untouched. -/
def untouched (images : List FstmxImage) (a : Word) (n : Nat) : List FstmxImage :=
  images.filter fun img => (lowestWord (covers img) a n).isNone

/-! ### Exceptions, and the program counter -/

/-- `pc <- pc + 4` (10_state.md R27). -/
def State.advance (s : State) : State := { s with pc := s.pc + 4 }

/-- Taking the Undefined Instruction exception: the fault records the address and the word, and nothing is written. The
spec gives no entry sequence, handler or return (60_exceptions.md R290, R303, R304). -/
def undefinedInstruction (w : Word) (s : State) : Fault := .undefinedInstruction s.pc w

/-- The cumulative flags of the exceptions in the set become 1 (R297). -/
def State.accrue (s : State) (e : ExcSet) : State :=
  { s with fpscr := { s.fpscr with cumulative := s.fpscr.cumulative.union e } }

/-- `FPExc` of every exception in the set (R297). -/
def signal (e : ExcSet) (s : State) : Except Stop State :=
  match trapped s.fpscr.enables e with
  | some x => .error (.fault (.fpTrap x))
  | none => .ok (s.accrue e)

/-- What an outcome of an instruction's body is of the whole step: a next state has the program counter advanced. -/
def finish : Except Stop State → Host.Outcome State Fault Refusal
  | .ok t => .next t.advance
  | .error (.fault f) => .fault f
  | .error (.refused r) => .refused r

/-- The first steps of every template: the condition (30_encoding.md R71), then the instructions that a variant without
double precision leaves UNDEFINED (R96), then the instruction's own body. -/
def instruction (c : Cond) (i : Instr) (double : Bool) (body : State → Except Stop State) (s : State) :
    Host.Outcome State Fault Refusal :=
  if conditionPassed c s.cpsr then
    if double && !s.cfg.hasDouble then .fault (undefinedInstruction (encode i) s) else finish (body s)
  else .next s.advance

/-! ### Data-processing instructions (40_basic_arith.md R121) -/

/-- What an operation reads of the state beside its operands. -/
def fpEnv (s : State) : FpEnv := ⟨s.cfg, s.fpscr.rmode, s.fpscr.fz, s.fpscr.dn⟩

/-- An instruction that could work on short vectors is executed with `LEN` scalar only (R113). -/
def scalarOnly (body : State → Except Stop State) (s : State) : Except Stop State :=
  if s.fpscr.len = 0 then body s else .error (.refused .shortVectorNotModelled)

/-- Steps 6 and 7: the exceptions signalled and the destination written. Neither R121 nor 60_exceptions.md R300 places the
pairing check of the destination: here it follows the reads and precedes the signalling (DESIGN CHOICE,
notes/assumptions/30.md). -/
def deliver (f : Fmt) (d : VReg f) (r : FpResult f) (s : State) : Except Stop State := do
  requireWhole (pairOf f d) s
  let t ← signal r.exc s
  .ok (t.setReg f d r.val)

/-- A floating-point operation on two registers. Where several registers fail a check, the spec does not say which one is
reported: `n` is checked wholly before `m`, and the destination last (DESIGN CHOICE, notes/assumptions/30.md). -/
def binary (f : Fmt) (op : FpEnv → Pat f → Pat f → FpResult f) (d n m : VReg f) (s : State) : Except Stop State := do
  let a ← readReg f n s
  let b ← readReg f m s
  deliver f d (op (fpEnv s) a b) s

/-- A floating-point operation on one register of format `g`, checked before the destination (DESIGN CHOICE,
notes/assumptions/30.md). -/
def unary (g f : Fmt) (op : FpEnv → Pat g → FpResult f) (d : VReg f) (m : VReg g) (s : State) : Except Stop State := do
  let a ← readReg g m s
  deliver f d (op (fpEnv s) a) s

/-- A multiply-accumulate: the destination is the accumulator (41_mac.md R140). The registers are checked in the order `d`,
`n`, `m`, which the spec leaves open (DESIGN CHOICE, notes/assumptions/30.md). -/
def multiplyAccumulate (f : Fmt) (negProduct negAcc : Bool) (d n m : VReg f) (s : State) : Except Stop State := do
  let acc ← readReg f d s
  let a ← readReg f n s
  let b ← readReg f m s
  deliver f d (fpMac f (fpEnv s) negProduct negAcc acc a b) s

/-- A copy with an adjustment of the sign bit, no floating-point operation (44_copy.md R200). The operand is checked before
the destination (DESIGN CHOICE, notes/assumptions/30.md). -/
def copyReg (f : Fmt) (adjust : Pat f → Pat f) (d m : VReg f) (s : State) : Except Stop State := do
  let a ← readReg f m s
  requireWhole (pairOf f d) s
  .ok (s.setReg f d (adjust a))

/-- `FPSCR[31:28]` written. -/
def State.setFpscrFlags (s : State) (r : Relation) : State :=
  { s with fpscr := { s.fpscr with flags := relationFlags r } }

/-- The end of a comparison: the exceptions signalled and the FPSCR flags written (42_compare.md R152). -/
def deliverFlags (r : CompareResult) (s : State) : Except Stop State := do
  let t ← signal r.exc s
  .ok (t.setFpscrFlags r.relation)

/-- A comparison of two registers; `e` for the FCMPE type. `d` is checked wholly before `m` (DESIGN CHOICE,
notes/assumptions/30.md). -/
def compareRegs (f : Fmt) (e : Bool) (d m : VReg f) (s : State) : Except Stop State := do
  let a ← readReg f d s
  let b ← readReg f m s
  deliverFlags (compareValues f (fpEnv s) e a b) s

/-- A comparison of a register with +0. -/
def compareWithZero (f : Fmt) (e : Bool) (d : VReg f) (s : State) : Except Stop State := do
  let a ← readReg f d s
  deliverFlags (compareValues f (fpEnv s) e a (zeroPat f false)) s

/-! ### Loads and stores (45_load_store.md R218) -/

/-- The memory after a store of `n` words at `a`. -/
def State.setMem (s : State) (a : Word) (n : Nat) (m : Memory) : State :=
  { s with mem := m, images := untouched s.images a n }

/-- A load of `k` registers from `d` up. -/
def load (f : Fmt) (mode : AddrMode) (d : VReg f) (k : Nat) (rn : RReg) (offset : BitVec 8) (s : State) :
    Except Stop State := do
  requireTransfer f (regIndex f d) k rn s
  requireWholes f (regIndex f d) k s
  let start := startAddress mode (s.armReg rn) offset
  requireAdmitted false start (k * wordsOf f) s
  .ok ((State.setRegs f s (regIndex f d) (loadPats f s.cfg.bigEnd start k s.mem)).writeBack mode rn offset)

/-- A store of `k` registers from `d` up. `MemMap` is asked before the program text (DEDUCED from the order in which R218 and
60_exceptions.md R300 item 6 list them, notes/assumptions/30.md). -/
def store (f : Fmt) (mode : AddrMode) (d : VReg f) (k : Nat) (rn : RReg) (offset : BitVec 8) (s : State) :
    Except Stop State := do
  requireTransfer f (regIndex f d) k rn s
  let vs ← readRegs f (regIndex f d) k s
  let start := startAddress mode (s.armReg rn) offset
  requireAdmitted true start (k * wordsOf f) s
  requireOutsideText start (k * wordsOf f) s
  .ok ((s.setMem start (k * wordsOf f) (storePats f s.cfg.bigEnd start vs s.mem)).writeBack mode rn offset)

/-! ### FSTMX and FLDMX, and the images they share with FSTMD (R227, R228, R229, R236) -/

/-- The number of registers of an FLDMX or FSTMX (R217). -/
def unknownCount (offset : BitVec 8) : Nat := (offset.toNat - 1) / 2

/-- A read of `D[n]` by FSTMX: any tag but `None`, or a half-written double (R23, R325). The low half is checked first
(DESIGN CHOICE, notes/assumptions/30.md). -/
def readUnknown (n : DReg) (s : State) : Except Stop (Pairing × DWord) :=
  if s.pairAt n ≠ .highOnly ∧ s.tagAt (loIndex n) = .none then .error (.fault (.unwrittenRegister (loIndex n)))
  else if s.pairAt n ≠ .lowOnly ∧ s.tagAt (hiIndex n) = .none then .error (.fault (.unwrittenRegister (hiIndex n)))
  else .ok (s.pairAt n, s.rawDouble n)

/-- The values and pairing states of `k` registers from number `i` up, checked in ascending order (DESIGN CHOICE,
notes/assumptions/30.md). -/
def readUnknowns : Nat → Nat → State → Except Stop (List (Pairing × DWord))
  | _, 0, _ => .ok []
  | i, k + 1, s => do
    let v ← readUnknown (regAt .dbl i) s
    let vs ← readUnknowns (i + 1) k s
    .ok (v :: vs)

/-- The register words of doubles, in the order `V[2d], V[2d+1], …`. -/
def imageWords : List DWord → List Word
  | [] => []
  | v :: vs => loWord v :: hiWord v :: imageWords vs

/-- The image of values with their pairing states, in registers from `d` up (R236). -/
def imageOf (d : DReg) (start : Word) (vs : List (Pairing × DWord)) : FstmxImage where
  start := start
  first := d
  words := imageWords (vs.map Prod.snd)
  pairs := vs.map Prod.fst

/-- The images that an FSTMD leaves: in the recommended format one that an FLDMX may match (R236, last paragraph). -/
def doublesImage (cfg : Config) (d : DReg) (start : Word) (vs : List DWord) : List FstmxImage :=
  match cfg.fstmxFormat with
  | .standard => [imageOf d start (vs.map fun v => (.whole, v))]
  | .free => []

/-- Images recorded (R236). -/
def State.noteImages (s : State) (images : List FstmxImage) : State := { s with images := images ++ s.images }

/-- FSTMD of one addressing mode: a store of `offset / 2` registers (R227), and the image it leaves. -/
def storeDoubles (mode : AddrMode) (d : DReg) (rn : RReg) (offset : BitVec 8) (s : State) : Except Stop State := do
  let k := offset.toNat / 2
  let t ← store .dbl mode d k rn offset s
  .ok (t.noteImages (doublesImage s.cfg d (startAddress mode (s.armReg rn) offset)
    ((List.range k).map fun i => s.rawDouble (regAt .dbl (d.val + i)))))

/-- `n` words, each written or left as it is as the free values from number `i` on say. -/
def writeFree (bigEnd : Bool) : Nat → Nat → Word → Memory → Memory
  | _, 0, _, m => m
  | i, n + 1, a, m =>
    writeFree bigEnd (i + 1) n (wordAddr a 1)
      (match Config.freeFstmxWord i with
      | some w => writeWord bigEnd a w m
      | none => m)

/-- What FSTMX writes: in the recommended format the words of FSTMD, the last word left as it is; in any other format, of
each of the `2k + 1` words, a free value or nothing. -/
def writeImage (s : State) (start : Word) (vs : List DWord) : Memory :=
  match s.cfg.fstmxFormat with
  | .standard => storePats .dbl s.cfg.bigEnd start vs s.mem
  | .free => writeFree s.cfg.bigEnd s.freeNext (2 * vs.length + 1) start s.mem

/-- How many words an FSTMX of `k` registers may write: the recommended format leaves the last one. -/
def imageSize (cfg : Config) (k : Nat) : Nat :=
  match cfg.fstmxFormat with
  | .standard => 2 * k
  | .free => 2 * k + 1

/-- How many free values an FSTMX of `k` registers takes. -/
def imageFrees (cfg : Config) (k : Nat) : Nat :=
  match cfg.fstmxFormat with
  | .standard => 0
  | .free => 2 * k + 1

/-- A half-written double that has been stored is free for other purposes: whole, and without a value (R325). -/
def State.releaseHalf (s : State) (n : DReg) : State :=
  if s.pairAt n = .whole then s
  else { s with pair := s.pair.set n .whole, tag := (s.tag.set (loIndex n) .none).set (hiIndex n) .none }

/-- The `k` registers from number `i` up released. -/
def State.releaseHalves : State → Nat → Nat → State
  | s, _, 0 => s
  | s, i, k + 1 => State.releaseHalves (s.releaseHalf (regAt .dbl i)) (i + 1) k

/-- The state after an FSTMX has stored the registers: memory, the image it left, the registers released. -/
def State.afterFstmx (s : State) (d : DReg) (start : Word) (vs : List (Pairing × DWord)) : State :=
  let t := (s.setMem start (imageSize s.cfg vs.length) (writeImage s start (vs.map Prod.snd))).noteImages [imageOf d start vs]
  State.releaseHalves { t with freeNext := t.freeNext + imageFrees t.cfg vs.length } d.val vs.length

/-- FSTMX of one addressing mode. -/
def storeUnknown (mode : AddrMode) (d : DReg) (rn : RReg) (offset : BitVec 8) (s : State) : Except Stop State := do
  let k := unknownCount offset
  requireTransfer .dbl d.val k rn s
  let vs ← readUnknowns d.val k s
  let start := startAddress mode (s.armReg rn) offset
  requireAdmitted true start (2 * k + 1) s
  requireOutsideText start (imageSize s.cfg k) s
  .ok ((s.afterFstmx d start vs).writeBack mode rn offset)

/-- The image that an FLDMX matches: the same start, first register and number of registers, untouched since (R236). -/
def matchingImage (s : State) (d : DReg) (k : Nat) (start : Word) : Option FstmxImage :=
  s.images.find? fun img => img.start == start && img.first == d && img.pairs.length == k

/-- One register restored: the written half or halves with tag `Any`, the other half without a value (R325). -/
def State.restoreReg (s : State) (n : DReg) (p : Pairing) (lo hi : Word) : State :=
  (s.setWords n (if p = .highOnly then .none else .any) (if p = .lowOnly then .none else .any) lo hi).setPair n p

/-- The registers from number `i` up restored from the words and pairing states of an image. -/
def State.restoreRegs : State → Nat → List Word → List Pairing → State
  | s, i, lo :: hi :: ws, p :: ps => State.restoreRegs (s.restoreReg (regAt .dbl i) p lo hi) (i + 1) ws ps
  | s, _, _, _ => s

/-- The image that an FLDMX restores; without one it has no meaning (R236 item 3). -/
def unknownSource (s : State) (d : DReg) (k : Nat) (start : Word) : Except Stop FstmxImage :=
  match matchingImage s d k start with
  | some img => .ok img
  | none => .error (.refused .unmatchedFldmx)

/-- FLDMX of one addressing mode. `MemMap` is asked before the image (DEDUCED from the order in which 60_exceptions.md R300
item 6 lists them, notes/assumptions/30.md). -/
def loadUnknown (mode : AddrMode) (d : DReg) (rn : RReg) (offset : BitVec 8) (s : State) : Except Stop State := do
  let k := unknownCount offset
  requireTransfer .dbl d.val k rn s
  let start := startAddress mode (s.armReg rn) offset
  requireAdmitted false start (2 * k + 1) s
  let image ← unknownSource s d k start
  .ok ((State.restoreRegs s d.val image.words image.pairs).writeBack mode rn offset)

/-! ### Transfers (46_single_transfer.md R251, 47_two_reg_transfer.md R276) -/

/-- The pairing state after FMDLR (`low`) or FMDHR; none where the instruction is not the second one of the pair
(70_reset_and_hazards.md R325). -/
def afterHalf (low : Bool) : Pairing → Option Pairing
  | .whole => some (if low then .lowOnly else .highOnly)
  | .lowOnly => if low then none else some .whole
  | .highOnly => if low then some .whole else none

/-- The word that FMDLR (`low`) or FMDHR writes. -/
def halfIndex (low : Bool) (n : DReg) : SReg := if low then loIndex n else hiIndex n

/-- One half of `D[n]` written by FMDLR (`low`) or FMDHR (R254, R256, R325). -/
def writeHalf (low : Bool) (n : DReg) (w : Word) (s : State) : Except Stop State :=
  match afterHalf low (s.pairAt n) with
  | none => .error (.refused .halfWrittenDouble)
  | some p => .ok ((s.setWord (halfIndex low n) .dbl w).setPair n p)

/-- FMXR or FMRX of FPEXC or FPSID is UNDEFINED in unprivileged execution (60_exceptions.md R306). -/
def requirePrivilege (i : Instr) (reg : SysReg) (s : State) : Except Stop Unit :=
  if s.cfg.userMode ∧ (reg = .fpsid ∨ reg = .fpexc) then .error (.fault (undefinedInstruction (encode i) s)) else .ok ()

/-- The single-precision register after `S[m]`; FMSRR and FMRRS need one (47_two_reg_transfer.md R276). -/
def nextSingle (m : SReg) : Except Stop SReg :=
  if h : m.val + 1 < 32 then .ok ⟨m.val + 1, h⟩ else .error (.refused (.unallocatedEncoding .pairPastEnd))

/-- The two ARM registers of a two-register transfer are not `R15` (R93 item 4). -/
def requireNoR15 (rd rn : RReg) : Except Stop Unit := do
  requireNotR15 .twoRegR15 rn
  requireNotR15 .twoRegR15 rd

/-- The two ARM destinations of a two-register transfer differ (R95 item 4). -/
def requireDistinct (rd rn : RReg) : Except Stop Unit :=
  if rn = rd then .error (.refused (.unallocatedEncoding .sameArmRegister)) else .ok ()

/-- The ARM register that goes with `S[m]`, and the one that goes with `S[m+1]` (`SREG_PAIR_ORDER`, R277, R278). -/
def pairOrder (s : State) (rd rn : RReg) : RReg × RReg :=
  match s.cfg.pairOrder with
  | .source => (rn, rd)
  | .swapped => (rd, rn)

/-! ### Fetching, and words that are no instruction -/

/-- The word of program text at the program counter (70_reset_and_hazards.md R322; R55 for its alignment).

DESIGN CHOICE (notes/assumptions/21.md): `MemMap` is not asked about a fetch. R51 calls a fetch an access, and R52, R53 and
R60 read together would have `MemMap` admit it; 60_exceptions.md R294 gives the data abort to loads and stores alone, R300
lists no abort among the fetch refusals, and R64 makes the text a parameter and no memory. A misaligned program counter is
refused as such wherever the text is, also a choice of the model. -/
def fetch (s : State) : Except Refusal Word :=
  if s.pc.extractLsb' 0 2 ≠ 0 then .error .misalignedAccess
  else
    let k := (s.pc - s.textBase).toNat
    if k % 4 ≠ 0 then .error .outsideText
    else
      match s.text[k / 4]? with
      | some w => .ok w
      | none => .error (if k = 4 * s.text.length then .finalState else .outsideText)

/-- The word put where `fetch` reads, for a program counter that is word-aligned: in its place in the program text, or else
as a program of one word loaded from outside the machine (notes/assumptions/6.md). -/
def placeWord (w : Word) (s : State) : State :=
  let k := (s.pc - s.textBase).toNat
  if k % 4 = 0 ∧ k / 4 < s.text.length then { s with text := s.text.set (k / 4) w }
  else { s with textBase := s.pc, text := [w] }

/-- The word belongs to the coprocessor 11 space, of which a variant without double precision has FSTMX and FLDMX alone. -/
def absentWord (w : Word) (s : State) : Bool := !s.cfg.hasDouble && w.extractLsb' 8 4 == 11

/-- The word names FPEXC or FPSID in FMXR or FMRX, whatever its SBZ bits are, and execution is unprivileged
(60_exceptions.md R306). -/
def privilegedWord (w : Word) (s : State) : Bool :=
  let f := xfer1Fields w
  s.cfg.userMode && f.cp == 10 && f.opcode == 7 &&
    (sysRegOf f.Fn f.N == some .fpsid || sysRegOf f.Fn f.N == some .fpexc)

/-- The refusal of a word of the `XFER1` format by `Rd` or its SBZ bits; where `USER_MODE` makes it UNDEFINED, that comes
first. -/
def refuseTransferWord (reason : UnpredictableReason) (w : Word) (s : State) : Host.Outcome State Fault Refusal :=
  if privilegedWord w s then .fault (undefinedInstruction w s) else .refused (.unpredictable reason)

/-- The outcome of a word that is no instruction, in the order of 60_exceptions.md R300: not a VFP instruction; a failed
condition; UNDEFINED; the refusals, in the order of 30_encoding.md R91. DEDUCED (notes/assumptions/11.md): 46_single_transfer.md R251 does not place the
UNDEFINED of `USER_MODE` among its steps; R300 ranks it before the refusal of `R15` or of an SBZ bit. -/
def noInstruction (e : DecodeError) (w : Word) (s : State) : Host.Outcome State Fault Refusal :=
  match e, condOf (w.extractLsb' 28 4) with
  | .notVfp, _ => .refused .notVfp
  | _, none => .refused .notVfp
  | e, some c =>
    if !conditionPassed c s.cpsr then .next s.advance
    else if absentWord w s then .fault (undefinedInstruction w s)
    else
      match e with
      | .undefined => .fault (undefinedInstruction w s)
      | .fromArmR15 => refuseTransferWord .fromArmR15 w s
      | .toArmR15 => refuseTransferWord .toArmR15 w s
      | .sbz => refuseTransferWord .sbz w s
      | .unallocatedTwoReg => .refused (.unallocatedEncoding .twoRegPattern)
      | .unallocatedCompareZero => .refused (.unallocatedEncoding .compareZeroOperand)
      | .notVfp => .refused .notVfp

end Sys2Proof.Machine
end

