-- ==== Sys2Proof/Machine/BasicArith.lean ====
section
/-! DEFINITION. Basic arithmetic and square root (40_basic_arith.md R122 to R133). -/

namespace Sys2Proof.Machine

/-- FADDS: `S[d] <- FPAdd(S[n], S[m])` (R122). -/
def execFadds (c : Cond) (d n m : SReg) (s : State) : Host.Outcome State Fault Refusal :=
  instruction c (.fadds c d n m) false (scalarOnly (binary .sgl (fpAdd .sgl) d n m)) s

/-- FADDD: `D[d] <- FPAdd(D[n], D[m])` (R123). -/
def execFaddd (c : Cond) (d n m : DReg) (s : State) : Host.Outcome State Fault Refusal :=
  instruction c (.faddd c d n m) true (scalarOnly (binary .dbl (fpAdd .dbl) d n m)) s

/-- FSUBS: `S[d] <- FPSub(S[n], S[m])` (R124). -/
def execFsubs (c : Cond) (d n m : SReg) (s : State) : Host.Outcome State Fault Refusal :=
  instruction c (.fsubs c d n m) false (scalarOnly (binary .sgl (fpSub .sgl) d n m)) s

/-- FSUBD: `D[d] <- FPSub(D[n], D[m])` (R125). -/
def execFsubd (c : Cond) (d n m : DReg) (s : State) : Host.Outcome State Fault Refusal :=
  instruction c (.fsubd c d n m) true (scalarOnly (binary .dbl (fpSub .dbl) d n m)) s

/-- FMULS: `S[d] <- FPMul(S[n], S[m])` (R126). -/
def execFmuls (c : Cond) (d n m : SReg) (s : State) : Host.Outcome State Fault Refusal :=
  instruction c (.fmuls c d n m) false (scalarOnly (binary .sgl (fpMul .sgl) d n m)) s

/-- FMULD: `D[d] <- FPMul(D[n], D[m])` (R127). -/
def execFmuld (c : Cond) (d n m : DReg) (s : State) : Host.Outcome State Fault Refusal :=
  instruction c (.fmuld c d n m) true (scalarOnly (binary .dbl (fpMul .dbl) d n m)) s

/-- FNMULS: `S[d] <- FPNeg(FPMul(S[n], S[m]))` (R128). -/
def execFnmuls (c : Cond) (d n m : SReg) (s : State) : Host.Outcome State Fault Refusal :=
  instruction c (.fnmuls c d n m) false (scalarOnly (binary .sgl (fun env a b => (fpMul .sgl env a b).neg) d n m)) s

/-- FNMULD: `D[d] <- FPNeg(FPMul(D[n], D[m]))` (R129). -/
def execFnmuld (c : Cond) (d n m : DReg) (s : State) : Host.Outcome State Fault Refusal :=
  instruction c (.fnmuld c d n m) true (scalarOnly (binary .dbl (fun env a b => (fpMul .dbl env a b).neg) d n m)) s

/-- FDIVS: `S[d] <- FPDiv(S[n], S[m])` (R130). -/
def execFdivs (c : Cond) (d n m : SReg) (s : State) : Host.Outcome State Fault Refusal :=
  instruction c (.fdivs c d n m) false (scalarOnly (binary .sgl (fpDiv .sgl) d n m)) s

/-- FDIVD: `D[d] <- FPDiv(D[n], D[m])` (R131). -/
def execFdivd (c : Cond) (d n m : DReg) (s : State) : Host.Outcome State Fault Refusal :=
  instruction c (.fdivd c d n m) true (scalarOnly (binary .dbl (fpDiv .dbl) d n m)) s

/-- FSQRTS: `S[d] <- FPSqrt(S[m])` (R132). -/
def execFsqrts (c : Cond) (d m : SReg) (s : State) : Host.Outcome State Fault Refusal :=
  instruction c (.fsqrts c d m) false (scalarOnly (unary .sgl .sgl (fpSqrt .sgl) d m)) s

/-- FSQRTD: `D[d] <- FPSqrt(D[m])` (R133). -/
def execFsqrtd (c : Cond) (d m : DReg) (s : State) : Host.Outcome State Fault Refusal :=
  instruction c (.fsqrtd c d m) true (scalarOnly (unary .dbl .dbl (fpSqrt .dbl) d m)) s

end Sys2Proof.Machine
end

