-- ==== Sys2Proof/Machine/Compare.lean ====
section
/-! DEFINITION. Comparison instructions (42_compare.md R153 to R160). -/

namespace Sys2Proof.Machine

/-- FCMPS: `S[d]` compared with `S[m]` (R153). -/
def execFcmps (c : Cond) (d m : SReg) (s : State) : Host.Outcome State Fault Refusal :=
  instruction c (.fcmps c d m) false (compareRegs .sgl false d m) s

/-- FCMPD: `D[d]` compared with `D[m]` (R154). -/
def execFcmpd (c : Cond) (d m : DReg) (s : State) : Host.Outcome State Fault Refusal :=
  instruction c (.fcmpd c d m) true (compareRegs .dbl false d m) s

/-- FCMPES: `S[d]` compared with `S[m]`, Invalid Operation on any NaN (R155). -/
def execFcmpes (c : Cond) (d m : SReg) (s : State) : Host.Outcome State Fault Refusal :=
  instruction c (.fcmpes c d m) false (compareRegs .sgl true d m) s

/-- FCMPED: `D[d]` compared with `D[m]`, Invalid Operation on any NaN (R156). -/
def execFcmped (c : Cond) (d m : DReg) (s : State) : Host.Outcome State Fault Refusal :=
  instruction c (.fcmped c d m) true (compareRegs .dbl true d m) s

/-- FCMPZS: `S[d]` compared with +0 (R157). -/
def execFcmpzs (c : Cond) (d : SReg) (s : State) : Host.Outcome State Fault Refusal :=
  instruction c (.fcmpzs c d) false (compareWithZero .sgl false d) s

/-- FCMPZD: `D[d]` compared with +0 (R158). -/
def execFcmpzd (c : Cond) (d : DReg) (s : State) : Host.Outcome State Fault Refusal :=
  instruction c (.fcmpzd c d) true (compareWithZero .dbl false d) s

/-- FCMPEZS: `S[d]` compared with +0, Invalid Operation on any NaN (R159). -/
def execFcmpezs (c : Cond) (d : SReg) (s : State) : Host.Outcome State Fault Refusal :=
  instruction c (.fcmpezs c d) false (compareWithZero .sgl true d) s

/-- FCMPEZD: `D[d]` compared with +0, Invalid Operation on any NaN (R160). -/
def execFcmpezd (c : Cond) (d : DReg) (s : State) : Host.Outcome State Fault Refusal :=
  instruction c (.fcmpezd c d) true (compareWithZero .dbl true d) s

end Sys2Proof.Machine
end

