-- ==== Sys2Proof/Machine/Convert.lean ====
section
/-! DEFINITION. Conversion instructions (43_convert.md R173 to R188). -/

namespace Sys2Proof.Machine

/-- FCVTDS: `D[d] <- FPSingleToDouble(S[m])` (R173); absent without double precision (R96). -/
def execFcvtds (c : Cond) (d : DReg) (m : SReg) (s : State) : Host.Outcome State Fault Refusal :=
  instruction c (.fcvtds c d m) true (unary .sgl .dbl singleToDouble d m) s

/-- FCVTSD: `S[d] <- FPDoubleToSingle(D[m])` (R174). -/
def execFcvtsd (c : Cond) (d : SReg) (m : DReg) (s : State) : Host.Outcome State Fault Refusal :=
  instruction c (.fcvtsd c d m) true (unary .dbl .sgl doubleToSingle d m) s

/-- FTOUIS: `S[d] <- FPToInt(S[m], unsigned, RMode())` (R176). -/
def execFtouis (c : Cond) (d m : SReg) (s : State) : Host.Outcome State Fault Refusal :=
  instruction c (.ftouis c d m) false (unary .sgl .sgl (fun env a => fpToInt .sgl env true env.mode a) d m) s

/-- FTOUID: `S[d] <- FPToInt(D[m], unsigned, RMode())` (R177). -/
def execFtouid (c : Cond) (d : SReg) (m : DReg) (s : State) : Host.Outcome State Fault Refusal :=
  instruction c (.ftouid c d m) true (unary .dbl .sgl (fun env a => fpToInt .dbl env true env.mode a) d m) s

/-- FTOUIZS: `S[d] <- FPToInt(S[m], unsigned, RZ)` (R178). -/
def execFtouizs (c : Cond) (d m : SReg) (s : State) : Host.Outcome State Fault Refusal :=
  instruction c (.ftouizs c d m) false (unary .sgl .sgl (fun env a => fpToInt .sgl env true .rz a) d m) s

/-- FTOUIZD: `S[d] <- FPToInt(D[m], unsigned, RZ)` (R179). -/
def execFtouizd (c : Cond) (d : SReg) (m : DReg) (s : State) : Host.Outcome State Fault Refusal :=
  instruction c (.ftouizd c d m) true (unary .dbl .sgl (fun env a => fpToInt .dbl env true .rz a) d m) s

/-- FTOSIS: `S[d] <- FPToInt(S[m], signed, RMode())` (R180). -/
def execFtosis (c : Cond) (d m : SReg) (s : State) : Host.Outcome State Fault Refusal :=
  instruction c (.ftosis c d m) false (unary .sgl .sgl (fun env a => fpToInt .sgl env false env.mode a) d m) s

/-- FTOSID: `S[d] <- FPToInt(D[m], signed, RMode())` (R181). -/
def execFtosid (c : Cond) (d : SReg) (m : DReg) (s : State) : Host.Outcome State Fault Refusal :=
  instruction c (.ftosid c d m) true (unary .dbl .sgl (fun env a => fpToInt .dbl env false env.mode a) d m) s

/-- FTOSIZS: `S[d] <- FPToInt(S[m], signed, RZ)` (R182). -/
def execFtosizs (c : Cond) (d m : SReg) (s : State) : Host.Outcome State Fault Refusal :=
  instruction c (.ftosizs c d m) false (unary .sgl .sgl (fun env a => fpToInt .sgl env false .rz a) d m) s

/-- FTOSIZD: `S[d] <- FPToInt(D[m], signed, RZ)` (R183). -/
def execFtosizd (c : Cond) (d : SReg) (m : DReg) (s : State) : Host.Outcome State Fault Refusal :=
  instruction c (.ftosizd c d m) true (unary .dbl .sgl (fun env a => fpToInt .dbl env false .rz a) d m) s

/-- FUITOS: `S[d] <- IntToFP(S[m], unsigned)` (R185). -/
def execFuitos (c : Cond) (d m : SReg) (s : State) : Host.Outcome State Fault Refusal :=
  instruction c (.fuitos c d m) false (unary .sgl .sgl (fun env i => intToFp .sgl env true i) d m) s

/-- FUITOD: `D[d] <- IntToFP(S[m], unsigned)` (R186). -/
def execFuitod (c : Cond) (d : DReg) (m : SReg) (s : State) : Host.Outcome State Fault Refusal :=
  instruction c (.fuitod c d m) true (unary .sgl .dbl (fun env i => intToFp .dbl env true i) d m) s

/-- FSITOS: `S[d] <- IntToFP(S[m], signed)` (R187). -/
def execFsitos (c : Cond) (d m : SReg) (s : State) : Host.Outcome State Fault Refusal :=
  instruction c (.fsitos c d m) false (unary .sgl .sgl (fun env i => intToFp .sgl env false i) d m) s

/-- FSITOD: `D[d] <- IntToFP(S[m], signed)` (R188). -/
def execFsitod (c : Cond) (d : DReg) (m : SReg) (s : State) : Host.Outcome State Fault Refusal :=
  instruction c (.fsitod c d m) true (unary .sgl .dbl (fun env i => intToFp .dbl env false i) d m) s

end Sys2Proof.Machine
end

