-- ==== Sys2Proof/Machine/Copy.lean ====
section
/-! DEFINITION. Copy, negation and absolute value (44_copy.md R201 to R206). -/

namespace Sys2Proof.Machine

/-- FCPYS: `S[d] <- S[m]` (R201). -/
def execFcpys (c : Cond) (d m : SReg) (s : State) : Host.Outcome State Fault Refusal :=
  instruction c (.fcpys c d m) false (scalarOnly (copyReg .sgl id d m)) s

/-- FCPYD: `D[d] <- D[m]` (R202). -/
def execFcpyd (c : Cond) (d m : DReg) (s : State) : Host.Outcome State Fault Refusal :=
  instruction c (.fcpyd c d m) true (scalarOnly (copyReg .dbl id d m)) s

/-- FNEGS: `S[d] <- FPNeg(S[m])` (R203). -/
def execFnegs (c : Cond) (d m : SReg) (s : State) : Host.Outcome State Fault Refusal :=
  instruction c (.fnegs c d m) false (scalarOnly (copyReg .sgl (fpNeg .sgl) d m)) s

/-- FNEGD: `D[d] <- FPNeg(D[m])` (R204). -/
def execFnegd (c : Cond) (d m : DReg) (s : State) : Host.Outcome State Fault Refusal :=
  instruction c (.fnegd c d m) true (scalarOnly (copyReg .dbl (fpNeg .dbl) d m)) s

/-- FABSS: `S[d] <- FPAbs(S[m])` (R205). -/
def execFabss (c : Cond) (d m : SReg) (s : State) : Host.Outcome State Fault Refusal :=
  instruction c (.fabss c d m) false (scalarOnly (copyReg .sgl (fpAbs .sgl) d m)) s

/-- FABSD: `D[d] <- FPAbs(D[m])` (R206). -/
def execFabsd (c : Cond) (d m : DReg) (s : State) : Host.Outcome State Fault Refusal :=
  instruction c (.fabsd c d m) true (scalarOnly (copyReg .dbl (fpAbs .dbl) d m)) s

end Sys2Proof.Machine
end

