-- ==== Sys2Proof/Machine/LoadStore.lean ====
section
/-! DEFINITION. Loads and stores (45_load_store.md R220 to R229). -/

namespace Sys2Proof.Machine

/-- FLDS: one register from memory (R220). -/
def execFlds (c : Cond) (up : Bool) (d : SReg) (rn : RReg) (offset : BitVec 8) (s : State)
    : Host.Outcome State Fault Refusal :=
  instruction c (.flds c up d rn offset) false (load .sgl (offsetMode up) d 1 rn offset) s

/-- FSTS: one register to memory (R221). -/
def execFsts (c : Cond) (up : Bool) (d : SReg) (rn : RReg) (offset : BitVec 8) (s : State)
    : Host.Outcome State Fault Refusal :=
  instruction c (.fsts c up d rn offset) false (store .sgl (offsetMode up) d 1 rn offset) s

/-- FLDD: one register from memory (R222). -/
def execFldd (c : Cond) (up : Bool) (d : DReg) (rn : RReg) (offset : BitVec 8) (s : State)
    : Host.Outcome State Fault Refusal :=
  instruction c (.fldd c up d rn offset) true (load .dbl (offsetMode up) d 1 rn offset) s

/-- FSTD: one register to memory (R223). -/
def execFstd (c : Cond) (up : Bool) (d : DReg) (rn : RReg) (offset : BitVec 8) (s : State)
    : Host.Outcome State Fault Refusal :=
  instruction c (.fstd c up d rn offset) true (store .dbl (offsetMode up) d 1 rn offset) s

/-- FLDMS, Unindexed mode (R224). -/
def execFldmsUnindexed (c : Cond) (d : SReg) (rn : RReg) (offset : BitVec 8) (s : State)
    : Host.Outcome State Fault Refusal :=
  instruction c (.fldmsUnindexed c d rn offset) false (load .sgl .unindexed d offset.toNat rn offset) s

/-- FLDMS, Increment mode (R224). -/
def execFldmsIncrement (c : Cond) (d : SReg) (rn : RReg) (offset : BitVec 8) (s : State)
    : Host.Outcome State Fault Refusal :=
  instruction c (.fldmsIncrement c d rn offset) false (load .sgl .increment d offset.toNat rn offset) s

/-- FLDMS, Decrement mode (R224). -/
def execFldmsDecrement (c : Cond) (d : SReg) (rn : RReg) (offset : BitVec 8) (s : State)
    : Host.Outcome State Fault Refusal :=
  instruction c (.fldmsDecrement c d rn offset) false (load .sgl .decrement d offset.toNat rn offset) s

/-- FSTMS, Unindexed mode (R225). -/
def execFstmsUnindexed (c : Cond) (d : SReg) (rn : RReg) (offset : BitVec 8) (s : State)
    : Host.Outcome State Fault Refusal :=
  instruction c (.fstmsUnindexed c d rn offset) false (store .sgl .unindexed d offset.toNat rn offset) s

/-- FSTMS, Increment mode (R225). -/
def execFstmsIncrement (c : Cond) (d : SReg) (rn : RReg) (offset : BitVec 8) (s : State)
    : Host.Outcome State Fault Refusal :=
  instruction c (.fstmsIncrement c d rn offset) false (store .sgl .increment d offset.toNat rn offset) s

/-- FSTMS, Decrement mode (R225). -/
def execFstmsDecrement (c : Cond) (d : SReg) (rn : RReg) (offset : BitVec 8) (s : State)
    : Host.Outcome State Fault Refusal :=
  instruction c (.fstmsDecrement c d rn offset) false (store .sgl .decrement d offset.toNat rn offset) s

/-- FLDMD, Unindexed mode (R226). -/
def execFldmdUnindexed (c : Cond) (d : DReg) (rn : RReg) (offset : BitVec 8) (s : State)
    : Host.Outcome State Fault Refusal :=
  instruction c (.fldmdUnindexed c d rn offset) true (load .dbl .unindexed d (offset.toNat / 2) rn offset) s

/-- FLDMD, Increment mode (R226). -/
def execFldmdIncrement (c : Cond) (d : DReg) (rn : RReg) (offset : BitVec 8) (s : State)
    : Host.Outcome State Fault Refusal :=
  instruction c (.fldmdIncrement c d rn offset) true (load .dbl .increment d (offset.toNat / 2) rn offset) s

/-- FLDMD, Decrement mode (R226). -/
def execFldmdDecrement (c : Cond) (d : DReg) (rn : RReg) (offset : BitVec 8) (s : State)
    : Host.Outcome State Fault Refusal :=
  instruction c (.fldmdDecrement c d rn offset) true (load .dbl .decrement d (offset.toNat / 2) rn offset) s

/-- FSTMD, Unindexed mode (R227). -/
def execFstmdUnindexed (c : Cond) (d : DReg) (rn : RReg) (offset : BitVec 8) (s : State)
    : Host.Outcome State Fault Refusal :=
  instruction c (.fstmdUnindexed c d rn offset) true (storeDoubles .unindexed d rn offset) s

/-- FSTMD, Increment mode (R227). -/
def execFstmdIncrement (c : Cond) (d : DReg) (rn : RReg) (offset : BitVec 8) (s : State)
    : Host.Outcome State Fault Refusal :=
  instruction c (.fstmdIncrement c d rn offset) true (storeDoubles .increment d rn offset) s

/-- FSTMD, Decrement mode (R227). -/
def execFstmdDecrement (c : Cond) (d : DReg) (rn : RReg) (offset : BitVec 8) (s : State)
    : Host.Outcome State Fault Refusal :=
  instruction c (.fstmdDecrement c d rn offset) true (storeDoubles .decrement d rn offset) s

/-- FLDMX, Unindexed mode (R228). -/
def execFldmxUnindexed (c : Cond) (d : DReg) (rn : RReg) (offset : BitVec 8) (s : State)
    : Host.Outcome State Fault Refusal :=
  instruction c (.fldmxUnindexed c d rn offset) false (loadUnknown .unindexed d rn offset) s

/-- FLDMX, Increment mode (R228). -/
def execFldmxIncrement (c : Cond) (d : DReg) (rn : RReg) (offset : BitVec 8) (s : State)
    : Host.Outcome State Fault Refusal :=
  instruction c (.fldmxIncrement c d rn offset) false (loadUnknown .increment d rn offset) s

/-- FLDMX, Decrement mode (R228). -/
def execFldmxDecrement (c : Cond) (d : DReg) (rn : RReg) (offset : BitVec 8) (s : State)
    : Host.Outcome State Fault Refusal :=
  instruction c (.fldmxDecrement c d rn offset) false (loadUnknown .decrement d rn offset) s

/-- FSTMX, Unindexed mode (R229). -/
def execFstmxUnindexed (c : Cond) (d : DReg) (rn : RReg) (offset : BitVec 8) (s : State)
    : Host.Outcome State Fault Refusal :=
  instruction c (.fstmxUnindexed c d rn offset) false (storeUnknown .unindexed d rn offset) s

/-- FSTMX, Increment mode (R229). -/
def execFstmxIncrement (c : Cond) (d : DReg) (rn : RReg) (offset : BitVec 8) (s : State)
    : Host.Outcome State Fault Refusal :=
  instruction c (.fstmxIncrement c d rn offset) false (storeUnknown .increment d rn offset) s

/-- FSTMX, Decrement mode (R229). -/
def execFstmxDecrement (c : Cond) (d : DReg) (rn : RReg) (offset : BitVec 8) (s : State)
    : Host.Outcome State Fault Refusal :=
  instruction c (.fstmxDecrement c d rn offset) false (storeUnknown .decrement d rn offset) s

end Sys2Proof.Machine
end

