-- ==== Sys2Proof/Machine/MultiplyAccumulate.lean ====
section
/-! DEFINITION. Multiply-accumulate instructions (41_mac.md R141 to R148). -/

namespace Sys2Proof.Machine

/-- FMACS: `S[d] <- S[d] + S[n] * S[m]`, with two roundings (R141). -/
def execFmacs (c : Cond) (d n m : SReg) (s : State) : Host.Outcome State Fault Refusal :=
  instruction c (.fmacs c d n m) false (scalarOnly (multiplyAccumulate .sgl false false d n m)) s

/-- FMACD: `D[d] <- D[d] + D[n] * D[m]`, with two roundings (R142). -/
def execFmacd (c : Cond) (d n m : DReg) (s : State) : Host.Outcome State Fault Refusal :=
  instruction c (.fmacd c d n m) true (scalarOnly (multiplyAccumulate .dbl false false d n m)) s

/-- FNMACS: `S[d] <- S[d] - S[n] * S[m]`, with two roundings (R143). -/
def execFnmacs (c : Cond) (d n m : SReg) (s : State) : Host.Outcome State Fault Refusal :=
  instruction c (.fnmacs c d n m) false (scalarOnly (multiplyAccumulate .sgl true false d n m)) s

/-- FNMACD: `D[d] <- D[d] - D[n] * D[m]`, with two roundings (R144). -/
def execFnmacd (c : Cond) (d n m : DReg) (s : State) : Host.Outcome State Fault Refusal :=
  instruction c (.fnmacd c d n m) true (scalarOnly (multiplyAccumulate .dbl true false d n m)) s

/-- FMSCS: `S[d] <- -S[d] + S[n] * S[m]`, with two roundings (R145). -/
def execFmscs (c : Cond) (d n m : SReg) (s : State) : Host.Outcome State Fault Refusal :=
  instruction c (.fmscs c d n m) false (scalarOnly (multiplyAccumulate .sgl false true d n m)) s

/-- FMSCD: `D[d] <- -D[d] + D[n] * D[m]`, with two roundings (R146). -/
def execFmscd (c : Cond) (d n m : DReg) (s : State) : Host.Outcome State Fault Refusal :=
  instruction c (.fmscd c d n m) true (scalarOnly (multiplyAccumulate .dbl false true d n m)) s

/-- FNMSCS: `S[d] <- -S[d] - S[n] * S[m]`, with two roundings (R147). -/
def execFnmscs (c : Cond) (d n m : SReg) (s : State) : Host.Outcome State Fault Refusal :=
  instruction c (.fnmscs c d n m) false (scalarOnly (multiplyAccumulate .sgl true true d n m)) s

/-- FNMSCD: `D[d] <- -D[d] - D[n] * D[m]`, with two roundings (R148). -/
def execFnmscd (c : Cond) (d n m : DReg) (s : State) : Host.Outcome State Fault Refusal :=
  instruction c (.fnmscd c d n m) true (scalarOnly (multiplyAccumulate .dbl true true d n m)) s

end Sys2Proof.Machine
end

