-- ==== Sys2Proof/Machine/Transfer.lean ====
section
/-! DEFINITION. Single register transfers (46_single_transfer.md R252 to R261). -/

namespace Sys2Proof.Machine

/-- `S[n] <- R[rd]`. -/
def singleFromArm (n : SReg) (rd : RReg) (s : State) : Except Stop State := do
  requireNotR15 .fromArmR15 rd
  requireWhole (doubleOf n) s
  .ok (s.setReg .sgl n (s.armReg rd))

/-- `R[rd] <- S[n]`. -/
def armFromSingle (rd : RReg) (n : SReg) (s : State) : Except Stop State := do
  requireNotR15 .toArmR15 rd
  let v ← readReg .sgl n s
  .ok (s.setArm rd v)

/-- One half of `D[n]` from `R[rd]`. -/
def halfFromArm (low : Bool) (n : DReg) (rd : RReg) (s : State) : Except Stop State := do
  requireNotR15 .fromArmR15 rd
  writeHalf low n (s.armReg rd) s

/-- `R[rd]` from one half of `D[n]`, which must be readable as a double (R255). -/
def armFromHalf (half : DWord → Word) (rd : RReg) (n : DReg) (s : State) : Except Stop State := do
  requireNotR15 .toArmR15 rd
  let v ← readReg .dbl n s
  .ok (s.setArm rd (half v))

/-- The FPSCR written (R261). -/
def State.setFpscr (s : State) (w : Word) : State := { s with fpscr := fpscrOf w }

/-- The content of the sub-architecture defined register with `Fn:N = 1:low` (60_exceptions.md R293). -/
def State.subArchReg (s : State) (low : BitVec 4) : Word := s.subArch[low.toFin]

/-- The content of a sub-architecture defined register replaced. -/
def State.setSubArch (s : State) (low : BitVec 4) (v : Word) : State := { s with subArch := s.subArch.set low.toFin v }

/-- The sub-architecture defined register with `Fn:N = 1:low` is supplied (60_exceptions.md R293). -/
def State.supplies (s : State) (low : BitVec 4) : Bool := s.cfg.subArch.contains (SysReg.subArch low).bits

/-- A system register written; the effects by register are the table of R261. A sub-architecture defined register that is
supplied takes the write by its own write behaviour (60_exceptions.md R293, notes/assumptions/12.md). -/
def writeSysReg (reg : SysReg) (w : Word) (s : State) : Except Stop State :=
  match reg with
  | .fpsid => .error (.refused .writeToFpsid)
  | .fpscr => if fpscrWriteOk w then .ok (s.setFpscr w) else .error (.refused .badFpscrWrite)
  | .fpexc => if w = fpexcLaunch then .ok s else .error (.refused .badFpexcWrite)
  | .subArch low =>
    if s.supplies low then
      .ok (s.setSubArch low (Config.subArchWrite (SysReg.subArch low).bits w (s.subArchReg low)))
    else .error (.refused .subArchDefined)

/-- `R[rd]` from a system register, by the table of R259. A sub-architecture defined register that is supplied answers by its
own read behaviour (60_exceptions.md R293, notes/assumptions/12.md). -/
def readSysReg (reg : SysReg) (rd : RReg) (s : State) : Except Stop State :=
  match reg with
  | .fpsid => .ok (s.setArm rd s.fpsid)
  | .fpscr => .ok (s.setArm rd s.fpscr.word)
  | .fpexc => .ok (s.setArm rd s.fpexc)
  | .subArch low =>
    if s.supplies low then .ok (s.setArm rd (Config.subArchRead (SysReg.subArch low).bits (s.subArchReg low)))
    else .error (.refused .subArchDefined)

/-- The CPSR flags from the FPSCR flags (R260). -/
def State.copyFlags (s : State) : State := { s with cpsr := s.fpscr.flags }

/-- A system register from `R[rd]`, by the instruction `i`. That `R15` is refused before the register's own refusal is DEDUCED
from the order in which 46_single_transfer.md R251 lists them (notes/assumptions/30.md). -/
def systemFromArm (i : Instr) (reg : SysReg) (rd : RReg) (s : State) : Except Stop State := do
  requirePrivilege i reg s
  requireNotR15 .fromArmR15 rd
  writeSysReg reg (s.armReg rd) s

/-- `R[rd]` from a system register, by the instruction `i`; the FPSCR with `R15` is what FMSTAT names (R260).
`R15` comes before the register's own refusal, as in `systemFromArm` (DEDUCED, notes/assumptions/30.md). -/
def armFromSystem (i : Instr) (rd : RReg) (reg : SysReg) (s : State) : Except Stop State := do
  requirePrivilege i reg s
  if rd = 15 ∧ reg = .fpscr then .ok s.copyFlags
  else
    requireNotR15 .toArmR15 rd
    readSysReg reg rd s

/-- FMSR: `S[n] <- R[rd]` (R252). -/
def execFmsr (c : Cond) (n : SReg) (rd : RReg) (s : State) : Host.Outcome State Fault Refusal :=
  instruction c (.fmsr c n rd) false (singleFromArm n rd) s

/-- FMRS: `R[rd] <- S[n]` (R253). -/
def execFmrs (c : Cond) (rd : RReg) (n : SReg) (s : State) : Host.Outcome State Fault Refusal :=
  instruction c (.fmrs c rd n) false (armFromSingle rd n) s

/-- FMDLR: `D[n][31:0] <- R[rd]`, one of a pair (R254, R258). -/
def execFmdlr (c : Cond) (n : DReg) (rd : RReg) (s : State) : Host.Outcome State Fault Refusal :=
  instruction c (.fmdlr c n rd) true (halfFromArm true n rd) s

/-- FMRDL: `R[rd] <- D[n][31:0]` (R255). -/
def execFmrdl (c : Cond) (rd : RReg) (n : DReg) (s : State) : Host.Outcome State Fault Refusal :=
  instruction c (.fmrdl c rd n) true (armFromHalf loWord rd n) s

/-- FMDHR: `D[n][63:32] <- R[rd]`, one of a pair (R256, R258). -/
def execFmdhr (c : Cond) (n : DReg) (rd : RReg) (s : State) : Host.Outcome State Fault Refusal :=
  instruction c (.fmdhr c n rd) true (halfFromArm false n rd) s

/-- FMRDH: `R[rd] <- D[n][63:32]` (R257). -/
def execFmrdh (c : Cond) (rd : RReg) (n : DReg) (s : State) : Host.Outcome State Fault Refusal :=
  instruction c (.fmrdh c rd n) true (armFromHalf hiWord rd n) s

/-- FMXR: a system register from `R[rd]` (R261). -/
def execFmxr (c : Cond) (reg : SysReg) (rd : RReg) (s : State) : Host.Outcome State Fault Refusal :=
  instruction c (.fmxr c reg rd) false (systemFromArm (.fmxr c reg rd) reg rd) s

/-- FMRX: `R[rd]` from a system register (R259). -/
def execFmrx (c : Cond) (rd : RReg) (reg : SysReg) (s : State) : Host.Outcome State Fault Refusal :=
  instruction c (.fmrx c rd reg) false (armFromSystem (.fmrx c rd reg) rd reg) s

/-- FMSTAT: the CPSR flags from the FPSCR flags (R260). -/
def execFmstat (c : Cond) (s : State) : Host.Outcome State Fault Refusal :=
  instruction c (.fmstat c) false (fun s => .ok s.copyFlags) s

end Sys2Proof.Machine
end

