-- ==== Sys2Proof/Machine/TwoRegTransfer.lean ====
section
/-! DEFINITION. Two-register transfers (47_two_reg_transfer.md R277 to R280). Their refusals come in the order in which R276
lists them, and that the list is an order is DEDUCED; that `S[m]` is checked wholly before `S[m+1]` is a DESIGN CHOICE
(notes/assumptions/30.md). -/

namespace Sys2Proof.Machine

/-- `S[m]` and `S[m+1]` from two ARM registers. -/
def singlesFromArm (m : SReg) (rd rn : RReg) (s : State) : Except Stop State := do
  requireNoR15 rd rn
  let m' ← nextSingle m
  requireWhole (doubleOf m) s
  requireWhole (doubleOf m') s
  let order := pairOrder s rd rn
  .ok ((s.setReg .sgl m (s.armReg order.1)).setReg .sgl m' (s.armReg order.2))

/-- Two ARM registers from `S[m]` and `S[m+1]`. -/
def armFromSingles (rd rn : RReg) (m : SReg) (s : State) : Except Stop State := do
  requireNoR15 rd rn
  let m' ← nextSingle m
  requireDistinct rd rn
  let v ← readReg .sgl m s
  let v' ← readReg .sgl m' s
  let order := pairOrder s rd rn
  .ok ((s.setArm order.1 v).setArm order.2 v')

/-- `D[m]` from two ARM registers. -/
def doubleFromArm (m : DReg) (rd rn : RReg) (s : State) : Except Stop State := do
  requireNoR15 rd rn
  requireWhole m s
  .ok (s.setReg .dbl m (dwordOf (s.armReg rn) (s.armReg rd)))

/-- Two ARM registers from `D[m]`. -/
def armFromDouble (rd rn : RReg) (m : DReg) (s : State) : Except Stop State := do
  requireNoR15 rd rn
  requireDistinct rd rn
  let v ← readReg .dbl m s
  .ok ((s.setArm rd (loWord v)).setArm rn (hiWord v))

/-- FMSRR: `S[m] <- R[rn]`, `S[m+1] <- R[rd]`, or the other way (R277). -/
def execFmsrr (c : Cond) (m : SReg) (rd rn : RReg) (s : State) : Host.Outcome State Fault Refusal :=
  instruction c (.fmsrr c m rd rn) false (singlesFromArm m rd rn) s

/-- FMRRS: `R[rn] <- S[m]`, `R[rd] <- S[m+1]`, or the other way (R278). -/
def execFmrrs (c : Cond) (rd rn : RReg) (m : SReg) (s : State) : Host.Outcome State Fault Refusal :=
  instruction c (.fmrrs c rd rn m) false (armFromSingles rd rn m) s

/-- FMDRR: `D[m][31:0] <- R[rd]`, `D[m][63:32] <- R[rn]` (R279). -/
def execFmdrr (c : Cond) (m : DReg) (rd rn : RReg) (s : State) : Host.Outcome State Fault Refusal :=
  instruction c (.fmdrr c m rd rn) true (doubleFromArm m rd rn) s

/-- FMRRD: `R[rd] <- D[m][31:0]`, `R[rn] <- D[m][63:32]` (R280). -/
def execFmrrd (c : Cond) (rd rn : RReg) (m : DReg) (s : State) : Host.Outcome State Fault Refusal :=
  instruction c (.fmrrd c rd rn m) true (armFromDouble rd rn m) s

end Sys2Proof.Machine
end

