-- ==== Sys2Proof/Machine/Dispatch.lean ====
section
/-! DEFINITION. One arm for each instruction. -/

namespace Sys2Proof.Machine

def exec (i : Instr) (s : State) : Host.Outcome State Fault Refusal :=
  match i with
  | .fmacs c d n m => Sys2Proof.Machine.execFmacs c d n m s
  | .fmacd c d n m => Sys2Proof.Machine.execFmacd c d n m s
  | .fnmacs c d n m => Sys2Proof.Machine.execFnmacs c d n m s
  | .fnmacd c d n m => Sys2Proof.Machine.execFnmacd c d n m s
  | .fmscs c d n m => Sys2Proof.Machine.execFmscs c d n m s
  | .fmscd c d n m => Sys2Proof.Machine.execFmscd c d n m s
  | .fnmscs c d n m => Sys2Proof.Machine.execFnmscs c d n m s
  | .fnmscd c d n m => Sys2Proof.Machine.execFnmscd c d n m s
  | .fmuls c d n m => Sys2Proof.Machine.execFmuls c d n m s
  | .fmuld c d n m => Sys2Proof.Machine.execFmuld c d n m s
  | .fnmuls c d n m => Sys2Proof.Machine.execFnmuls c d n m s
  | .fnmuld c d n m => Sys2Proof.Machine.execFnmuld c d n m s
  | .fadds c d n m => Sys2Proof.Machine.execFadds c d n m s
  | .faddd c d n m => Sys2Proof.Machine.execFaddd c d n m s
  | .fsubs c d n m => Sys2Proof.Machine.execFsubs c d n m s
  | .fsubd c d n m => Sys2Proof.Machine.execFsubd c d n m s
  | .fdivs c d n m => Sys2Proof.Machine.execFdivs c d n m s
  | .fdivd c d n m => Sys2Proof.Machine.execFdivd c d n m s
  | .fcpys c d m => Sys2Proof.Machine.execFcpys c d m s
  | .fcpyd c d m => Sys2Proof.Machine.execFcpyd c d m s
  | .fabss c d m => Sys2Proof.Machine.execFabss c d m s
  | .fabsd c d m => Sys2Proof.Machine.execFabsd c d m s
  | .fnegs c d m => Sys2Proof.Machine.execFnegs c d m s
  | .fnegd c d m => Sys2Proof.Machine.execFnegd c d m s
  | .fsqrts c d m => Sys2Proof.Machine.execFsqrts c d m s
  | .fsqrtd c d m => Sys2Proof.Machine.execFsqrtd c d m s
  | .fcmps c d m => Sys2Proof.Machine.execFcmps c d m s
  | .fcmpd c d m => Sys2Proof.Machine.execFcmpd c d m s
  | .fcmpes c d m => Sys2Proof.Machine.execFcmpes c d m s
  | .fcmped c d m => Sys2Proof.Machine.execFcmped c d m s
  | .fcmpzs c d => Sys2Proof.Machine.execFcmpzs c d s
  | .fcmpzd c d => Sys2Proof.Machine.execFcmpzd c d s
  | .fcmpezs c d => Sys2Proof.Machine.execFcmpezs c d s
  | .fcmpezd c d => Sys2Proof.Machine.execFcmpezd c d s
  | .fcvtds c d m => Sys2Proof.Machine.execFcvtds c d m s
  | .fcvtsd c d m => Sys2Proof.Machine.execFcvtsd c d m s
  | .fuitos c d m => Sys2Proof.Machine.execFuitos c d m s
  | .fuitod c d m => Sys2Proof.Machine.execFuitod c d m s
  | .fsitos c d m => Sys2Proof.Machine.execFsitos c d m s
  | .fsitod c d m => Sys2Proof.Machine.execFsitod c d m s
  | .ftouis c d m => Sys2Proof.Machine.execFtouis c d m s
  | .ftouid c d m => Sys2Proof.Machine.execFtouid c d m s
  | .ftouizs c d m => Sys2Proof.Machine.execFtouizs c d m s
  | .ftouizd c d m => Sys2Proof.Machine.execFtouizd c d m s
  | .ftosis c d m => Sys2Proof.Machine.execFtosis c d m s
  | .ftosid c d m => Sys2Proof.Machine.execFtosid c d m s
  | .ftosizs c d m => Sys2Proof.Machine.execFtosizs c d m s
  | .ftosizd c d m => Sys2Proof.Machine.execFtosizd c d m s
  | .flds c up d rn offset => Sys2Proof.Machine.execFlds c up d rn offset s
  | .fsts c up d rn offset => Sys2Proof.Machine.execFsts c up d rn offset s
  | .fldd c up d rn offset => Sys2Proof.Machine.execFldd c up d rn offset s
  | .fstd c up d rn offset => Sys2Proof.Machine.execFstd c up d rn offset s
  | .fldmsUnindexed c d rn offset => Sys2Proof.Machine.execFldmsUnindexed c d rn offset s
  | .fldmsIncrement c d rn offset => Sys2Proof.Machine.execFldmsIncrement c d rn offset s
  | .fldmsDecrement c d rn offset => Sys2Proof.Machine.execFldmsDecrement c d rn offset s
  | .fstmsUnindexed c d rn offset => Sys2Proof.Machine.execFstmsUnindexed c d rn offset s
  | .fstmsIncrement c d rn offset => Sys2Proof.Machine.execFstmsIncrement c d rn offset s
  | .fstmsDecrement c d rn offset => Sys2Proof.Machine.execFstmsDecrement c d rn offset s
  | .fldmdUnindexed c d rn offset => Sys2Proof.Machine.execFldmdUnindexed c d rn offset s
  | .fldmdIncrement c d rn offset => Sys2Proof.Machine.execFldmdIncrement c d rn offset s
  | .fldmdDecrement c d rn offset => Sys2Proof.Machine.execFldmdDecrement c d rn offset s
  | .fstmdUnindexed c d rn offset => Sys2Proof.Machine.execFstmdUnindexed c d rn offset s
  | .fstmdIncrement c d rn offset => Sys2Proof.Machine.execFstmdIncrement c d rn offset s
  | .fstmdDecrement c d rn offset => Sys2Proof.Machine.execFstmdDecrement c d rn offset s
  | .fldmxUnindexed c d rn offset => Sys2Proof.Machine.execFldmxUnindexed c d rn offset s
  | .fldmxIncrement c d rn offset => Sys2Proof.Machine.execFldmxIncrement c d rn offset s
  | .fldmxDecrement c d rn offset => Sys2Proof.Machine.execFldmxDecrement c d rn offset s
  | .fstmxUnindexed c d rn offset => Sys2Proof.Machine.execFstmxUnindexed c d rn offset s
  | .fstmxIncrement c d rn offset => Sys2Proof.Machine.execFstmxIncrement c d rn offset s
  | .fstmxDecrement c d rn offset => Sys2Proof.Machine.execFstmxDecrement c d rn offset s
  | .fmstat c => Sys2Proof.Machine.execFmstat c s
  | .fmsr c n rd => Sys2Proof.Machine.execFmsr c n rd s
  | .fmrs c rd n => Sys2Proof.Machine.execFmrs c rd n s
  | .fmxr c reg rd => Sys2Proof.Machine.execFmxr c reg rd s
  | .fmrx c rd reg => Sys2Proof.Machine.execFmrx c rd reg s
  | .fmdlr c n rd => Sys2Proof.Machine.execFmdlr c n rd s
  | .fmrdl c rd n => Sys2Proof.Machine.execFmrdl c rd n s
  | .fmdhr c n rd => Sys2Proof.Machine.execFmdhr c n rd s
  | .fmrdh c rd n => Sys2Proof.Machine.execFmrdh c rd n s
  | .fmsrr c m rd rn => Sys2Proof.Machine.execFmsrr c m rd rn s
  | .fmrrs c rd rn m => Sys2Proof.Machine.execFmrrs c rd rn m s
  | .fmdrr c m rd rn => Sys2Proof.Machine.execFmdrr c m rd rn s
  | .fmrrd c rd rn m => Sys2Proof.Machine.execFmrrd c rd rn m s

end Sys2Proof.Machine
end

