-- ==== Sys2Proof/Machine/Step.lean ====
section
/-! DEFINITION. One step: fetch, decode, execute. -/

namespace Sys2Proof.Machine

/-- One step of the machine: the instruction at the program counter, or the outcome of a word that is none. -/
def step (s : State) : Host.Outcome State Fault Refusal :=
  match fetch s with
  | .error r => .refused r
  | .ok w =>
    match decode w with
    | .ok i => exec i s
    | .error e => noInstruction e w s

/-- The state whose next instruction is the word with the bits of `w` below `nbits`: in the program text at the program
counter, if it is there, else as a program of that one word, loaded from outside the machine (notes/assumptions/6.md). -/
def State.withFetchWord (s : State) (nbits w : Nat) : State := placeWord (BitVec.ofNat 32 (w % 2 ^ nbits)) s

end Sys2Proof.Machine
end

