-- ==== Sys2Proof/Safety.lean ====
section
/-! DEFINITION. The terms in which claims about the machine are stated: when an instruction can run, what it leaves as it
was, and the invariant that every step keeps. -/

namespace Sys2Proof.Machine

/-! ### When an instruction can run -/

/-- The condition passes, and the variant has double precision if the instruction needs it (30_encoding.md R71, R96). -/
def Ready (c : Cond) (double : Bool) (s : State) : Prop :=
  conditionPassed c s.cpsr = true ∧ (double = true → s.cfg.hasDouble = true)

/-- No floating-point exception is trapped, the launch premise (60_exceptions.md R296). -/
def Untrapped (s : State) : Prop := s.fpscr.enables = .none

/-- `LEN` is scalar (40_basic_arith.md R113). -/
def Scalar (s : State) : Prop := s.fpscr.len = 0

/-- Word `j` has a value that a read other than of the precision `other` may see (10_state.md R23). -/
def WordReadable (other : Tag) (j : SReg) (s : State) : Prop :=
  s.tagAt j ≠ .none ∧ (s.cfg.overlap = .tagged → s.tagAt j ≠ other)

/-- The register may be read: it is no part of a half-written double, and its tags allow it (R23, R325). -/
def Readable (f : Fmt) (r : VReg f) (s : State) : Prop :=
  match f, r with
  | .sgl, r => s.pairAt (doubleOf r) = .whole ∧ WordReadable .dbl r s
  | .dbl, r => s.pairAt r = .whole ∧ WordReadable .sgl (loIndex r) s ∧ WordReadable .sgl (hiIndex r) s

/-- The register may be written: it is no part of a half-written double (R325). -/
def Writable (f : Fmt) (r : VReg f) (s : State) : Prop := s.pairAt (pairOf f r) = .whole

/-- FSTMX may store `D[n]`: every half that has been written has a value (R23, R325). -/
def Storable (n : DReg) (s : State) : Prop :=
  (s.pairAt n ≠ .highOnly → s.tagAt (loIndex n) ≠ .none) ∧ (s.pairAt n ≠ .lowOnly → s.tagAt (hiIndex n) ≠ .none)

/-- An ARM register other than `R15`. -/
def NotR15 (r : RReg) : Prop := r ≠ 15

/-- The operands of a load or store of `k` registers from number `first` up are none of those that 45_load_store.md R217 and
R218 refuse. -/
structure TransferOk (f : Fmt) (first k : Nat) (rn : RReg) (s : State) : Prop where
  base : rn ≠ 15
  some : 0 < k
  list : first + k ≤ regCount f
  aligned : (s.armReg rn).extractLsb' 0 2 = 0

/-- `MemMap` admits each of `n` words from `a` up (20_memory.md R60). -/
def Admitted (write : Bool) (a : Word) (n : Nat) (s : State) : Prop :=
  ∀ i, i < n → admits s.cfg.memMap write (wordAddr a i) = true

/-- Of `n` words from `a` up, the one `j` words above `a` is the lowest-addressed that `MemMap` refuses (60_exceptions.md
R294, R300). -/
structure LowestRefused (write : Bool) (a : Word) (n j : Nat) (s : State) : Prop where
  place : j < n
  refused : admits s.cfg.memMap write (wordAddr a j) = false
  lowest : ∀ l, l < n → admits s.cfg.memMap write (wordAddr a l) = false → (wordAddr a j).toNat ≤ (wordAddr a l).toNat

/-- None of `n` words from `a` up is in the program text (20_memory.md R64). -/
def OutsideText (a : Word) (n : Nat) (s : State) : Prop := ∀ i, i < n → inText s (wordAddr a i) = false

/-- A load of `k` registers from `first` up can run (45_load_store.md R218). -/
structure LoadReady (f : Fmt) (mode : AddrMode) (first k : Nat) (rn : RReg) (offset : BitVec 8) (s : State) : Prop where
  operands : TransferOk f first k rn s
  writable : ∀ i, i < k → Writable f (regAt f (first + i)) s
  admitted : Admitted false (startAddress mode (s.armReg rn) offset) (k * wordsOf f) s

/-- A store of `k` registers from `first` up can run (R218). -/
structure StoreReady (f : Fmt) (mode : AddrMode) (first k : Nat) (rn : RReg) (offset : BitVec 8) (s : State) : Prop where
  operands : TransferOk f first k rn s
  readable : ∀ i, i < k → Readable f (regAt f (first + i)) s
  admitted : Admitted true (startAddress mode (s.armReg rn) offset) (k * wordsOf f) s
  outsideText : OutsideText (startAddress mode (s.armReg rn) offset) (k * wordsOf f) s
  memory : s.mem.wf

/-- An FSTMX of `k` registers from `first` up can run: memory admits all `2k + 1` words (45_load_store.md R236). -/
structure UnknownStoreReady (mode : AddrMode) (first k : Nat) (rn : RReg) (offset : BitVec 8) (s : State) : Prop where
  operands : TransferOk .dbl first k rn s
  storable : ∀ i, i < k → Storable (regAt .dbl (first + i)) s
  admitted : Admitted true (startAddress mode (s.armReg rn) offset) (2 * k + 1) s
  outsideText : OutsideText (startAddress mode (s.armReg rn) offset) (imageSize s.cfg k) s
  memory : s.mem.wf

/-- An FLDMX of `k` registers from `first` up can run, up to the image it needs (R236, 70_reset_and_hazards.md R326). -/
structure UnknownLoadReady (mode : AddrMode) (first k : Nat) (rn : RReg) (offset : BitVec 8) (s : State) : Prop where
  operands : TransferOk .dbl first k rn s
  admitted : Admitted false (startAddress mode (s.armReg rn) offset) (2 * k + 1) s

/-- The word may be written to the FPSCR: reserved bits 27:26, 19, 14:13 and 6:5 are 0, the trap enables 15 and 12:8 are 0,
and `STRIDE`, bits 21:20, is not `01` or `10` (46_single_transfer.md R261). -/
structure FpscrAdmits (w : Word) : Prop where
  reserved : ∀ i, i ∈ [27, 26, 19, 14, 13, 6, 5] → w.getLsbD i = false
  enables : ∀ i, i ∈ [15, 12, 11, 10, 9, 8] → w.getLsbD i = false
  stride : w.getLsbD 21 = w.getLsbD 20

/-- The word of program text at the program counter is `w` (R322). -/
structure Fetched (w : Word) (s : State) : Prop where
  aligned : s.pc.extractLsb' 0 2 = 0
  place : ∃ k, (s.pc - s.textBase).toNat = 4 * k ∧ s.text[k]? = some w

/-! ### What an instruction leaves as it was -/

/-- The words of the register file that make up a register (10_state.md R22). -/
def wordsOfReg (f : Fmt) (r : VReg f) : List SReg :=
  match f, r with
  | .sgl, r => [r]
  | .dbl, r => [loIndex r, hiIndex r]

/-- The tag of a register written in the format (R23). -/
def tagOf : Fmt → Tag
  | .sgl => .sgl
  | .dbl => .dbl

/-- The words of `k` registers from number `i` up. -/
def wordsOfRegs (f : Fmt) (i k : Nat) : List SReg := (List.range k).flatMap fun j => wordsOfReg f (regAt f (i + j))

/-- What an instruction leaves as it was, FMXR to a sub-architecture defined register apart, and the program counter that every
instruction leaves: all but the listed words of the register file, the listed ARM registers, the FPSCR, the CPSR, pairing
states, memory and the model's own fields. -/
structure Frame (words : List SReg) (arms : List RReg) (s t : State) : Prop where
  vreg : ∀ j, j ∉ words → t.word j = s.word j
  tag : ∀ j, j ∉ words → t.tagAt j = s.tagAt j
  arm : ∀ r, r ≠ 15 → r ∉ arms → t.armReg r = s.armReg r
  pc : t.pc = s.pc + 4
  fpsid : t.fpsid = s.fpsid
  fpexc : t.fpexc = s.fpexc
  subArch : t.subArch = s.subArch
  textBase : t.textBase = s.textBase
  text : t.text = s.text
  cfg : t.cfg = s.cfg

/-- Memory, the FSTMX images and the count of free values are as they were. -/
structure MemoryKept (s t : State) : Prop where
  bytes : ∀ a, readByte a t.mem = readByte a s.mem
  images : t.images = s.images
  freeNext : t.freeNext = s.freeNext

/-- The instruction changes registers and the FPSCR only. -/
structure RegistersOnly (words : List SReg) (arms : List RReg) (s t : State) : Prop where
  frame : Frame words arms s t
  memory : MemoryKept s t
  pair : t.pair = s.pair
  cpsr : t.cpsr = s.cpsr

/-- The FPSCR after an operation that signals `e`: the cumulative flags of `e` set, all else kept (60_exceptions.md R297). -/
def Signalled (e : ExcSet) (s t : State) : Prop :=
  t.fpscr = { s.fpscr with cumulative := s.fpscr.cumulative.union e }

/-- A result written to a register, its exceptions signalled, and nothing else changed (40_basic_arith.md R121). -/
structure Delivered (f : Fmt) (d : VReg f) (r : FpResult f) (s t : State) : Prop where
  value : t.rawReg f d = r.val
  tags : ∀ j, j ∈ wordsOfReg f d → t.tagAt j = tagOf f
  signalled : Signalled r.exc s t
  rest : RegistersOnly (wordsOfReg f d) [] s t

/-- The result of a comparison in the FPSCR flags, its exceptions signalled, and nothing else changed (42_compare.md R151,
R152). -/
structure Compared (r : CompareResult) (s t : State) : Prop where
  fpscr : t.fpscr = { s.fpscr with flags := relationFlags r.relation, cumulative := s.fpscr.cumulative.union r.exc }
  rest : RegistersOnly [] [] s t

/-- The registers of a list loaded with the given values and tags, and the base register written back (45_load_store.md
R218): nothing else changes. -/
structure Loaded (f : Fmt) (first : Nat) (vs : List (Pat f)) (rn : RReg) (wb : Option Word) (s t : State) : Prop where
  values : ∀ i v, vs[i]? = some v → t.rawReg f (regAt f (first + i)) = v
  tags : ∀ j, j ∈ wordsOfRegs f first vs.length → t.tagAt j = tagOf f
  base : t.armReg rn = wb.getD (s.armReg rn)
  fpscr : t.fpscr = s.fpscr
  rest : RegistersOnly (wordsOfRegs f first vs.length) [rn] s t

/-- The byte address is one of the `4 * n` bytes of the `n` words from `a` up. -/
def InBlock (a : Word) (n : Nat) (byte : Nat) : Prop := ∃ i, i < 4 * n ∧ byte = byteAddr a i

/-- A list of values stored at `start`, the given images recorded, and the base register written back (45_load_store.md R218,
R236): nothing else changes. -/
structure Stored (f : Fmt) (start : Word) (vs : List (Pat f)) (images : List FstmxImage) (rn : RReg) (wb : Option Word)
    (s t : State) : Prop where
  values : loadPats f s.cfg.bigEnd start vs.length t.mem = vs
  bytes : ∀ a, ¬InBlock start (vs.length * wordsOf f) a → readByte a t.mem = readByte a s.mem
  images : t.images = images ++ untouched s.images start (vs.length * wordsOf f)
  base : t.armReg rn = wb.getD (s.armReg rn)
  fpscr : t.fpscr = s.fpscr
  cpsr : t.cpsr = s.cpsr
  pair : t.pair = s.pair
  freeNext : t.freeNext = s.freeNext
  frame : Frame [] [rn] s t

/-- The images that an FSTMD of the values `vs` from `D[d]` up leaves: one in the recommended format, whose FLDMX may match
it, and none in any other (45_load_store.md R236, last paragraph; notes/assumptions/13.md). -/
def fstmdImages (cfg : Config) (d : DReg) (start : Word) (vs : List DWord) : List FstmxImage :=
  if cfg.fstmxFormat = .standard then
    [{ start := start, first := d, words := imageWords vs, pairs := List.replicate vs.length .whole }]
  else []

/-- What an FSTMX of `k` registers from `d` up leaves (45_load_store.md R236, 70_reset_and_hazards.md R325): the image it
records, the words of memory it may write, its half-written registers free for other purposes, and nothing else changed. -/
structure StoredUnknown (d : DReg) (k : Nat) (start : Word) (rn : RReg) (wb : Option Word) (s t : State) : Prop where
  images : t.images =
    { start := start, first := d
      words := imageWords ((List.range k).map fun i => s.rawDouble (regAt .dbl (d.val + i)))
      pairs := (List.range k).map fun i => s.pairAt (regAt .dbl (d.val + i)) } :: untouched s.images start (imageSize s.cfg k)
  standard : s.cfg.fstmxFormat = .standard →
    loadPats .dbl s.cfg.bigEnd start k t.mem = (List.range k).map fun i => s.rawDouble (regAt .dbl (d.val + i))
  bytes : ∀ a, ¬InBlock start (imageSize s.cfg k) a → readByte a t.mem = readByte a s.mem
  words : ∀ j, t.word j = s.word j
  released : ∀ i, i < k → s.pairAt (regAt .dbl (d.val + i)) ≠ .whole →
    t.tagAt (loIndex (regAt .dbl (d.val + i))) = .none ∧ t.tagAt (hiIndex (regAt .dbl (d.val + i))) = .none
  kept : ∀ n, s.pairAt n = .whole → t.tagAt (loIndex n) = s.tagAt (loIndex n) ∧ t.tagAt (hiIndex n) = s.tagAt (hiIndex n)
  whole : ∀ i, i < k → t.pairAt (regAt .dbl (d.val + i)) = .whole
  pair : ∀ n, (∀ i, i < k → n ≠ regAt .dbl (d.val + i)) → t.pairAt n = s.pairAt n
  base : t.armReg rn = wb.getD (s.armReg rn)
  fpscr : t.fpscr = s.fpscr
  cpsr : t.cpsr = s.cpsr
  freeNext : t.freeNext = s.freeNext + imageFrees s.cfg k
  frame : Frame (wordsOfRegs .dbl d.val k) [rn] s t

/-- What an FLDMX leaves that restores registers from `d` up with the given words and pairing states (R236, R325). -/
structure LoadedUnknown (d : DReg) (words : List Word) (pairs : List Pairing) (rn : RReg) (wb : Option Word) (s t : State) :
    Prop where
  lo : ∀ i w, i < pairs.length → words[2 * i]? = some w → t.word (loIndex (regAt .dbl (d.val + i))) = w
  hi : ∀ i w, i < pairs.length → words[2 * i + 1]? = some w → t.word (hiIndex (regAt .dbl (d.val + i))) = w
  tagLo : ∀ i p, pairs[i]? = some p → t.tagAt (loIndex (regAt .dbl (d.val + i))) = if p = .highOnly then .none else .any
  tagHi : ∀ i p, pairs[i]? = some p → t.tagAt (hiIndex (regAt .dbl (d.val + i))) = if p = .lowOnly then .none else .any
  pairing : ∀ i p, pairs[i]? = some p → t.pairAt (regAt .dbl (d.val + i)) = p
  pair : ∀ n, (∀ i, i < pairs.length → n ≠ regAt .dbl (d.val + i)) → t.pairAt n = s.pairAt n
  base : t.armReg rn = wb.getD (s.armReg rn)
  fpscr : t.fpscr = s.fpscr
  cpsr : t.cpsr = s.cpsr
  memory : MemoryKept s t
  frame : Frame (wordsOfRegs .dbl d.val pairs.length) [rn] s t

end Sys2Proof.Machine

namespace Sys2Proof

open Machine

/-! ### Classes of instructions -/

/-- The families of 00_scope.md R3, one for each of the spec's files 40 to 47; file 45 has loads and stores. -/
inductive InstrClass where
  | basic
  | multiplyAccumulate
  | compare
  | convert
  | copy
  | load
  | store
  | singleTransfer
  | twoRegisterTransfer
deriving DecidableEq, Repr

/-- The family of an instruction (30_encoding.md R90). -/
def Instr.cls : Instr → InstrClass
  | .fmacs _ _ _ _ => .multiplyAccumulate
  | .fmacd _ _ _ _ => .multiplyAccumulate
  | .fnmacs _ _ _ _ => .multiplyAccumulate
  | .fnmacd _ _ _ _ => .multiplyAccumulate
  | .fmscs _ _ _ _ => .multiplyAccumulate
  | .fmscd _ _ _ _ => .multiplyAccumulate
  | .fnmscs _ _ _ _ => .multiplyAccumulate
  | .fnmscd _ _ _ _ => .multiplyAccumulate
  | .fmuls _ _ _ _ => .basic
  | .fmuld _ _ _ _ => .basic
  | .fnmuls _ _ _ _ => .basic
  | .fnmuld _ _ _ _ => .basic
  | .fadds _ _ _ _ => .basic
  | .faddd _ _ _ _ => .basic
  | .fsubs _ _ _ _ => .basic
  | .fsubd _ _ _ _ => .basic
  | .fdivs _ _ _ _ => .basic
  | .fdivd _ _ _ _ => .basic
  | .fcpys _ _ _ => .copy
  | .fcpyd _ _ _ => .copy
  | .fabss _ _ _ => .copy
  | .fabsd _ _ _ => .copy
  | .fnegs _ _ _ => .copy
  | .fnegd _ _ _ => .copy
  | .fsqrts _ _ _ => .basic
  | .fsqrtd _ _ _ => .basic
  | .fcmps _ _ _ => .compare
  | .fcmpd _ _ _ => .compare
  | .fcmpes _ _ _ => .compare
  | .fcmped _ _ _ => .compare
  | .fcmpzs _ _ => .compare
  | .fcmpzd _ _ => .compare
  | .fcmpezs _ _ => .compare
  | .fcmpezd _ _ => .compare
  | .fcvtds _ _ _ => .convert
  | .fcvtsd _ _ _ => .convert
  | .fuitos _ _ _ => .convert
  | .fuitod _ _ _ => .convert
  | .fsitos _ _ _ => .convert
  | .fsitod _ _ _ => .convert
  | .ftouis _ _ _ => .convert
  | .ftouid _ _ _ => .convert
  | .ftouizs _ _ _ => .convert
  | .ftouizd _ _ _ => .convert
  | .ftosis _ _ _ => .convert
  | .ftosid _ _ _ => .convert
  | .ftosizs _ _ _ => .convert
  | .ftosizd _ _ _ => .convert
  | .flds _ _ _ _ _ => .load
  | .fsts _ _ _ _ _ => .store
  | .fldd _ _ _ _ _ => .load
  | .fstd _ _ _ _ _ => .store
  | .fldmsUnindexed _ _ _ _ => .load
  | .fldmsIncrement _ _ _ _ => .load
  | .fldmsDecrement _ _ _ _ => .load
  | .fstmsUnindexed _ _ _ _ => .store
  | .fstmsIncrement _ _ _ _ => .store
  | .fstmsDecrement _ _ _ _ => .store
  | .fldmdUnindexed _ _ _ _ => .load
  | .fldmdIncrement _ _ _ _ => .load
  | .fldmdDecrement _ _ _ _ => .load
  | .fstmdUnindexed _ _ _ _ => .store
  | .fstmdIncrement _ _ _ _ => .store
  | .fstmdDecrement _ _ _ _ => .store
  | .fldmxUnindexed _ _ _ _ => .load
  | .fldmxIncrement _ _ _ _ => .load
  | .fldmxDecrement _ _ _ _ => .load
  | .fstmxUnindexed _ _ _ _ => .store
  | .fstmxIncrement _ _ _ _ => .store
  | .fstmxDecrement _ _ _ _ => .store
  | .fmstat _ => .singleTransfer
  | .fmsr _ _ _ => .singleTransfer
  | .fmrs _ _ _ => .singleTransfer
  | .fmxr _ _ _ => .singleTransfer
  | .fmrx _ _ _ => .singleTransfer
  | .fmdlr _ _ _ => .singleTransfer
  | .fmrdl _ _ _ => .singleTransfer
  | .fmdhr _ _ _ => .singleTransfer
  | .fmrdh _ _ _ => .singleTransfer
  | .fmsrr _ _ _ _ => .twoRegisterTransfer
  | .fmrrs _ _ _ _ => .twoRegisterTransfer
  | .fmdrr _ _ _ _ => .twoRegisterTransfer
  | .fmrrd _ _ _ _ => .twoRegisterTransfer

/-- The words of the VFP registers that an instruction reads or writes (R79, 45_load_store.md R217). -/
def Instr.words : Instr → List SReg
  | .fmacs _ d n m => [d, n, m]
  | .fmacd _ d n m => wordsOfReg .dbl d ++ wordsOfReg .dbl n ++ wordsOfReg .dbl m
  | .fnmacs _ d n m => [d, n, m]
  | .fnmacd _ d n m => wordsOfReg .dbl d ++ wordsOfReg .dbl n ++ wordsOfReg .dbl m
  | .fmscs _ d n m => [d, n, m]
  | .fmscd _ d n m => wordsOfReg .dbl d ++ wordsOfReg .dbl n ++ wordsOfReg .dbl m
  | .fnmscs _ d n m => [d, n, m]
  | .fnmscd _ d n m => wordsOfReg .dbl d ++ wordsOfReg .dbl n ++ wordsOfReg .dbl m
  | .fmuls _ d n m => [d, n, m]
  | .fmuld _ d n m => wordsOfReg .dbl d ++ wordsOfReg .dbl n ++ wordsOfReg .dbl m
  | .fnmuls _ d n m => [d, n, m]
  | .fnmuld _ d n m => wordsOfReg .dbl d ++ wordsOfReg .dbl n ++ wordsOfReg .dbl m
  | .fadds _ d n m => [d, n, m]
  | .faddd _ d n m => wordsOfReg .dbl d ++ wordsOfReg .dbl n ++ wordsOfReg .dbl m
  | .fsubs _ d n m => [d, n, m]
  | .fsubd _ d n m => wordsOfReg .dbl d ++ wordsOfReg .dbl n ++ wordsOfReg .dbl m
  | .fdivs _ d n m => [d, n, m]
  | .fdivd _ d n m => wordsOfReg .dbl d ++ wordsOfReg .dbl n ++ wordsOfReg .dbl m
  | .fcpys _ d m => [d, m]
  | .fcpyd _ d m => wordsOfReg .dbl d ++ wordsOfReg .dbl m
  | .fabss _ d m => [d, m]
  | .fabsd _ d m => wordsOfReg .dbl d ++ wordsOfReg .dbl m
  | .fnegs _ d m => [d, m]
  | .fnegd _ d m => wordsOfReg .dbl d ++ wordsOfReg .dbl m
  | .fsqrts _ d m => [d, m]
  | .fsqrtd _ d m => wordsOfReg .dbl d ++ wordsOfReg .dbl m
  | .fcmps _ d m => [d, m]
  | .fcmpd _ d m => wordsOfReg .dbl d ++ wordsOfReg .dbl m
  | .fcmpes _ d m => [d, m]
  | .fcmped _ d m => wordsOfReg .dbl d ++ wordsOfReg .dbl m
  | .fcmpzs _ d => [d]
  | .fcmpzd _ d => wordsOfReg .dbl d
  | .fcmpezs _ d => [d]
  | .fcmpezd _ d => wordsOfReg .dbl d
  | .fcvtds _ d m => wordsOfReg .dbl d ++ [m]
  | .fcvtsd _ d m => [d] ++ wordsOfReg .dbl m
  | .fuitos _ d m => [d, m]
  | .fuitod _ d m => wordsOfReg .dbl d ++ [m]
  | .fsitos _ d m => [d, m]
  | .fsitod _ d m => wordsOfReg .dbl d ++ [m]
  | .ftouis _ d m => [d, m]
  | .ftouid _ d m => [d] ++ wordsOfReg .dbl m
  | .ftouizs _ d m => [d, m]
  | .ftouizd _ d m => [d] ++ wordsOfReg .dbl m
  | .ftosis _ d m => [d, m]
  | .ftosid _ d m => [d] ++ wordsOfReg .dbl m
  | .ftosizs _ d m => [d, m]
  | .ftosizd _ d m => [d] ++ wordsOfReg .dbl m
  | .flds _ _ d _ _ => [d]
  | .fsts _ _ d _ _ => [d]
  | .fldd _ _ d _ _ => wordsOfReg .dbl d
  | .fstd _ _ d _ _ => wordsOfReg .dbl d
  | .fldmsUnindexed _ d _ offset => wordsOfRegs .sgl d.val offset.toNat
  | .fldmsIncrement _ d _ offset => wordsOfRegs .sgl d.val offset.toNat
  | .fldmsDecrement _ d _ offset => wordsOfRegs .sgl d.val offset.toNat
  | .fstmsUnindexed _ d _ offset => wordsOfRegs .sgl d.val offset.toNat
  | .fstmsIncrement _ d _ offset => wordsOfRegs .sgl d.val offset.toNat
  | .fstmsDecrement _ d _ offset => wordsOfRegs .sgl d.val offset.toNat
  | .fldmdUnindexed _ d _ offset => wordsOfRegs .dbl d.val (offset.toNat / 2)
  | .fldmdIncrement _ d _ offset => wordsOfRegs .dbl d.val (offset.toNat / 2)
  | .fldmdDecrement _ d _ offset => wordsOfRegs .dbl d.val (offset.toNat / 2)
  | .fstmdUnindexed _ d _ offset => wordsOfRegs .dbl d.val (offset.toNat / 2)
  | .fstmdIncrement _ d _ offset => wordsOfRegs .dbl d.val (offset.toNat / 2)
  | .fstmdDecrement _ d _ offset => wordsOfRegs .dbl d.val (offset.toNat / 2)
  | .fldmxUnindexed _ d _ offset => wordsOfRegs .dbl d.val (unknownCount offset)
  | .fldmxIncrement _ d _ offset => wordsOfRegs .dbl d.val (unknownCount offset)
  | .fldmxDecrement _ d _ offset => wordsOfRegs .dbl d.val (unknownCount offset)
  | .fstmxUnindexed _ d _ offset => wordsOfRegs .dbl d.val (unknownCount offset)
  | .fstmxIncrement _ d _ offset => wordsOfRegs .dbl d.val (unknownCount offset)
  | .fstmxDecrement _ d _ offset => wordsOfRegs .dbl d.val (unknownCount offset)
  | .fmstat _ => []
  | .fmsr _ n _ => [n]
  | .fmrs _ _ n => [n]
  | .fmxr _ _ _ => []
  | .fmrx _ _ _ => []
  | .fmdlr _ n _ => wordsOfReg .dbl n
  | .fmrdl _ _ n => wordsOfReg .dbl n
  | .fmdhr _ n _ => wordsOfReg .dbl n
  | .fmrdh _ _ n => wordsOfReg .dbl n
  | .fmsrr _ m _ _ => wordsOfRegs .sgl m.val 2
  | .fmrrs _ _ _ m => wordsOfRegs .sgl m.val 2
  | .fmdrr _ m _ _ => wordsOfReg .dbl m
  | .fmrrd _ _ _ m => wordsOfReg .dbl m

/-- What a load or store transfers: `k` registers of a format from number `first` up, an addressing mode, the base register
and the offset field (R216, R217). -/
structure Transfer where
  format : Fmt
  mode : AddrMode
  first : Nat
  k : Nat
  rn : RReg
  offset : BitVec 8

/-- The transfer of a load or store other than FLDMX and FSTMX (30_encoding.md R82, 45_load_store.md R217). -/
def Instr.transfer : Instr → Option Transfer
  | .flds _ up d rn offset => some ⟨.sgl, offsetMode up, d.val, 1, rn, offset⟩
  | .fsts _ up d rn offset => some ⟨.sgl, offsetMode up, d.val, 1, rn, offset⟩
  | .fldd _ up d rn offset => some ⟨.dbl, offsetMode up, d.val, 1, rn, offset⟩
  | .fstd _ up d rn offset => some ⟨.dbl, offsetMode up, d.val, 1, rn, offset⟩
  | .fldmsUnindexed _ d rn offset => some ⟨.sgl, .unindexed, d.val, offset.toNat, rn, offset⟩
  | .fldmsIncrement _ d rn offset => some ⟨.sgl, .increment, d.val, offset.toNat, rn, offset⟩
  | .fldmsDecrement _ d rn offset => some ⟨.sgl, .decrement, d.val, offset.toNat, rn, offset⟩
  | .fstmsUnindexed _ d rn offset => some ⟨.sgl, .unindexed, d.val, offset.toNat, rn, offset⟩
  | .fstmsIncrement _ d rn offset => some ⟨.sgl, .increment, d.val, offset.toNat, rn, offset⟩
  | .fstmsDecrement _ d rn offset => some ⟨.sgl, .decrement, d.val, offset.toNat, rn, offset⟩
  | .fldmdUnindexed _ d rn offset => some ⟨.dbl, .unindexed, d.val, offset.toNat / 2, rn, offset⟩
  | .fldmdIncrement _ d rn offset => some ⟨.dbl, .increment, d.val, offset.toNat / 2, rn, offset⟩
  | .fldmdDecrement _ d rn offset => some ⟨.dbl, .decrement, d.val, offset.toNat / 2, rn, offset⟩
  | .fstmdUnindexed _ d rn offset => some ⟨.dbl, .unindexed, d.val, offset.toNat / 2, rn, offset⟩
  | .fstmdIncrement _ d rn offset => some ⟨.dbl, .increment, d.val, offset.toNat / 2, rn, offset⟩
  | .fstmdDecrement _ d rn offset => some ⟨.dbl, .decrement, d.val, offset.toNat / 2, rn, offset⟩
  | _ => none

/-- The transfer of an FLDMX or FSTMX (R217). -/
def Instr.unknownTransfer : Instr → Option Transfer
  | .fldmxUnindexed _ d rn offset => some ⟨.dbl, .unindexed, d.val, unknownCount offset, rn, offset⟩
  | .fldmxIncrement _ d rn offset => some ⟨.dbl, .increment, d.val, unknownCount offset, rn, offset⟩
  | .fldmxDecrement _ d rn offset => some ⟨.dbl, .decrement, d.val, unknownCount offset, rn, offset⟩
  | .fstmxUnindexed _ d rn offset => some ⟨.dbl, .unindexed, d.val, unknownCount offset, rn, offset⟩
  | .fstmxIncrement _ d rn offset => some ⟨.dbl, .increment, d.val, unknownCount offset, rn, offset⟩
  | .fstmxDecrement _ d rn offset => some ⟨.dbl, .decrement, d.val, unknownCount offset, rn, offset⟩
  | _ => none

/-- FSTMD. -/
def Instr.isFstmd : Instr → Prop
  | .fstmdUnindexed _ _ _ _ | .fstmdIncrement _ _ _ _ | .fstmdDecrement _ _ _ _ => True
  | _ => False

/-- The instruction, executed in a machine of the format, leaves an image of the transfer for an FLDMX: FSTMX in any format,
FSTMD in the recommended one (R236). -/
def Instr.LeavesImage (i : Instr) (format : FstmxFormat) (T : Transfer) : Prop :=
  i.cls = .store ∧ (i.unknownTransfer = some T ∨ (format = .standard ∧ i.isFstmd ∧ i.transfer = some T))

/-- FMDLR, FMDHR, FSTMX and FLDMX, the instructions that may name a half-written double (70_reset_and_hazards.md R325). -/
def Instr.mayNameHalf : Instr → Prop
  | .fmdlr _ _ _ | .fmdhr _ _ _ => True
  | .fstmxUnindexed _ _ _ _ | .fstmxIncrement _ _ _ _ | .fstmxDecrement _ _ _ _ => True
  | .fldmxUnindexed _ _ _ _ | .fldmxIncrement _ _ _ _ | .fldmxDecrement _ _ _ _ => True
  | _ => False

/-- FSTMX and FLDMX, which a variant without double precision has (30_encoding.md R96). -/
def Instr.isUnknownPrecision : Instr → Prop
  | .fstmxUnindexed _ _ _ _ | .fstmxIncrement _ _ _ _ | .fstmxDecrement _ _ _ _ => True
  | .fldmxUnindexed _ _ _ _ | .fldmxIncrement _ _ _ _ | .fldmxDecrement _ _ _ _ => True
  | _ => False

/-- FMXR to the FPSCR. -/
def Instr.writesFpscr : Instr → Prop
  | .fmxr _ .fpscr _ => True
  | _ => False

/-- FMSTAT. -/
def Instr.isFmstat : Instr → Prop
  | .fmstat _ => True
  | _ => False

/-- The instructions that a variant without double precision leaves UNDEFINED: those of coprocessor 11 but FSTMX and FLDMX, and
FCVTDS (30_encoding.md R96). -/
def Instr.needsDouble : Instr → Bool
  | .fmacd _ _ _ _ | .fnmacd _ _ _ _ | .fmscd _ _ _ _ | .fnmscd _ _ _ _ => true
  | .fmuld _ _ _ _ | .fnmuld _ _ _ _ | .faddd _ _ _ _ | .fsubd _ _ _ _ | .fdivd _ _ _ _ => true
  | .fcpyd _ _ _ | .fabsd _ _ _ | .fnegd _ _ _ | .fsqrtd _ _ _ => true
  | .fcmpd _ _ _ | .fcmped _ _ _ | .fcmpzd _ _ | .fcmpezd _ _ => true
  | .fcvtds _ _ _ | .fcvtsd _ _ _ | .fuitod _ _ _ | .fsitod _ _ _ => true
  | .ftouid _ _ _ | .ftouizd _ _ _ | .ftosid _ _ _ | .ftosizd _ _ _ => true
  | .fldd _ _ _ _ _ | .fstd _ _ _ _ _ => true
  | .fldmdUnindexed _ _ _ _ | .fldmdIncrement _ _ _ _ | .fldmdDecrement _ _ _ _ => true
  | .fstmdUnindexed _ _ _ _ | .fstmdIncrement _ _ _ _ | .fstmdDecrement _ _ _ _ => true
  | .fmdlr _ _ _ | .fmrdl _ _ _ | .fmdhr _ _ _ | .fmrdh _ _ _ | .fmdrr _ _ _ _ | .fmrrd _ _ _ _ => true
  | _ => false

/-- FCVTDS. -/
def Instr.isFcvtds : Instr → Prop
  | .fcvtds _ _ _ => True
  | _ => False

end Sys2Proof

namespace Sys2Proof.Machine

/-! ### Instruction words -/

/-- The word is in the space of the VFP: a condition, coprocessor 10 or 11, and one of the four formats' leading bits
(30_encoding.md R70, R91). -/
def VfpWord (w : Word) : Prop :=
  w.extractLsb' 28 4 ≠ 15 ∧ (w.extractLsb' 8 4 = 10 ∨ w.extractLsb' 8 4 = 11) ∧
    (w.extractLsb' 24 4 = 0b1110 ∨ w.extractLsb' 25 3 = 0b110)

/-- `p:q:r:s` of a word (R73). -/
abbrev pqrsOf (w : Word) : Nat := (w.extractLsb' 23 1 ++ w.extractLsb' 20 2 ++ w.extractLsb' 6 1).toNat

/-- `Fn:N` of a word (R78, R85). -/
abbrev extOf (w : Word) : Nat := (w.extractLsb' 16 4 ++ w.extractLsb' 7 1).toNat

/-- `P:U:W` of a word (R82). -/
abbrev puwOf (w : Word) : Nat := (w.extractLsb' 23 2 ++ w.extractLsb' 21 1).toNat

/-- The bits `D`, `N` and `M` of a word. -/
abbrev bitD (w : Word) : Bool := w.getLsbD 22
abbrev bitN (w : Word) : Bool := w.getLsbD 7
abbrev bitM (w : Word) : Bool := w.getLsbD 5

/-- Coprocessor 11, the double-precision space. -/
abbrev isCp11 (w : Word) : Bool := w.extractLsb' 8 4 == 11

/-- Item 3 of R92: the extra bit of a double-precision register operand is 1. The operands of a primary instruction are all
three; those of an extension instruction are as R76 lists them. -/
def doubleExtraBit (w : Word) : Bool :=
  if pqrsOf w ≤ 8 then isCp11 w && (bitD w || bitN w || bitM w)
  else if pqrsOf w = 15 then
    if isCp11 w then
      if [0, 1, 2, 3, 8, 9, 10, 11].contains (extOf w) then bitD w || bitM w
      else if [16, 17].contains (extOf w) then bitD w
      else if [15, 24, 25, 26, 27].contains (extOf w) then bitM w
      else false
    else extOf w == 15 && bitD w
  else false

/-- Items 1 to 3 of R92, the `DP` format. -/
def undefinedDp (w : Word) : Bool :=
  [9, 10, 11, 12, 13, 14].contains (pqrsOf w) ||
    (pqrsOf w == 15 && [4, 5, 6, 7, 12, 13, 14, 18, 19, 20, 21, 22, 23, 28, 29, 30, 31].contains (extOf w)) ||
    doubleExtraBit w

/-- Items 4, 5 and 9 of R92, the `LS` and `XFER2` formats. -/
def undefinedLs (w : Word) : Bool :=
  puwOf w == 1 || puwOf w == 7 || (puwOf w != 0 && isCp11 w && bitD w) ||
    (puwOf w == 0 && twoRegPattern w && isCp11 w && bitM w)

/-- Items 6, 7 and 8 of R92, the `XFER1` format. -/
def undefinedXfer1 (w : Word) : Bool :=
  let opcode := (w.extractLsb' 21 3).toNat
  (opcode == 1 && !isCp11 w) || [2, 3, 4, 5, 6].contains opcode || (opcode == 7 && isCp11 w) ||
    (isCp11 w && decide (opcode ≤ 1) && bitN w) ||
    (!isCp11 w && opcode == 7 && decide (extOf w < 16) && extOf w != 0 && extOf w != 2)

/-- The UNDEFINED encodings, the nine items of 30_encoding.md R92 on the bits of the word. -/
def undefinedWord (w : Word) : Bool :=
  if w.extractLsb' 24 4 == 0b1110 then
    if w.getLsbD 4 then undefinedXfer1 w else undefinedDp w
  else w.extractLsb' 25 3 == 0b110 && undefinedLs w

/-! ### Values of patterns, and rounding in the real numbers -/

/-- A zero, a denormalized or a normalized pattern (40_basic_arith.md R110). -/
def Numeric (f : Fmt) (a : Pat f) : Prop := expOf f a ≠ f.expOnes

/-- The value of a numeric pattern (R110). -/
def valueOf (f : Fmt) (a : Pat f) : ℚ :=
  (if signOf f a then -1 else 1) *
    (if expOf f a = 0 then (fracOf f a : ℚ) * 2 ^ (f.emin - f.fracBits)
    else ((2 ^ f.fracBits + fracOf f a : Nat) : ℚ) * 2 ^ ((expOf f a : Int) - f.emax - f.fracBits))

/-- The place of a pattern that is no NaN on the extended real line (R110). -/
def extendedValue (f : Fmt) (a : Pat f) : WithBot (WithTop ℚ) :=
  if isInf f a then (if signOf f a then ⊥ else ((⊤ : WithTop ℚ) : WithBot (WithTop ℚ)))
  else ((valueOf f a : WithTop ℚ) : WithBot (WithTop ℚ))

/-- `MaxNorm_F` (R110). -/
def maxNorm (f : Fmt) : ℚ := (2 - 2 ^ (-(f.fracBits : Int))) * 2 ^ f.emax

/-- `n * 2^q` is the multiple of `2^q` that the mode chooses for a value of the given sign and magnitude, one of the two
nearest, or the value itself if it is one (R112). -/
def Chosen (mode : RMode) (sign : Bool) (v : ℝ) (q : Int) (n : Nat) : Prop :=
  |v - n * 2 ^ q| < 2 ^ q ∧
  match mode with
  | .rn => |v - n * 2 ^ q| ≤ 2 ^ q / 2 ∧ (|v - n * 2 ^ q| = 2 ^ q / 2 → n % 2 = 0)
  | .rz => (n : ℝ) * 2 ^ q ≤ v
  | .rp => if sign then (n : ℝ) * 2 ^ q ≤ v else v ≤ n * 2 ^ q
  | .rm => if sign then v ≤ n * 2 ^ q else (n : ℝ) * 2 ^ q ≤ v

/-- `tiny`: smaller than `MinNorm_F` before rounding, or after rounding to the precision of the format with an exponent that
has no bound (R112, `TININESS`; the latter PRESUMED, notes/assumptions/9.md). -/
def Tiny (f : Fmt) (env : FpEnv) (sign : Bool) (v : ℝ) : Prop :=
  match env.cfg.tininess with
  | .beforeRounding => v < 2 ^ f.emin
  | .afterRounding => ∃ n : Nat, Chosen env.mode sign v (Int.log 2 v - f.fracBits) n ∧
      (n : ℝ) * 2 ^ (Int.log 2 v - f.fracBits) < 2 ^ f.emin

/-- The result of an overflow is an infinity, else `MaxNorm_F` (R112). -/
def overflowsToInfinity (mode : RMode) (sign : Bool) : Bool :=
  match mode with
  | .rn => true
  | .rz => false
  | .rp => !sign
  | .rm => sign

/-- The result is `Round_F` of the value with the given sign and the magnitude `v`, which is not 0 (R112, R114). -/
def RoundsTo (f : Fmt) (env : FpEnv) (sign : Bool) (v : ℝ) (r : FpResult f) : Prop :=
  if env.fz = true ∧ v < 2 ^ f.emin then
    r = ⟨zeroPat f (if env.cfg.fzSign = .keep then sign else false), env.cfg.fzResult⟩
  else
    ∃ n : Nat, ∃ q : Int, q = max (Int.log 2 v) f.emin - f.fracBits ∧ Chosen env.mode sign v q n ∧ signOf f r.val = sign ∧
      if (maxNorm f : ℝ) < n * 2 ^ q then
        r.exc = { ExcSet.none with overflow := true, inexact := true } ∧
          if overflowsToInfinity env.mode sign then isInf f r.val = true
          else Numeric f r.val ∧ |(valueOf f r.val : ℝ)| = maxNorm f
      else
        Numeric f r.val ∧ |(valueOf f r.val : ℝ)| = n * 2 ^ q ∧
          ∃ underflow inexact : Bool,
            r.exc = { ExcSet.none with underflow := underflow, inexact := inexact } ∧
              (inexact = true ↔ (n : ℝ) * 2 ^ q ≠ v) ∧ (underflow = true ↔ Tiny f env sign v ∧ (n : ℝ) * 2 ^ q ≠ v)

/-- The exceptions of an operation, once a denormalized operand has been flushed: what the flush signals is added, but
Invalid Operation and Division by Zero come alone (R115, 60_exceptions.md R300). -/
def withFlush (signals e : ExcSet) : ExcSet := if e.invalidOp || e.divByZero then e else e.union signals

/-- The integer that the mode chooses for a value (43_convert.md R175). -/
def IntChosen (mode : RMode) (v : ℚ) (i : Int) : Prop :=
  match mode with
  | .rn => |v - i| ≤ 1 / 2 ∧ (|v - i| = 1 / 2 → i % 2 = 0)
  | .rz => |(i : ℚ)| ≤ |v| ∧ |v| < |(i : ℚ)| + 1 ∧ 0 ≤ i * v
  | .rp => i = ⌈v⌉
  | .rm => i = ⌊v⌋

/-! ### Outcomes and memory -/

/-- The outcome with another memory in its next state. -/
def withMemory (m : Memory) : Host.Outcome State Fault Refusal → Host.Outcome State Fault Refusal
  | .next t => .next { t with mem := m }
  | .fault f => .fault f
  | .refused r => .refused r

/-! ### Executions -/

/-- One instruction after another: each answers a next state. -/
def runs : List Instr → State → State → Prop
  | [], s, t => t = s
  | i :: is, s, t => ∃ u, exec i s = .next u ∧ runs is u t

/-! ### The invariant -/

/-- An image that the machine keeps: its lists fit each other and the register file (45_load_store.md R236). -/
structure ImageOk (img : FstmxImage) : Prop where
  words : img.words.length = 2 * img.pairs.length
  some : 0 < img.pairs.length
  list : img.first.val + img.pairs.length ≤ 16

/-- What holds of every state the machine reaches. -/
structure Inv (s : State) : Prop where
  /-- Memory is in its canonical form. -/
  memory : s.mem.wf
  /-- The program counter is word-aligned (10_state.md R27). -/
  pc : s.pc.extractLsb' 0 2 = 0
  /-- No trap is enabled (60_exceptions.md R296). -/
  enables : s.fpscr.enables = .none
  /-- `STRIDE` is not one of the codes that are not permitted (10_state.md R31). -/
  stride : s.fpscr.stride = 0 ∨ s.fpscr.stride = 3
  /-- FPEXC keeps its launch value (10_state.md R37). -/
  fpexc : s.fpexc = fpexcLaunch
  /-- The written half of a half-written double has a value (70_reset_and_hazards.md R325). -/
  halves : ∀ n : DReg, (s.pairAt n = .lowOnly → s.tagAt (loIndex n) ≠ .none) ∧ (s.pairAt n = .highOnly → s.tagAt (hiIndex n) ≠ .none)
  /-- Without double precision no register is half-written (70_reset_and_hazards.md R325). -/
  singles : s.cfg.hasDouble = false → ∀ n : DReg, s.pairAt n = .whole
  /-- Nor is one in an image. -/
  imageSingles : s.cfg.hasDouble = false → ∀ img, img ∈ s.images → ∀ p, p ∈ img.pairs → p = .whole
  /-- The images are well-formed. -/
  images : ∀ img, img ∈ s.images → ImageOk img

end Sys2Proof.Machine
end

