-- ==== Sys2Proof/Certificates/Slice0/Obligations.lean ====
section
/-! DEFINITION. The statements for the provers. -/

open Sys2Proof Sys2Proof.Machine

/-! ### Encoding -/

/-- Decoding the word of a well-formed instruction gives the instruction (30_encoding.md R70, R75 to R90). -/
def Obligations.DecodeEncode : Prop := ∀ i : Instr, i.wellFormed = true → decode (encode i) = .ok i

/-- An instruction that the decoder answers is well-formed, and its word is the word decoded: no bit of a word is dropped
(30_encoding.md R91, R94). -/
def Obligations.EncodeDecode : Prop := ∀ w i, decode w = .ok i → i.wellFormed = true ∧ encode i = w

/-- Words of the spec's examples, one of each format and family, decode to the instruction they stand for. -/
def Obligations.ExampleWords : Prop :=
  decode 0xEE300A81#32 = .ok (.fadds .al 0 1 2) ∧
  decode 0xEE010B02#32 = .ok (.fmacd .al 0 1 2) ∧
  decode 0xEEB40A60#32 = .ok (.fcmps .al 0 1) ∧
  decode 0xEEF70BC0#32 = .ok (.fcvtsd .al 1 0) ∧
  decode 0xEEF0FA4F#32 = .ok (.fcpys .al 31 30) ∧
  decode 0xEDC22AFF#32 = .ok (.fsts .al true 5 2 255) ∧
  decode 0xECBD8B11#32 = .ok (.fldmxIncrement .al 8 13 17) ∧
  decode 0xEE213B10#32 = .ok (.fmdhr .al 1 3) ∧
  decode 0xEEF1FA10#32 = .ok (.fmstat .al) ∧
  decode 0xEC567A32#32 = .ok (.fmrrs .al 7 6 5)

/-- A word of the VFP's space is UNDEFINED exactly where 30_encoding.md R92 says so, and then, its condition passed, it takes
the Undefined Instruction exception. -/
def Obligations.UndefinedEncodings : Prop :=
  ∀ w : Word, VfpWord w →
    (decode w = .error .undefined ↔ undefinedWord w = true) ∧
    (undefinedWord w = true → ∀ c s, Fetched w s → condOf (w.extractLsb' 28 4) = some c →
      conditionPassed c s.cpsr = true → step s = .fault (.undefinedInstruction s.pc w))

/-! ### Steps -/

/-- A step runs the instruction decoded from the word at the program counter, and `withFetchWord` puts a word there. -/
def Obligations.StepRunsDecoded : Prop :=
  (∀ w i s, Fetched w s → decode w = .ok i → step s = exec i s) ∧
  (∀ nbits w i (s : State), s.pc.extractLsb' 0 2 = 0 → decodeTableWord nbits w = some i →
    step (s.withFetchWord nbits w) = exec i (s.withFetchWord nbits w))

/-- Where a step has no instruction to run (20_memory.md R55, 70_reset_and_hazards.md R322, 30_encoding.md R91). That a
misaligned program counter is refused as such outside the text as well, and that `MemMap` is not asked about a fetch, are the
model's choices (DESIGN CHOICE, notes/assumptions/21.md). -/
def Obligations.StepWithoutInstruction : Prop :=
  ∀ s : State,
    (s.pc.extractLsb' 0 2 ≠ 0 → step s = .refused .misalignedAccess) ∧
    (s.pc.extractLsb' 0 2 = 0 →
      ((s.pc - s.textBase).toNat = 4 * s.text.length → step s = .refused .finalState) ∧
      (4 * s.text.length < (s.pc - s.textBase).toNat ∨ (s.pc - s.textBase).toNat % 4 ≠ 0 →
        step s = .refused .outsideText)) ∧
    (∀ w, Fetched w s → ¬VfpWord w → step s = .refused .notVfp)

/-- An instruction whose condition fails does nothing except advance the program counter, whatever its other bits are
(30_encoding.md R71). -/
def Obligations.ConditionFailed : Prop :=
  (∀ w c s, Fetched w s → VfpWord w → condOf (w.extractLsb' 28 4) = some c → conditionPassed c s.cpsr = false →
    step s = .next { s with pc := s.pc + 4 }) ∧
  (∀ (i : Instr) s, conditionPassed i.cond s.cpsr = false → exec i s = .next { s with pc := s.pc + 4 })

/-- Every step that answers a next state advances the program counter by 4, modulo 2^32 (10_state.md R27). -/
def Obligations.PcAdvances : Prop := ∀ s t, step s = .next t → t.pc = s.pc + 4

/-- A variant without double precision has, of the coprocessor 11 instructions, FSTMX and FLDMX alone, and no FCVTDS
(30_encoding.md R96). -/
def Obligations.SinglePrecisionVariant : Prop :=
  ∀ w c s, Fetched w s → VfpWord w → condOf (w.extractLsb' 28 4) = some c → conditionPassed c s.cpsr = true →
    s.cfg.hasDouble = false →
    (isCp11 w = true ∧ (∀ i, decode w = .ok i → ¬i.isUnknownPrecision)) ∨ (∃ i, decode w = .ok i ∧ i.isFcvtds) →
    step s = .fault (.undefinedInstruction s.pc w)

/-- The state after reset. Of its values the spec gives the pairing states, FPEXC, `LEN` and the trap enables (10_state.md
R42, as launch premises); all other values are the model's choice (notes/assumptions/2.md, 3.md, 4.md). The ARM
registers named are R0 to R14, since `R15` is the program counter (R25). -/
def Obligations.ResetState : Prop :=
  (∀ n, State.reset.pairAt n = .whole) ∧ State.reset.fpexc = 0x40000000 ∧ State.reset.fpscr.len = 0 ∧
  State.reset.fpscr.enables = .none ∧
  (∀ j, State.reset.word j = 0 ∧ State.reset.tagAt j = .any) ∧ (∀ r, r ≠ 15 → State.reset.armReg r = 0) ∧
  State.reset.fpscr.word = 0 ∧ State.reset.cpsr = .clear ∧ State.reset.fpsid = 0 ∧ State.reset.mem = [] ∧
  State.reset.images = [] ∧ State.reset.text = [] ∧ State.reset.pc = 0x8000 ∧ State.reset.textBase = 0x8000 ∧
  State.reset.cfg = .default ∧ State.reset.freeNext = 0 ∧ ∀ low, State.reset.subArchReg low = 0

/-- The invariant holds after reset. -/
def Obligations.ResetInvariant : Prop := Machine.Inv State.reset

/-- Every step keeps the invariant: memory in its canonical form (notes/assumptions/5.md), the program counter aligned
(10_state.md R27), no trap enabled (60_exceptions.md R296), `STRIDE` and FPEXC as FMXR may leave them (10_state.md R37,
46_single_transfer.md R261), half-written registers as 70_reset_and_hazards.md R325 says, FSTMX images well-formed. -/
def Obligations.StepKeepsInvariant : Prop := ∀ s t, Machine.Inv s → step s = .next t → Machine.Inv t

/-! ### What no instruction but a few changes -/

/-- Instructions other than loads and stores neither read nor write memory (20_memory.md R51). -/
def Obligations.MemoryOnlyByLoadsAndStores : Prop :=
  ∀ (i : Instr) s m, i.cls ≠ .load → i.cls ≠ .store → exec i { s with mem := m } = withMemory m (exec i s)

/-- A load changes no byte of memory, and a store only bytes of its own words, from the start address of 45_load_store.md
R216 up; for FSTMX, of the `2k + 1` words of R236. -/
def Obligations.StoresWriteTheirWords : Prop :=
  ∀ (i : Instr) s t, exec i s = .next t →
    (i.cls ≠ .store → ∀ a, readByte a t.mem = readByte a s.mem) ∧
    (∀ T, i.transfer = some T → ∀ a, ¬InBlock (startAddress T.mode (s.armReg T.rn) T.offset) (T.k * wordsOf T.format) a →
      readByte a t.mem = readByte a s.mem) ∧
    (∀ T, i.unknownTransfer = some T → ∀ a, ¬InBlock (startAddress T.mode (s.armReg T.rn) T.offset) (2 * T.k + 1) a →
      readByte a t.mem = readByte a s.mem)

/-- No well-formed instruction but FMSTAT writes the CPSR flags (10_state.md R26). -/
def Obligations.CpsrOnlyByFmstat : Prop :=
  ∀ (i : Instr) s t, i.wellFormed = true → ¬i.isFmstat → exec i s = .next t → t.cpsr = s.cpsr

/-- The FPSCR flags are written by the comparisons, which write one of four combinations, and by FMXR, which can write any of
the sixteen (10_state.md R32). -/
def Obligations.FlagWriters : Prop :=
  (∀ (i : Instr) s t, i.cls ≠ .compare → ¬i.writesFpscr → exec i s = .next t → t.fpscr.flags = s.fpscr.flags) ∧
  (∀ (i : Instr) s t, i.cls = .compare → conditionPassed i.cond s.cpsr = true → exec i s = .next t →
    t.fpscr.flags = ⟨false, true, true, false⟩ ∨ t.fpscr.flags = ⟨true, false, false, false⟩ ∨
      t.fpscr.flags = ⟨false, false, true, false⟩ ∨ t.fpscr.flags = ⟨false, false, true, true⟩) ∧
  (∀ f : Nzcv, ∃ w : Word, ∀ c rd s, Ready c false s → rd ≠ 15 → s.armReg rd = w →
    ∃ t, exec (.fmxr c .fpscr rd) s = .next t ∧ t.fpscr.flags = f)

/-- FMXR to the FPSCR is the only way to change a mode field and the only way to clear a cumulative flag
(46_single_transfer.md R261, 10_state.md R36). -/
def Obligations.FpscrControl : Prop :=
  ∀ (i : Instr) s t, ¬i.writesFpscr → exec i s = .next t →
    t.fpscr.dn = s.fpscr.dn ∧ t.fpscr.fz = s.fpscr.fz ∧ t.fpscr.rmode = s.fpscr.rmode ∧ t.fpscr.stride = s.fpscr.stride ∧
    t.fpscr.len = s.fpscr.len ∧ t.fpscr.enables = s.fpscr.enables ∧
    ∀ e, s.fpscr.cumulative.has e = true → t.fpscr.cumulative.has e = true

/-- Copies, loads, stores and transfers never signal a floating-point exception, whatever the trap enables
(60_exceptions.md R299). -/
def Obligations.NeverSignal : Prop :=
  ∀ (i : Instr) s, i.cls = .copy ∨ i.cls = .load ∨ i.cls = .store ∨ i.cls = .singleTransfer ∨ i.cls = .twoRegisterTransfer →
    (∀ e, exec i s ≠ .fault (.fpTrap e)) ∧
    (∀ t, exec i s = .next t → ¬i.writesFpscr → t.fpscr.cumulative = s.fpscr.cumulative)

/-- FPSID, FPEXC, the program text and the implementation parameters are constants of a run (10_state.md R29, R37,
20_memory.md R64, 00_scope.md R5). -/
def Obligations.ConstantsKept : Prop :=
  ∀ s t, step s = .next t →
    t.fpsid = s.fpsid ∧ t.fpexc = s.fpexc ∧ t.text = s.text ∧ t.textBase = s.textBase ∧ t.cfg = s.cfg

/-! ### What each instruction does: data-processing -/

/-- FADDS, FSUBS, FMULS, FNMULS, FDIVS, FSQRTS and their double-precision forms complete with the result and the exceptions of
the operation, and change nothing else (40_basic_arith.md R121 to R134). -/
def Obligations.BasicArithmetic : Prop :=
  (∀ c (d n m : SReg) s, Ready c false s → Untrapped s → Scalar s → Readable .sgl n s → Readable .sgl m s → Writable .sgl d s →
    (∃ t, exec (.fadds c d n m) s = .next t ∧ Delivered .sgl d (fpAdd .sgl (fpEnv s) (s.word n) (s.word m)) s t) ∧
    (∃ t, exec (.fsubs c d n m) s = .next t ∧ Delivered .sgl d (fpSub .sgl (fpEnv s) (s.word n) (s.word m)) s t) ∧
    (∃ t, exec (.fmuls c d n m) s = .next t ∧ Delivered .sgl d (fpMul .sgl (fpEnv s) (s.word n) (s.word m)) s t) ∧
    (∃ t, exec (.fnmuls c d n m) s = .next t ∧ Delivered .sgl d (fpMul .sgl (fpEnv s) (s.word n) (s.word m)).neg s t) ∧
    (∃ t, exec (.fdivs c d n m) s = .next t ∧ Delivered .sgl d (fpDiv .sgl (fpEnv s) (s.word n) (s.word m)) s t)) ∧
  (∀ c (d m : SReg) s, Ready c false s → Untrapped s → Scalar s → Readable .sgl m s → Writable .sgl d s →
    ∃ t, exec (.fsqrts c d m) s = .next t ∧ Delivered .sgl d (fpSqrt .sgl (fpEnv s) (s.word m)) s t) ∧
  (∀ c (d n m : DReg) s, Ready c true s → Untrapped s → Scalar s → Readable .dbl n s → Readable .dbl m s → Writable .dbl d s →
    (∃ t, exec (.faddd c d n m) s = .next t ∧
      Delivered .dbl d (fpAdd .dbl (fpEnv s) (s.rawDouble n) (s.rawDouble m)) s t) ∧
    (∃ t, exec (.fsubd c d n m) s = .next t ∧
      Delivered .dbl d (fpSub .dbl (fpEnv s) (s.rawDouble n) (s.rawDouble m)) s t) ∧
    (∃ t, exec (.fmuld c d n m) s = .next t ∧
      Delivered .dbl d (fpMul .dbl (fpEnv s) (s.rawDouble n) (s.rawDouble m)) s t) ∧
    (∃ t, exec (.fnmuld c d n m) s = .next t ∧
      Delivered .dbl d (fpMul .dbl (fpEnv s) (s.rawDouble n) (s.rawDouble m)).neg s t) ∧
    (∃ t, exec (.fdivd c d n m) s = .next t ∧
      Delivered .dbl d (fpDiv .dbl (fpEnv s) (s.rawDouble n) (s.rawDouble m)) s t)) ∧
  (∀ c (d m : DReg) s, Ready c true s → Untrapped s → Scalar s → Readable .dbl m s → Writable .dbl d s →
    ∃ t, exec (.fsqrtd c d m) s = .next t ∧ Delivered .dbl d (fpSqrt .dbl (fpEnv s) (s.rawDouble m)) s t)

/-- The eight multiply-accumulates complete with the result of the two roundings and the exceptions of both, and change nothing
else (41_mac.md R140 to R148). -/
def Obligations.MultiplyAccumulate : Prop :=
  (∀ c (d n m : SReg) s, Ready c false s → Untrapped s → Scalar s → Readable .sgl d s → Readable .sgl n s → Readable .sgl m s →
    (∃ t, exec (.fmacs c d n m) s = .next t ∧
      Delivered .sgl d (fpMac .sgl (fpEnv s) false false (s.word d) (s.word n) (s.word m)) s t) ∧
    (∃ t, exec (.fnmacs c d n m) s = .next t ∧
      Delivered .sgl d (fpMac .sgl (fpEnv s) true false (s.word d) (s.word n) (s.word m)) s t) ∧
    (∃ t, exec (.fmscs c d n m) s = .next t ∧
      Delivered .sgl d (fpMac .sgl (fpEnv s) false true (s.word d) (s.word n) (s.word m)) s t) ∧
    (∃ t, exec (.fnmscs c d n m) s = .next t ∧
      Delivered .sgl d (fpMac .sgl (fpEnv s) true true (s.word d) (s.word n) (s.word m)) s t)) ∧
  (∀ c (d n m : DReg) s, Ready c true s → Untrapped s → Scalar s → Readable .dbl d s → Readable .dbl n s → Readable .dbl m s →
    (∃ t, exec (.fmacd c d n m) s = .next t ∧
      Delivered .dbl d (fpMac .dbl (fpEnv s) false false (s.rawDouble d) (s.rawDouble n) (s.rawDouble m)) s t) ∧
    (∃ t, exec (.fnmacd c d n m) s = .next t ∧
      Delivered .dbl d (fpMac .dbl (fpEnv s) true false (s.rawDouble d) (s.rawDouble n) (s.rawDouble m)) s t) ∧
    (∃ t, exec (.fmscd c d n m) s = .next t ∧
      Delivered .dbl d (fpMac .dbl (fpEnv s) false true (s.rawDouble d) (s.rawDouble n) (s.rawDouble m)) s t) ∧
    (∃ t, exec (.fnmscd c d n m) s = .next t ∧
      Delivered .dbl d (fpMac .dbl (fpEnv s) true true (s.rawDouble d) (s.rawDouble n) (s.rawDouble m)) s t))

/-- The eight comparisons complete, whatever `LEN`, with the relation in the FPSCR flags and their exceptions signalled, and
change nothing else (42_compare.md R151 to R160, R164). -/
def Obligations.Comparisons : Prop :=
  (∀ c (d m : SReg) s, Ready c false s → Untrapped s → Readable .sgl d s → Readable .sgl m s →
    (∃ t, exec (.fcmps c d m) s = .next t ∧ Compared (compareValues .sgl (fpEnv s) false (s.word d) (s.word m)) s t) ∧
    (∃ t, exec (.fcmpes c d m) s = .next t ∧ Compared (compareValues .sgl (fpEnv s) true (s.word d) (s.word m)) s t)) ∧
  (∀ c (d : SReg) s, Ready c false s → Untrapped s → Readable .sgl d s →
    (∃ t, exec (.fcmpzs c d) s = .next t ∧ Compared (compareValues .sgl (fpEnv s) false (s.word d) 0) s t) ∧
    (∃ t, exec (.fcmpezs c d) s = .next t ∧ Compared (compareValues .sgl (fpEnv s) true (s.word d) 0) s t)) ∧
  (∀ c (d m : DReg) s, Ready c true s → Untrapped s → Readable .dbl d s → Readable .dbl m s →
    (∃ t, exec (.fcmpd c d m) s = .next t ∧
      Compared (compareValues .dbl (fpEnv s) false (s.rawDouble d) (s.rawDouble m)) s t) ∧
    (∃ t, exec (.fcmped c d m) s = .next t ∧
      Compared (compareValues .dbl (fpEnv s) true (s.rawDouble d) (s.rawDouble m)) s t)) ∧
  (∀ c (d : DReg) s, Ready c true s → Untrapped s → Readable .dbl d s →
    (∃ t, exec (.fcmpzd c d) s = .next t ∧ Compared (compareValues .dbl (fpEnv s) false (s.rawDouble d) 0) s t) ∧
    (∃ t, exec (.fcmpezd c d) s = .next t ∧ Compared (compareValues .dbl (fpEnv s) true (s.rawDouble d) 0) s t))

/-- FCVTDS and FCVTSD complete, whatever `LEN`, with the converted value, and change nothing else (43_convert.md R171 to
R174). -/
def Obligations.PrecisionConversions : Prop :=
  (∀ c (d : DReg) (m : SReg) s, Ready c true s → Untrapped s → Readable .sgl m s → Writable .dbl d s →
    ∃ t, exec (.fcvtds c d m) s = .next t ∧ Delivered .dbl d (singleToDouble (fpEnv s) (s.word m)) s t) ∧
  (∀ c (d : SReg) (m : DReg) s, Ready c true s → Untrapped s → Readable .dbl m s → Writable .sgl d s →
    ∃ t, exec (.fcvtsd c d m) s = .next t ∧ Delivered .sgl d (doubleToSingle (fpEnv s) (s.rawDouble m)) s t)

/-- The eight float-to-integer conversions complete, whatever `LEN`, with the integer in a single-precision register: the Z
forms round towards zero, the others as the FPSCR says (43_convert.md R175 to R183). -/
def Obligations.IntegerResults : Prop :=
  (∀ c (d m : SReg) s, Ready c false s → Untrapped s → Readable .sgl m s → Writable .sgl d s →
    (∃ t, exec (.ftouis c d m) s = .next t ∧
      Delivered .sgl d (fpToInt .sgl (fpEnv s) true s.fpscr.rmode (s.word m)) s t) ∧
    (∃ t, exec (.ftouizs c d m) s = .next t ∧ Delivered .sgl d (fpToInt .sgl (fpEnv s) true .rz (s.word m)) s t) ∧
    (∃ t, exec (.ftosis c d m) s = .next t ∧
      Delivered .sgl d (fpToInt .sgl (fpEnv s) false s.fpscr.rmode (s.word m)) s t) ∧
    (∃ t, exec (.ftosizs c d m) s = .next t ∧ Delivered .sgl d (fpToInt .sgl (fpEnv s) false .rz (s.word m)) s t)) ∧
  (∀ c (d : SReg) (m : DReg) s, Ready c true s → Untrapped s → Readable .dbl m s → Writable .sgl d s →
    (∃ t, exec (.ftouid c d m) s = .next t ∧
      Delivered .sgl d (fpToInt .dbl (fpEnv s) true s.fpscr.rmode (s.rawDouble m)) s t) ∧
    (∃ t, exec (.ftouizd c d m) s = .next t ∧ Delivered .sgl d (fpToInt .dbl (fpEnv s) true .rz (s.rawDouble m)) s t) ∧
    (∃ t, exec (.ftosid c d m) s = .next t ∧
      Delivered .sgl d (fpToInt .dbl (fpEnv s) false s.fpscr.rmode (s.rawDouble m)) s t) ∧
    (∃ t, exec (.ftosizd c d m) s = .next t ∧ Delivered .sgl d (fpToInt .dbl (fpEnv s) false .rz (s.rawDouble m)) s t))

/-- FUITOS, FSITOS, FUITOD and FSITOD complete, whatever `LEN`, with the integer of a single-precision register converted
(43_convert.md R184 to R188). -/
def Obligations.IntegerOperands : Prop :=
  (∀ c (d m : SReg) s, Ready c false s → Untrapped s → Readable .sgl m s → Writable .sgl d s →
    (∃ t, exec (.fuitos c d m) s = .next t ∧ Delivered .sgl d (intToFp .sgl (fpEnv s) true (s.word m)) s t) ∧
    (∃ t, exec (.fsitos c d m) s = .next t ∧ Delivered .sgl d (intToFp .sgl (fpEnv s) false (s.word m)) s t)) ∧
  (∀ c (d : DReg) (m : SReg) s, Ready c true s → Untrapped s → Readable .sgl m s → Writable .dbl d s →
    (∃ t, exec (.fuitod c d m) s = .next t ∧ Delivered .dbl d (intToFp .dbl (fpEnv s) true (s.word m)) s t) ∧
    (∃ t, exec (.fsitod c d m) s = .next t ∧ Delivered .dbl d (intToFp .dbl (fpEnv s) false (s.word m)) s t))

/-- FCPY, FNEG and FABS complete, even with traps enabled, with the copied bits and the adjusted sign bit, and signal nothing
(44_copy.md R200 to R206). -/
def Obligations.Copies : Prop :=
  (∀ c (d m : SReg) s, Ready c false s → Scalar s → Readable .sgl m s → Writable .sgl d s →
    (∃ t, exec (.fcpys c d m) s = .next t ∧ Delivered .sgl d ⟨s.word m, .none⟩ s t) ∧
    (∃ t, exec (.fnegs c d m) s = .next t ∧ Delivered .sgl d ⟨s.word m ^^^ 0x80000000#32, .none⟩ s t) ∧
    (∃ t, exec (.fabss c d m) s = .next t ∧ Delivered .sgl d ⟨s.word m &&& 0x7FFFFFFF#32, .none⟩ s t)) ∧
  (∀ c (d m : DReg) s, Ready c true s → Scalar s → Readable .dbl m s → Writable .dbl d s →
    (∃ t, exec (.fcpyd c d m) s = .next t ∧ Delivered .dbl d ⟨s.rawDouble m, .none⟩ s t) ∧
    (∃ t, exec (.fnegd c d m) s = .next t ∧ Delivered .dbl d ⟨s.rawDouble m ^^^ 0x8000000000000000#64, .none⟩ s t) ∧
    (∃ t, exec (.fabsd c d m) s = .next t ∧ Delivered .dbl d ⟨s.rawDouble m &&& 0x7FFFFFFFFFFFFFFF#64, .none⟩ s t))

/-! ### What each instruction does: loads and stores -/

/-- FLDS, FLDD, FLDMS and FLDMD in each of their modes complete with the registers loaded from ascending addresses and the base
written back, and change nothing else (45_load_store.md R216 to R226). -/
def Obligations.Loads : Prop :=
  (∀ c up (d : SReg) rn offset s, Ready c false s → LoadReady .sgl (offsetMode up) d.val 1 rn offset s →
    ∃ t, exec (.flds c up d rn offset) s = .next t ∧
      Loaded .sgl d.val
        [readWord s.cfg.bigEnd (if up then s.armReg rn + off4 offset else s.armReg rn - off4 offset) s.mem] rn none s t) ∧
  (∀ c up (d : DReg) rn offset s, Ready c true s → LoadReady .dbl (offsetMode up) d.val 1 rn offset s →
    ∃ t, exec (.fldd c up d rn offset) s = .next t ∧
      Loaded .dbl d.val
        [loadPat .dbl s.cfg.bigEnd (if up then s.armReg rn + off4 offset else s.armReg rn - off4 offset) s.mem] rn none s t) ∧
  (∀ c (d : SReg) rn offset s, Ready c false s →
    (LoadReady .sgl .unindexed d.val offset.toNat rn offset s → ∃ t, exec (.fldmsUnindexed c d rn offset) s = .next t ∧
      Loaded .sgl d.val (loadPats .sgl s.cfg.bigEnd (s.armReg rn) offset.toNat s.mem) rn none s t) ∧
    (LoadReady .sgl .increment d.val offset.toNat rn offset s → ∃ t, exec (.fldmsIncrement c d rn offset) s = .next t ∧
      Loaded .sgl d.val (loadPats .sgl s.cfg.bigEnd (s.armReg rn) offset.toNat s.mem) rn
        (some (s.armReg rn + off4 offset)) s t) ∧
    (LoadReady .sgl .decrement d.val offset.toNat rn offset s → ∃ t, exec (.fldmsDecrement c d rn offset) s = .next t ∧
      Loaded .sgl d.val (loadPats .sgl s.cfg.bigEnd (s.armReg rn - off4 offset) offset.toNat s.mem) rn
        (some (s.armReg rn - off4 offset)) s t)) ∧
  (∀ c (d : DReg) rn offset s, Ready c true s →
    (LoadReady .dbl .unindexed d.val (offset.toNat / 2) rn offset s →
      ∃ t, exec (.fldmdUnindexed c d rn offset) s = .next t ∧
        Loaded .dbl d.val (loadPats .dbl s.cfg.bigEnd (s.armReg rn) (offset.toNat / 2) s.mem) rn none s t) ∧
    (LoadReady .dbl .increment d.val (offset.toNat / 2) rn offset s →
      ∃ t, exec (.fldmdIncrement c d rn offset) s = .next t ∧
        Loaded .dbl d.val (loadPats .dbl s.cfg.bigEnd (s.armReg rn) (offset.toNat / 2) s.mem) rn
          (some (s.armReg rn + off4 offset)) s t) ∧
    (LoadReady .dbl .decrement d.val (offset.toNat / 2) rn offset s →
      ∃ t, exec (.fldmdDecrement c d rn offset) s = .next t ∧
        Loaded .dbl d.val (loadPats .dbl s.cfg.bigEnd (s.armReg rn - off4 offset) (offset.toNat / 2) s.mem) rn
          (some (s.armReg rn - off4 offset)) s t))

/-- FSTS, FSTD, FSTMS and FSTMD in each of their modes complete with the registers stored to ascending addresses and the base
written back, and change nothing else but the images for FLDMX (45_load_store.md R216 to R227, R236): those that a store
overwrites are gone, and in the recommended format an FSTMD leaves one (notes/assumptions/13.md). -/
def Obligations.Stores : Prop :=
  (∀ c up (d : SReg) rn offset s, Ready c false s → StoreReady .sgl (offsetMode up) d.val 1 rn offset s →
    ∃ t, exec (.fsts c up d rn offset) s = .next t ∧
      Stored .sgl (if up then s.armReg rn + off4 offset else s.armReg rn - off4 offset) [s.word d] [] rn none s t) ∧
  (∀ c up (d : DReg) rn offset s, Ready c true s → StoreReady .dbl (offsetMode up) d.val 1 rn offset s →
    ∃ t, exec (.fstd c up d rn offset) s = .next t ∧
      Stored .dbl (if up then s.armReg rn + off4 offset else s.armReg rn - off4 offset) [s.rawDouble d] [] rn none s t) ∧
  (∀ c (d : SReg) rn offset s, Ready c false s →
    (StoreReady .sgl .unindexed d.val offset.toNat rn offset s → ∃ t, exec (.fstmsUnindexed c d rn offset) s = .next t ∧
      Stored .sgl (s.armReg rn) ((List.range offset.toNat).map fun i => s.rawReg .sgl (regAt .sgl (d.val + i))) [] rn none
        s t) ∧
    (StoreReady .sgl .increment d.val offset.toNat rn offset s → ∃ t, exec (.fstmsIncrement c d rn offset) s = .next t ∧
      Stored .sgl (s.armReg rn) ((List.range offset.toNat).map fun i => s.rawReg .sgl (regAt .sgl (d.val + i))) [] rn
        (some (s.armReg rn + off4 offset)) s t) ∧
    (StoreReady .sgl .decrement d.val offset.toNat rn offset s → ∃ t, exec (.fstmsDecrement c d rn offset) s = .next t ∧
      Stored .sgl (s.armReg rn - off4 offset)
        ((List.range offset.toNat).map fun i => s.rawReg .sgl (regAt .sgl (d.val + i))) [] rn
        (some (s.armReg rn - off4 offset)) s t)) ∧
  (∀ c (d : DReg) rn offset s, Ready c true s →
    (StoreReady .dbl .unindexed d.val (offset.toNat / 2) rn offset s →
      ∃ t, exec (.fstmdUnindexed c d rn offset) s = .next t ∧
        Stored .dbl (s.armReg rn)
          ((List.range (offset.toNat / 2)).map fun i => s.rawDouble (regAt .dbl (d.val + i)))
          (fstmdImages s.cfg d (s.armReg rn)
            ((List.range (offset.toNat / 2)).map fun i => s.rawDouble (regAt .dbl (d.val + i)))) rn none s t) ∧
    (StoreReady .dbl .increment d.val (offset.toNat / 2) rn offset s →
      ∃ t, exec (.fstmdIncrement c d rn offset) s = .next t ∧
        Stored .dbl (s.armReg rn)
          ((List.range (offset.toNat / 2)).map fun i => s.rawDouble (regAt .dbl (d.val + i)))
          (fstmdImages s.cfg d (s.armReg rn)
            ((List.range (offset.toNat / 2)).map fun i => s.rawDouble (regAt .dbl (d.val + i)))) rn
          (some (s.armReg rn + off4 offset)) s t) ∧
    (StoreReady .dbl .decrement d.val (offset.toNat / 2) rn offset s →
      ∃ t, exec (.fstmdDecrement c d rn offset) s = .next t ∧
        Stored .dbl (s.armReg rn - off4 offset)
          ((List.range (offset.toNat / 2)).map fun i => s.rawDouble (regAt .dbl (d.val + i)))
          (fstmdImages s.cfg d (s.armReg rn - off4 offset)
            ((List.range (offset.toNat / 2)).map fun i => s.rawDouble (regAt .dbl (d.val + i)))) rn
          (some (s.armReg rn - off4 offset)) s t))

/-- FSTMX in each of its modes completes, records the image a matching FLDMX restores, frees half-written registers for other
purposes and writes the base back by the whole offset (45_load_store.md R229, R236; 70_reset_and_hazards.md R325). That the
words of memory hold what FSTMD writes is said of the recommended format alone. The model's own: the count of free values
(DESIGN CHOICE, notes/assumptions/4.md); the bits stored for the half of a register that is not written, which the spec does
not fix, and the words over which older images are lost, those that the format may write (DEDUCED,
notes/assumptions/14.md). -/
def Obligations.UnknownPrecisionStores : Prop :=
  ∀ c (d : DReg) rn offset s, Ready c false s →
    (UnknownStoreReady .unindexed d.val (unknownCount offset) rn offset s →
      ∃ t, exec (.fstmxUnindexed c d rn offset) s = .next t ∧
        StoredUnknown d (unknownCount offset) (s.armReg rn) rn none s t) ∧
    (UnknownStoreReady .increment d.val (unknownCount offset) rn offset s →
      ∃ t, exec (.fstmxIncrement c d rn offset) s = .next t ∧
        StoredUnknown d (unknownCount offset) (s.armReg rn) rn (some (s.armReg rn + off4 offset)) s t) ∧
    (UnknownStoreReady .decrement d.val (unknownCount offset) rn offset s →
      ∃ t, exec (.fstmxDecrement c d rn offset) s = .next t ∧
        StoredUnknown d (unknownCount offset) (s.armReg rn - off4 offset) rn (some (s.armReg rn - off4 offset)) s t)

/-- FLDMX in each of its modes completes with a matching image, which it restores (45_load_store.md R228, R236), and is refused
without one, in every format (R236 item 3, 70_reset_and_hazards.md R326). -/
def Obligations.UnknownPrecisionLoads : Prop :=
  ∀ c (d : DReg) rn offset s, Ready c false s → (∀ img, img ∈ s.images → ImageOk img) →
    (UnknownLoadReady .unindexed d.val (unknownCount offset) rn offset s →
      (∀ img, matchingImage s d (unknownCount offset) (s.armReg rn) = some img →
        ∃ t, exec (.fldmxUnindexed c d rn offset) s = .next t ∧ LoadedUnknown d img.words img.pairs rn none s t) ∧
      (matchingImage s d (unknownCount offset) (s.armReg rn) = none →
        exec (.fldmxUnindexed c d rn offset) s = .refused .unmatchedFldmx)) ∧
    (UnknownLoadReady .increment d.val (unknownCount offset) rn offset s →
      (∀ img, matchingImage s d (unknownCount offset) (s.armReg rn) = some img →
        ∃ t, exec (.fldmxIncrement c d rn offset) s = .next t ∧
          LoadedUnknown d img.words img.pairs rn (some (s.armReg rn + off4 offset)) s t) ∧
      (matchingImage s d (unknownCount offset) (s.armReg rn) = none →
        exec (.fldmxIncrement c d rn offset) s = .refused .unmatchedFldmx)) ∧
    (UnknownLoadReady .decrement d.val (unknownCount offset) rn offset s →
      (∀ img, matchingImage s d (unknownCount offset) (s.armReg rn - off4 offset) = some img →
        ∃ t, exec (.fldmxDecrement c d rn offset) s = .next t ∧
          LoadedUnknown d img.words img.pairs rn (some (s.armReg rn - off4 offset)) s t) ∧
      (matchingImage s d (unknownCount offset) (s.armReg rn - off4 offset) = none →
        exec (.fldmxDecrement c d rn offset) s = .refused .unmatchedFldmx))

/-! ### What each instruction does: transfers -/

/-- FMSR and FMRS copy 32 bits between an ARM register and a single-precision register, and change nothing else
(46_single_transfer.md R250 to R253). -/
def Obligations.SingleTransfers : Prop :=
  (∀ c (n : SReg) rd s, Ready c false s → rd ≠ 15 → Writable .sgl n s →
    ∃ t, exec (.fmsr c n rd) s = .next t ∧ t.word n = s.armReg rd ∧ t.tagAt n = .sgl ∧ t.fpscr = s.fpscr ∧
      RegistersOnly [n] [] s t) ∧
  (∀ c rd (n : SReg) s, Ready c false s → rd ≠ 15 → Readable .sgl n s →
    ∃ t, exec (.fmrs c rd n) s = .next t ∧ t.armReg rd = s.word n ∧ t.fpscr = s.fpscr ∧ RegistersOnly [] [rd] s t)

/-- FMDLR and FMDHR write one half of a double-precision register, and its pairing state goes as 70_reset_and_hazards.md R325
says; the second of the same half is refused (46_single_transfer.md R254, R256, R258). -/
def Obligations.HalfWrites : Prop :=
  (∀ c (n : DReg) rd s, Ready c true s → rd ≠ 15 →
    (s.pairAt n ≠ .lowOnly →
      ∃ t, exec (.fmdlr c n rd) s = .next t ∧ t.word (loIndex n) = s.armReg rd ∧ t.tagAt (loIndex n) = .dbl ∧
        t.pairAt n = (if s.pairAt n = .whole then .lowOnly else .whole) ∧ (∀ k, k ≠ n → t.pairAt k = s.pairAt k) ∧
        t.fpscr = s.fpscr ∧ t.cpsr = s.cpsr ∧ MemoryKept s t ∧ Frame [loIndex n] [] s t) ∧
    (s.pairAt n = .lowOnly → exec (.fmdlr c n rd) s = .refused .halfWrittenDouble)) ∧
  (∀ c (n : DReg) rd s, Ready c true s → rd ≠ 15 →
    (s.pairAt n ≠ .highOnly →
      ∃ t, exec (.fmdhr c n rd) s = .next t ∧ t.word (hiIndex n) = s.armReg rd ∧ t.tagAt (hiIndex n) = .dbl ∧
        t.pairAt n = (if s.pairAt n = .whole then .highOnly else .whole) ∧ (∀ k, k ≠ n → t.pairAt k = s.pairAt k) ∧
        t.fpscr = s.fpscr ∧ t.cpsr = s.cpsr ∧ MemoryKept s t ∧ Frame [hiIndex n] [] s t) ∧
    (s.pairAt n = .highOnly → exec (.fmdhr c n rd) s = .refused .halfWrittenDouble))

/-- FMRDL and FMRDH copy one half of a double-precision register to an ARM register, and change nothing else
(46_single_transfer.md R255, R257). -/
def Obligations.HalfReads : Prop :=
  ∀ c rd (n : DReg) s, Ready c true s → rd ≠ 15 → Readable .dbl n s →
    (∃ t, exec (.fmrdl c rd n) s = .next t ∧ t.armReg rd = s.word (loIndex n) ∧ t.fpscr = s.fpscr ∧
      RegistersOnly [] [rd] s t) ∧
    (∃ t, exec (.fmrdh c rd n) s = .next t ∧ t.armReg rd = s.word (hiIndex n) ∧ t.fpscr = s.fpscr ∧
      RegistersOnly [] [rd] s t)

/-- FMXR to the FPSCR, of a word whose reserved bits and trap enables are 0 and whose `STRIDE` is permitted, writes its fields;
to FPEXC, only with the value it holds, nothing; to a sub-architecture defined register that is supplied, the content of that
register, by its own write behaviour, and nothing else (46_single_transfer.md R261, 60_exceptions.md R293; that the content is
one word, which this register's write behaviour alone makes, is the model's choice, notes/assumptions/12.md). -/
def Obligations.SystemWrites : Prop :=
  ∀ c rd s, Ready c false s → rd ≠ 15 →
    (FpscrAdmits (s.armReg rd) →
      ∃ t, exec (.fmxr c .fpscr rd) s = .next t ∧ t.fpscr = fpscrOf (s.armReg rd) ∧ RegistersOnly [] [] s t) ∧
    (s.cfg.userMode = false → s.armReg rd = 0x40000000#32 →
      ∃ t, exec (.fmxr c .fpexc rd) s = .next t ∧ t.fpscr = s.fpscr ∧ RegistersOnly [] [] s t) ∧
    (∀ low, 1#1 ++ low ∈ s.cfg.subArch →
      ∃ t, exec (.fmxr c (.subArch low) rd) s = .next t ∧ t = { s with pc := s.pc + 4, subArch := t.subArch } ∧
        ∀ k, t.subArchReg k =
          if k = low then Config.subArchWrite (1#1 ++ low) (s.armReg rd) (s.subArchReg low) else s.subArchReg k)

/-- FMRX reads the FPSCR, FPSID and FPEXC, and of a sub-architecture defined register that is supplied what its own read
behaviour answers of its content, and changes nothing else (46_single_transfer.md R259, 60_exceptions.md R293; that the answer
depends on the content alone is the model's choice, notes/assumptions/12.md). -/
def Obligations.SystemReads : Prop :=
  ∀ c rd s, Ready c false s → rd ≠ 15 →
    (∃ t, exec (.fmrx c rd .fpscr) s = .next t ∧ t.armReg rd = s.fpscr.word ∧ t.fpscr = s.fpscr ∧
      RegistersOnly [] [rd] s t) ∧
    (s.cfg.userMode = false →
      (∃ t, exec (.fmrx c rd .fpsid) s = .next t ∧ t.armReg rd = s.fpsid ∧ t.fpscr = s.fpscr ∧
        RegistersOnly [] [rd] s t) ∧
      (∃ t, exec (.fmrx c rd .fpexc) s = .next t ∧ t.armReg rd = s.fpexc ∧ t.fpscr = s.fpscr ∧
        RegistersOnly [] [rd] s t)) ∧
    (∀ low, 1#1 ++ low ∈ s.cfg.subArch →
      ∃ t, exec (.fmrx c rd (.subArch low)) s = .next t ∧
        t.armReg rd = Config.subArchRead (1#1 ++ low) (s.subArchReg low) ∧ t.fpscr = s.fpscr ∧ RegistersOnly [] [rd] s t)

/-- FMSTAT copies the FPSCR flags to the CPSR flags, on the old CPSR flags' condition, and changes nothing else
(46_single_transfer.md R260). -/
def Obligations.Fmstat : Prop :=
  ∀ c s, Ready c false s →
    ∃ t, exec (.fmstat c) s = .next t ∧ t.cpsr = s.fpscr.flags ∧ t.fpscr = s.fpscr ∧ t.pair = s.pair ∧ MemoryKept s t ∧
      Frame [] [] s t

/-- FMSRR and FMRRS copy two words between two ARM registers and two single-precision registers, in the order of
`SREG_PAIR_ORDER`, and change nothing else (47_two_reg_transfer.md R277, R278). -/
def Obligations.PairTransfers : Prop :=
  (∀ c (m m' : SReg) rd rn s, Ready c false s → rd ≠ 15 → rn ≠ 15 → m'.val = m.val + 1 → Writable .sgl m s →
    Writable .sgl m' s →
    ∃ t, exec (.fmsrr c m rd rn) s = .next t ∧
      (s.cfg.pairOrder = .source → t.word m = s.armReg rn ∧ t.word m' = s.armReg rd) ∧
      (s.cfg.pairOrder = .swapped → t.word m = s.armReg rd ∧ t.word m' = s.armReg rn) ∧
      t.tagAt m = .sgl ∧ t.tagAt m' = .sgl ∧ t.fpscr = s.fpscr ∧ RegistersOnly [m, m'] [] s t) ∧
  (∀ c rd rn (m m' : SReg) s, Ready c false s → rd ≠ 15 → rn ≠ 15 → rn ≠ rd → m'.val = m.val + 1 → Readable .sgl m s →
    Readable .sgl m' s →
    ∃ t, exec (.fmrrs c rd rn m) s = .next t ∧
      (s.cfg.pairOrder = .source → t.armReg rn = s.word m ∧ t.armReg rd = s.word m') ∧
      (s.cfg.pairOrder = .swapped → t.armReg rd = s.word m ∧ t.armReg rn = s.word m') ∧
      t.fpscr = s.fpscr ∧ RegistersOnly [] [rn, rd] s t)

/-- FMDRR and FMRRD copy two words between two ARM registers and a double-precision register, and change nothing else
(47_two_reg_transfer.md R279, R280). -/
def Obligations.DoubleTransfers : Prop :=
  (∀ c (m : DReg) rd rn s, Ready c true s → rd ≠ 15 → rn ≠ 15 → Writable .dbl m s →
    ∃ t, exec (.fmdrr c m rd rn) s = .next t ∧ t.word (loIndex m) = s.armReg rd ∧ t.word (hiIndex m) = s.armReg rn ∧
      t.tagAt (loIndex m) = .dbl ∧ t.tagAt (hiIndex m) = .dbl ∧ t.fpscr = s.fpscr ∧
      RegistersOnly [loIndex m, hiIndex m] [] s t) ∧
  (∀ c rd rn (m : DReg) s, Ready c true s → rd ≠ 15 → rn ≠ 15 → rn ≠ rd → Readable .dbl m s →
    ∃ t, exec (.fmrrd c rd rn m) s = .next t ∧ t.armReg rd = s.word (loIndex m) ∧ t.armReg rn = s.word (hiIndex m) ∧
      t.fpscr = s.fpscr ∧ RegistersOnly [] [rd, rn] s t)

/-! ### Arithmetic -/

/-- The sum, difference, product, quotient and square root of numeric operands that are not flushed are the exact real results
rounded once, with the exceptions of that rounding (40_basic_arith.md R112, R116, R117). What tininess after rounding is, which
the spec does not define, is the model's (PRESUMED, notes/assumptions/9.md). -/
def Obligations.RoundedArithmetic : Prop :=
  ∀ f env (a b : Pat f), Numeric f a → Numeric f b → flushes f env a = false → flushes f env b = false →
    (valueOf f a + valueOf f b ≠ 0 →
      RoundsTo f env (decide (valueOf f a + valueOf f b < 0)) |((valueOf f a + valueOf f b : ℚ) : ℝ)| (fpAdd f env a b)) ∧
    (valueOf f a - valueOf f b ≠ 0 →
      RoundsTo f env (decide (valueOf f a - valueOf f b < 0)) |((valueOf f a - valueOf f b : ℚ) : ℝ)| (fpSub f env a b)) ∧
    (valueOf f a * valueOf f b ≠ 0 →
      RoundsTo f env (decide (valueOf f a * valueOf f b < 0)) |((valueOf f a * valueOf f b : ℚ) : ℝ)| (fpMul f env a b)) ∧
    (valueOf f a ≠ 0 → valueOf f b ≠ 0 →
      RoundsTo f env (decide (valueOf f a / valueOf f b < 0)) |((valueOf f a / valueOf f b : ℚ) : ℝ)| (fpDiv f env a b)) ∧
    (0 < valueOf f a → RoundsTo f env false (Real.sqrt (valueOf f a)) (fpSqrt f env a))

/-- FCVTSD's conversion and the integer-to-float conversions round the exact value once; the integer 0 converts to +0
(43_convert.md R172, R184). Tininess after rounding is the model's (PRESUMED, notes/assumptions/9.md). -/
def Obligations.RoundedConversions : Prop :=
  (∀ env (a : DWord), Numeric .dbl a → flushes .dbl env a = false → valueOf .dbl a ≠ 0 →
    RoundsTo .sgl env (decide (valueOf .dbl a < 0)) |(valueOf .dbl a : ℝ)| (doubleToSingle env a)) ∧
  (∀ f env (i : Word),
    (i ≠ 0 → RoundsTo f env false (i.toNat : ℝ) (intToFp f env true i)) ∧
    (i ≠ 0 → RoundsTo f env (decide (i.toInt < 0)) |(i.toInt : ℝ)| (intToFp f env false i)) ∧
    (i = 0 → ∀ unsigned, intToFp f env unsigned i = ⟨zeroPat f false, .none⟩))

/-- Infinities, zeros, the invalid combinations and division by zero, for operands that are no NaNs and are not flushed
(40_basic_arith.md R115, R116, R117). -/
def Obligations.SpecialOperands : Prop :=
  ∀ f env (a b : Pat f), isNan f a = false → isNan f b = false → flushes f env a = false → flushes f env b = false →
    -- addition, and subtraction as addition of the negated operand
    (isInf f a = true → isInf f b = true → signOf f a ≠ signOf f b → fpAdd f env a b = ⟨defaultNan f, .invalid⟩) ∧
    (isInf f a = true → (isInf f b = true → signOf f a = signOf f b) → fpAdd f env a b = ⟨a, .none⟩) ∧
    (Numeric f a → isInf f b = true → fpAdd f env a b = ⟨b, .none⟩) ∧
    (Numeric f a → Numeric f b → valueOf f a + valueOf f b = 0 →
      fpAdd f env a b =
        ⟨if isZero f a && isZero f b && signOf f a == signOf f b then a else zeroPat f (env.mode == .rm), .none⟩) ∧
    fpSub f env a b = fpAdd f env a (fpNeg f b) ∧
    -- multiplication
    (isZero f a = true ∧ isInf f b = true ∨ isInf f a = true ∧ isZero f b = true →
      fpMul f env a b = ⟨defaultNan f, .invalid⟩) ∧
    (isInf f a = true ∧ isZero f b = false ∨ isZero f a = false ∧ isInf f b = true →
      fpMul f env a b = ⟨infPat f (signOf f a != signOf f b), .none⟩) ∧
    (isZero f a = true ∧ Numeric f b ∨ Numeric f a ∧ isZero f b = true →
      fpMul f env a b = ⟨zeroPat f (signOf f a != signOf f b), .none⟩) ∧
    -- division
    (isZero f a = true ∧ isZero f b = true ∨ isInf f a = true ∧ isInf f b = true →
      fpDiv f env a b = ⟨defaultNan f, .invalid⟩) ∧
    (isInf f a = true → Numeric f b → fpDiv f env a b = ⟨infPat f (signOf f a != signOf f b), .none⟩) ∧
    (Numeric f a → isInf f b = true → fpDiv f env a b = ⟨zeroPat f (signOf f a != signOf f b), .none⟩) ∧
    (Numeric f a → isZero f a = false → isZero f b = true →
      fpDiv f env a b = ⟨infPat f (signOf f a != signOf f b), .zeroDivide⟩) ∧
    (isZero f a = true → Numeric f b → isZero f b = false →
      fpDiv f env a b = ⟨zeroPat f (signOf f a != signOf f b), .none⟩) ∧
    -- square root
    (isZero f a = true → fpSqrt f env a = ⟨a, .none⟩) ∧
    (isZero f a = false → signOf f a = true → fpSqrt f env a = ⟨defaultNan f, .invalid⟩) ∧
    (isInf f a = true → signOf f a = false → fpSqrt f env a = ⟨a, .none⟩)

/-- With a NaN operand and no flushed operand, every operation answers a quiet NaN and signals Invalid Operation for a
signaling NaN only; the recommended selection answers the default NaN, or the first signaling NaN made quiet, or the first
quiet NaN; and a subtraction of a quiet NaN from no NaN answers that NaN (40_basic_arith.md R118). FCVTDS and FCVTSD answer a
quiet NaN, the recommended one with the sign kept and the fraction moved and made quiet (43_convert.md R171, R172). The layout
of NaNs and the recommended selection are not the source's. -/
def Obligations.NanOperands : Prop :=
  (∀ f env (a b : Pat f), flushes f env a = false → flushes f env b = false → (isNan f a || isNan f b) = true →
    (∀ r : FpResult f, r = fpAdd f env a b ∨ r = fpSub f env a b ∨ r = fpMul f env a b ∨ r = fpDiv f env a b →
      isQnan f r.val = true ∧
      r.exc = (if isSnan f a || isSnan f b then ExcSet.invalid else .none) ∧
      (env.cfg.nanSelect = .recommended →
        r.val =
          if env.dn then defaultNan f
          else if isSnan f a then quieten f a
          else if isSnan f b then quieten f b
          else if isNan f a then a
          else b)) ∧
    (isNan f a = false → isQnan f b = true → (env.cfg.nanSelect = .recommended → env.dn = false) →
      (fpSub f env a b).val = b) ∧
    (isNan f a = true →
      isQnan f (fpSqrt f env a).val = true ∧
      (fpSqrt f env a).exc = (if isSnan f a then ExcSet.invalid else .none) ∧
      (env.cfg.nanSelect = .recommended →
        (fpSqrt f env a).val = if env.dn then defaultNan f else if isSnan f a then quieten f a else a))) ∧
  (∀ env (a : Word), isNan .sgl a = true →
    isQnan .dbl (singleToDouble env a).val = true ∧
    (singleToDouble env a).exc = (if isSnan .sgl a then ExcSet.invalid else .none) ∧
    (env.cfg.nanSelect = .recommended →
      (env.dn = true → (singleToDouble env a).val = defaultNan .dbl) ∧
      (env.dn = false → signOf .dbl (singleToDouble env a).val = signOf .sgl a ∧
        fracOf .dbl (singleToDouble env a).val = fracOf .sgl a * 2 ^ 29 ||| 2 ^ 51))) ∧
  (∀ env (a : DWord), isNan .dbl a = true →
    isQnan .sgl (doubleToSingle env a).val = true ∧
    (doubleToSingle env a).exc = (if isSnan .dbl a then ExcSet.invalid else .none) ∧
    (env.cfg.nanSelect = .recommended →
      (env.dn = true → (doubleToSingle env a).val = defaultNan .sgl) ∧
      (env.dn = false → signOf .sgl (doubleToSingle env a).val = signOf .dbl a ∧
        fracOf .sgl (doubleToSingle env a).val = fracOf .dbl a / 2 ^ 29 ||| 2 ^ 22)))

/-- In Flush-to-zero mode an operation treats a denormalized operand as a zero, of the operand's sign or positive as `FZ_SIGN`
says, and signals beside the exceptions of the operation on that zero what `FZ_FLAGS` says of a flushed operand, but nothing
beside Invalid Operation or Division by Zero; out of it no operand changes (40_basic_arith.md R114, R115). A subtraction
flushes the second operand with its sign inverted (R116), which with the sign-keeping `FZ_SIGN` is the flushed operand's own
subtraction. -/
def Obligations.FlushToZero : Prop :=
  (∀ f env (a b : Pat f),
    (env.fz = false → fzIn f env a = a) ∧
    (isDenorm f a = false → fzIn f env a = a) ∧
    (env.fz = true → isDenorm f a = true →
      fzIn f env a = zeroPat f (if env.cfg.fzSign = .keep then signOf f a else false)) ∧
    -- the values
    (fpAdd f env a b).val = (fpAdd f env (fzIn f env a) (fzIn f env b)).val ∧
    (isNan f a = false → isNan f b = false →
      (fpSub f env a b).val = (fpAdd f env (fzIn f env a) (fzIn f env (fpNeg f b))).val) ∧
    (env.cfg.fzSign = .keep → (fpSub f env a b).val = (fpSub f env (fzIn f env a) (fzIn f env b)).val) ∧
    (fpMul f env a b).val = (fpMul f env (fzIn f env a) (fzIn f env b)).val ∧
    (fpDiv f env a b).val = (fpDiv f env (fzIn f env a) (fzIn f env b)).val ∧
    (fpSqrt f env a).val = (fpSqrt f env (fzIn f env a)).val ∧
    (∀ e, (compareValues f env e a b).relation = (compareValues f env e (fzIn f env a) (fzIn f env b)).relation) ∧
    (∀ unsigned mode, (fpToInt f env unsigned mode a).val = (fpToInt f env unsigned mode (fzIn f env a)).val) ∧
    -- the exceptions
    (flushes f env a = true ∨ flushes f env b = true →
      (fpAdd f env a b).exc = withFlush env.cfg.fzInput (fpAdd f env (fzIn f env a) (fzIn f env b)).exc ∧
      (fpSub f env a b).exc = withFlush env.cfg.fzInput (fpSub f env (fzIn f env a) (fzIn f env b)).exc ∧
      (fpMul f env a b).exc = withFlush env.cfg.fzInput (fpMul f env (fzIn f env a) (fzIn f env b)).exc ∧
      (fpDiv f env a b).exc = withFlush env.cfg.fzInput (fpDiv f env (fzIn f env a) (fzIn f env b)).exc ∧
      ∀ e, (compareValues f env e a b).exc =
        withFlush env.cfg.fzInput (compareValues f env e (fzIn f env a) (fzIn f env b)).exc) ∧
    (flushes f env a = true →
      (fpSqrt f env a).exc = withFlush env.cfg.fzInput (fpSqrt f env (fzIn f env a)).exc ∧
      ∀ unsigned mode, (fpToInt f env unsigned mode a).exc =
        withFlush env.cfg.fzInputToInt (fpToInt f env unsigned mode (fzIn f env a)).exc)) ∧
  (∀ env (a : Word), flushes .sgl env a = true →
    (singleToDouble env a).val = (singleToDouble env (fzIn .sgl env a)).val ∧
    (singleToDouble env a).exc = withFlush env.cfg.fzInput (singleToDouble env (fzIn .sgl env a)).exc) ∧
  (∀ env (a : DWord), flushes .dbl env a = true →
    (doubleToSingle env a).val = (doubleToSingle env (fzIn .dbl env a)).val ∧
    (doubleToSingle env a).exc = withFlush env.cfg.fzInput (doubleToSingle env (fzIn .dbl env a)).exc)

/-- A comparison finds the relation of the two values on the extended real line, the zeros equal, or unordered with a NaN; it
signals Invalid Operation for a signaling NaN, and in the FCMPE form for any NaN (42_compare.md R150, R152). -/
def Obligations.ComparisonRelation : Prop :=
  ∀ f env e (a b : Pat f),
    (isNan f (fzIn f env a) = true ∨ isNan f (fzIn f env b) = true → (compareValues f env e a b).relation = .unordered) ∧
    (isNan f (fzIn f env a) = false → isNan f (fzIn f env b) = false →
      ((compareValues f env e a b).relation = .equal ↔
        extendedValue f (fzIn f env a) = extendedValue f (fzIn f env b)) ∧
      ((compareValues f env e a b).relation = .less ↔
        extendedValue f (fzIn f env a) < extendedValue f (fzIn f env b)) ∧
      ((compareValues f env e a b).relation = .greater ↔
        extendedValue f (fzIn f env b) < extendedValue f (fzIn f env a)) ∧
      (compareValues f env e a b).relation ≠ .unordered) ∧
    (flushes f env a = false → flushes f env b = false →
      (compareValues f env e a b).exc =
        if isSnan f a || isSnan f b || (e && (isNan f a || isNan f b)) then ExcSet.invalid else .none)

/-- A comparison leaves the CPSR flags; FMSTAT after it copies its flags there, and then the ARM conditions test the relation as
the table of 42_compare.md R161 says, with the pairs of conditions of R162 and no single one for those (70_reset_and_hazards.md
R324). -/
def Obligations.PredicateTesting : Prop :=
  (∀ (i : Instr) s t u, i.cls = .compare → conditionPassed i.cond s.cpsr = true → exec i s = .next t →
    exec (.fmstat .al) t = .next u → t.cpsr = s.cpsr ∧ ∃ r : Relation, t.fpscr.flags = relationFlags r ∧ u.cpsr = relationFlags r) ∧
  (∀ r : Relation,
    (conditionPassed .eq (relationFlags r) = true ↔ r = .equal) ∧
    (conditionPassed .ne (relationFlags r) = true ↔ r = .less ∨ r = .greater ∨ r = .unordered) ∧
    (conditionPassed .gt (relationFlags r) = true ↔ r = .greater) ∧
    (conditionPassed .ge (relationFlags r) = true ↔ r = .equal ∨ r = .greater) ∧
    (conditionPassed .mi (relationFlags r) = true ↔ r = .less) ∧
    (conditionPassed .cc (relationFlags r) = true ↔ r = .less) ∧
    (conditionPassed .ls (relationFlags r) = true ↔ r = .equal ∨ r = .less) ∧
    (conditionPassed .vs (relationFlags r) = true ↔ r = .unordered) ∧
    (conditionPassed .vc (relationFlags r) = true ↔ r = .equal ∨ r = .less ∨ r = .greater) ∧
    (conditionPassed .hi (relationFlags r) = true ↔ r = .greater ∨ r = .unordered) ∧
    (conditionPassed .pl (relationFlags r) = true ↔ r = .equal ∨ r = .greater ∨ r = .unordered) ∧
    (conditionPassed .cs (relationFlags r) = true ↔ r = .equal ∨ r = .greater ∨ r = .unordered) ∧
    (conditionPassed .lt (relationFlags r) = true ↔ r = .less ∨ r = .unordered) ∧
    (conditionPassed .le (relationFlags r) = true ↔ r = .equal ∨ r = .less ∨ r = .unordered) ∧
    (conditionPassed .ne (relationFlags r) = true ∧ conditionPassed .vc (relationFlags r) = true ↔
      r = .less ∨ r = .greater) ∧
    (conditionPassed .gt (relationFlags r) = true ∨ conditionPassed .mi (relationFlags r) = true ↔
      r = .less ∨ r = .greater) ∧
    (conditionPassed .eq (relationFlags r) = true ∨ conditionPassed .vs (relationFlags r) = true ↔
      r = .equal ∨ r = .unordered)) ∧
  (∀ c : Cond,
    ¬(∀ r : Relation, conditionPassed c (relationFlags r) = true ↔ r = .less ∨ r = .greater) ∧
    ¬(∀ r : Relation, conditionPassed c (relationFlags r) = true ↔ r = .equal ∨ r = .unordered))

/-- A float-to-integer conversion rounds the value of the operand, flushed first, to an integer by the mode and answers it, the
nearest end of the range with Invalid Operation if it is out of range or infinite, and 0 with Invalid Operation for a NaN
(43_convert.md R175). -/
def Obligations.IntegerConversion : Prop :=
  ∀ f env unsigned mode (a : Pat f), ∃ (i : Int) (exc : ExcSet),
    (fpToInt f env unsigned mode a).val = BitVec.ofInt 32 i ∧
    (flushes f env a = false → (fpToInt f env unsigned mode a).exc = exc) ∧
    (isNan f (fzIn f env a) = true → i = 0 ∧ exc = .invalid) ∧
    (isInf f (fzIn f env a) = true →
      i = (if signOf f (fzIn f env a) then (if unsigned then 0 else -2147483648)
        else if unsigned then 4294967295 else 2147483647) ∧ exc = .invalid) ∧
    (Numeric f (fzIn f env a) → ∃ k : Int, IntChosen mode (valueOf f (fzIn f env a)) k ∧
      ((if unsigned then 4294967295 else 2147483647) < k →
        i = (if unsigned then 4294967295 else 2147483647) ∧ exc = .invalid) ∧
      (k < (if unsigned then 0 else -2147483648) → i = (if unsigned then 0 else -2147483648) ∧ exc = .invalid) ∧
      ((if unsigned then 0 else -2147483648) ≤ k → k ≤ (if unsigned then 4294967295 else 2147483647) →
        i = k ∧ ∃ inexact : Bool, (inexact = true ↔ (k : ℚ) ≠ valueOf f (fzIn f env a)) ∧
          exc = { ExcSet.none with inexact := inexact }))

/-- Single to double precision is exact and converts back to the same bits; a 32-bit integer to double precision is exact,
signals nothing and converts back in any mode (43_convert.md R171, R172, R175, R184). -/
def Obligations.ExactConversions : Prop :=
  (∀ env (a : Word), flushes .sgl env a = false → isNan .sgl a = false →
    (singleToDouble env a).exc = .none ∧
    extendedValue .dbl (singleToDouble env a).val = extendedValue .sgl a ∧
    signOf .dbl (singleToDouble env a).val = signOf .sgl a ∧
    doubleToSingle env (singleToDouble env a).val = ⟨a, .none⟩) ∧
  (∀ env unsigned mode (i : Word),
    (intToFp .dbl env unsigned i).exc = .none ∧ Numeric .dbl (intToFp .dbl env unsigned i).val ∧
    valueOf .dbl (intToFp .dbl env unsigned i).val = (if unsigned then (i.toNat : ℚ) else (i.toInt : ℚ)) ∧
    fpToInt .dbl env unsigned mode (intToFp .dbl env unsigned i).val = ⟨i, .none⟩)

/-- Every multiply-accumulate leaves in its destination and in the FPSCR what the sequence of FMUL, FNEG and FADD through another
register leaves, and FNMUL what FMUL and FNEG leave (41_mac.md R140 to R148; 40_basic_arith.md R128). -/
def Obligations.MultiplyAccumulateSequences : Prop :=
  (∀ c (d n m x : SReg) s, x ≠ d → Ready c false s → Untrapped s → Scalar s → Readable .sgl d s → Readable .sgl n s →
    Readable .sgl m s → Writable .sgl x s →
    (∃ t u, exec (.fmacs c d n m) s = .next t ∧ runs [.fmuls c x n m, .fadds c d d x] s u ∧
      t.word d = u.word d ∧ t.fpscr = u.fpscr) ∧
    (∃ t u, exec (.fnmacs c d n m) s = .next t ∧ runs [.fmuls c x n m, .fnegs c x x, .fadds c d d x] s u ∧
      t.word d = u.word d ∧ t.fpscr = u.fpscr) ∧
    (∃ t u, exec (.fmscs c d n m) s = .next t ∧ runs [.fmuls c x n m, .fnegs c d d, .fadds c d d x] s u ∧
      t.word d = u.word d ∧ t.fpscr = u.fpscr) ∧
    (∃ t u, exec (.fnmscs c d n m) s = .next t ∧
      runs [.fmuls c x n m, .fnegs c x x, .fnegs c d d, .fadds c d d x] s u ∧ t.word d = u.word d ∧ t.fpscr = u.fpscr) ∧
    (∃ t u, exec (.fnmuls c d n m) s = .next t ∧ runs [.fmuls c d n m, .fnegs c d d] s u ∧
      t.word d = u.word d ∧ t.fpscr = u.fpscr)) ∧
  (∀ c (d n m x : DReg) s, x ≠ d → Ready c true s → Untrapped s → Scalar s → Readable .dbl d s → Readable .dbl n s →
    Readable .dbl m s → Writable .dbl x s →
    (∃ t u, exec (.fmacd c d n m) s = .next t ∧ runs [.fmuld c x n m, .faddd c d d x] s u ∧
      t.rawDouble d = u.rawDouble d ∧ t.fpscr = u.fpscr) ∧
    (∃ t u, exec (.fnmacd c d n m) s = .next t ∧ runs [.fmuld c x n m, .fnegd c x x, .faddd c d d x] s u ∧
      t.rawDouble d = u.rawDouble d ∧ t.fpscr = u.fpscr) ∧
    (∃ t u, exec (.fmscd c d n m) s = .next t ∧ runs [.fmuld c x n m, .fnegd c d d, .faddd c d d x] s u ∧
      t.rawDouble d = u.rawDouble d ∧ t.fpscr = u.fpscr) ∧
    (∃ t u, exec (.fnmscd c d n m) s = .next t ∧
      runs [.fmuld c x n m, .fnegd c x x, .fnegd c d d, .faddd c d d x] s u ∧
      t.rawDouble d = u.rawDouble d ∧ t.fpscr = u.fpscr) ∧
    (∃ t u, exec (.fnmuld c d n m) s = .next t ∧ runs [.fmuld c d n m, .fnegd c d d] s u ∧
      t.rawDouble d = u.rawDouble d ∧ t.fpscr = u.fpscr))

/-! ### Memory -/

/-- The word order of a double-precision value in memory, of a load and of a store, in both byte orders (20_memory.md R54). -/
def Obligations.WordOrder : Prop :=
  ∀ (a : Word) (m : Memory),
    loadPat .dbl false a m = dwordOf (readWord false (a + 4) m) (readWord false a m) ∧
    loadPat .dbl true a m = dwordOf (readWord true a m) (readWord true (a + 4) m) ∧
    (m.wf → ∀ v : DWord,
      readWord false a (storePat .dbl false a v m) = loWord v ∧
      readWord false (a + 4) (storePat .dbl false a v m) = hiWord v ∧
      readWord true a (storePat .dbl true a v m) = hiWord v ∧
      readWord true (a + 4) (storePat .dbl true a v m) = loWord v)

/-- A Decrement store followed, in any later state with the same memory and base register, by an Increment load of the same list
restores the registers, whatever bits they hold, and the base (45_load_store.md R237; 10_state.md R40). -/
def Obligations.PushPop : Prop :=
  (∀ c c' (d : SReg) rn offset s t u v, s.mem.wf → Ready c false s → exec (.fstmsDecrement c d rn offset) s = .next t →
    u.mem = t.mem → u.cfg = t.cfg → u.armReg rn = t.armReg rn → Ready c' false u →
    exec (.fldmsIncrement c' d rn offset) u = .next v →
    v.armReg rn = s.armReg rn ∧
      ∀ i, i < offset.toNat → v.word (regAt .sgl (d.val + i)) = s.word (regAt .sgl (d.val + i))) ∧
  (∀ c c' (d : DReg) rn offset s t u v, offset.toNat % 2 = 0 → s.mem.wf → Ready c true s →
    exec (.fstmdDecrement c d rn offset) s = .next t →
    u.mem = t.mem → u.cfg = t.cfg → u.armReg rn = t.armReg rn → Ready c' true u →
    exec (.fldmdIncrement c' d rn offset) u = .next v →
    v.armReg rn = s.armReg rn ∧
      ∀ i, i < offset.toNat / 2 → v.rawDouble (regAt .dbl (d.val + i)) = s.rawDouble (regAt .dbl (d.val + i)))

/-- An FSTMX of any mode, or in the recommended format an FSTMD, followed, in any later state whose image for that start, first
register and count is still the one recorded, by an FLDMX of any mode with that start, first register and count: it completes
with every register word and every pairing state as it was, in every format (45_load_store.md R236; 70_reset_and_hazards.md
R325, R326). A Decrement FSTMX and an Increment FLDMX of one offset restore the base as well. That an FSTMD leaves an image
untouched under the same rule is the model's reading of R236's last paragraph (notes/assumptions/13.md). -/
def Obligations.ImageRestored : Prop :=
  ∀ (i j : Instr) T T' s t u, i.LeavesImage s.cfg.fstmxFormat T → conditionPassed i.cond s.cpsr = true →
    exec i s = .next t → j.unknownTransfer = some T' → j.cls = .load → conditionPassed j.cond u.cpsr = true →
    T'.first = T.first → T'.k = T.k → T'.rn ≠ 15 →
    startAddress T'.mode (u.armReg T'.rn) T'.offset = startAddress T.mode (s.armReg T.rn) T.offset →
    matchingImage u (regAt .dbl T.first) T.k (startAddress T.mode (s.armReg T.rn) T.offset) =
      matchingImage t (regAt .dbl T.first) T.k (startAddress T.mode (s.armReg T.rn) T.offset) →
    Admitted false (startAddress T.mode (s.armReg T.rn) T.offset) (2 * T.k + 1) u →
    ∃ v, exec j u = .next v ∧
      (T.mode = .decrement → T'.mode = .increment → T'.offset = T.offset → v.armReg T'.rn = s.armReg T.rn) ∧
      ∀ l, l < T.k →
        v.word (loIndex (regAt .dbl (T.first + l))) = s.word (loIndex (regAt .dbl (T.first + l))) ∧
        v.word (hiIndex (regAt .dbl (T.first + l))) = s.word (hiIndex (regAt .dbl (T.first + l))) ∧
        v.pairAt (regAt .dbl (T.first + l)) = s.pairAt (regAt .dbl (T.first + l))

/-! ### Where an instruction stops -/

/-- While a double-precision register is half-written, an instruction other than FMDLR, FMDHR, FSTMX and FLDMX that reads or
writes it, or one of its halves, answers no next state; a copy, a register transfer, a load or a store of it is refused by
that name (70_reset_and_hazards.md R325). That the pairing state is checked before the tags, and a source or an earlier
register of a list before what follows it, which the spec does not order, is the model's choice (DESIGN CHOICE,
notes/assumptions/30.md). -/
def Obligations.HalfWrittenUses : Prop :=
  (∀ (i : Instr) s j, j ∈ i.words → s.pairAt (doubleOf j) ≠ .whole → ¬i.mayNameHalf → conditionPassed i.cond s.cpsr = true →
    ∀ t, exec i s ≠ .next t) ∧
  (∀ c (d m : SReg) s, Ready c false s → Scalar s →
    s.pairAt (doubleOf m) ≠ .whole ∨ (Readable .sgl m s ∧ s.pairAt (doubleOf d) ≠ .whole) →
    ∀ i ∈ [Instr.fcpys c d m, .fabss c d m, .fnegs c d m], exec i s = .refused .halfWrittenDouble) ∧
  (∀ c (d m : DReg) s, Ready c true s → Scalar s →
    s.pairAt m ≠ .whole ∨ (Readable .dbl m s ∧ s.pairAt d ≠ .whole) →
    ∀ i ∈ [Instr.fcpyd c d m, .fabsd c d m, .fnegd c d m], exec i s = .refused .halfWrittenDouble) ∧
  (∀ c (n : SReg) rd s, Ready c false s → rd ≠ 15 → s.pairAt (doubleOf n) ≠ .whole →
    exec (.fmsr c n rd) s = .refused .halfWrittenDouble ∧ exec (.fmrs c rd n) s = .refused .halfWrittenDouble) ∧
  (∀ c (n : DReg) rd s, Ready c true s → rd ≠ 15 → s.pairAt n ≠ .whole →
    exec (.fmrdl c rd n) s = .refused .halfWrittenDouble ∧ exec (.fmrdh c rd n) s = .refused .halfWrittenDouble) ∧
  (∀ c (m m' : SReg) rd rn s, Ready c false s → rd ≠ 15 → rn ≠ 15 → m'.val = m.val + 1 →
    (s.pairAt (doubleOf m) ≠ .whole ∨ s.pairAt (doubleOf m') ≠ .whole →
      exec (.fmsrr c m rd rn) s = .refused .halfWrittenDouble) ∧
    (rn ≠ rd → s.pairAt (doubleOf m) ≠ .whole ∨ (Readable .sgl m s ∧ s.pairAt (doubleOf m') ≠ .whole) →
      exec (.fmrrs c rd rn m) s = .refused .halfWrittenDouble)) ∧
  (∀ c (m : DReg) rd rn s, Ready c true s → rd ≠ 15 → rn ≠ 15 → s.pairAt m ≠ .whole →
    exec (.fmdrr c m rd rn) s = .refused .halfWrittenDouble ∧
    (rn ≠ rd → exec (.fmrrd c rd rn m) s = .refused .halfWrittenDouble)) ∧
  (∀ (i : Instr) T s l, i.transfer = some T → Ready i.cond i.needsDouble s → TransferOk T.format T.first T.k T.rn s →
    l < T.k → ¬Writable T.format (regAt T.format (T.first + l)) s →
    (i.cls = .load → exec i s = .refused .halfWrittenDouble) ∧
    (i.cls = .store → (∀ j, j < l → Readable T.format (regAt T.format (T.first + j)) s) →
      exec i s = .refused .halfWrittenDouble))

/-- The UNPREDICTABLE operand values are refused, and so is a word of the `XFER1` format with an SBZ bit that is not zero
(30_encoding.md R93, R94; 60_exceptions.md R292), `Rd = R15` named first where both hold, as R91 orders them. Which refusal is
named where other operands fall under several follows the order in which 45_load_store.md R218, 46_single_transfer.md R251 and
47_two_reg_transfer.md R276 list them; that these lists are an order is the model's reading (DEDUCED,
notes/assumptions/30.md). Words that `USER_MODE` makes UNDEFINED are left to SystemStops (notes/assumptions/11.md). -/
def Obligations.UnpredictableRefused : Prop :=
  (∀ (i : Instr) T s, i.transfer = some T → conditionPassed i.cond s.cpsr = true →
    (T.format = .dbl → s.cfg.hasDouble = true) → regCount T.format < T.first + T.k →
    exec i s = .refused (if T.rn = 15 then .unallocatedEncoding .baseR15 else .unpredictable .registerListPastEnd)) ∧
  (∀ (i : Instr) T s, i.unknownTransfer = some T → conditionPassed i.cond s.cpsr = true → 16 < T.first + T.k →
    exec i s = .refused (if T.rn = 15 then .unallocatedEncoding .baseR15 else .unpredictable .registerListPastEnd)) ∧
  (∀ c s, Ready c false s →
    (∀ n, exec (.fmsr c n 15) s = .refused (.unpredictable .fromArmR15)) ∧
    (∀ n, exec (.fmrs c 15 n) s = .refused (.unpredictable .toArmR15)) ∧
    (∀ reg, (s.cfg.userMode = false ∨ reg ≠ .fpsid ∧ reg ≠ .fpexc) →
      exec (.fmxr c reg 15) s = .refused (.unpredictable .fromArmR15)) ∧
    (∀ reg, (s.cfg.userMode = false ∨ reg ≠ .fpsid ∧ reg ≠ .fpexc) → reg ≠ .fpscr →
      exec (.fmrx c 15 reg) s = .refused (.unpredictable .toArmR15)) ∧
    (∀ m rd rn, rd = 15 ∨ rn = 15 →
      exec (.fmsrr c m rd rn) s = .refused (.unpredictable .twoRegR15) ∧
      exec (.fmrrs c rd rn m) s = .refused (.unpredictable .twoRegR15))) ∧
  (∀ c s, Ready c true s →
    (∀ n, exec (.fmdlr c n 15) s = .refused (.unpredictable .fromArmR15) ∧
      exec (.fmdhr c n 15) s = .refused (.unpredictable .fromArmR15) ∧
      exec (.fmrdl c 15 n) s = .refused (.unpredictable .toArmR15) ∧
      exec (.fmrdh c 15 n) s = .refused (.unpredictable .toArmR15)) ∧
    (∀ m rd rn, rd = 15 ∨ rn = 15 →
      exec (.fmdrr c m rd rn) s = .refused (.unpredictable .twoRegR15) ∧
      exec (.fmrrd c rd rn m) s = .refused (.unpredictable .twoRegR15))) ∧
  (∀ w c s, Fetched w s → VfpWord w → condOf (w.extractLsb' 28 4) = some c → Ready c (isCp11 w) s →
    w.extractLsb' 24 4 = 0b1110 → w.getLsbD 4 = true → undefinedWord w = false →
    (s.cfg.userMode = true → w.extractLsb' 21 3 = 0b111 → extOf w ≠ 0 ∧ extOf w ≠ 16) →
    w.extractLsb' 5 2 ≠ 0 ∨ w.extractLsb' 0 4 ≠ 0 →
    step s = .refused (.unpredictable
      (if w.extractLsb' 12 4 = 15 ∧ ¬(w.extractLsb' 21 3 = 0b111 ∧ w.getLsbD 20 = true ∧ extOf w = 2) then
        if w.getLsbD 20 then .toArmR15 else .fromArmR15
      else .sbz)))

/-- The bit patterns and operand values that are neither allocated nor UNDEFINED are refused (30_encoding.md R95). Which refusal
is named where an operand falls under several follows the order in which 45_load_store.md R218 and 47_two_reg_transfer.md R276
list them; that these lists are an order is the model's reading (DEDUCED, notes/assumptions/30.md). -/
def Obligations.UnallocatedRefused : Prop :=
  (∀ w c s, Fetched w s → VfpWord w → condOf (w.extractLsb' 28 4) = some c → Ready c (isCp11 w) s →
    (w.extractLsb' 25 3 = 0b110 → puwOf w = 0 → twoRegPattern w = false →
      step s = .refused (.unallocatedEncoding .twoRegPattern)) ∧
    (w.extractLsb' 24 4 = 0b1110 → w.getLsbD 4 = false → pqrsOf w = 15 → extOf w = 10 ∨ extOf w = 11 →
      (isCp11 w = false ∧ (w.extractLsb' 0 4 ≠ 0 ∨ bitM w = true)) ∨
        (isCp11 w = true ∧ bitD w = false ∧ bitM w = false ∧ w.extractLsb' 0 4 ≠ 0) →
      step s = .refused (.unallocatedEncoding .compareZeroOperand))) ∧
  (∀ (i : Instr) T s, i.transfer = some T → conditionPassed i.cond s.cpsr = true →
    (T.format = .dbl → s.cfg.hasDouble = true) →
    (T.rn = 15 → exec i s = .refused (.unallocatedEncoding .baseR15)) ∧
    (T.rn ≠ 15 → T.k = 0 → exec i s = .refused (.unallocatedEncoding .noRegister))) ∧
  (∀ (i : Instr) T s, i.unknownTransfer = some T → conditionPassed i.cond s.cpsr = true →
    (T.rn = 15 → exec i s = .refused (.unallocatedEncoding .baseR15)) ∧
    (T.rn ≠ 15 → T.k = 0 → exec i s = .refused (.unallocatedEncoding .noRegister))) ∧
  (∀ c rd rn s, Ready c false s → rd ≠ 15 → rn ≠ 15 →
    exec (.fmsrr c 31 rd rn) s = .refused (.unallocatedEncoding .pairPastEnd) ∧
    exec (.fmrrs c rd rn 31) s = .refused (.unallocatedEncoding .pairPastEnd) ∧
    (rn = rd → ∀ m, m ≠ 31 → exec (.fmrrs c rd rn m) s = .refused (.unallocatedEncoding .sameArmRegister))) ∧
  (∀ c rd rn s, Ready c true s → rd ≠ 15 → rn ≠ 15 → rn = rd →
    ∀ m, exec (.fmrrd c rd rn m) s = .refused (.unallocatedEncoding .sameArmRegister))

/-- A load or store with a misaligned base is refused; one that `MemMap` does not admit is a data abort at the lowest-addressed
refused word, also where the transfer passes the end of the address space (notes/assumptions/18.md), and a store into the
program text is refused (20_memory.md R55, R60, R64; 60_exceptions.md R294, R300). For FSTMX and FLDMX, `MemMap` is asked
about all `2k + 1` words (45_load_store.md R236, 70_reset_and_hazards.md R326). That an FSTMX is refused for the program text
over the words that its format may write, `2k` in the recommended format and `2k + 1` in any other, is the model's reading
(DEDUCED, notes/assumptions/14.md). That a misaligned base comes
before the other two, and `MemMap` before the program text, is read from the order of R218 and R300 (DEDUCED,
notes/assumptions/30.md). -/
def Obligations.MemoryStops : Prop :=
  (∀ (i : Instr) T s, i.transfer = some T → conditionPassed i.cond s.cpsr = true →
    (T.format = .dbl → s.cfg.hasDouble = true) → T.rn ≠ 15 → 0 < T.k → T.first + T.k ≤ regCount T.format →
    ((s.armReg T.rn).extractLsb' 0 2 ≠ 0 → exec i s = .refused .misalignedAccess) ∧
    ((s.armReg T.rn).extractLsb' 0 2 = 0 →
      (i.cls = .load → (∀ l, l < T.k → Writable T.format (regAt T.format (T.first + l)) s) →
        ∀ j, LowestRefused false (startAddress T.mode (s.armReg T.rn) T.offset) (T.k * wordsOf T.format) j s →
          exec i s = .fault (.dataAbort (wordAddr (startAddress T.mode (s.armReg T.rn) T.offset) j))) ∧
      (i.cls = .store → (∀ l, l < T.k → Readable T.format (regAt T.format (T.first + l)) s) →
        (∀ j, LowestRefused true (startAddress T.mode (s.armReg T.rn) T.offset) (T.k * wordsOf T.format) j s →
          exec i s = .fault (.dataAbort (wordAddr (startAddress T.mode (s.armReg T.rn) T.offset) j))) ∧
        (Admitted true (startAddress T.mode (s.armReg T.rn) T.offset) (T.k * wordsOf T.format) s →
          ∀ j, j < T.k * wordsOf T.format →
            inText s (wordAddr (startAddress T.mode (s.armReg T.rn) T.offset) j) = true →
            exec i s = .refused .storeToProgramText)))) ∧
  (∀ (i : Instr) T s, i.unknownTransfer = some T → conditionPassed i.cond s.cpsr = true → T.rn ≠ 15 → 0 < T.k →
    T.first + T.k ≤ 16 →
    ((s.armReg T.rn).extractLsb' 0 2 ≠ 0 → exec i s = .refused .misalignedAccess) ∧
    ((s.armReg T.rn).extractLsb' 0 2 = 0 →
      (i.cls = .load →
        ∀ j, LowestRefused false (startAddress T.mode (s.armReg T.rn) T.offset) (2 * T.k + 1) j s →
          exec i s = .fault (.dataAbort (wordAddr (startAddress T.mode (s.armReg T.rn) T.offset) j))) ∧
      (i.cls = .store → (∀ l, l < T.k → Storable (regAt .dbl (T.first + l)) s) →
        (∀ j, LowestRefused true (startAddress T.mode (s.armReg T.rn) T.offset) (2 * T.k + 1) j s →
          exec i s = .fault (.dataAbort (wordAddr (startAddress T.mode (s.armReg T.rn) T.offset) j))) ∧
        (Admitted true (startAddress T.mode (s.armReg T.rn) T.offset) (2 * T.k + 1) s →
          ∀ j, j < (if s.cfg.fstmxFormat = .standard then 2 * T.k else 2 * T.k + 1) →
            inText s (wordAddr (startAddress T.mode (s.armReg T.rn) T.offset) j) = true →
            exec i s = .refused .storeToProgramText))))

/-- The vector-capable instructions are refused with a `LEN` that is not scalar, the single-precision ones in a variant without
double precision as well, and no other instruction is refused for it (40_basic_arith.md R113). -/
def Obligations.ShortVectors : Prop :=
  ∀ (i : Instr) s,
    (i.cls = .basic ∨ i.cls = .multiplyAccumulate ∨ i.cls = .copy → Ready i.cond i.needsDouble s → s.fpscr.len ≠ 0 →
      exec i s = .refused .shortVectorNotModelled) ∧
    (i.cls ≠ .basic → i.cls ≠ .multiplyAccumulate → i.cls ≠ .copy → exec i s ≠ .refused .shortVectorNotModelled)

/-- Signalling exceptions sets the cumulative flag of each and keeps all else, unless one of them has its trap enabled: then the
instruction ends in the fault of such an exception (60_exceptions.md R297). -/
def Obligations.Signalling : Prop :=
  (∀ e s,
    ((∀ x, s.fpscr.enables.has x = true → e.has x = false) →
      ∃ t, signal e s = .ok t ∧ t = { s with fpscr := { s.fpscr with cumulative := t.fpscr.cumulative } } ∧
        ∀ x, t.fpscr.cumulative.has x = (s.fpscr.cumulative.has x || e.has x)) ∧
    (∀ x, s.fpscr.enables.has x = true → e.has x = true →
      ∃ y, signal e s = .error (.fault (.fpTrap y)) ∧ s.fpscr.enables.has y = true ∧ e.has y = true)) ∧
  (∀ c (d n m : SReg) s x, Ready c false s → Scalar s → Readable .sgl n s → Readable .sgl m s → Writable .sgl d s →
    s.fpscr.enables.has x = true → (fpAdd .sgl (fpEnv s) (s.word n) (s.word m)).exc.has x = true →
    ∃ y, exec (.fadds c d n m) s = .fault (.fpTrap y) ∧ s.fpscr.enables.has y = true ∧
      (fpAdd .sgl (fpEnv s) (s.word n) (s.word m)).exc.has y = true)

/-- Where FMXR and FMRX stop: FPSID is not written, the FPSCR only with a word that `FpscrAdmits` spells out and FPEXC only
with its own value, a sub-architecture defined register only if supplied, and FPSID and FPEXC only in privileged execution
(46_single_transfer.md R259, R261; 60_exceptions.md R293, R306). The last holds of every word that names FPSID or FPEXC, its
SBZ bits and `Rd` whatever they are: R300 ranks UNDEFINED before their refusals, and that it does so for the UNDEFINED of
`USER_MODE`, which R251 does not place, is the model's reading (notes/assumptions/11.md). -/
def Obligations.SystemStops : Prop :=
  (∀ c rd s, Ready c false s → rd ≠ 15 →
    (s.cfg.userMode = false → exec (.fmxr c .fpsid rd) s = .refused .writeToFpsid) ∧
    (¬FpscrAdmits (s.armReg rd) → exec (.fmxr c .fpscr rd) s = .refused .badFpscrWrite) ∧
    (s.cfg.userMode = false → s.armReg rd ≠ 0x40000000#32 → exec (.fmxr c .fpexc rd) s = .refused .badFpexcWrite) ∧
    (∀ low, 1#1 ++ low ∉ s.cfg.subArch → exec (.fmxr c (.subArch low) rd) s = .refused .subArchDefined ∧
      exec (.fmrx c rd (.subArch low)) s = .refused .subArchDefined)) ∧
  (∀ c rd s reg, Ready c false s → s.cfg.userMode = true → reg = .fpsid ∨ reg = .fpexc →
    exec (.fmxr c reg rd) s = .fault (.undefinedInstruction s.pc (encode (.fmxr c reg rd))) ∧
    exec (.fmrx c rd reg) s = .fault (.undefinedInstruction s.pc (encode (.fmrx c rd reg)))) ∧
  (∀ w c s, Fetched w s → condOf (w.extractLsb' 28 4) = some c → conditionPassed c s.cpsr = true →
    s.cfg.userMode = true → w.extractLsb' 24 4 = 0b1110 → w.extractLsb' 8 4 = 10 → w.getLsbD 4 = true → w.extractLsb' 21 3 = 0b111 →
    extOf w = 0 ∨ extOf w = 16 → step s = .fault (.undefinedInstruction s.pc w))

/-- A read of a word without a value is a fault, and a read in the precision other than the last written is refused unless the
parameter `OVERLAP` is transparent (10_state.md R23), as FMRS and FMRDL show it. The spec does not order the checks of the two
words of a double: the low word first is the model's choice (DESIGN CHOICE, notes/assumptions/16.md and 30.md). -/
def Obligations.ContentTags : Prop :=
  (∀ c rd (n : SReg) s, Ready c false s → rd ≠ 15 → s.pairAt (doubleOf n) = .whole →
    (s.tagAt n = .none → exec (.fmrs c rd n) s = .fault (.unwrittenRegister n)) ∧
    (s.tagAt n = .dbl → s.cfg.overlap = .tagged → exec (.fmrs c rd n) s = .refused .crossPrecisionRead) ∧
    (s.tagAt n = .sgl ∨ s.tagAt n = .any ∨ (s.tagAt n = .dbl ∧ s.cfg.overlap = .transparent) →
      ∃ t, exec (.fmrs c rd n) s = .next t ∧ t.armReg rd = s.word n)) ∧
  (∀ c rd (n : DReg) s, Ready c true s → rd ≠ 15 → s.pairAt n = .whole →
    (s.tagAt (loIndex n) = .none → exec (.fmrdl c rd n) s = .fault (.unwrittenRegister (loIndex n))) ∧
    (s.tagAt (loIndex n) = .sgl → s.cfg.overlap = .tagged → exec (.fmrdl c rd n) s = .refused .crossPrecisionRead) ∧
    (s.tagAt (loIndex n) = .dbl ∨ s.tagAt (loIndex n) = .any ∨
        (s.tagAt (loIndex n) = .sgl ∧ s.cfg.overlap = .transparent) →
      (s.tagAt (hiIndex n) = .none → exec (.fmrdl c rd n) s = .fault (.unwrittenRegister (hiIndex n))) ∧
      (s.tagAt (hiIndex n) = .sgl → s.cfg.overlap = .tagged → exec (.fmrdl c rd n) s = .refused .crossPrecisionRead) ∧
      (s.tagAt (hiIndex n) = .dbl ∨ s.tagAt (hiIndex n) = .any ∨
          (s.tagAt (hiIndex n) = .sgl ∧ s.cfg.overlap = .transparent) →
        ∃ t, exec (.fmrdl c rd n) s = .next t ∧ t.armReg rd = s.word (loIndex n))))

/-- The FPSCR that FMRX reads has its fields at the places of 10_state.md R31 and 0 elsewhere, and FMRX reads back every word
that FMXR may write (46_single_transfer.md R259, R261). -/
def Obligations.FpscrReadBack : Prop :=
  (∀ p : Fpscr, ∀ i, p.word.getLsbD i =
    match i with
    | 31 => p.flags.n | 30 => p.flags.z | 29 => p.flags.c | 28 => p.flags.v
    | 25 => p.dn | 24 => p.fz
    | 23 => decide (p.rmode = .rm ∨ p.rmode = .rz) | 22 => decide (p.rmode = .rp ∨ p.rmode = .rz)
    | 21 => p.stride.getLsbD 1 | 20 => p.stride.getLsbD 0
    | 18 => p.len.getLsbD 2 | 17 => p.len.getLsbD 1 | 16 => p.len.getLsbD 0
    | 15 => p.enables.inputDenormal | 12 => p.enables.inexact | 11 => p.enables.underflow
    | 10 => p.enables.overflow | 9 => p.enables.divByZero | 8 => p.enables.invalidOp
    | 7 => p.cumulative.inputDenormal | 4 => p.cumulative.inexact | 3 => p.cumulative.underflow
    | 2 => p.cumulative.overflow | 1 => p.cumulative.divByZero | 0 => p.cumulative.invalidOp
    | _ => false) ∧
  (∀ c rd rd' s, Ready c false s → rd ≠ 15 → rd' ≠ 15 → FpscrAdmits (s.armReg rd) →
    ∃ u, runs [.fmxr c .fpscr rd, .fmrx c rd' .fpscr] s u ∧ u.armReg rd' = s.armReg rd)
end

