-- ==== Sys2Proof/Laws/Encoding.lean ====
section
/-! SUPPORT. The fields of an encoded word are the fields it was made from (30_encoding.md R73, R81, R83, R87). -/

namespace Sys2Proof

theorem extract_cast {n m : Nat} (h : n = m) (x : BitVec n) (s l : Nat) :
    (x.cast h).extractLsb' s l = x.extractLsb' s l := by subst h; rfl

@[simp] theorem dpFields_word (f : DpFields) : dpFields f.word = f := by
  simp (disch := decide) only [dpFields, DpFields.word, extract_cast, BitVec.extractLsb'_append_eq_of_add_le,
    BitVec.extractLsb'_append_eq_of_le, Nat.reduceSub, BitVec.extractLsb'_eq_self]

@[simp] theorem lsFields_word (f : LsFields) : lsFields f.word = f := by
  simp (disch := decide) only [lsFields, LsFields.word, extract_cast, BitVec.extractLsb'_append_eq_of_add_le,
    BitVec.extractLsb'_append_eq_of_le, Nat.reduceSub, BitVec.extractLsb'_eq_self]

@[simp] theorem xfer1Fields_word (f : Xfer1Fields) : xfer1Fields f.word = f := by
  simp (disch := decide) only [xfer1Fields, Xfer1Fields.word, extract_cast, BitVec.extractLsb'_append_eq_of_add_le,
    BitVec.extractLsb'_append_eq_of_le, Nat.reduceSub, BitVec.extractLsb'_eq_self]

@[simp] theorem xfer2Fields_word (f : Xfer2Fields) : xfer2Fields f.word = f := by
  simp (disch := decide) only [xfer2Fields, Xfer2Fields.word, extract_cast, BitVec.extractLsb'_append_eq_of_add_le,
    BitVec.extractLsb'_append_eq_of_le, Nat.reduceSub, BitVec.extractLsb'_eq_self]

/-! ### The bits that select a format (R70, R91) -/

@[simp] theorem DpFields.word_cond (f : DpFields) : f.word.extractLsb' 28 4 = f.cond := by
  simp (disch := decide) only [DpFields.word, extract_cast, BitVec.extractLsb'_append_eq_of_le,
    Nat.reduceSub, BitVec.extractLsb'_eq_self]

@[simp] theorem LsFields.word_cond (f : LsFields) : f.word.extractLsb' 28 4 = f.cond := by
  simp (disch := decide) only [LsFields.word, extract_cast, BitVec.extractLsb'_append_eq_of_le,
    Nat.reduceSub, BitVec.extractLsb'_eq_self]

@[simp] theorem Xfer1Fields.word_cond (f : Xfer1Fields) : f.word.extractLsb' 28 4 = f.cond := by
  simp (disch := decide) only [Xfer1Fields.word, extract_cast, BitVec.extractLsb'_append_eq_of_le,
    Nat.reduceSub, BitVec.extractLsb'_eq_self]

@[simp] theorem Xfer2Fields.word_cond (f : Xfer2Fields) : f.word.extractLsb' 28 4 = f.cond := by
  simp (disch := decide) only [Xfer2Fields.word, extract_cast, BitVec.extractLsb'_append_eq_of_le,
    Nat.reduceSub, BitVec.extractLsb'_eq_self]

@[simp] theorem DpFields.word_cp (f : DpFields) : f.word.extractLsb' 8 4 = f.cp := by
  simp (disch := decide) only [DpFields.word, extract_cast, BitVec.extractLsb'_append_eq_of_add_le,
    BitVec.extractLsb'_append_eq_of_le, Nat.reduceSub, BitVec.extractLsb'_eq_self]

@[simp] theorem LsFields.word_cp (f : LsFields) : f.word.extractLsb' 8 4 = f.cp := by
  simp (disch := decide) only [LsFields.word, extract_cast, BitVec.extractLsb'_append_eq_of_add_le,
    BitVec.extractLsb'_append_eq_of_le, Nat.reduceSub, BitVec.extractLsb'_eq_self]

@[simp] theorem Xfer1Fields.word_cp (f : Xfer1Fields) : f.word.extractLsb' 8 4 = f.cp := by
  simp (disch := decide) only [Xfer1Fields.word, extract_cast, BitVec.extractLsb'_append_eq_of_add_le,
    BitVec.extractLsb'_append_eq_of_le, Nat.reduceSub, BitVec.extractLsb'_eq_self]

@[simp] theorem Xfer2Fields.word_cp (f : Xfer2Fields) : f.word.extractLsb' 8 4 = f.cp := by
  simp (disch := decide) only [Xfer2Fields.word, extract_cast, BitVec.extractLsb'_append_eq_of_add_le,
    BitVec.extractLsb'_append_eq_of_le, Nat.reduceSub, BitVec.extractLsb'_eq_self]

/-! ### Conditions and register numbers -/

@[simp] theorem condOf_bits (c : Cond) : condOf c.bits = some c := by cases c <;> rfl

@[simp] theorem sregOf_field_extra (r : SReg) : sregOf (sregField r) (sregExtra r) = r := by
  revert r; decide

@[simp] theorem regOf_field (r : Fin 16) : regOf (regField r) = r := by revert r; decide

theorem sregField_sregOf (field : BitVec 4) (extra : BitVec 1) : sregField (sregOf field extra) = field := by
  revert field extra; decide

theorem sregExtra_sregOf (field : BitVec 4) (extra : BitVec 1) : sregExtra (sregOf field extra) = extra := by
  revert field extra; decide

theorem regField_regOf (field : BitVec 4) : regField (regOf field) = field := by revert field; decide

/-! ### Decoding a word of a format -/

theorem not_data_bits {w : Word} (h : w.extractLsb' 25 3 = 0b110) : w.extractLsb' 24 4 ≠ 0b1110 := by
  intro h'
  have a := congrArg (fun b => b.getLsbD 0) h
  have b := congrArg (fun b => b.getLsbD 1) h'
  simp only [BitVec.getLsbD_extractLsb'] at a b
  exact absurd (a.symm.trans b) (by decide)

/-- A word of the `DP` format is decoded by its fields. -/
theorem decode_dpWord {f : DpFields} {c : Cond} (hc : f.cond = c.bits) (hp : f.cp = 10 ∨ f.cp = 11) :
    decode f.word = decodeDp c f := by
  have h1 : f.word.extractLsb' 24 4 = 0b1110 := by
    simp (disch := decide) only [DpFields.word, extract_cast, BitVec.extractLsb'_append_eq_of_add_le,
      BitVec.extractLsb'_append_eq_of_le, Nat.reduceSub, BitVec.extractLsb'_eq_self]; rfl
  have h2 : f.word.extractLsb' 4 1 = 0 := by
    simp (disch := decide) only [DpFields.word, extract_cast, BitVec.extractLsb'_append_eq_of_add_le,
      BitVec.extractLsb'_append_eq_of_le, Nat.reduceSub, BitVec.extractLsb'_eq_self]; rfl
  simp only [decode, DpFields.word_cond, DpFields.word_cp, hc, condOf_bits, if_pos hp, h1, h2, dpFields_word, if_true]

/-- A word of the `XFER1` format is decoded by its fields. -/
theorem decode_xfer1Word {f : Xfer1Fields} {c : Cond} (hc : f.cond = c.bits) (hp : f.cp = 10 ∨ f.cp = 11) :
    decode f.word = decodeXfer1 c f := by
  have h1 : f.word.extractLsb' 24 4 = 0b1110 := by
    simp (disch := decide) only [Xfer1Fields.word, extract_cast, BitVec.extractLsb'_append_eq_of_add_le,
      BitVec.extractLsb'_append_eq_of_le, Nat.reduceSub, BitVec.extractLsb'_eq_self]; rfl
  have h2 : f.word.extractLsb' 4 1 = 1 := by
    simp (disch := decide) only [Xfer1Fields.word, extract_cast, BitVec.extractLsb'_append_eq_of_add_le,
      BitVec.extractLsb'_append_eq_of_le, Nat.reduceSub, BitVec.extractLsb'_eq_self]; rfl
  simp only [decode, Xfer1Fields.word_cond, Xfer1Fields.word_cp, hc, condOf_bits, if_pos hp, h1, h2, xfer1Fields_word,
    if_true, show ¬((1 : BitVec 1) = 0) by decide, if_false]

/-- A word of the `LS` format is decoded by its bits `P:U:W`. -/
theorem decode_lsWord {f : LsFields} {c : Cond} (hc : f.cond = c.bits) (hp : f.cp = 10 ∨ f.cp = 11) :
    decode f.word = decodeLs c f.word := by
  have h1 : f.word.extractLsb' 25 3 = 0b110 := by
    simp (disch := decide) only [LsFields.word, extract_cast, BitVec.extractLsb'_append_eq_of_add_le,
      BitVec.extractLsb'_append_eq_of_le, Nat.reduceSub, BitVec.extractLsb'_eq_self]; rfl
  simp only [decode, LsFields.word_cond, LsFields.word_cp, hc, condOf_bits, if_pos hp, h1, not_data_bits h1, if_true,
    if_false]

/-- A word of the `XFER2` format is decoded by its fields. -/
theorem decode_xfer2Word {f : Xfer2Fields} {c : Cond} (hc : f.cond = c.bits) (hp : f.cp = 10 ∨ f.cp = 11) :
    decode f.word = decodeXfer2 c f := by
  have h1 : f.word.extractLsb' 25 3 = 0b110 := by
    simp (disch := decide) only [Xfer2Fields.word, extract_cast, BitVec.extractLsb'_append_eq_of_add_le,
      BitVec.extractLsb'_append_eq_of_le, Nat.reduceSub]; rfl
  have hP : f.word.extractLsb' 24 1 = 0 := by
    simp (disch := decide) only [Xfer2Fields.word, extract_cast, BitVec.extractLsb'_append_eq_of_add_le,
      BitVec.extractLsb'_append_eq_of_le, Nat.reduceSub]; rfl
  have hU : f.word.extractLsb' 23 1 = 0 := by
    simp (disch := decide) only [Xfer2Fields.word, extract_cast, BitVec.extractLsb'_append_eq_of_add_le,
      BitVec.extractLsb'_append_eq_of_le, Nat.reduceSub]; rfl
  have hD : f.word.extractLsb' 22 1 = 1 := by
    simp (disch := decide) only [Xfer2Fields.word, extract_cast, BitVec.extractLsb'_append_eq_of_add_le,
      BitVec.extractLsb'_append_eq_of_le, Nat.reduceSub]; rfl
  have hW : f.word.extractLsb' 21 1 = 0 := by
    simp (disch := decide) only [Xfer2Fields.word, extract_cast, BitVec.extractLsb'_append_eq_of_add_le,
      BitVec.extractLsb'_append_eq_of_le, Nat.reduceSub]; rfl
  have h6 : f.word.extractLsb' 6 2 = 0 := by
    simp (disch := decide) only [Xfer2Fields.word, extract_cast, BitVec.extractLsb'_append_eq_of_add_le,
      BitVec.extractLsb'_append_eq_of_le, Nat.reduceSub, BitVec.extractLsb'_eq_self]; rfl
  have h4 : f.word.extractLsb' 4 1 = 1 := by
    simp (disch := decide) only [Xfer2Fields.word, extract_cast, BitVec.extractLsb'_append_eq_of_add_le,
      BitVec.extractLsb'_append_eq_of_le, Nat.reduceSub, BitVec.extractLsb'_eq_self]; rfl
  have hpuw : (lsFields f.word).puw = 0 := by simp [LsFields.puw, lsFields, hP, hU, hW]
  have htwo : twoRegPattern f.word = true := by simp [twoRegPattern, hD, h6, h4]
  simp only [decode, Xfer2Fields.word_cond, Xfer2Fields.word_cp, hc, condOf_bits, if_pos hp, h1, not_data_bits h1, if_true,
    if_false, decodeLs, hpuw, htwo, xfer2Fields_word]
  rfl

/-! The same for the fields written out, so that `simp` finds the condition. -/

theorem decode_dp {c : Cond} {p D q r : BitVec 1} {Fn Fd cp : BitVec 4} {N s M : BitVec 1} {Fm : BitVec 4}
    (hp : cp = 10 ∨ cp = 11) :
    decode (DpFields.word ⟨c.bits, p, D, q, r, Fn, Fd, cp, N, s, M, Fm⟩)
      = decodeDp c ⟨c.bits, p, D, q, r, Fn, Fd, cp, N, s, M, Fm⟩ :=
  decode_dpWord rfl hp

theorem decode_ls {c : Cond} {P U D W L : BitVec 1} {Rn Fd cp : BitVec 4} {offset : BitVec 8} (hp : cp = 10 ∨ cp = 11) :
    decode (LsFields.word ⟨c.bits, P, U, D, W, L, Rn, Fd, cp, offset⟩)
      = decodeLs c (LsFields.word ⟨c.bits, P, U, D, W, L, Rn, Fd, cp, offset⟩) :=
  decode_lsWord rfl hp

theorem decode_xfer1 {c : Cond} {opcode : BitVec 3} {L : BitVec 1} {Fn Rd cp : BitVec 4} {N : BitVec 1} {hi : BitVec 2}
    {lo : BitVec 4} (hp : cp = 10 ∨ cp = 11) :
    decode (Xfer1Fields.word ⟨c.bits, opcode, L, Fn, Rd, cp, N, hi, lo⟩)
      = decodeXfer1 c ⟨c.bits, opcode, L, Fn, Rd, cp, N, hi, lo⟩ :=
  decode_xfer1Word rfl hp

theorem decode_xfer2 {c : Cond} {L : BitVec 1} {Rn Rd cp : BitVec 4} {M : BitVec 1} {Fm : BitVec 4} (hp : cp = 10 ∨ cp = 11) :
    decode (Xfer2Fields.word ⟨c.bits, L, Rn, Rd, cp, M, Fm⟩) = decodeXfer2 c ⟨c.bits, L, Rn, Rd, cp, M, Fm⟩ :=
  decode_xfer2Word rfl hp

end Sys2Proof
end

