-- ==== Sys2Proof/Laws/Memory.lean ====
section
/-! SUPPORT. Memory: its canonical form, and what a read sees after a write. -/

namespace Sys2Proof.Machine

/-! ### Bytes -/

theorem Memory.wf_nil : Memory.wf [] := by simp [Memory.wf]

theorem Memory.wf_tail {c : Host.Cell} {m : Memory} (h : Memory.wf (c :: m)) : Memory.wf m :=
  ⟨(List.pairwise_cons.1 h.1).2, fun d hd => h.2 d (List.mem_cons_of_mem _ hd)⟩

/-- An address below every listed one reads as unlisted. -/
theorem readByte_below {a : Nat} {m : Memory} (h : ∀ c ∈ m, a < c.1) : readByte a m = unlistedByte := by
  induction m with
  | nil => rfl
  | cons c m ih =>
    obtain ⟨b, w⟩ := c
    have hb : a < b := h (b, w) (by simp)
    simp only [readByte]
    rw [if_neg (by omega)]
    exact ih fun d hd => h d (List.mem_cons_of_mem _ hd)

theorem readByte_consByte_self {a : Nat} {v : Byte} {m : Memory} (h : ∀ c ∈ m, a < c.1) :
    readByte a (consByte a v m) = v := by
  unfold consByte
  split
  · rename_i hv; rw [readByte_below h, hv]
  · simp [readByte]

theorem readByte_consByte_other {a b : Nat} {v : Byte} {m : Memory} (h : b ≠ a) :
    readByte b (consByte a v m) = readByte b m := by
  unfold consByte
  split
  · rfl
  · simp only [readByte]; rw [if_neg (fun e => h e.symm)]

/-- A byte reads as what was last written to it. -/
theorem readByte_writeByte_self {a : Nat} {v : Byte} {m : Memory} (h : Memory.wf m) :
    readByte a (writeByte a v m) = v := by
  induction m with
  | nil => exact readByte_consByte_self (by simp)
  | cons c m ih =>
    obtain ⟨b, w⟩ := c
    have hp := List.pairwise_cons.1 h.1
    simp only [writeByte]
    split
    · rename_i hab
      refine readByte_consByte_self fun d hd => ?_
      rcases List.mem_cons.1 hd with rfl | hd
      · exact hab
      · exact Nat.lt_trans hab (hp.1 d hd)
    · split
      · rename_i hab; subst hab
        exact readByte_consByte_self fun d hd => hp.1 d hd
      · rename_i h1 h2
        simp only [readByte]
        rw [if_neg (fun e => h2 e.symm)]
        exact ih (Memory.wf_tail h)

/-- A write leaves every other byte as it was. -/
theorem readByte_writeByte_other {a b : Nat} {v : Byte} {m : Memory} (hb : b ≠ a) :
    readByte b (writeByte a v m) = readByte b m := by
  induction m with
  | nil => exact readByte_consByte_other hb
  | cons c m ih =>
    obtain ⟨d, w⟩ := c
    simp only [writeByte]
    split
    · rw [readByte_consByte_other hb]
    · split
      · rename_i h; subst h
        rw [readByte_consByte_other hb]
        simp only [readByte]; rw [if_neg (fun e => hb e.symm)]
      · simp only [readByte, ih]

theorem mem_consByte {a : Nat} {v : Byte} {m : Memory} {c : Host.Cell} (h : c ∈ consByte a v m) :
    (c = (a, v) ∧ v ≠ unlistedByte) ∨ c ∈ m := by
  unfold consByte at h
  split at h
  · exact .inr h
  · rename_i hv
    rcases List.mem_cons.1 h with h | h
    · exact .inl ⟨h, hv⟩
    · exact .inr h

theorem mem_writeByte {a : Nat} {v : Byte} {m : Memory} {c : Host.Cell} (h : c ∈ writeByte a v m) :
    (c = (a, v) ∧ v ≠ unlistedByte) ∨ c ∈ m := by
  induction m with
  | nil => exact mem_consByte h
  | cons d m ih =>
    obtain ⟨b, w⟩ := d
    simp only [writeByte] at h
    split at h
    · exact mem_consByte h
    · split at h
      · exact (mem_consByte h).imp id (List.mem_cons_of_mem _)
      · rcases List.mem_cons.1 h with h | h
        · exact .inr (by simp [h])
        · exact (ih h).imp id (List.mem_cons_of_mem _)

theorem wf_consByte {a : Nat} {v : Byte} {m : Memory} (ha : a < 2 ^ 32) (hm : Memory.wf m) (h : ∀ c ∈ m, a < c.1) :
    Memory.wf (consByte a v m) := by
  unfold consByte
  split
  · exact hm
  · rename_i hv
    refine ⟨List.pairwise_cons.2 ⟨h, hm.1⟩, fun c hc => ?_⟩
    rcases List.mem_cons.1 hc with rfl | hc
    · exact ⟨ha, hv⟩
    · exact hm.2 c hc

/-- A write keeps the canonical form. -/
theorem wf_writeByte {a : Nat} {v : Byte} {m : Memory} (ha : a < 2 ^ 32) (hm : Memory.wf m) :
    Memory.wf (writeByte a v m) := by
  induction m with
  | nil => exact wf_consByte ha hm (by simp)
  | cons c m ih =>
    obtain ⟨b, w⟩ := c
    have hp := List.pairwise_cons.1 hm.1
    simp only [writeByte]
    split
    · rename_i hab
      refine wf_consByte ha hm fun d hd => ?_
      rcases List.mem_cons.1 hd with rfl | hd
      · exact hab
      · exact Nat.lt_trans hab (hp.1 d hd)
    · split
      · rename_i hab; subst hab
        exact wf_consByte ha (Memory.wf_tail hm) hp.1
      · rename_i h1 h2
        have ht := ih (Memory.wf_tail hm)
        refine ⟨List.pairwise_cons.2 ⟨fun d hd => ?_, ht.1⟩, fun d hd => ?_⟩
        · rcases mem_writeByte hd with ⟨rfl, _⟩ | hd
          · show b < a; omega
          · exact hp.1 d hd
        · rcases List.mem_cons.1 hd with rfl | hd
          · exact hm.2 _ (by simp)
          · exact ht.2 d hd

/-! ### Words -/

theorem byteAddr_lt (a : Word) (i : Nat) : byteAddr a i < 2 ^ 32 := by unfold byteAddr; exact (a + _).isLt

theorem byteAddr_wordAddr (a : Word) (n i : Nat) : byteAddr (wordAddr a n) i = byteAddr a (4 * n + i) := by
  unfold byteAddr wordAddr
  rw [BitVec.add_assoc, ← BitVec.ofNat_add]

theorem wordAddr_wordAddr (a : Word) (m n : Nat) : wordAddr (wordAddr a m) n = wordAddr a (m + n) := by
  unfold wordAddr
  rw [BitVec.add_assoc, ← BitVec.ofNat_add, Nat.mul_add]

@[simp] theorem wordAddr_zero (a : Word) : wordAddr a 0 = a := by simp [wordAddr]

/-- Bytes less than 2^32 apart have different addresses. -/
theorem byteAddr_inj {a : Word} {i j : Nat} (hi : i < 2 ^ 32) (hj : j < 2 ^ 32) (h : byteAddr a i = byteAddr a j) :
    i = j := by
  unfold byteAddr at h
  simp only [BitVec.toNat_add, BitVec.toNat_ofNat] at h
  have ha := a.isLt
  omega

theorem byteOffset_lt (bigEnd : Bool) {i : Nat} (h : i < 4) : byteOffset bigEnd i < 4 := by
  unfold byteOffset; split <;> omega

theorem byteOffset_inj (bigEnd : Bool) {i j : Nat} (hi : i < 4) (hj : j < 4) (h : byteOffset bigEnd i = byteOffset bigEnd j) :
    i = j := by
  unfold byteOffset at h; split at h <;> omega

theorem wf_writeWord {bigEnd : Bool} {a v : Word} {m : Memory} (h : Memory.wf m) : Memory.wf (writeWord bigEnd a v m) := by
  unfold writeWord writeByteOf
  repeat' first | exact h | refine wf_writeByte (byteAddr_lt _ _) ?_

/-- A word store leaves every byte outside the word as it was. -/
theorem readByte_writeWord_other {bigEnd : Bool} {a v : Word} {m : Memory} {b : Nat} (h : ∀ i, i < 4 → b ≠ byteAddr a i) :
    readByte b (writeWord bigEnd a v m) = readByte b m := by
  unfold writeWord writeByteOf
  rw [readByte_writeByte_other (h _ (byteOffset_lt _ (by decide))),
    readByte_writeByte_other (h _ (byteOffset_lt _ (by decide))),
    readByte_writeByte_other (h _ (byteOffset_lt _ (by decide))),
    readByte_writeByte_other (h _ (byteOffset_lt _ (by decide)))]

/-- A word store puts bits `8i+7:8i` where R52 says. -/
theorem readByte_writeWord_self {bigEnd : Bool} {a v : Word} {m : Memory} (hm : Memory.wf m) {i : Nat} (hi : i < 4) :
    readByte (byteAddr a (byteOffset bigEnd i)) (writeWord bigEnd a v m) = v.extractLsb' (8 * i) 8 := by
  have ne : ∀ j, j < 4 → i ≠ j → byteAddr a (byteOffset bigEnd i) ≠ byteAddr a (byteOffset bigEnd j) := by
    intro j hj hij h
    have h1 := byteOffset_lt bigEnd hi
    have h2 := byteOffset_lt bigEnd hj
    exact hij (byteOffset_inj bigEnd hi hj (byteAddr_inj (by omega) (by omega) h))
  have w : ∀ k w m, Memory.wf m → Memory.wf (writeByteOf bigEnd a w k m) := fun k w m h => wf_writeByte (byteAddr_lt _ _) h
  unfold writeWord
  have h0 := w 0 v m hm
  have h1 := w 1 v _ h0
  have h2 := w 2 v _ h1
  obtain rfl | rfl | rfl | rfl : i = 0 ∨ i = 1 ∨ i = 2 ∨ i = 3 := by omega
  · rw [writeByteOf, readByte_writeByte_other (ne 3 (by decide) (by decide)), writeByteOf,
      readByte_writeByte_other (ne 2 (by decide) (by decide)), writeByteOf,
      readByte_writeByte_other (ne 1 (by decide) (by decide)), writeByteOf, readByte_writeByte_self hm]
  · rw [writeByteOf, readByte_writeByte_other (ne 3 (by decide) (by decide)), writeByteOf,
      readByte_writeByte_other (ne 2 (by decide) (by decide)), writeByteOf, readByte_writeByte_self h0]
  · rw [writeByteOf, readByte_writeByte_other (ne 3 (by decide) (by decide)), writeByteOf, readByte_writeByte_self h1]
  · rw [writeByteOf, readByte_writeByte_self h2]

theorem append_extract (v : Word) :
    v.extractLsb' 24 8 ++ v.extractLsb' 16 8 ++ v.extractLsb' 8 8 ++ v.extractLsb' 0 8 = v := by
  ext i hi
  simp only [BitVec.getElem_append, BitVec.getElem_extractLsb']
  repeat' split
  all_goals (rw [BitVec.getLsbD_eq_getElem (by omega)]; congr 1; omega)

/-- A word reads as what was last stored to it. -/
theorem readWord_writeWord_self {bigEnd : Bool} {a v : Word} {m : Memory} (hm : Memory.wf m) :
    readWord bigEnd a (writeWord bigEnd a v m) = v := by
  unfold readWord
  rw [readByte_writeWord_self hm (by decide), readByte_writeWord_self hm (by decide),
    readByte_writeWord_self hm (by decide), readByte_writeWord_self hm (by decide)]
  exact append_extract v

/-- A word read depends on its four bytes only. -/
theorem readWord_congr {bigEnd : Bool} {a : Word} {m m' : Memory}
    (h : ∀ i, i < 4 → readByte (byteAddr a i) m = readByte (byteAddr a i) m') : readWord bigEnd a m = readWord bigEnd a m' := by
  unfold readWord
  rw [h _ (byteOffset_lt _ (by decide)), h _ (byteOffset_lt _ (by decide)), h _ (byteOffset_lt _ (by decide)),
    h _ (byteOffset_lt _ (by decide))]

/-! ### Registers in memory -/

theorem hiWord_dwordOf (hi lo : Word) : hiWord (dwordOf hi lo) = hi := by
  unfold hiWord dwordOf
  rw [BitVec.extractLsb'_append_eq_of_le (by decide)]
  exact BitVec.extractLsb'_eq_self

theorem loWord_dwordOf (hi lo : Word) : loWord (dwordOf hi lo) = lo := by
  unfold loWord dwordOf
  rw [BitVec.extractLsb'_append_eq_of_add_le (by decide)]
  exact BitVec.extractLsb'_eq_self

theorem dwordOf_hiWord_loWord (v : DWord) : dwordOf (hiWord v) (loWord v) = v := by
  unfold hiWord loWord dwordOf
  ext i h
  simp only [BitVec.getElem_append, BitVec.getElem_extractLsb']
  split
  all_goals (rw [BitVec.getLsbD_eq_getElem (by omega)]; congr 1; omega)

theorem wordsOf_pos (f : Fmt) : 0 < wordsOf f := by cases f <;> decide

theorem wordsOf_le (f : Fmt) : wordsOf f ≤ 2 := by cases f <;> decide

theorem wf_storePat {f : Fmt} {bigEnd : Bool} {a : Word} {v : Pat f} {m : Memory} (h : Memory.wf m) :
    Memory.wf (storePat f bigEnd a v m) := by
  cases f
  · exact wf_writeWord h
  · exact wf_writeWord (wf_writeWord h)

/-- A register store leaves every byte outside its words as it was. -/
theorem readByte_storePat_other {f : Fmt} {bigEnd : Bool} {a : Word} {v : Pat f} {m : Memory} {b : Nat}
    (h : ∀ i, i < 4 * wordsOf f → b ≠ byteAddr a i) : readByte b (storePat f bigEnd a v m) = readByte b m := by
  cases f
  · exact readByte_writeWord_other h
  · simp only [storePat]
    rw [readByte_writeWord_other (fun i hi => by rw [byteAddr_wordAddr]; exact h _ (by simp only [wordsOf]; omega)),
      readByte_writeWord_other (fun i hi => h i (by simp only [wordsOf]; omega))]

/-- A register loads as what was last stored there. -/
theorem loadPat_storePat {f : Fmt} {bigEnd : Bool} {a : Word} {v : Pat f} {m : Memory} (hm : Memory.wf m) :
    loadPat f bigEnd a (storePat f bigEnd a v m) = v := by
  cases f
  · exact readWord_writeWord_self hm
  · have far : ∀ w w' : Word, readWord bigEnd a (writeWord bigEnd (wordAddr a 1) w (writeWord bigEnd a w' m)) = w' := by
      intro w w'
      rw [readWord_congr (m' := writeWord bigEnd a w' m) fun i hi => ?_, readWord_writeWord_self hm]
      refine readByte_writeWord_other fun j hj h => ?_
      rw [byteAddr_wordAddr] at h
      have := byteAddr_inj (by omega) (by omega) h
      omega
    cases bigEnd
    · simp only [loadPat, storePat, Bool.false_eq_true, if_false, far, readWord_writeWord_self (wf_writeWord hm)]
      exact dwordOf_hiWord_loWord v
    · simp only [loadPat, storePat, if_true, far, readWord_writeWord_self (wf_writeWord hm)]
      exact dwordOf_hiWord_loWord v

/-- A register load depends on the bytes of its words only. -/
theorem loadPat_congr {f : Fmt} {bigEnd : Bool} {a : Word} {m m' : Memory}
    (h : ∀ i, i < 4 * wordsOf f → readByte (byteAddr a i) m = readByte (byteAddr a i) m') :
    loadPat f bigEnd a m = loadPat f bigEnd a m' := by
  cases f
  · exact readWord_congr h
  · have h0 : readWord bigEnd a m = readWord bigEnd a m' := readWord_congr fun i hi => h i (by simp only [wordsOf]; omega)
    have h1 : readWord bigEnd (wordAddr a 1) m = readWord bigEnd (wordAddr a 1) m' :=
      readWord_congr fun i hi => by rw [byteAddr_wordAddr]; exact h _ (by simp only [wordsOf]; omega)
    simp only [loadPat, h0, h1]

/-! ### Lists of registers in memory -/

theorem wf_storePats {f : Fmt} {bigEnd : Bool} {vs : List (Pat f)} {a : Word} {m : Memory} (h : Memory.wf m) :
    Memory.wf (storePats f bigEnd a vs m) := by
  induction vs generalizing a m with
  | nil => exact h
  | cons v vs ih => exact ih (wf_storePat h)

/-- A store of a list leaves every byte outside its block as it was. -/
theorem readByte_storePats_other {f : Fmt} {bigEnd : Bool} {vs : List (Pat f)} {a : Word} {m : Memory} {b : Nat}
    (h : ∀ i, i < 4 * (vs.length * wordsOf f) → b ≠ byteAddr a i) : readByte b (storePats f bigEnd a vs m) = readByte b m := by
  induction vs generalizing a m with
  | nil => rfl
  | cons v vs ih =>
    have hl : (v :: vs).length * wordsOf f = wordsOf f + vs.length * wordsOf f := by
      rw [List.length_cons, Nat.add_mul, Nat.one_mul, Nat.add_comm]
    rw [hl] at h
    simp only [storePats]
    rw [ih fun i hi => ?_, readByte_storePat_other fun i hi => h i (by omega)]
    rw [byteAddr_wordAddr]
    exact h _ (by omega)

theorem loadPats_congr {f : Fmt} {bigEnd : Bool} {k : Nat} {a : Word} {m m' : Memory}
    (h : ∀ i, i < 4 * (k * wordsOf f) → readByte (byteAddr a i) m = readByte (byteAddr a i) m') :
    loadPats f bigEnd a k m = loadPats f bigEnd a k m' := by
  induction k generalizing a with
  | zero => rfl
  | succ k ih =>
    rw [Nat.add_mul, Nat.one_mul] at h
    simp only [loadPats]
    rw [loadPat_congr fun i hi => h i (by omega), ih fun i hi => ?_]
    rw [byteAddr_wordAddr]
    exact h _ (by omega)

@[simp] theorem loadPats_length (f : Fmt) (bigEnd : Bool) (a : Word) (k : Nat) (m : Memory) :
    (loadPats f bigEnd a k m).length = k := by
  induction k generalizing a with
  | zero => rfl
  | succ k ih => simp [loadPats, ih]

/-- The `i`-th register of a block is loaded from the words `i` registers up. -/
theorem loadPats_getElem? {f : Fmt} {bigEnd : Bool} {k i : Nat} {a : Word} {m : Memory} (h : i < k) :
    (loadPats f bigEnd a k m)[i]? = some (loadPat f bigEnd (wordAddr a (i * wordsOf f)) m) := by
  induction k generalizing a i with
  | zero => omega
  | succ k ih =>
    cases i with
    | zero => simp [loadPats]
    | succ i =>
      rw [loadPats, List.getElem?_cons_succ, ih (by omega), wordAddr_wordAddr, Nat.add_mul, Nat.one_mul, Nat.add_comm]

/-- A block loads as what was last stored there, if it is not longer than the address space. -/
theorem loadPats_storePats {f : Fmt} {bigEnd : Bool} {vs : List (Pat f)} {a : Word} {m : Memory} (hm : Memory.wf m)
    (hl : 4 * (vs.length * wordsOf f) < 2 ^ 32) : loadPats f bigEnd a vs.length (storePats f bigEnd a vs m) = vs := by
  induction vs generalizing a m with
  | nil => rfl
  | cons v vs ih =>
    have hw := wordsOf_pos f
    have hl' : (v :: vs).length * wordsOf f = wordsOf f + vs.length * wordsOf f := by
      rw [List.length_cons, Nat.add_mul, Nat.one_mul, Nat.add_comm]
    rw [hl'] at hl
    simp only [storePats, List.length_cons, loadPats]
    rw [ih (wf_storePat hm) (by omega)]
    congr 1
    rw [loadPat_congr (m' := storePat f bigEnd a v m) fun i hi => ?_, loadPat_storePat hm]
    refine readByte_storePats_other fun j hj h => ?_
    rw [byteAddr_wordAddr] at h
    have := byteAddr_inj (by omega) (by omega) h
    omega

theorem wf_writeFree {bigEnd : Bool} {n i : Nat} {a : Word} {m : Memory} (h : Memory.wf m) :
    Memory.wf (writeFree bigEnd i n a m) := by
  induction n generalizing i a m with
  | zero => exact h
  | succ n ih =>
    simp only [writeFree]
    refine ih ?_
    split
    · exact wf_writeWord h
    · exact h

/-- Free writes leave every byte outside their block as it was. -/
theorem readByte_writeFree_other {bigEnd : Bool} {n i : Nat} {a : Word} {m : Memory} {b : Nat}
    (h : ∀ j, j < 4 * n → b ≠ byteAddr a j) : readByte b (writeFree bigEnd i n a m) = readByte b m := by
  induction n generalizing i a m with
  | zero => rfl
  | succ n ih =>
    simp only [writeFree]
    rw [ih fun j hj => by rw [byteAddr_wordAddr]; exact h _ (by omega)]
    split
    · exact readByte_writeWord_other fun j hj => h j (by omega)
    · rfl

theorem wf_writeImage {s : State} {start : Word} {vs : List DWord} (h : s.mem.wf) : Memory.wf (writeImage s start vs) := by
  unfold writeImage
  split
  · exact wf_storePats (f := .dbl) h
  · exact wf_writeFree h

end Sys2Proof.Machine
end

