-- ==== Sys2Proof/Laws/State.lean ====
section
/-! SUPPORT. What each update of the state does to each field, so that no proof unfolds an update. -/

namespace Sys2Proof.Machine

/-! ### `State.setWord` -/

@[simp] theorem State.setWord_vreg (s : State) (j : SReg) (t : Tag) (w : Word) :
    (s.setWord j t w).vreg = s.vreg.set j w := rfl
@[simp] theorem State.setWord_tag (s : State) (j : SReg) (t : Tag) (w : Word) : (s.setWord j t w).tag = s.tag.set j t := rfl
@[simp] theorem State.setWord_pair (s : State) (j : SReg) (t : Tag) (w : Word) : (s.setWord j t w).pair = s.pair := rfl
@[simp] theorem State.setWord_arm (s : State) (j : SReg) (t : Tag) (w : Word) : (s.setWord j t w).arm = s.arm := rfl
@[simp] theorem State.setWord_pc (s : State) (j : SReg) (t : Tag) (w : Word) : (s.setWord j t w).pc = s.pc := rfl
@[simp] theorem State.setWord_cpsr (s : State) (j : SReg) (t : Tag) (w : Word) : (s.setWord j t w).cpsr = s.cpsr := rfl
@[simp] theorem State.setWord_fpscr (s : State) (j : SReg) (t : Tag) (w : Word) : (s.setWord j t w).fpscr = s.fpscr := rfl
@[simp] theorem State.setWord_fpsid (s : State) (j : SReg) (t : Tag) (w : Word) : (s.setWord j t w).fpsid = s.fpsid := rfl
@[simp] theorem State.setWord_fpexc (s : State) (j : SReg) (t : Tag) (w : Word) : (s.setWord j t w).fpexc = s.fpexc := rfl
@[simp] theorem State.setWord_subArch (s : State) (j : SReg) (t : Tag) (w : Word) :
    (s.setWord j t w).subArch = s.subArch := rfl
@[simp] theorem State.setWord_mem (s : State) (j : SReg) (t : Tag) (w : Word) : (s.setWord j t w).mem = s.mem := rfl
@[simp] theorem State.setWord_images (s : State) (j : SReg) (t : Tag) (w : Word) : (s.setWord j t w).images = s.images := rfl
@[simp] theorem State.setWord_textBase (s : State) (j : SReg) (t : Tag) (w : Word) :
    (s.setWord j t w).textBase = s.textBase := rfl
@[simp] theorem State.setWord_text (s : State) (j : SReg) (t : Tag) (w : Word) : (s.setWord j t w).text = s.text := rfl
@[simp] theorem State.setWord_cfg (s : State) (j : SReg) (t : Tag) (w : Word) : (s.setWord j t w).cfg = s.cfg := rfl
@[simp] theorem State.setWord_freeNext (s : State) (j : SReg) (t : Tag) (w : Word) :
    (s.setWord j t w).freeNext = s.freeNext := rfl

/-! ### `State.setPair` -/

@[simp] theorem State.setPair_vreg (s : State) (n : DReg) (p : Pairing) : (s.setPair n p).vreg = s.vreg := rfl
@[simp] theorem State.setPair_tag (s : State) (n : DReg) (p : Pairing) : (s.setPair n p).tag = s.tag := rfl
@[simp] theorem State.setPair_pair (s : State) (n : DReg) (p : Pairing) : (s.setPair n p).pair = s.pair.set n p := rfl
@[simp] theorem State.setPair_arm (s : State) (n : DReg) (p : Pairing) : (s.setPair n p).arm = s.arm := rfl
@[simp] theorem State.setPair_pc (s : State) (n : DReg) (p : Pairing) : (s.setPair n p).pc = s.pc := rfl
@[simp] theorem State.setPair_cpsr (s : State) (n : DReg) (p : Pairing) : (s.setPair n p).cpsr = s.cpsr := rfl
@[simp] theorem State.setPair_fpscr (s : State) (n : DReg) (p : Pairing) : (s.setPair n p).fpscr = s.fpscr := rfl
@[simp] theorem State.setPair_fpsid (s : State) (n : DReg) (p : Pairing) : (s.setPair n p).fpsid = s.fpsid := rfl
@[simp] theorem State.setPair_fpexc (s : State) (n : DReg) (p : Pairing) : (s.setPair n p).fpexc = s.fpexc := rfl
@[simp] theorem State.setPair_subArch (s : State) (n : DReg) (p : Pairing) : (s.setPair n p).subArch = s.subArch := rfl
@[simp] theorem State.setPair_mem (s : State) (n : DReg) (p : Pairing) : (s.setPair n p).mem = s.mem := rfl
@[simp] theorem State.setPair_images (s : State) (n : DReg) (p : Pairing) : (s.setPair n p).images = s.images := rfl
@[simp] theorem State.setPair_textBase (s : State) (n : DReg) (p : Pairing) : (s.setPair n p).textBase = s.textBase := rfl
@[simp] theorem State.setPair_text (s : State) (n : DReg) (p : Pairing) : (s.setPair n p).text = s.text := rfl
@[simp] theorem State.setPair_cfg (s : State) (n : DReg) (p : Pairing) : (s.setPair n p).cfg = s.cfg := rfl
@[simp] theorem State.setPair_freeNext (s : State) (n : DReg) (p : Pairing) : (s.setPair n p).freeNext = s.freeNext := rfl

/-! ### `State.setWords` -/

@[simp] theorem State.setWords_vreg (s : State) (n : DReg) (t u : Tag) (lo hi : Word) :
    (s.setWords n t u lo hi).vreg = (s.vreg.set (loIndex n) lo).set (hiIndex n) hi := rfl
@[simp] theorem State.setWords_tag (s : State) (n : DReg) (t u : Tag) (lo hi : Word) :
    (s.setWords n t u lo hi).tag = (s.tag.set (loIndex n) t).set (hiIndex n) u := rfl
@[simp] theorem State.setWords_pair (s : State) (n : DReg) (t u : Tag) (lo hi : Word) :
    (s.setWords n t u lo hi).pair = s.pair := rfl
@[simp] theorem State.setWords_arm (s : State) (n : DReg) (t u : Tag) (lo hi : Word) :
    (s.setWords n t u lo hi).arm = s.arm := rfl
@[simp] theorem State.setWords_pc (s : State) (n : DReg) (t u : Tag) (lo hi : Word) :
    (s.setWords n t u lo hi).pc = s.pc := rfl
@[simp] theorem State.setWords_cpsr (s : State) (n : DReg) (t u : Tag) (lo hi : Word) :
    (s.setWords n t u lo hi).cpsr = s.cpsr := rfl
@[simp] theorem State.setWords_fpscr (s : State) (n : DReg) (t u : Tag) (lo hi : Word) :
    (s.setWords n t u lo hi).fpscr = s.fpscr := rfl
@[simp] theorem State.setWords_fpsid (s : State) (n : DReg) (t u : Tag) (lo hi : Word) :
    (s.setWords n t u lo hi).fpsid = s.fpsid := rfl
@[simp] theorem State.setWords_fpexc (s : State) (n : DReg) (t u : Tag) (lo hi : Word) :
    (s.setWords n t u lo hi).fpexc = s.fpexc := rfl
@[simp] theorem State.setWords_subArch (s : State) (n : DReg) (t u : Tag) (lo hi : Word) :
    (s.setWords n t u lo hi).subArch = s.subArch := rfl
@[simp] theorem State.setWords_mem (s : State) (n : DReg) (t u : Tag) (lo hi : Word) :
    (s.setWords n t u lo hi).mem = s.mem := rfl
@[simp] theorem State.setWords_images (s : State) (n : DReg) (t u : Tag) (lo hi : Word) :
    (s.setWords n t u lo hi).images = s.images := rfl
@[simp] theorem State.setWords_textBase (s : State) (n : DReg) (t u : Tag) (lo hi : Word) :
    (s.setWords n t u lo hi).textBase = s.textBase := rfl
@[simp] theorem State.setWords_text (s : State) (n : DReg) (t u : Tag) (lo hi : Word) :
    (s.setWords n t u lo hi).text = s.text := rfl
@[simp] theorem State.setWords_cfg (s : State) (n : DReg) (t u : Tag) (lo hi : Word) :
    (s.setWords n t u lo hi).cfg = s.cfg := rfl
@[simp] theorem State.setWords_freeNext (s : State) (n : DReg) (t u : Tag) (lo hi : Word) :
    (s.setWords n t u lo hi).freeNext = s.freeNext := rfl

/-! ### `State.setMem` -/

@[simp] theorem State.setMem_vreg (s : State) (a : Word) (n : Nat) (m : Memory) : (s.setMem a n m).vreg = s.vreg := rfl
@[simp] theorem State.setMem_tag (s : State) (a : Word) (n : Nat) (m : Memory) : (s.setMem a n m).tag = s.tag := rfl
@[simp] theorem State.setMem_pair (s : State) (a : Word) (n : Nat) (m : Memory) : (s.setMem a n m).pair = s.pair := rfl
@[simp] theorem State.setMem_arm (s : State) (a : Word) (n : Nat) (m : Memory) : (s.setMem a n m).arm = s.arm := rfl
@[simp] theorem State.setMem_pc (s : State) (a : Word) (n : Nat) (m : Memory) : (s.setMem a n m).pc = s.pc := rfl
@[simp] theorem State.setMem_cpsr (s : State) (a : Word) (n : Nat) (m : Memory) : (s.setMem a n m).cpsr = s.cpsr := rfl
@[simp] theorem State.setMem_fpscr (s : State) (a : Word) (n : Nat) (m : Memory) : (s.setMem a n m).fpscr = s.fpscr := rfl
@[simp] theorem State.setMem_fpsid (s : State) (a : Word) (n : Nat) (m : Memory) : (s.setMem a n m).fpsid = s.fpsid := rfl
@[simp] theorem State.setMem_fpexc (s : State) (a : Word) (n : Nat) (m : Memory) : (s.setMem a n m).fpexc = s.fpexc := rfl
@[simp] theorem State.setMem_subArch (s : State) (a : Word) (n : Nat) (m : Memory) :
    (s.setMem a n m).subArch = s.subArch := rfl
@[simp] theorem State.setMem_mem (s : State) (a : Word) (n : Nat) (m : Memory) : (s.setMem a n m).mem = m := rfl
@[simp] theorem State.setMem_images (s : State) (a : Word) (n : Nat) (m : Memory) :
    (s.setMem a n m).images = untouched s.images a n := rfl
@[simp] theorem State.setMem_textBase (s : State) (a : Word) (n : Nat) (m : Memory) :
    (s.setMem a n m).textBase = s.textBase := rfl
@[simp] theorem State.setMem_text (s : State) (a : Word) (n : Nat) (m : Memory) : (s.setMem a n m).text = s.text := rfl
@[simp] theorem State.setMem_cfg (s : State) (a : Word) (n : Nat) (m : Memory) : (s.setMem a n m).cfg = s.cfg := rfl
@[simp] theorem State.setMem_freeNext (s : State) (a : Word) (n : Nat) (m : Memory) :
    (s.setMem a n m).freeNext = s.freeNext := rfl

/-! ### `State.noteImages` -/

@[simp] theorem State.noteImages_vreg (s : State) (l : List FstmxImage) : (s.noteImages l).vreg = s.vreg := rfl
@[simp] theorem State.noteImages_tag (s : State) (l : List FstmxImage) : (s.noteImages l).tag = s.tag := rfl
@[simp] theorem State.noteImages_pair (s : State) (l : List FstmxImage) : (s.noteImages l).pair = s.pair := rfl
@[simp] theorem State.noteImages_arm (s : State) (l : List FstmxImage) : (s.noteImages l).arm = s.arm := rfl
@[simp] theorem State.noteImages_pc (s : State) (l : List FstmxImage) : (s.noteImages l).pc = s.pc := rfl
@[simp] theorem State.noteImages_cpsr (s : State) (l : List FstmxImage) : (s.noteImages l).cpsr = s.cpsr := rfl
@[simp] theorem State.noteImages_fpscr (s : State) (l : List FstmxImage) : (s.noteImages l).fpscr = s.fpscr := rfl
@[simp] theorem State.noteImages_fpsid (s : State) (l : List FstmxImage) : (s.noteImages l).fpsid = s.fpsid := rfl
@[simp] theorem State.noteImages_fpexc (s : State) (l : List FstmxImage) : (s.noteImages l).fpexc = s.fpexc := rfl
@[simp] theorem State.noteImages_subArch (s : State) (l : List FstmxImage) : (s.noteImages l).subArch = s.subArch := rfl
@[simp] theorem State.noteImages_mem (s : State) (l : List FstmxImage) : (s.noteImages l).mem = s.mem := rfl
@[simp] theorem State.noteImages_images (s : State) (l : List FstmxImage) : (s.noteImages l).images = l ++ s.images := rfl
@[simp] theorem State.noteImages_textBase (s : State) (l : List FstmxImage) : (s.noteImages l).textBase = s.textBase := rfl
@[simp] theorem State.noteImages_text (s : State) (l : List FstmxImage) : (s.noteImages l).text = s.text := rfl
@[simp] theorem State.noteImages_cfg (s : State) (l : List FstmxImage) : (s.noteImages l).cfg = s.cfg := rfl
@[simp] theorem State.noteImages_freeNext (s : State) (l : List FstmxImage) : (s.noteImages l).freeNext = s.freeNext := rfl

/-! ### `State.advance` -/

@[simp] theorem State.advance_vreg (s : State) : (s.advance).vreg = s.vreg := rfl
@[simp] theorem State.advance_tag (s : State) : (s.advance).tag = s.tag := rfl
@[simp] theorem State.advance_pair (s : State) : (s.advance).pair = s.pair := rfl
@[simp] theorem State.advance_arm (s : State) : (s.advance).arm = s.arm := rfl
@[simp] theorem State.advance_pc (s : State) : (s.advance).pc = s.pc + 4 := rfl
@[simp] theorem State.advance_cpsr (s : State) : (s.advance).cpsr = s.cpsr := rfl
@[simp] theorem State.advance_fpscr (s : State) : (s.advance).fpscr = s.fpscr := rfl
@[simp] theorem State.advance_fpsid (s : State) : (s.advance).fpsid = s.fpsid := rfl
@[simp] theorem State.advance_fpexc (s : State) : (s.advance).fpexc = s.fpexc := rfl
@[simp] theorem State.advance_subArch (s : State) : (s.advance).subArch = s.subArch := rfl
@[simp] theorem State.advance_mem (s : State) : (s.advance).mem = s.mem := rfl
@[simp] theorem State.advance_images (s : State) : (s.advance).images = s.images := rfl
@[simp] theorem State.advance_textBase (s : State) : (s.advance).textBase = s.textBase := rfl
@[simp] theorem State.advance_text (s : State) : (s.advance).text = s.text := rfl
@[simp] theorem State.advance_cfg (s : State) : (s.advance).cfg = s.cfg := rfl
@[simp] theorem State.advance_freeNext (s : State) : (s.advance).freeNext = s.freeNext := rfl

/-! ### `State.accrue` -/

@[simp] theorem State.accrue_vreg (s : State) (e : ExcSet) : (s.accrue e).vreg = s.vreg := rfl
@[simp] theorem State.accrue_tag (s : State) (e : ExcSet) : (s.accrue e).tag = s.tag := rfl
@[simp] theorem State.accrue_pair (s : State) (e : ExcSet) : (s.accrue e).pair = s.pair := rfl
@[simp] theorem State.accrue_arm (s : State) (e : ExcSet) : (s.accrue e).arm = s.arm := rfl
@[simp] theorem State.accrue_pc (s : State) (e : ExcSet) : (s.accrue e).pc = s.pc := rfl
@[simp] theorem State.accrue_cpsr (s : State) (e : ExcSet) : (s.accrue e).cpsr = s.cpsr := rfl
@[simp] theorem State.accrue_fpscr (s : State) (e : ExcSet) :
    (s.accrue e).fpscr = { s.fpscr with cumulative := s.fpscr.cumulative.union e } := rfl
@[simp] theorem State.accrue_fpsid (s : State) (e : ExcSet) : (s.accrue e).fpsid = s.fpsid := rfl
@[simp] theorem State.accrue_fpexc (s : State) (e : ExcSet) : (s.accrue e).fpexc = s.fpexc := rfl
@[simp] theorem State.accrue_subArch (s : State) (e : ExcSet) : (s.accrue e).subArch = s.subArch := rfl
@[simp] theorem State.accrue_mem (s : State) (e : ExcSet) : (s.accrue e).mem = s.mem := rfl
@[simp] theorem State.accrue_images (s : State) (e : ExcSet) : (s.accrue e).images = s.images := rfl
@[simp] theorem State.accrue_textBase (s : State) (e : ExcSet) : (s.accrue e).textBase = s.textBase := rfl
@[simp] theorem State.accrue_text (s : State) (e : ExcSet) : (s.accrue e).text = s.text := rfl
@[simp] theorem State.accrue_cfg (s : State) (e : ExcSet) : (s.accrue e).cfg = s.cfg := rfl
@[simp] theorem State.accrue_freeNext (s : State) (e : ExcSet) : (s.accrue e).freeNext = s.freeNext := rfl

/-! ### `State.setFpscrFlags` -/

@[simp] theorem State.setFpscrFlags_vreg (s : State) (r : Relation) : (s.setFpscrFlags r).vreg = s.vreg := rfl
@[simp] theorem State.setFpscrFlags_tag (s : State) (r : Relation) : (s.setFpscrFlags r).tag = s.tag := rfl
@[simp] theorem State.setFpscrFlags_pair (s : State) (r : Relation) : (s.setFpscrFlags r).pair = s.pair := rfl
@[simp] theorem State.setFpscrFlags_arm (s : State) (r : Relation) : (s.setFpscrFlags r).arm = s.arm := rfl
@[simp] theorem State.setFpscrFlags_pc (s : State) (r : Relation) : (s.setFpscrFlags r).pc = s.pc := rfl
@[simp] theorem State.setFpscrFlags_cpsr (s : State) (r : Relation) : (s.setFpscrFlags r).cpsr = s.cpsr := rfl
@[simp] theorem State.setFpscrFlags_fpscr (s : State) (r : Relation) :
    (s.setFpscrFlags r).fpscr = { s.fpscr with flags := relationFlags r } := rfl
@[simp] theorem State.setFpscrFlags_fpsid (s : State) (r : Relation) : (s.setFpscrFlags r).fpsid = s.fpsid := rfl
@[simp] theorem State.setFpscrFlags_fpexc (s : State) (r : Relation) : (s.setFpscrFlags r).fpexc = s.fpexc := rfl
@[simp] theorem State.setFpscrFlags_subArch (s : State) (r : Relation) : (s.setFpscrFlags r).subArch = s.subArch := rfl
@[simp] theorem State.setFpscrFlags_mem (s : State) (r : Relation) : (s.setFpscrFlags r).mem = s.mem := rfl
@[simp] theorem State.setFpscrFlags_images (s : State) (r : Relation) : (s.setFpscrFlags r).images = s.images := rfl
@[simp] theorem State.setFpscrFlags_textBase (s : State) (r : Relation) : (s.setFpscrFlags r).textBase = s.textBase := rfl
@[simp] theorem State.setFpscrFlags_text (s : State) (r : Relation) : (s.setFpscrFlags r).text = s.text := rfl
@[simp] theorem State.setFpscrFlags_cfg (s : State) (r : Relation) : (s.setFpscrFlags r).cfg = s.cfg := rfl
@[simp] theorem State.setFpscrFlags_freeNext (s : State) (r : Relation) : (s.setFpscrFlags r).freeNext = s.freeNext := rfl

/-! ### `State.setFpscr` -/

@[simp] theorem State.setFpscr_vreg (s : State) (w : Word) : (s.setFpscr w).vreg = s.vreg := rfl
@[simp] theorem State.setFpscr_tag (s : State) (w : Word) : (s.setFpscr w).tag = s.tag := rfl
@[simp] theorem State.setFpscr_pair (s : State) (w : Word) : (s.setFpscr w).pair = s.pair := rfl
@[simp] theorem State.setFpscr_arm (s : State) (w : Word) : (s.setFpscr w).arm = s.arm := rfl
@[simp] theorem State.setFpscr_pc (s : State) (w : Word) : (s.setFpscr w).pc = s.pc := rfl
@[simp] theorem State.setFpscr_cpsr (s : State) (w : Word) : (s.setFpscr w).cpsr = s.cpsr := rfl
@[simp] theorem State.setFpscr_fpscr (s : State) (w : Word) : (s.setFpscr w).fpscr = fpscrOf w := rfl
@[simp] theorem State.setFpscr_fpsid (s : State) (w : Word) : (s.setFpscr w).fpsid = s.fpsid := rfl
@[simp] theorem State.setFpscr_fpexc (s : State) (w : Word) : (s.setFpscr w).fpexc = s.fpexc := rfl
@[simp] theorem State.setFpscr_subArch (s : State) (w : Word) : (s.setFpscr w).subArch = s.subArch := rfl
@[simp] theorem State.setFpscr_mem (s : State) (w : Word) : (s.setFpscr w).mem = s.mem := rfl
@[simp] theorem State.setFpscr_images (s : State) (w : Word) : (s.setFpscr w).images = s.images := rfl
@[simp] theorem State.setFpscr_textBase (s : State) (w : Word) : (s.setFpscr w).textBase = s.textBase := rfl
@[simp] theorem State.setFpscr_text (s : State) (w : Word) : (s.setFpscr w).text = s.text := rfl
@[simp] theorem State.setFpscr_cfg (s : State) (w : Word) : (s.setFpscr w).cfg = s.cfg := rfl
@[simp] theorem State.setFpscr_freeNext (s : State) (w : Word) : (s.setFpscr w).freeNext = s.freeNext := rfl

/-! ### `State.setSubArch` -/

@[simp] theorem State.setSubArch_vreg (s : State) (low : BitVec 4) (v : Word) : (s.setSubArch low v).vreg = s.vreg := rfl
@[simp] theorem State.setSubArch_tag (s : State) (low : BitVec 4) (v : Word) : (s.setSubArch low v).tag = s.tag := rfl
@[simp] theorem State.setSubArch_pair (s : State) (low : BitVec 4) (v : Word) : (s.setSubArch low v).pair = s.pair := rfl
@[simp] theorem State.setSubArch_arm (s : State) (low : BitVec 4) (v : Word) : (s.setSubArch low v).arm = s.arm := rfl
@[simp] theorem State.setSubArch_pc (s : State) (low : BitVec 4) (v : Word) : (s.setSubArch low v).pc = s.pc := rfl
@[simp] theorem State.setSubArch_cpsr (s : State) (low : BitVec 4) (v : Word) : (s.setSubArch low v).cpsr = s.cpsr := rfl
@[simp] theorem State.setSubArch_fpscr (s : State) (low : BitVec 4) (v : Word) : (s.setSubArch low v).fpscr = s.fpscr := rfl
@[simp] theorem State.setSubArch_fpsid (s : State) (low : BitVec 4) (v : Word) : (s.setSubArch low v).fpsid = s.fpsid := rfl
@[simp] theorem State.setSubArch_fpexc (s : State) (low : BitVec 4) (v : Word) : (s.setSubArch low v).fpexc = s.fpexc := rfl
@[simp] theorem State.setSubArch_subArch (s : State) (low : BitVec 4) (v : Word) :
    (s.setSubArch low v).subArch = s.subArch.set low.toFin v := rfl
@[simp] theorem State.setSubArch_mem (s : State) (low : BitVec 4) (v : Word) : (s.setSubArch low v).mem = s.mem := rfl
@[simp] theorem State.setSubArch_images (s : State) (low : BitVec 4) (v : Word) :
    (s.setSubArch low v).images = s.images := rfl
@[simp] theorem State.setSubArch_textBase (s : State) (low : BitVec 4) (v : Word) :
    (s.setSubArch low v).textBase = s.textBase := rfl
@[simp] theorem State.setSubArch_text (s : State) (low : BitVec 4) (v : Word) : (s.setSubArch low v).text = s.text := rfl
@[simp] theorem State.setSubArch_cfg (s : State) (low : BitVec 4) (v : Word) : (s.setSubArch low v).cfg = s.cfg := rfl
@[simp] theorem State.setSubArch_freeNext (s : State) (low : BitVec 4) (v : Word) :
    (s.setSubArch low v).freeNext = s.freeNext := rfl

/-! ### `State.copyFlags` -/

@[simp] theorem State.copyFlags_vreg (s : State) : (s.copyFlags).vreg = s.vreg := rfl
@[simp] theorem State.copyFlags_tag (s : State) : (s.copyFlags).tag = s.tag := rfl
@[simp] theorem State.copyFlags_pair (s : State) : (s.copyFlags).pair = s.pair := rfl
@[simp] theorem State.copyFlags_arm (s : State) : (s.copyFlags).arm = s.arm := rfl
@[simp] theorem State.copyFlags_pc (s : State) : (s.copyFlags).pc = s.pc := rfl
@[simp] theorem State.copyFlags_cpsr (s : State) : (s.copyFlags).cpsr = s.fpscr.flags := rfl
@[simp] theorem State.copyFlags_fpscr (s : State) : (s.copyFlags).fpscr = s.fpscr := rfl
@[simp] theorem State.copyFlags_fpsid (s : State) : (s.copyFlags).fpsid = s.fpsid := rfl
@[simp] theorem State.copyFlags_fpexc (s : State) : (s.copyFlags).fpexc = s.fpexc := rfl
@[simp] theorem State.copyFlags_subArch (s : State) : (s.copyFlags).subArch = s.subArch := rfl
@[simp] theorem State.copyFlags_mem (s : State) : (s.copyFlags).mem = s.mem := rfl
@[simp] theorem State.copyFlags_images (s : State) : (s.copyFlags).images = s.images := rfl
@[simp] theorem State.copyFlags_textBase (s : State) : (s.copyFlags).textBase = s.textBase := rfl
@[simp] theorem State.copyFlags_text (s : State) : (s.copyFlags).text = s.text := rfl
@[simp] theorem State.copyFlags_cfg (s : State) : (s.copyFlags).cfg = s.cfg := rfl
@[simp] theorem State.copyFlags_freeNext (s : State) : (s.copyFlags).freeNext = s.freeNext := rfl

/-! ### `State.setArm` -/

@[simp] theorem State.setArm_vreg (s : State) (r : RReg) (v : Word) :
    (s.setArm r v).vreg = s.vreg := by unfold State.setArm; split <;> rfl
@[simp] theorem State.setArm_tag (s : State) (r : RReg) (v : Word) :
    (s.setArm r v).tag = s.tag := by unfold State.setArm; split <;> rfl
@[simp] theorem State.setArm_pair (s : State) (r : RReg) (v : Word) :
    (s.setArm r v).pair = s.pair := by unfold State.setArm; split <;> rfl
@[simp] theorem State.setArm_pc (s : State) (r : RReg) (v : Word) :
    (s.setArm r v).pc = s.pc := by unfold State.setArm; split <;> rfl
@[simp] theorem State.setArm_cpsr (s : State) (r : RReg) (v : Word) :
    (s.setArm r v).cpsr = s.cpsr := by unfold State.setArm; split <;> rfl
@[simp] theorem State.setArm_fpscr (s : State) (r : RReg) (v : Word) :
    (s.setArm r v).fpscr = s.fpscr := by unfold State.setArm; split <;> rfl
@[simp] theorem State.setArm_fpsid (s : State) (r : RReg) (v : Word) :
    (s.setArm r v).fpsid = s.fpsid := by unfold State.setArm; split <;> rfl
@[simp] theorem State.setArm_fpexc (s : State) (r : RReg) (v : Word) :
    (s.setArm r v).fpexc = s.fpexc := by unfold State.setArm; split <;> rfl
@[simp] theorem State.setArm_subArch (s : State) (r : RReg) (v : Word) :
    (s.setArm r v).subArch = s.subArch := by unfold State.setArm; split <;> rfl
@[simp] theorem State.setArm_mem (s : State) (r : RReg) (v : Word) :
    (s.setArm r v).mem = s.mem := by unfold State.setArm; split <;> rfl
@[simp] theorem State.setArm_images (s : State) (r : RReg) (v : Word) :
    (s.setArm r v).images = s.images := by unfold State.setArm; split <;> rfl
@[simp] theorem State.setArm_textBase (s : State) (r : RReg) (v : Word) :
    (s.setArm r v).textBase = s.textBase := by unfold State.setArm; split <;> rfl
@[simp] theorem State.setArm_text (s : State) (r : RReg) (v : Word) :
    (s.setArm r v).text = s.text := by unfold State.setArm; split <;> rfl
@[simp] theorem State.setArm_cfg (s : State) (r : RReg) (v : Word) :
    (s.setArm r v).cfg = s.cfg := by unfold State.setArm; split <;> rfl
@[simp] theorem State.setArm_freeNext (s : State) (r : RReg) (v : Word) :
    (s.setArm r v).freeNext = s.freeNext := by unfold State.setArm; split <;> rfl

/-! ### `State.writeBack` -/

@[simp] theorem State.writeBack_vreg (s : State) (mode : AddrMode) (rn : RReg) (offset : BitVec 8) :
    (s.writeBack mode rn offset).vreg = s.vreg := by cases mode <;> simp [State.writeBack, newBase]
@[simp] theorem State.writeBack_tag (s : State) (mode : AddrMode) (rn : RReg) (offset : BitVec 8) :
    (s.writeBack mode rn offset).tag = s.tag := by cases mode <;> simp [State.writeBack, newBase]
@[simp] theorem State.writeBack_pair (s : State) (mode : AddrMode) (rn : RReg) (offset : BitVec 8) :
    (s.writeBack mode rn offset).pair = s.pair := by cases mode <;> simp [State.writeBack, newBase]
@[simp] theorem State.writeBack_pc (s : State) (mode : AddrMode) (rn : RReg) (offset : BitVec 8) :
    (s.writeBack mode rn offset).pc = s.pc := by cases mode <;> simp [State.writeBack, newBase]
@[simp] theorem State.writeBack_cpsr (s : State) (mode : AddrMode) (rn : RReg) (offset : BitVec 8) :
    (s.writeBack mode rn offset).cpsr = s.cpsr := by cases mode <;> simp [State.writeBack, newBase]
@[simp] theorem State.writeBack_fpscr (s : State) (mode : AddrMode) (rn : RReg) (offset : BitVec 8) :
    (s.writeBack mode rn offset).fpscr = s.fpscr := by cases mode <;> simp [State.writeBack, newBase]
@[simp] theorem State.writeBack_fpsid (s : State) (mode : AddrMode) (rn : RReg) (offset : BitVec 8) :
    (s.writeBack mode rn offset).fpsid = s.fpsid := by cases mode <;> simp [State.writeBack, newBase]
@[simp] theorem State.writeBack_fpexc (s : State) (mode : AddrMode) (rn : RReg) (offset : BitVec 8) :
    (s.writeBack mode rn offset).fpexc = s.fpexc := by cases mode <;> simp [State.writeBack, newBase]
@[simp] theorem State.writeBack_subArch (s : State) (mode : AddrMode) (rn : RReg) (offset : BitVec 8) :
    (s.writeBack mode rn offset).subArch = s.subArch := by cases mode <;> simp [State.writeBack, newBase]
@[simp] theorem State.writeBack_mem (s : State) (mode : AddrMode) (rn : RReg) (offset : BitVec 8) :
    (s.writeBack mode rn offset).mem = s.mem := by cases mode <;> simp [State.writeBack, newBase]
@[simp] theorem State.writeBack_images (s : State) (mode : AddrMode) (rn : RReg) (offset : BitVec 8) :
    (s.writeBack mode rn offset).images = s.images := by cases mode <;> simp [State.writeBack, newBase]
@[simp] theorem State.writeBack_textBase (s : State) (mode : AddrMode) (rn : RReg) (offset : BitVec 8) :
    (s.writeBack mode rn offset).textBase = s.textBase := by cases mode <;> simp [State.writeBack, newBase]
@[simp] theorem State.writeBack_text (s : State) (mode : AddrMode) (rn : RReg) (offset : BitVec 8) :
    (s.writeBack mode rn offset).text = s.text := by cases mode <;> simp [State.writeBack, newBase]
@[simp] theorem State.writeBack_cfg (s : State) (mode : AddrMode) (rn : RReg) (offset : BitVec 8) :
    (s.writeBack mode rn offset).cfg = s.cfg := by cases mode <;> simp [State.writeBack, newBase]
@[simp] theorem State.writeBack_freeNext (s : State) (mode : AddrMode) (rn : RReg) (offset : BitVec 8) :
    (s.writeBack mode rn offset).freeNext = s.freeNext := by cases mode <;> simp [State.writeBack, newBase]

/-! ### `State.releaseHalf` -/

@[simp] theorem State.releaseHalf_vreg (s : State) (n : DReg) :
    (s.releaseHalf n).vreg = s.vreg := by unfold State.releaseHalf; split <;> rfl
@[simp] theorem State.releaseHalf_arm (s : State) (n : DReg) :
    (s.releaseHalf n).arm = s.arm := by unfold State.releaseHalf; split <;> rfl
@[simp] theorem State.releaseHalf_pc (s : State) (n : DReg) :
    (s.releaseHalf n).pc = s.pc := by unfold State.releaseHalf; split <;> rfl
@[simp] theorem State.releaseHalf_cpsr (s : State) (n : DReg) :
    (s.releaseHalf n).cpsr = s.cpsr := by unfold State.releaseHalf; split <;> rfl
@[simp] theorem State.releaseHalf_fpscr (s : State) (n : DReg) :
    (s.releaseHalf n).fpscr = s.fpscr := by unfold State.releaseHalf; split <;> rfl
@[simp] theorem State.releaseHalf_fpsid (s : State) (n : DReg) :
    (s.releaseHalf n).fpsid = s.fpsid := by unfold State.releaseHalf; split <;> rfl
@[simp] theorem State.releaseHalf_fpexc (s : State) (n : DReg) :
    (s.releaseHalf n).fpexc = s.fpexc := by unfold State.releaseHalf; split <;> rfl
@[simp] theorem State.releaseHalf_subArch (s : State) (n : DReg) :
    (s.releaseHalf n).subArch = s.subArch := by unfold State.releaseHalf; split <;> rfl
@[simp] theorem State.releaseHalf_mem (s : State) (n : DReg) :
    (s.releaseHalf n).mem = s.mem := by unfold State.releaseHalf; split <;> rfl
@[simp] theorem State.releaseHalf_images (s : State) (n : DReg) :
    (s.releaseHalf n).images = s.images := by unfold State.releaseHalf; split <;> rfl
@[simp] theorem State.releaseHalf_textBase (s : State) (n : DReg) :
    (s.releaseHalf n).textBase = s.textBase := by unfold State.releaseHalf; split <;> rfl
@[simp] theorem State.releaseHalf_text (s : State) (n : DReg) :
    (s.releaseHalf n).text = s.text := by unfold State.releaseHalf; split <;> rfl
@[simp] theorem State.releaseHalf_cfg (s : State) (n : DReg) :
    (s.releaseHalf n).cfg = s.cfg := by unfold State.releaseHalf; split <;> rfl
@[simp] theorem State.releaseHalf_freeNext (s : State) (n : DReg) :
    (s.releaseHalf n).freeNext = s.freeNext := by unfold State.releaseHalf; split <;> rfl

/-! ### `State.restoreReg` -/

@[simp] theorem State.restoreReg_vreg (s : State) (n : DReg) (p : Pairing) (lo hi : Word) :
    (s.restoreReg n p lo hi).vreg = (s.vreg.set (loIndex n) lo).set (hiIndex n) hi := rfl
@[simp] theorem State.restoreReg_tag (s : State) (n : DReg) (p : Pairing) (lo hi : Word) :
    (s.restoreReg n p lo hi).tag = (s.tag.set (loIndex n) (if p = .highOnly then .none else .any)).set (hiIndex n)
      (if p = .lowOnly then .none else .any) := rfl
@[simp] theorem State.restoreReg_pair (s : State) (n : DReg) (p : Pairing) (lo hi : Word) :
    (s.restoreReg n p lo hi).pair = s.pair.set n p := rfl
@[simp] theorem State.restoreReg_arm (s : State) (n : DReg) (p : Pairing) (lo hi : Word) :
    (s.restoreReg n p lo hi).arm = s.arm := rfl
@[simp] theorem State.restoreReg_pc (s : State) (n : DReg) (p : Pairing) (lo hi : Word) :
    (s.restoreReg n p lo hi).pc = s.pc := rfl
@[simp] theorem State.restoreReg_cpsr (s : State) (n : DReg) (p : Pairing) (lo hi : Word) :
    (s.restoreReg n p lo hi).cpsr = s.cpsr := rfl
@[simp] theorem State.restoreReg_fpscr (s : State) (n : DReg) (p : Pairing) (lo hi : Word) :
    (s.restoreReg n p lo hi).fpscr = s.fpscr := rfl
@[simp] theorem State.restoreReg_fpsid (s : State) (n : DReg) (p : Pairing) (lo hi : Word) :
    (s.restoreReg n p lo hi).fpsid = s.fpsid := rfl
@[simp] theorem State.restoreReg_fpexc (s : State) (n : DReg) (p : Pairing) (lo hi : Word) :
    (s.restoreReg n p lo hi).fpexc = s.fpexc := rfl
@[simp] theorem State.restoreReg_subArch (s : State) (n : DReg) (p : Pairing) (lo hi : Word) :
    (s.restoreReg n p lo hi).subArch = s.subArch := rfl
@[simp] theorem State.restoreReg_mem (s : State) (n : DReg) (p : Pairing) (lo hi : Word) :
    (s.restoreReg n p lo hi).mem = s.mem := rfl
@[simp] theorem State.restoreReg_images (s : State) (n : DReg) (p : Pairing) (lo hi : Word) :
    (s.restoreReg n p lo hi).images = s.images := rfl
@[simp] theorem State.restoreReg_textBase (s : State) (n : DReg) (p : Pairing) (lo hi : Word) :
    (s.restoreReg n p lo hi).textBase = s.textBase := rfl
@[simp] theorem State.restoreReg_text (s : State) (n : DReg) (p : Pairing) (lo hi : Word) :
    (s.restoreReg n p lo hi).text = s.text := rfl
@[simp] theorem State.restoreReg_cfg (s : State) (n : DReg) (p : Pairing) (lo hi : Word) :
    (s.restoreReg n p lo hi).cfg = s.cfg := rfl
@[simp] theorem State.restoreReg_freeNext (s : State) (n : DReg) (p : Pairing) (lo hi : Word) :
    (s.restoreReg n p lo hi).freeNext = s.freeNext := rfl

/-! ### `State.setReg`: all but the words and tags of the register -/

@[simp] theorem State.setReg_pair (s : State) (f : Fmt) (r : VReg f) (v : Pat f) :
    (s.setReg f r v).pair = s.pair := by cases f <;> rfl
@[simp] theorem State.setReg_arm (s : State) (f : Fmt) (r : VReg f) (v : Pat f) :
    (s.setReg f r v).arm = s.arm := by cases f <;> rfl
@[simp] theorem State.setReg_pc (s : State) (f : Fmt) (r : VReg f) (v : Pat f) :
    (s.setReg f r v).pc = s.pc := by cases f <;> rfl
@[simp] theorem State.setReg_cpsr (s : State) (f : Fmt) (r : VReg f) (v : Pat f) :
    (s.setReg f r v).cpsr = s.cpsr := by cases f <;> rfl
@[simp] theorem State.setReg_fpscr (s : State) (f : Fmt) (r : VReg f) (v : Pat f) :
    (s.setReg f r v).fpscr = s.fpscr := by cases f <;> rfl
@[simp] theorem State.setReg_fpsid (s : State) (f : Fmt) (r : VReg f) (v : Pat f) :
    (s.setReg f r v).fpsid = s.fpsid := by cases f <;> rfl
@[simp] theorem State.setReg_fpexc (s : State) (f : Fmt) (r : VReg f) (v : Pat f) :
    (s.setReg f r v).fpexc = s.fpexc := by cases f <;> rfl
@[simp] theorem State.setReg_subArch (s : State) (f : Fmt) (r : VReg f) (v : Pat f) :
    (s.setReg f r v).subArch = s.subArch := by cases f <;> rfl
@[simp] theorem State.setReg_mem (s : State) (f : Fmt) (r : VReg f) (v : Pat f) :
    (s.setReg f r v).mem = s.mem := by cases f <;> rfl
@[simp] theorem State.setReg_images (s : State) (f : Fmt) (r : VReg f) (v : Pat f) :
    (s.setReg f r v).images = s.images := by cases f <;> rfl
@[simp] theorem State.setReg_textBase (s : State) (f : Fmt) (r : VReg f) (v : Pat f) :
    (s.setReg f r v).textBase = s.textBase := by cases f <;> rfl
@[simp] theorem State.setReg_text (s : State) (f : Fmt) (r : VReg f) (v : Pat f) :
    (s.setReg f r v).text = s.text := by cases f <;> rfl
@[simp] theorem State.setReg_cfg (s : State) (f : Fmt) (r : VReg f) (v : Pat f) :
    (s.setReg f r v).cfg = s.cfg := by cases f <;> rfl
@[simp] theorem State.setReg_freeNext (s : State) (f : Fmt) (r : VReg f) (v : Pat f) :
    (s.setReg f r v).freeNext = s.freeNext := by cases f <;> rfl

/-! ### `State.setRegs` -/

/-- The fields that `State.setRegs` leaves as they are. -/
theorem State.setRegs_rest (f : Fmt) (vs : List (Pat f)) (s : State) (i : Nat) :
    (State.setRegs f s i vs).pair = s.pair ∧ (State.setRegs f s i vs).arm = s.arm ∧
      (State.setRegs f s i vs).pc = s.pc ∧ (State.setRegs f s i vs).cpsr = s.cpsr ∧
      (State.setRegs f s i vs).fpscr = s.fpscr ∧ (State.setRegs f s i vs).fpsid = s.fpsid ∧
      (State.setRegs f s i vs).fpexc = s.fpexc ∧ (State.setRegs f s i vs).subArch = s.subArch ∧
      (State.setRegs f s i vs).mem = s.mem ∧ (State.setRegs f s i vs).images = s.images ∧
      (State.setRegs f s i vs).textBase = s.textBase ∧ (State.setRegs f s i vs).text = s.text ∧
      (State.setRegs f s i vs).cfg = s.cfg ∧ (State.setRegs f s i vs).freeNext = s.freeNext := by
  induction vs generalizing s i with
  | nil => simp [State.setRegs]
  | cons v vs ih => simpa [State.setRegs] using ih (s.setReg f (regAt f i) v) (i + 1)

@[simp] theorem State.setRegs_pair (f : Fmt) (vs : List (Pat f)) (s : State) (i : Nat) :
    (State.setRegs f s i vs).pair = s.pair :=
  (State.setRegs_rest f vs s i).1
@[simp] theorem State.setRegs_arm (f : Fmt) (vs : List (Pat f)) (s : State) (i : Nat) :
    (State.setRegs f s i vs).arm = s.arm :=
  (State.setRegs_rest f vs s i).2.1
@[simp] theorem State.setRegs_pc (f : Fmt) (vs : List (Pat f)) (s : State) (i : Nat) :
    (State.setRegs f s i vs).pc = s.pc :=
  (State.setRegs_rest f vs s i).2.2.1
@[simp] theorem State.setRegs_cpsr (f : Fmt) (vs : List (Pat f)) (s : State) (i : Nat) :
    (State.setRegs f s i vs).cpsr = s.cpsr :=
  (State.setRegs_rest f vs s i).2.2.2.1
@[simp] theorem State.setRegs_fpscr (f : Fmt) (vs : List (Pat f)) (s : State) (i : Nat) :
    (State.setRegs f s i vs).fpscr = s.fpscr :=
  (State.setRegs_rest f vs s i).2.2.2.2.1
@[simp] theorem State.setRegs_fpsid (f : Fmt) (vs : List (Pat f)) (s : State) (i : Nat) :
    (State.setRegs f s i vs).fpsid = s.fpsid :=
  (State.setRegs_rest f vs s i).2.2.2.2.2.1
@[simp] theorem State.setRegs_fpexc (f : Fmt) (vs : List (Pat f)) (s : State) (i : Nat) :
    (State.setRegs f s i vs).fpexc = s.fpexc :=
  (State.setRegs_rest f vs s i).2.2.2.2.2.2.1
@[simp] theorem State.setRegs_subArch (f : Fmt) (vs : List (Pat f)) (s : State) (i : Nat) :
    (State.setRegs f s i vs).subArch = s.subArch :=
  (State.setRegs_rest f vs s i).2.2.2.2.2.2.2.1
@[simp] theorem State.setRegs_mem (f : Fmt) (vs : List (Pat f)) (s : State) (i : Nat) :
    (State.setRegs f s i vs).mem = s.mem :=
  (State.setRegs_rest f vs s i).2.2.2.2.2.2.2.2.1
@[simp] theorem State.setRegs_images (f : Fmt) (vs : List (Pat f)) (s : State) (i : Nat) :
    (State.setRegs f s i vs).images = s.images :=
  (State.setRegs_rest f vs s i).2.2.2.2.2.2.2.2.2.1
@[simp] theorem State.setRegs_textBase (f : Fmt) (vs : List (Pat f)) (s : State) (i : Nat) :
    (State.setRegs f s i vs).textBase = s.textBase :=
  (State.setRegs_rest f vs s i).2.2.2.2.2.2.2.2.2.2.1
@[simp] theorem State.setRegs_text (f : Fmt) (vs : List (Pat f)) (s : State) (i : Nat) :
    (State.setRegs f s i vs).text = s.text :=
  (State.setRegs_rest f vs s i).2.2.2.2.2.2.2.2.2.2.2.1
@[simp] theorem State.setRegs_cfg (f : Fmt) (vs : List (Pat f)) (s : State) (i : Nat) :
    (State.setRegs f s i vs).cfg = s.cfg :=
  (State.setRegs_rest f vs s i).2.2.2.2.2.2.2.2.2.2.2.2.1
@[simp] theorem State.setRegs_freeNext (f : Fmt) (vs : List (Pat f)) (s : State) (i : Nat) :
    (State.setRegs f s i vs).freeNext = s.freeNext :=
  (State.setRegs_rest f vs s i).2.2.2.2.2.2.2.2.2.2.2.2.2

/-! ### `State.releaseHalves` -/

/-- The fields that `State.releaseHalves` leaves as they are. -/
theorem State.releaseHalves_rest (s : State) (i k : Nat) :
    (s.releaseHalves i k).vreg = s.vreg ∧ (s.releaseHalves i k).arm = s.arm ∧ (s.releaseHalves i k).pc = s.pc ∧
      (s.releaseHalves i k).cpsr = s.cpsr ∧ (s.releaseHalves i k).fpscr = s.fpscr ∧
      (s.releaseHalves i k).fpsid = s.fpsid ∧ (s.releaseHalves i k).fpexc = s.fpexc ∧
      (s.releaseHalves i k).subArch = s.subArch ∧ (s.releaseHalves i k).mem = s.mem ∧
      (s.releaseHalves i k).images = s.images ∧ (s.releaseHalves i k).textBase = s.textBase ∧
      (s.releaseHalves i k).text = s.text ∧ (s.releaseHalves i k).cfg = s.cfg ∧
      (s.releaseHalves i k).freeNext = s.freeNext := by
  induction k generalizing s i with
  | zero => simp [State.releaseHalves]
  | succ k ih => simpa [State.releaseHalves] using ih (s.releaseHalf (regAt .dbl i)) (i + 1)

@[simp] theorem State.releaseHalves_vreg (s : State) (i k : Nat) :
    (s.releaseHalves i k).vreg = s.vreg :=
  (State.releaseHalves_rest s i k).1
@[simp] theorem State.releaseHalves_arm (s : State) (i k : Nat) :
    (s.releaseHalves i k).arm = s.arm :=
  (State.releaseHalves_rest s i k).2.1
@[simp] theorem State.releaseHalves_pc (s : State) (i k : Nat) :
    (s.releaseHalves i k).pc = s.pc :=
  (State.releaseHalves_rest s i k).2.2.1
@[simp] theorem State.releaseHalves_cpsr (s : State) (i k : Nat) :
    (s.releaseHalves i k).cpsr = s.cpsr :=
  (State.releaseHalves_rest s i k).2.2.2.1
@[simp] theorem State.releaseHalves_fpscr (s : State) (i k : Nat) :
    (s.releaseHalves i k).fpscr = s.fpscr :=
  (State.releaseHalves_rest s i k).2.2.2.2.1
@[simp] theorem State.releaseHalves_fpsid (s : State) (i k : Nat) :
    (s.releaseHalves i k).fpsid = s.fpsid :=
  (State.releaseHalves_rest s i k).2.2.2.2.2.1
@[simp] theorem State.releaseHalves_fpexc (s : State) (i k : Nat) :
    (s.releaseHalves i k).fpexc = s.fpexc :=
  (State.releaseHalves_rest s i k).2.2.2.2.2.2.1
@[simp] theorem State.releaseHalves_subArch (s : State) (i k : Nat) :
    (s.releaseHalves i k).subArch = s.subArch :=
  (State.releaseHalves_rest s i k).2.2.2.2.2.2.2.1
@[simp] theorem State.releaseHalves_mem (s : State) (i k : Nat) :
    (s.releaseHalves i k).mem = s.mem :=
  (State.releaseHalves_rest s i k).2.2.2.2.2.2.2.2.1
@[simp] theorem State.releaseHalves_images (s : State) (i k : Nat) :
    (s.releaseHalves i k).images = s.images :=
  (State.releaseHalves_rest s i k).2.2.2.2.2.2.2.2.2.1
@[simp] theorem State.releaseHalves_textBase (s : State) (i k : Nat) :
    (s.releaseHalves i k).textBase = s.textBase :=
  (State.releaseHalves_rest s i k).2.2.2.2.2.2.2.2.2.2.1
@[simp] theorem State.releaseHalves_text (s : State) (i k : Nat) :
    (s.releaseHalves i k).text = s.text :=
  (State.releaseHalves_rest s i k).2.2.2.2.2.2.2.2.2.2.2.1
@[simp] theorem State.releaseHalves_cfg (s : State) (i k : Nat) :
    (s.releaseHalves i k).cfg = s.cfg :=
  (State.releaseHalves_rest s i k).2.2.2.2.2.2.2.2.2.2.2.2.1
@[simp] theorem State.releaseHalves_freeNext (s : State) (i k : Nat) :
    (s.releaseHalves i k).freeNext = s.freeNext :=
  (State.releaseHalves_rest s i k).2.2.2.2.2.2.2.2.2.2.2.2.2

/-! ### `State.restoreRegs` -/

/-- The fields that `State.restoreRegs` leaves as they are. -/
theorem State.restoreRegs_rest (ws : List Word) (ps : List Pairing) (s : State) (i : Nat) :
    (s.restoreRegs i ws ps).arm = s.arm ∧ (s.restoreRegs i ws ps).pc = s.pc ∧ (s.restoreRegs i ws ps).cpsr = s.cpsr ∧
      (s.restoreRegs i ws ps).fpscr = s.fpscr ∧ (s.restoreRegs i ws ps).fpsid = s.fpsid ∧
      (s.restoreRegs i ws ps).fpexc = s.fpexc ∧ (s.restoreRegs i ws ps).subArch = s.subArch ∧
      (s.restoreRegs i ws ps).mem = s.mem ∧ (s.restoreRegs i ws ps).images = s.images ∧
      (s.restoreRegs i ws ps).textBase = s.textBase ∧ (s.restoreRegs i ws ps).text = s.text ∧
      (s.restoreRegs i ws ps).cfg = s.cfg ∧ (s.restoreRegs i ws ps).freeNext = s.freeNext := by
  induction ps generalizing s i ws with
  | nil => rcases ws with _ | ⟨_, _ | ⟨_, _⟩⟩ <;> simp [State.restoreRegs]
  | cons p ps ih =>
    rcases ws with _ | ⟨lo, _ | ⟨hi, ws⟩⟩
    · simp [State.restoreRegs]
    · simp [State.restoreRegs]
    · simpa [State.restoreRegs] using ih ws (s.restoreReg (regAt .dbl i) p lo hi) (i + 1)

@[simp] theorem State.restoreRegs_arm (ws : List Word) (ps : List Pairing) (s : State) (i : Nat) :
    (s.restoreRegs i ws ps).arm = s.arm :=
  (State.restoreRegs_rest ws ps s i).1
@[simp] theorem State.restoreRegs_pc (ws : List Word) (ps : List Pairing) (s : State) (i : Nat) :
    (s.restoreRegs i ws ps).pc = s.pc :=
  (State.restoreRegs_rest ws ps s i).2.1
@[simp] theorem State.restoreRegs_cpsr (ws : List Word) (ps : List Pairing) (s : State) (i : Nat) :
    (s.restoreRegs i ws ps).cpsr = s.cpsr :=
  (State.restoreRegs_rest ws ps s i).2.2.1
@[simp] theorem State.restoreRegs_fpscr (ws : List Word) (ps : List Pairing) (s : State) (i : Nat) :
    (s.restoreRegs i ws ps).fpscr = s.fpscr :=
  (State.restoreRegs_rest ws ps s i).2.2.2.1
@[simp] theorem State.restoreRegs_fpsid (ws : List Word) (ps : List Pairing) (s : State) (i : Nat) :
    (s.restoreRegs i ws ps).fpsid = s.fpsid :=
  (State.restoreRegs_rest ws ps s i).2.2.2.2.1
@[simp] theorem State.restoreRegs_fpexc (ws : List Word) (ps : List Pairing) (s : State) (i : Nat) :
    (s.restoreRegs i ws ps).fpexc = s.fpexc :=
  (State.restoreRegs_rest ws ps s i).2.2.2.2.2.1
@[simp] theorem State.restoreRegs_subArch (ws : List Word) (ps : List Pairing) (s : State) (i : Nat) :
    (s.restoreRegs i ws ps).subArch = s.subArch :=
  (State.restoreRegs_rest ws ps s i).2.2.2.2.2.2.1
@[simp] theorem State.restoreRegs_mem (ws : List Word) (ps : List Pairing) (s : State) (i : Nat) :
    (s.restoreRegs i ws ps).mem = s.mem :=
  (State.restoreRegs_rest ws ps s i).2.2.2.2.2.2.2.1
@[simp] theorem State.restoreRegs_images (ws : List Word) (ps : List Pairing) (s : State) (i : Nat) :
    (s.restoreRegs i ws ps).images = s.images :=
  (State.restoreRegs_rest ws ps s i).2.2.2.2.2.2.2.2.1
@[simp] theorem State.restoreRegs_textBase (ws : List Word) (ps : List Pairing) (s : State) (i : Nat) :
    (s.restoreRegs i ws ps).textBase = s.textBase :=
  (State.restoreRegs_rest ws ps s i).2.2.2.2.2.2.2.2.2.1
@[simp] theorem State.restoreRegs_text (ws : List Word) (ps : List Pairing) (s : State) (i : Nat) :
    (s.restoreRegs i ws ps).text = s.text :=
  (State.restoreRegs_rest ws ps s i).2.2.2.2.2.2.2.2.2.2.1
@[simp] theorem State.restoreRegs_cfg (ws : List Word) (ps : List Pairing) (s : State) (i : Nat) :
    (s.restoreRegs i ws ps).cfg = s.cfg :=
  (State.restoreRegs_rest ws ps s i).2.2.2.2.2.2.2.2.2.2.2.1
@[simp] theorem State.restoreRegs_freeNext (ws : List Word) (ps : List Pairing) (s : State) (i : Nat) :
    (s.restoreRegs i ws ps).freeNext = s.freeNext :=
  (State.restoreRegs_rest ws ps s i).2.2.2.2.2.2.2.2.2.2.2.2

/-! ### Words, tags and pairing states after an update -/

theorem vector_set_eq {α : Type} {n : Nat} (v : Vector α n) (i j : Fin n) (x : α) :
    (v.set i x)[j] = if j = i then x else v[j] := by
  by_cases h : j = i
  · subst h; simp
  · have : i.val ≠ j.val := fun e => h (Fin.ext e.symm)
    simp [this, h]

theorem word_congr {s t : State} {j : SReg} (h : t.vreg = s.vreg) : t.word j = s.word j := by
  unfold State.word; rw [h]

theorem tagAt_congr {s t : State} {j : SReg} (h : t.tag = s.tag) : t.tagAt j = s.tagAt j := by
  unfold State.tagAt; rw [h]

theorem pairAt_congr {s t : State} {n : DReg} (h : t.pair = s.pair) : t.pairAt n = s.pairAt n := by
  unfold State.pairAt; rw [h]

theorem State.setWord_word (s : State) (i : SReg) (t : Tag) (w : Word) (j : SReg) :
    (s.setWord i t w).word j = if j = i then w else s.word j := vector_set_eq _ _ _ _

theorem State.setWord_tagAt (s : State) (i : SReg) (t : Tag) (w : Word) (j : SReg) :
    (s.setWord i t w).tagAt j = if j = i then t else s.tagAt j := vector_set_eq _ _ _ _

theorem State.setPair_pairAt (s : State) (m : DReg) (p : Pairing) (n : DReg) :
    (s.setPair m p).pairAt n = if n = m then p else s.pairAt n := vector_set_eq _ _ _ _

theorem State.setSubArch_subArchReg (s : State) (low : BitVec 4) (v : Word) (k : BitVec 4) :
    (s.setSubArch low v).subArchReg k = if k = low then v else s.subArchReg k := by
  unfold State.subArchReg
  rw [State.setSubArch_subArch, vector_set_eq]
  congr 1
  exact propext BitVec.toFin_inj

theorem State.setWords_word (s : State) (n : DReg) (t u : Tag) (lo hi : Word) (j : SReg) :
    (s.setWords n t u lo hi).word j = if j = hiIndex n then hi else if j = loIndex n then lo else s.word j := by
  unfold State.setWords; rw [State.setWord_word, State.setWord_word]

theorem State.setWords_tagAt (s : State) (n : DReg) (t u : Tag) (lo hi : Word) (j : SReg) :
    (s.setWords n t u lo hi).tagAt j = if j = hiIndex n then u else if j = loIndex n then t else s.tagAt j := by
  unfold State.setWords; rw [State.setWord_tagAt, State.setWord_tagAt]

@[simp] theorem State.setWord_pairAt (s : State) (j : SReg) (t : Tag) (w : Word) (n : DReg) :
    (s.setWord j t w).pairAt n = s.pairAt n := pairAt_congr (by simp)
@[simp] theorem State.setPair_word (s : State) (n : DReg) (p : Pairing) (j : SReg) :
    (s.setPair n p).word j = s.word j := word_congr (by simp)
@[simp] theorem State.setPair_tagAt (s : State) (n : DReg) (p : Pairing) (j : SReg) :
    (s.setPair n p).tagAt j = s.tagAt j := tagAt_congr (by simp)
@[simp] theorem State.setWords_pairAt (s : State) (n : DReg) (t u : Tag) (lo hi : Word) (x : DReg) :
    (s.setWords n t u lo hi).pairAt x = s.pairAt x := pairAt_congr (by simp)
@[simp] theorem State.setMem_word (s : State) (a : Word) (n : Nat) (m : Memory) (j : SReg) :
    (s.setMem a n m).word j = s.word j := word_congr (by simp)
@[simp] theorem State.setMem_tagAt (s : State) (a : Word) (n : Nat) (m : Memory) (j : SReg) :
    (s.setMem a n m).tagAt j = s.tagAt j := tagAt_congr (by simp)
@[simp] theorem State.setMem_pairAt (s : State) (a : Word) (n : Nat) (m : Memory) (x : DReg) :
    (s.setMem a n m).pairAt x = s.pairAt x := pairAt_congr (by simp)
@[simp] theorem State.noteImages_word (s : State) (l : List FstmxImage) (j : SReg) :
    (s.noteImages l).word j = s.word j := word_congr (by simp)
@[simp] theorem State.noteImages_tagAt (s : State) (l : List FstmxImage) (j : SReg) :
    (s.noteImages l).tagAt j = s.tagAt j := tagAt_congr (by simp)
@[simp] theorem State.noteImages_pairAt (s : State) (l : List FstmxImage) (n : DReg) :
    (s.noteImages l).pairAt n = s.pairAt n := pairAt_congr (by simp)
@[simp] theorem State.advance_word (s : State) (j : SReg) :
    (s.advance).word j = s.word j := word_congr (by simp)
@[simp] theorem State.advance_tagAt (s : State) (j : SReg) :
    (s.advance).tagAt j = s.tagAt j := tagAt_congr (by simp)
@[simp] theorem State.advance_pairAt (s : State) (n : DReg) :
    (s.advance).pairAt n = s.pairAt n := pairAt_congr (by simp)
@[simp] theorem State.accrue_word (s : State) (e : ExcSet) (j : SReg) :
    (s.accrue e).word j = s.word j := word_congr (by simp)
@[simp] theorem State.accrue_tagAt (s : State) (e : ExcSet) (j : SReg) :
    (s.accrue e).tagAt j = s.tagAt j := tagAt_congr (by simp)
@[simp] theorem State.accrue_pairAt (s : State) (e : ExcSet) (n : DReg) :
    (s.accrue e).pairAt n = s.pairAt n := pairAt_congr (by simp)
@[simp] theorem State.setFpscrFlags_word (s : State) (r : Relation) (j : SReg) :
    (s.setFpscrFlags r).word j = s.word j := word_congr (by simp)
@[simp] theorem State.setFpscrFlags_tagAt (s : State) (r : Relation) (j : SReg) :
    (s.setFpscrFlags r).tagAt j = s.tagAt j := tagAt_congr (by simp)
@[simp] theorem State.setFpscrFlags_pairAt (s : State) (r : Relation) (n : DReg) :
    (s.setFpscrFlags r).pairAt n = s.pairAt n := pairAt_congr (by simp)
@[simp] theorem State.setFpscr_word (s : State) (w : Word) (j : SReg) :
    (s.setFpscr w).word j = s.word j := word_congr (by simp)
@[simp] theorem State.setFpscr_tagAt (s : State) (w : Word) (j : SReg) :
    (s.setFpscr w).tagAt j = s.tagAt j := tagAt_congr (by simp)
@[simp] theorem State.setFpscr_pairAt (s : State) (w : Word) (n : DReg) :
    (s.setFpscr w).pairAt n = s.pairAt n := pairAt_congr (by simp)
@[simp] theorem State.setSubArch_word (s : State) (low : BitVec 4) (v : Word) (j : SReg) :
    (s.setSubArch low v).word j = s.word j := word_congr (by simp)
@[simp] theorem State.setSubArch_tagAt (s : State) (low : BitVec 4) (v : Word) (j : SReg) :
    (s.setSubArch low v).tagAt j = s.tagAt j := tagAt_congr (by simp)
@[simp] theorem State.setSubArch_pairAt (s : State) (low : BitVec 4) (v : Word) (n : DReg) :
    (s.setSubArch low v).pairAt n = s.pairAt n := pairAt_congr (by simp)
@[simp] theorem State.copyFlags_word (s : State) (j : SReg) :
    (s.copyFlags).word j = s.word j := word_congr (by simp)
@[simp] theorem State.copyFlags_tagAt (s : State) (j : SReg) :
    (s.copyFlags).tagAt j = s.tagAt j := tagAt_congr (by simp)
@[simp] theorem State.copyFlags_pairAt (s : State) (n : DReg) :
    (s.copyFlags).pairAt n = s.pairAt n := pairAt_congr (by simp)
@[simp] theorem State.setArm_word (s : State) (r : RReg) (v : Word) (j : SReg) :
    (s.setArm r v).word j = s.word j := word_congr (by simp)
@[simp] theorem State.setArm_tagAt (s : State) (r : RReg) (v : Word) (j : SReg) :
    (s.setArm r v).tagAt j = s.tagAt j := tagAt_congr (by simp)
@[simp] theorem State.setArm_pairAt (s : State) (r : RReg) (v : Word) (n : DReg) :
    (s.setArm r v).pairAt n = s.pairAt n := pairAt_congr (by simp)
@[simp] theorem State.writeBack_word (s : State) (mode : AddrMode) (rn : RReg) (offset : BitVec 8) (j : SReg) :
    (s.writeBack mode rn offset).word j = s.word j := word_congr (by simp)
@[simp] theorem State.writeBack_tagAt (s : State) (mode : AddrMode) (rn : RReg) (offset : BitVec 8) (j : SReg) :
    (s.writeBack mode rn offset).tagAt j = s.tagAt j := tagAt_congr (by simp)
@[simp] theorem State.writeBack_pairAt (s : State) (mode : AddrMode) (rn : RReg) (offset : BitVec 8) (n : DReg) :
    (s.writeBack mode rn offset).pairAt n = s.pairAt n := pairAt_congr (by simp)
@[simp] theorem State.releaseHalf_word (s : State) (n : DReg) (j : SReg) :
    (s.releaseHalf n).word j = s.word j := word_congr (by simp)
@[simp] theorem State.setReg_pairAt (s : State) (f : Fmt) (r : VReg f) (v : Pat f) (n : DReg) :
    (s.setReg f r v).pairAt n = s.pairAt n := pairAt_congr (by simp)
@[simp] theorem State.setRegs_pairAt (f : Fmt) (vs : List (Pat f)) (s : State) (i : Nat) (n : DReg) :
    (State.setRegs f s i vs).pairAt n = s.pairAt n := pairAt_congr (by simp)
@[simp] theorem State.releaseHalves_word (s : State) (i k : Nat) (j : SReg) :
    (s.releaseHalves i k).word j = s.word j := word_congr (by simp)

end Sys2Proof.Machine
end

