-- ==== Sys2Proof/Laws/Registers.lean ====
section
/-! SUPPORT. Registers: when a read answers, and what a register holds after a write. -/

namespace Sys2Proof.Machine

/-! ### Computations that may stop -/

@[simp] theorem ok_bind {α β : Type} (a : α) (f : α → Except Stop β) : (Except.ok a >>= f) = f a := rfl

@[simp] theorem error_bind {α β : Type} (e : Stop) (f : α → Except Stop β) : ((Except.error e : Except Stop α) >>= f) = .error e :=
  rfl

/-- A computation of two parts answers if and only if both parts do. -/
theorem bind_eq_ok {α β : Type} {x : Except Stop α} {f : α → Except Stop β} {b : β} :
    (x >>= f) = .ok b ↔ ∃ a, x = .ok a ∧ f a = .ok b := by
  cases x with
  | error e => simp
  | ok a => simp

/-! ### Indices -/

@[simp] theorem doubleOf_loIndex (n : DReg) : doubleOf (loIndex n) = n := by
  apply Fin.ext; simp only [doubleOf, loIndex]; omega

@[simp] theorem doubleOf_hiIndex (n : DReg) : doubleOf (hiIndex n) = n := by
  apply Fin.ext; simp only [doubleOf, hiIndex]; omega

theorem loIndex_ne_hiIndex (m n : DReg) : loIndex m ≠ hiIndex n := by
  intro h; have := congrArg Fin.val h; simp only [loIndex, hiIndex] at this; omega

theorem loIndex_inj {m n : DReg} (h : loIndex m = loIndex n) : m = n := by
  have := congrArg doubleOf h; simpa using this

theorem hiIndex_inj {m n : DReg} (h : hiIndex m = hiIndex n) : m = n := by
  have := congrArg doubleOf h; simpa using this

/-- Every word is the low or the high half of its double. -/
theorem index_cases (j : SReg) : j = loIndex (doubleOf j) ∨ j = hiIndex (doubleOf j) := by
  rcases Nat.mod_two_eq_zero_or_one j.val with h | h
  · left; apply Fin.ext; simp only [doubleOf, loIndex]; omega
  · right; apply Fin.ext; simp only [doubleOf, hiIndex]; omega

/-! ### The checks of a read -/

theorem requireWhole_eq_ok {n : DReg} {s : State} {u : Unit} : requireWhole n s = .ok u ↔ s.pairAt n = .whole := by
  unfold requireWhole; split <;> simp_all

theorem requireTag_eq_ok {other : Tag} {j : SReg} {s : State} {u : Unit} :
    requireTag other j s = .ok u ↔ WordReadable other j s := by
  unfold requireTag WordReadable
  by_cases h : s.tagAt j = .none
  · simp [h]
  · by_cases h' : s.tagAt j = other ∧ s.cfg.overlap = .tagged
    · rw [if_neg h, if_pos h']
      exact ⟨fun e => (by cases e), fun e => absurd h'.1 (e.2 h'.2)⟩
    · rw [if_neg h, if_neg h']
      exact ⟨fun _ => ⟨h, fun o e => h' ⟨e, o⟩⟩, fun _ => rfl⟩

/-- A read answers exactly when the register is readable, and it answers the register's bits. -/
theorem readReg_eq_ok {f : Fmt} {r : VReg f} {s : State} {v : Pat f} :
    readReg f r s = .ok v ↔ Readable f r s ∧ v = s.rawReg f r := by
  have check : (∃ u, requireReadable f r s = .ok u) ∧ s.pairAt (pairOf f r) = .whole ↔ Readable f r s := by
    cases f
    · simp only [requireReadable, requireTag_eq_ok, Readable, pairOf]
      exact ⟨fun ⟨⟨_, h⟩, hp⟩ => ⟨hp, h⟩, fun h => ⟨⟨(), h.2⟩, h.1⟩⟩
    · simp only [requireReadable, bind_eq_ok, requireTag_eq_ok, Readable, pairOf]
      exact ⟨fun ⟨⟨_, _, h, h'⟩, hp⟩ => ⟨hp, h, h'⟩, fun ⟨hp, h, h'⟩ => ⟨⟨(), (), h, h'⟩, hp⟩⟩
  simp only [readReg, bind_eq_ok, requireWhole_eq_ok, Except.ok.injEq, ← check]
  exact ⟨fun ⟨_, hp, u, h, e⟩ => ⟨⟨⟨u, h⟩, hp⟩, e.symm⟩, fun ⟨⟨⟨u, h⟩, hp⟩, e⟩ => ⟨(), hp, u, h, e.symm⟩⟩

theorem readReg_of_readable {f : Fmt} {r : VReg f} {s : State} (h : Readable f r s) : readReg f r s = .ok (s.rawReg f r) :=
  readReg_eq_ok.2 ⟨h, rfl⟩

theorem requireWhole_of_writable {f : Fmt} {r : VReg f} {s : State} (h : Writable f r s) :
    requireWhole (pairOf f r) s = .ok () := requireWhole_eq_ok.2 h

/-- A readable register may also be written. -/
theorem Readable.writable {f : Fmt} {r : VReg f} {s : State} (h : Readable f r s) : Writable f r s := by
  cases f <;> exact h.1

/-! ### What a register write does -/

theorem mem_wordsOfReg_pair {f : Fmt} {r : VReg f} {j : SReg} (h : j ∈ wordsOfReg f r) : doubleOf j = pairOf f r := by
  cases f
  · simp only [wordsOfReg, List.mem_singleton] at h; subst h; rfl
  · simp only [wordsOfReg, List.mem_cons, List.not_mem_nil, or_false] at h
    rcases h with rfl | rfl <;> simp [pairOf]

/-- The written register reads as the value. -/
@[simp] theorem rawReg_setReg_self (s : State) (f : Fmt) (r : VReg f) (v : Pat f) : (s.setReg f r v).rawReg f r = v := by
  cases f
  · simp [State.setReg, State.rawReg, State.setWord_word]
  · simp only [State.setReg, State.rawReg, State.rawDouble, State.setWords_word, if_true,
      if_neg (loIndex_ne_hiIndex _ _)]
    exact dwordOf_hiWord_loWord v

/-- Every word outside the written register is as it was. -/
theorem vreg_setReg_other {s : State} {f : Fmt} {r : VReg f} {v : Pat f} {j : SReg} (h : j ∉ wordsOfReg f r) :
    (s.setReg f r v).word j = s.word j := by
  cases f
  · simp only [wordsOfReg, List.mem_singleton] at h
    simp only [State.setReg, State.setWord_word, if_neg h]
  · simp only [wordsOfReg, List.mem_cons, List.not_mem_nil, or_false, not_or] at h
    simp only [State.setReg, State.setWords_word, if_neg h.1, if_neg h.2]

theorem tag_setReg_other {s : State} {f : Fmt} {r : VReg f} {v : Pat f} {j : SReg} (h : j ∉ wordsOfReg f r) :
    (s.setReg f r v).tagAt j = s.tagAt j := by
  cases f
  · simp only [wordsOfReg, List.mem_singleton] at h
    simp only [State.setReg, State.setWord_tagAt, if_neg h]
  · simp only [wordsOfReg, List.mem_cons, List.not_mem_nil, or_false, not_or] at h
    simp only [State.setReg, State.setWords_tagAt, if_neg h.1, if_neg h.2]

theorem tag_setReg_self {s : State} {f : Fmt} {r : VReg f} {v : Pat f} {j : SReg} (h : j ∈ wordsOfReg f r) :
    (s.setReg f r v).tagAt j = tagOf f := by
  cases f
  · simp only [wordsOfReg, List.mem_singleton] at h
    simp only [State.setReg, State.setWord_tagAt, if_pos h, tagOf]
  · simp only [wordsOfReg, List.mem_cons, List.not_mem_nil, or_false] at h
    simp only [State.setReg, State.setWords_tagAt, tagOf]
    rcases h with h | h <;> simp [h]

/-- A register's bits depend on its words only. -/
theorem rawReg_congr {f : Fmt} {r : VReg f} {s t : State} (h : ∀ j, j ∈ wordsOfReg f r → t.word j = s.word j) :
    t.rawReg f r = s.rawReg f r := by
  cases f
  · exact h r (by simp [wordsOfReg])
  · simp only [State.rawReg, State.rawDouble]
    rw [h (hiIndex r) (by simp [wordsOfReg]), h (loIndex r) (by simp [wordsOfReg])]

/-! ### Lists of registers -/

theorem regIndex_lt (f : Fmt) (r : VReg f) : regIndex f r < regCount f := by
  cases f
  · exact r.isLt
  · exact r.isLt

@[simp] theorem regAt_regIndex (f : Fmt) (r : VReg f) : regAt f (regIndex f r) = r := by
  cases f
  · apply Fin.ext; exact Nat.mod_eq_of_lt r.isLt
  · apply Fin.ext; exact Nat.mod_eq_of_lt r.isLt

theorem regIndex_regAt {f : Fmt} {i : Nat} (h : i < regCount f) : regIndex f (regAt f i) = i := by
  cases f
  · exact Nat.mod_eq_of_lt h
  · exact Nat.mod_eq_of_lt h

/-- Different registers have no word in common. -/
theorem wordsOfReg_disjoint {f : Fmt} {r r' : VReg f} {j : SReg} (h : j ∈ wordsOfReg f r) (h' : j ∈ wordsOfReg f r') : r = r' := by
  cases f
  · simp only [wordsOfReg, List.mem_singleton] at h h'; exact h.symm.trans h'
  · have a := mem_wordsOfReg_pair h
    have b := mem_wordsOfReg_pair h'
    exact a.symm.trans b

theorem mem_wordsOfRegs {f : Fmt} {i k : Nat} {j : SReg} :
    j ∈ wordsOfRegs f i k ↔ ∃ l, l < k ∧ j ∈ wordsOfReg f (regAt f (i + l)) := by
  simp [wordsOfRegs]

theorem mem_wordsOfRegs_succ {f : Fmt} {i k : Nat} {j : SReg} :
    j ∈ wordsOfRegs f i (k + 1) ↔ j ∈ wordsOfReg f (regAt f i) ∨ j ∈ wordsOfRegs f (i + 1) k := by
  simp only [mem_wordsOfRegs]
  constructor
  · rintro ⟨l, hl, h⟩
    cases l with
    | zero => exact .inl h
    | succ l => exact .inr ⟨l, by omega, by rw [Nat.add_right_comm]; exact h⟩
  · rintro (h | ⟨l, hl, h⟩)
    · exact ⟨0, by omega, h⟩
    · exact ⟨l + 1, by omega, by rw [Nat.add_right_comm] at h; exact h⟩

theorem vreg_setRegs_other {f : Fmt} {vs : List (Pat f)} {s : State} {i : Nat} {j : SReg} (h : j ∉ wordsOfRegs f i vs.length) :
    (State.setRegs f s i vs).word j = s.word j := by
  induction vs generalizing s i with
  | nil => rfl
  | cons v vs ih =>
    rw [List.length_cons, mem_wordsOfRegs_succ, not_or] at h
    rw [State.setRegs, ih h.2, vreg_setReg_other h.1]

theorem tag_setRegs_other {f : Fmt} {vs : List (Pat f)} {s : State} {i : Nat} {j : SReg} (h : j ∉ wordsOfRegs f i vs.length) :
    (State.setRegs f s i vs).tagAt j = s.tagAt j := by
  induction vs generalizing s i with
  | nil => rfl
  | cons v vs ih =>
    rw [List.length_cons, mem_wordsOfRegs_succ, not_or] at h
    rw [State.setRegs, ih h.2, tag_setReg_other h.1]

theorem tag_setRegs_self {f : Fmt} {vs : List (Pat f)} {s : State} {i : Nat} {j : SReg} (h : j ∈ wordsOfRegs f i vs.length) :
    (State.setRegs f s i vs).tagAt j = tagOf f := by
  induction vs generalizing s i with
  | nil => simp [wordsOfRegs] at h
  | cons v vs ih =>
    rw [State.setRegs]
    by_cases hj : j ∈ wordsOfRegs f (i + 1) vs.length
    · exact ih hj
    · rw [List.length_cons, mem_wordsOfRegs_succ, or_iff_left hj] at h
      rw [tag_setRegs_other hj, tag_setReg_self h]

/-- Every register of the list reads as its value. -/
theorem rawReg_setRegs {f : Fmt} {vs : List (Pat f)} {s : State} {i l : Nat} {v : Pat f} (hi : i + vs.length ≤ regCount f)
    (h : vs[l]? = some v) : (State.setRegs f s i vs).rawReg f (regAt f (i + l)) = v := by
  induction vs generalizing s i l with
  | nil => simp at h
  | cons w vs ih =>
    rw [List.length_cons] at hi
    rw [State.setRegs]
    cases l with
    | zero =>
      simp only [List.getElem?_cons_zero, Option.some.injEq] at h
      subst h
      rw [rawReg_congr (s := s.setReg f (regAt f i) w)]
      · exact rawReg_setReg_self _ _ _ _
      intro j hj
      refine vreg_setRegs_other fun hm => ?_
      obtain ⟨m, hm, hj'⟩ := mem_wordsOfRegs.1 hm
      have := congrArg (regIndex f) (wordsOfReg_disjoint hj hj')
      rw [regIndex_regAt (by omega), regIndex_regAt (by omega)] at this
      omega
    | succ l =>
      rw [List.getElem?_cons_succ] at h
      have := ih (s := s.setReg f (regAt f i) w) (i := i + 1) (by omega) h
      rwa [Nat.add_assoc, Nat.add_comm 1 l] at this

/-- The reads of a list answer exactly when every register is readable, and they answer the registers' bits. -/
theorem readRegs_eq_ok {f : Fmt} {k i : Nat} {s : State} {vs : List (Pat f)} :
    readRegs f i k s = .ok vs ↔
      (∀ l, l < k → Readable f (regAt f (i + l)) s) ∧ vs = (List.range k).map fun l => s.rawReg f (regAt f (i + l)) := by
  induction k generalizing i vs with
  | zero => simp [readRegs, eq_comm]
  | succ k ih =>
    simp only [readRegs, bind_eq_ok, readReg_eq_ok, ih, List.range_succ_eq_map, List.map_cons, List.map_map, Except.ok.injEq]
    constructor
    · rintro ⟨_, ⟨h, rfl⟩, _, ⟨h', rfl⟩, rfl⟩
      refine ⟨fun l hl => ?_, ?_⟩
      · cases l with
        | zero => exact h
        | succ l => have := h' l (by omega); rwa [Nat.add_assoc, Nat.add_comm 1 l] at this
      · refine congrArg₂ _ rfl (List.map_congr_left fun l _ => ?_)
        simp only [Function.comp_apply, Nat.succ_eq_add_one, Nat.add_assoc, Nat.add_comm 1 l]
    · rintro ⟨h, rfl⟩
      refine ⟨_, ⟨h 0 (by omega), rfl⟩, _, ⟨fun l hl => ?_, rfl⟩, ?_⟩
      · have := h (l + 1) (by omega); rwa [Nat.add_assoc, Nat.add_comm 1 l]
      · refine congrArg₂ _ rfl (List.map_congr_left fun l _ => ?_)
        simp only [Function.comp_apply, Nat.succ_eq_add_one, Nat.add_assoc, Nat.add_comm 1 l]

theorem requireWholes_eq_ok {f : Fmt} {k i : Nat} {s : State} {u : Unit} :
    requireWholes f i k s = .ok u ↔ ∀ l, l < k → Writable f (regAt f (i + l)) s := by
  induction k generalizing i with
  | zero => simp [requireWholes]
  | succ k ih =>
    simp only [requireWholes, bind_eq_ok, requireWhole_eq_ok, ih]
    constructor
    · rintro ⟨_, h, h'⟩ l hl
      cases l with
      | zero => exact h
      | succ l => have := h' l (by omega); rwa [Nat.add_assoc, Nat.add_comm 1 l] at this
    · intro h
      refine ⟨(), h 0 (by omega), fun l hl => ?_⟩
      have := h (l + 1) (by omega); rwa [Nat.add_assoc, Nat.add_comm 1 l]

/-! ### ARM registers -/

/-- The written ARM register reads as the value, every other as before. -/
theorem armReg_setArm {s : State} {r q : RReg} {v : Word} (hr : r ≠ 15) :
    (s.setArm r v).armReg q = if q = r then v else s.armReg q := by
  have h : r.val < 15 := by
    have := r.isLt
    rcases Nat.lt_or_ge r.val 15 with h | h
    · exact h
    · exact absurd (Fin.ext (by simp; omega)) hr
  unfold State.setArm State.armReg
  rw [dif_pos h]
  by_cases hq : q.val < 15
  · simp only [dif_pos hq]
    rw [Vector.getElem_set]
    by_cases e : q = r
    · subst e; simp
    · rw [if_neg (fun h => e (Fin.ext h.symm)), if_neg e]
  · rw [dif_neg hq, dif_neg hq, if_neg (fun e => hq (by rw [e]; exact h))]

/-- An ARM register depends on the ARM registers and the program counter only. -/
theorem armReg_congr {s t : State} {r : RReg} (ha : t.arm = s.arm) (hp : r = 15 → t.pc = s.pc) : t.armReg r = s.armReg r := by
  unfold State.armReg
  split
  · simp [ha]
  · rename_i h
    exact hp (Fin.ext (by have := r.isLt; simp; omega))

/-- The base register after an instruction is what the mode writes back, or what it was. -/
theorem armReg_writeBack {s : State} {mode : AddrMode} {rn q : RReg} {offset : BitVec 8} (h : rn ≠ 15) :
    (s.writeBack mode rn offset).armReg q =
      if q = rn then (newBase mode (s.armReg rn) offset).getD (s.armReg rn) else s.armReg q := by
  unfold State.writeBack
  cases hb : newBase mode (s.armReg rn) offset with
  | none => simp only [Option.getD_none]; split <;> simp_all
  | some v => simp only [Option.getD_some]; exact armReg_setArm h

end Sys2Proof.Machine
end

