-- ==== Sys2Proof/Laws/Ops.lean ====
section
/-! SUPPORT. What each shared operation can do: when it answers, and the state it answers. -/

namespace Sys2Proof.Machine

/-! ### The template -/

/-- Nothing is trapped while every enable is clear. -/
theorem trapped_none {s : State} (h : Untrapped s) (e : ExcSet) : trapped s.fpscr.enables e = none := by
  rw [show s.fpscr.enables = .none from h]; simp [trapped, ExcSet.has, ExcSet.none, List.find?]

theorem signal_eq_ok {e : ExcSet} {s t : State} :
    signal e s = .ok t ↔ trapped s.fpscr.enables e = none ∧ t = s.accrue e := by
  unfold signal
  cases trapped s.fpscr.enables e with
  | none => simp [eq_comm]
  | some x => simp

theorem signal_untrapped {s : State} (h : Untrapped s) (e : ExcSet) : signal e s = .ok (s.accrue e) :=
  signal_eq_ok.2 ⟨trapped_none h e, rfl⟩

/-- A failed condition leaves the state as it is, but for the program counter. -/
theorem instruction_failed {c : Cond} {i : Instr} {double : Bool} {body : State → Except Stop State} {s : State}
    (h : conditionPassed c s.cpsr = false) : instruction c i double body s = .next s.advance := by
  unfold instruction; rw [if_neg (by simp [h])]

/-- An instruction that is ready is its body. -/
theorem instruction_ready {c : Cond} {i : Instr} {double : Bool} {body : State → Except Stop State} {s : State}
    (h : Ready c double s) : instruction c i double body s = finish (body s) := by
  unfold instruction
  rw [if_pos h.1, if_neg]
  cases double
  · simp
  · simp [h.2 rfl]

/-- A body that answers makes the instruction complete. -/
theorem instruction_next_of_ok {c : Cond} {i : Instr} {double : Bool} {body : State → Except Stop State} {s u : State}
    (h : Ready c double s) (hb : body s = .ok u) : instruction c i double body s = .next u.advance := by
  rw [instruction_ready h, hb]; rfl

/-- An instruction completes in two ways only: its condition fails, or its body answers. -/
theorem instruction_eq_next {c : Cond} {i : Instr} {double : Bool} {body : State → Except Stop State} {s t : State} :
    instruction c i double body s = .next t ↔
      (conditionPassed c s.cpsr = false ∧ t = s.advance) ∨ (Ready c double s ∧ ∃ u, body s = .ok u ∧ t = u.advance) := by
  by_cases hc : conditionPassed c s.cpsr = true
  · by_cases hd : double = true → s.cfg.hasDouble = true
    · rw [instruction_ready ⟨hc, hd⟩]
      constructor
      · intro h
        refine .inr ⟨⟨hc, hd⟩, ?_⟩
        cases hb : body s with
        | ok u => rw [hb] at h; exact ⟨u, rfl, by simpa [finish, eq_comm] using h⟩
        | error e => rw [hb] at h; cases e <;> simp [finish] at h
      · rintro (⟨h, _⟩ | ⟨_, u, hb, rfl⟩)
        · rw [hc] at h; simp at h
        · rw [hb]; rfl
    · unfold instruction
      rw [if_pos hc, if_pos (by simpa using hd)]
      simp [Ready, hc, hd]
  · rw [Bool.not_eq_true] at hc
    rw [instruction_failed hc]
    exact ⟨fun h => .inl ⟨hc, by simpa [eq_comm] using h⟩, fun h => h.elim (fun h => by rw [h.2])
      (fun h => absurd h.1.1 (by simp [hc]))⟩

theorem scalarOnly_eq_ok {body : State → Except Stop State} {s t : State} :
    scalarOnly body s = .ok t ↔ Scalar s ∧ body s = .ok t := by
  unfold scalarOnly Scalar; split <;> simp_all

/-! ### Data-processing -/

theorem deliver_eq_ok {f : Fmt} {d : VReg f} {r : FpResult f} {s u : State} :
    deliver f d r s = .ok u ↔
      Writable f d s ∧ trapped s.fpscr.enables r.exc = none ∧ u = (s.accrue r.exc).setReg f d r.val := by
  simp only [deliver, bind_eq_ok, requireWhole_eq_ok, signal_eq_ok, Except.ok.injEq, Writable]
  exact ⟨fun ⟨_, h, t, ⟨h', e⟩, e'⟩ => ⟨h, h', by rw [← e', e]⟩, fun ⟨h, h', e⟩ => ⟨(), h, _, ⟨h', rfl⟩, e.symm⟩⟩

theorem binary_eq_ok {f : Fmt} {op : FpEnv → Pat f → Pat f → FpResult f} {d n m : VReg f} {s u : State} :
    binary f op d n m s = .ok u ↔
      Readable f n s ∧ Readable f m s ∧ deliver f d (op (fpEnv s) (s.rawReg f n) (s.rawReg f m)) s = .ok u := by
  simp only [binary, bind_eq_ok, readReg_eq_ok]
  exact ⟨fun ⟨_, ⟨h, e⟩, _, ⟨h', e'⟩, hu⟩ => ⟨h, h', by rw [← e, ← e']; exact hu⟩,
    fun ⟨h, h', hu⟩ => ⟨_, ⟨h, rfl⟩, _, ⟨h', rfl⟩, hu⟩⟩

theorem unary_eq_ok {g f : Fmt} {op : FpEnv → Pat g → FpResult f} {d : VReg f} {m : VReg g} {s u : State} :
    unary g f op d m s = .ok u ↔ Readable g m s ∧ deliver f d (op (fpEnv s) (s.rawReg g m)) s = .ok u := by
  simp only [unary, bind_eq_ok, readReg_eq_ok]
  exact ⟨fun ⟨_, ⟨h, e⟩, hu⟩ => ⟨h, by rw [← e]; exact hu⟩, fun ⟨h, hu⟩ => ⟨_, ⟨h, rfl⟩, hu⟩⟩

theorem multiplyAccumulate_eq_ok {f : Fmt} {np na : Bool} {d n m : VReg f} {s u : State} :
    multiplyAccumulate f np na d n m s = .ok u ↔
      Readable f d s ∧ Readable f n s ∧ Readable f m s ∧
        deliver f d (fpMac f (fpEnv s) np na (s.rawReg f d) (s.rawReg f n) (s.rawReg f m)) s = .ok u := by
  simp only [multiplyAccumulate, bind_eq_ok, readReg_eq_ok]
  exact ⟨fun ⟨_, ⟨h, e⟩, _, ⟨h', e'⟩, _, ⟨h'', e''⟩, hu⟩ => ⟨h, h', h'', by rw [← e, ← e', ← e'']; exact hu⟩,
    fun ⟨h, h', h'', hu⟩ => ⟨_, ⟨h, rfl⟩, _, ⟨h', rfl⟩, _, ⟨h'', rfl⟩, hu⟩⟩

theorem copyReg_eq_ok {f : Fmt} {g : Pat f → Pat f} {d m : VReg f} {s u : State} :
    copyReg f g d m s = .ok u ↔ Readable f m s ∧ Writable f d s ∧ u = s.setReg f d (g (s.rawReg f m)) := by
  simp only [copyReg, bind_eq_ok, readReg_eq_ok, requireWhole_eq_ok, Except.ok.injEq, Writable]
  exact ⟨fun ⟨_, ⟨h, e⟩, _, h', hu⟩ => ⟨h, h', by rw [← e, hu]⟩, fun ⟨h, h', hu⟩ => ⟨_, ⟨h, rfl⟩, (), h', hu.symm⟩⟩

theorem deliverFlags_eq_ok {r : CompareResult} {s u : State} :
    deliverFlags r s = .ok u ↔
      trapped s.fpscr.enables r.exc = none ∧ u = (s.accrue r.exc).setFpscrFlags r.relation := by
  simp only [deliverFlags, bind_eq_ok, signal_eq_ok, Except.ok.injEq]
  exact ⟨fun ⟨_, ⟨h, e⟩, e'⟩ => ⟨h, by rw [← e', e]⟩, fun ⟨h, e⟩ => ⟨_, ⟨h, rfl⟩, e.symm⟩⟩

theorem compareRegs_eq_ok {f : Fmt} {e : Bool} {d m : VReg f} {s u : State} :
    compareRegs f e d m s = .ok u ↔
      Readable f d s ∧ Readable f m s ∧
        deliverFlags (compareValues f (fpEnv s) e (s.rawReg f d) (s.rawReg f m)) s = .ok u := by
  simp only [compareRegs, bind_eq_ok, readReg_eq_ok]
  exact ⟨fun ⟨_, ⟨h, e⟩, _, ⟨h', e'⟩, hu⟩ => ⟨h, h', by rw [← e, ← e']; exact hu⟩,
    fun ⟨h, h', hu⟩ => ⟨_, ⟨h, rfl⟩, _, ⟨h', rfl⟩, hu⟩⟩

theorem compareWithZero_eq_ok {f : Fmt} {e : Bool} {d : VReg f} {s u : State} :
    compareWithZero f e d s = .ok u ↔
      Readable f d s ∧ deliverFlags (compareValues f (fpEnv s) e (s.rawReg f d) (zeroPat f false)) s = .ok u := by
  simp only [compareWithZero, bind_eq_ok, readReg_eq_ok]
  exact ⟨fun ⟨_, ⟨h, e⟩, hu⟩ => ⟨h, by rw [← e]; exact hu⟩, fun ⟨h, hu⟩ => ⟨_, ⟨h, rfl⟩, hu⟩⟩

/-! ### What the machine keeps -/

theorem MemoryKept.refl (s : State) : MemoryKept s s := ⟨fun _ => rfl, rfl, rfl⟩

/-- Writing one register, after its exceptions are signalled, changes what `Delivered` says. -/
theorem delivered_advance {f : Fmt} {d : VReg f} {r : FpResult f} {s : State} :
    Delivered f d r s ((s.accrue r.exc).setReg f d r.val).advance where
  value := rawReg_setReg_self _ _ _ _
  tags := fun _ h => tag_setReg_self h
  signalled := by simp [Signalled]
  rest :=
    { frame :=
        { vreg := fun _ h => vreg_setReg_other h
          tag := fun _ h => tag_setReg_other h
          arm := fun r hr _ => armReg_congr (by simp) (fun h => absurd h hr)
          pc := by simp
          fpsid := by simp
          fpexc := by simp
          subArch := by simp
          textBase := by simp
          text := by simp
          cfg := by simp }
      memory := ⟨by simp, by simp, by simp⟩
      pair := by simp
      cpsr := by simp }

/-- A body that delivers a result makes the instruction complete with it. -/
theorem instruction_delivered {f : Fmt} {d : VReg f} {r : FpResult f} {c : Cond} {i : Instr} {double : Bool}
    {body : State → Except Stop State} {s : State} (h : Ready c double s) (ht : Untrapped s) (hd : Writable f d s)
    (hb : body s = deliver f d r s) : ∃ t, instruction c i double body s = .next t ∧ Delivered f d r s t :=
  ⟨_, instruction_next_of_ok h (hb.trans (deliver_eq_ok.2 ⟨hd, trapped_none ht _, rfl⟩)), delivered_advance⟩

/-- A body that ends a comparison makes the instruction complete with it. -/
theorem instruction_compared {r : CompareResult} {c : Cond} {i : Instr} {double : Bool}
    {body : State → Except Stop State} {s : State} (h : Ready c double s) (ht : Untrapped s)
    (hb : body s = deliverFlags r s) : ∃ t, instruction c i double body s = .next t ∧ Compared r s t := by
  refine ⟨_, instruction_next_of_ok h (hb.trans (deliverFlags_eq_ok.2 ⟨trapped_none ht _, rfl⟩)), ?_, ?_⟩
  · simp
  · exact
      { frame :=
          { vreg := fun _ _ => rfl
            tag := fun _ _ => rfl
            arm := fun r hr _ => armReg_congr (by simp) (fun h => absurd h hr)
            pc := by simp
            fpsid := by simp
            fpexc := by simp
            subArch := by simp
            textBase := by simp
            text := by simp
            cfg := by simp }
        memory := ⟨by simp, by simp, by simp⟩
        pair := by simp
        cpsr := by simp }

/-! ### Loads and stores -/

theorem requireTransfer_eq_ok {f : Fmt} {first k : Nat} {rn : RReg} {s : State} {u : Unit} :
    requireTransfer f first k rn s = .ok u ↔ TransferOk f first k rn s := by
  unfold requireTransfer
  constructor
  · intro h
    by_cases h1 : rn = 15
    · simp [h1] at h
    by_cases h2 : k = 0
    · simp [h1, h2] at h
    by_cases h3 : regCount f < first + k
    · simp [h1, h2, h3] at h
    by_cases h4 : (s.armReg rn).extractLsb' 0 2 ≠ 0
    · rw [if_neg h1, if_neg h2, if_neg h3, if_pos h4] at h; cases h
    · exact ⟨h1, by omega, by omega, not_not.1 h4⟩
  · rintro ⟨h1, h2, h3, h4⟩
    rw [if_neg h1, if_neg (by omega), if_neg (by omega), if_neg (not_not.2 h4)]

theorem lowestWord_eq_none {test : Word → Bool} {a : Word} {n : Nat} :
    lowestWord test a n = none ↔ ∀ i, i < n → test (wordAddr a i) = false := by
  induction n generalizing a with
  | zero => simp [lowestWord]
  | succ n ih =>
    simp only [lowestWord]
    constructor
    · intro h i hi
      split at h
      · cases h
      · rename_i h0
        cases i with
        | zero => simpa using h0
        | succ i => have := ih.1 h i (by omega); rwa [wordAddr_wordAddr, Nat.add_comm] at this
    · intro h
      have h0 := h 0 (by omega)
      rw [wordAddr_zero] at h0
      rw [if_neg (by simp [h0]), ih]
      intro i hi
      rw [wordAddr_wordAddr, Nat.add_comm]
      exact h (i + 1) (by omega)

/-- The lowest word that satisfies the test: it is one of the words, and none that satisfies the test has a lower address. -/
theorem lowestWord_eq_some {test : Word → Bool} {a b : Word} {n : Nat} (h : lowestWord test a n = some b) :
    ∃ i, i < n ∧ b = wordAddr a i ∧ test b = true ∧
      ∀ j, j < n → test (wordAddr a j) = true → b.toNat ≤ (wordAddr a j).toNat := by
  induction n generalizing a b with
  | zero => cases h
  | succ n ih =>
    have shift : ∀ i, wordAddr (wordAddr a 1) i = wordAddr a (i + 1) := fun i => by rw [wordAddr_wordAddr, Nat.add_comm]
    simp only [lowestWord] at h
    cases hr : lowestWord test (wordAddr a 1) n with
    | none =>
      rw [hr] at h
      have none' := lowestWord_eq_none.1 hr
      by_cases h0 : test a = true
      · rw [if_pos h0] at h; cases h
        refine ⟨0, by omega, by simp [lowerAddr], h0, fun j hj ht => ?_⟩
        cases j with
        | zero => simp [lowerAddr]
        | succ j => rw [← shift, none' j (by omega)] at ht; cases ht
      · rw [if_neg h0] at h; cases h
    | some c =>
      obtain ⟨i, hi, hc, ht, hl⟩ := ih hr
      rw [hr] at h
      by_cases h0 : test a = true
      · rw [if_pos h0, Option.some.injEq] at h
        simp only [lowerAddr] at h
        by_cases hlt : c.toNat < a.toNat
        · rw [if_pos hlt] at h; subst h
          refine ⟨i + 1, by omega, by rw [← shift, hc], ht, fun j hj htj => ?_⟩
          cases j with
          | zero => rw [wordAddr_zero]; omega
          | succ j => rw [← shift] at htj ⊢; exact hl j (by omega) htj
        · rw [if_neg hlt] at h; subst h
          refine ⟨0, by omega, by simp, h0, fun j hj htj => ?_⟩
          cases j with
          | zero => rw [wordAddr_zero]
          | succ j => rw [← shift] at htj ⊢; have := hl j (by omega) htj; omega
      · rw [if_neg h0, Option.some.injEq] at h; subst h
        refine ⟨i + 1, by omega, by rw [← shift, hc], ht, fun j hj htj => ?_⟩
        cases j with
        | zero => rw [wordAddr_zero] at htj; exact absurd htj h0
        | succ j => rw [← shift] at htj ⊢; exact hl j (by omega) htj

theorem requireAdmitted_eq_ok {write : Bool} {a : Word} {n : Nat} {s : State} {u : Unit} :
    requireAdmitted write a n s = .ok u ↔ Admitted write a n s := by
  have h := lowestWord_eq_none (test := fun b => !admits s.cfg.memMap write b) (a := a) (n := n)
  simp only [Bool.not_eq_false'] at h
  unfold requireAdmitted Admitted
  rw [← h]
  split <;> simp_all

/-- Where an access is not admitted, the abort is at the lowest-addressed word that is not (60_exceptions.md R294, R300). -/
theorem requireAdmitted_eq_abort {write : Bool} {a : Word} {n j : Nat} {s : State} (hl : LowestRefused write a n j s) :
    requireAdmitted write a n s = .error (.fault (.dataAbort (wordAddr a j))) := by
  unfold requireAdmitted
  cases h : lowestWord (fun b => !admits s.cfg.memMap write b) a n with
  | none => have := lowestWord_eq_none.1 h j hl.place; simp [hl.refused] at this
  | some b =>
    obtain ⟨i, hi, rfl, ht, hm⟩ := lowestWord_eq_some h
    have h1 := hm j hl.place (by simp [hl.refused])
    have h2 := hl.lowest i hi (by simpa using ht)
    have e : wordAddr a i = wordAddr a j := BitVec.eq_of_toNat_eq (by omega)
    simp only [e]

theorem requireOutsideText_eq_ok {a : Word} {n : Nat} {s : State} {u : Unit} :
    requireOutsideText a n s = .ok u ↔ OutsideText a n s := by
  have h := lowestWord_eq_none (test := inText s) (a := a) (n := n)
  unfold requireOutsideText OutsideText
  rw [← h]
  split <;> simp_all

/-- A store that reaches a word of the program text is refused (20_memory.md R64). -/
theorem requireOutsideText_eq_refused {a : Word} {n j : Nat} {s : State} (hj : j < n) (ht : inText s (wordAddr a j) = true) :
    requireOutsideText a n s = .error (.refused .storeToProgramText) := by
  unfold requireOutsideText
  cases h : lowestWord (inText s) a n with
  | none => have := lowestWord_eq_none.1 h j hj; simp [ht] at this
  | some b => rfl

theorem load_eq_ok {f : Fmt} {mode : AddrMode} {d : VReg f} {k : Nat} {rn : RReg} {offset : BitVec 8} {s u : State} :
    load f mode d k rn offset s = .ok u ↔
      TransferOk f (regIndex f d) k rn s ∧ (∀ l, l < k → Writable f (regAt f (regIndex f d + l)) s) ∧
        Admitted false (startAddress mode (s.armReg rn) offset) (k * wordsOf f) s ∧
        u = (State.setRegs f s (regIndex f d)
          (loadPats f s.cfg.bigEnd (startAddress mode (s.armReg rn) offset) k s.mem)).writeBack mode rn offset := by
  simp only [load, bind_eq_ok, requireTransfer_eq_ok, requireWholes_eq_ok, requireAdmitted_eq_ok, Except.ok.injEq]
  exact ⟨fun ⟨_, h1, _, h2, _, h3, h4⟩ => ⟨h1, h2, h3, h4.symm⟩, fun ⟨h1, h2, h3, h4⟩ => ⟨(), h1, (), h2, (), h3, h4.symm⟩⟩

theorem store_eq_ok {f : Fmt} {mode : AddrMode} {d : VReg f} {k : Nat} {rn : RReg} {offset : BitVec 8} {s u : State} :
    store f mode d k rn offset s = .ok u ↔
      TransferOk f (regIndex f d) k rn s ∧ (∀ l, l < k → Readable f (regAt f (regIndex f d + l)) s) ∧
        Admitted true (startAddress mode (s.armReg rn) offset) (k * wordsOf f) s ∧
        OutsideText (startAddress mode (s.armReg rn) offset) (k * wordsOf f) s ∧
        u = (s.setMem (startAddress mode (s.armReg rn) offset) (k * wordsOf f)
          (storePats f s.cfg.bigEnd (startAddress mode (s.armReg rn) offset)
            ((List.range k).map fun l => s.rawReg f (regAt f (regIndex f d + l))) s.mem)).writeBack mode rn offset := by
  simp only [store, bind_eq_ok, requireTransfer_eq_ok, readRegs_eq_ok, requireAdmitted_eq_ok, requireOutsideText_eq_ok,
    Except.ok.injEq]
  exact ⟨fun ⟨_, h1, _, ⟨h2, e⟩, _, h3, _, h4, h5⟩ => ⟨h1, h2, h3, h4, by rw [← h5, e]⟩,
    fun ⟨h1, h2, h3, h4, h5⟩ => ⟨(), h1, _, ⟨h2, rfl⟩, (), h3, (), h4, h5.symm⟩⟩

theorem storeDoubles_eq_ok {mode : AddrMode} {d : DReg} {rn : RReg} {offset : BitVec 8} {s u : State} :
    storeDoubles mode d rn offset s = .ok u ↔
      ∃ t, store .dbl mode d (offset.toNat / 2) rn offset s = .ok t ∧
        u = t.noteImages (doublesImage s.cfg d (startAddress mode (s.armReg rn) offset)
          ((List.range (offset.toNat / 2)).map fun l => s.rawDouble (regAt .dbl (d.val + l)))) := by
  simp only [storeDoubles, bind_eq_ok, Except.ok.injEq, eq_comm (b := u)]

/-- What a load leaves. -/
theorem loaded_advance {f : Fmt} {mode : AddrMode} {d : VReg f} {vs : List (Pat f)} {rn : RReg} {offset : BitVec 8} {s : State}
    (hn : rn ≠ 15) (hl : regIndex f d + vs.length ≤ regCount f) :
    Loaded f (regIndex f d) vs rn (newBase mode (s.armReg rn) offset) s
      ((State.setRegs f s (regIndex f d) vs).writeBack mode rn offset).advance := by
  have arm : ∀ r, (State.setRegs f s (regIndex f d) vs).armReg r = s.armReg r :=
    fun r => armReg_congr (by simp) (fun _ => by simp)
  have arm' : ∀ r, r ≠ 15 → ∀ t : State, t.advance.armReg r = t.armReg r :=
    fun r hr t => armReg_congr (by simp) (fun h => absurd h hr)
  refine ⟨?_, ?_, ?_, by simp, ⟨⟨?_, ?_, ?_, by simp, by simp, by simp, by simp, by simp, by simp, by simp⟩,
    ⟨by simp, by simp, by simp⟩, by simp, by simp⟩⟩
  · intro i v h
    rw [rawReg_congr (s := State.setRegs f s (regIndex f d) vs) (by simp)]
    exact rawReg_setRegs hl h
  · intro j hj
    simp only [State.advance_tagAt, State.writeBack_tagAt]
    exact tag_setRegs_self hj
  · rw [arm' rn hn, armReg_writeBack hn, if_pos rfl, arm]
  · intro j hj
    simp only [State.advance_word, State.writeBack_word]
    exact vreg_setRegs_other hj
  · intro j hj
    simp only [State.advance_tagAt, State.writeBack_tagAt]
    exact tag_setRegs_other hj
  · intro r hr hm
    rw [arm' r hr, armReg_writeBack hn, if_neg (by simpa using hm), arm]

/-- What a store leaves. -/
theorem stored_advance {f : Fmt} {mode : AddrMode} {vs : List (Pat f)} {rn : RReg} {offset : BitVec 8} {s : State} {a : Word}
    {images : List FstmxImage} (hn : rn ≠ 15) (hw : s.mem.wf) (hl : 4 * (vs.length * wordsOf f) < 2 ^ 32) :
    Stored f a vs images rn (newBase mode (s.armReg rn) offset) s
      (((s.setMem a (vs.length * wordsOf f) (storePats f s.cfg.bigEnd a vs s.mem)).writeBack mode rn offset).noteImages
        images).advance := by
  have arm : ∀ r (n : Nat) (m : Memory), (s.setMem a n m).armReg r = s.armReg r :=
    fun r n m => armReg_congr (by simp) (fun _ => by simp)
  have note : ∀ (t : State) r, (t.noteImages images).armReg r = t.armReg r :=
    fun t r => armReg_congr (by simp) (fun _ => by simp)
  have arm' : ∀ r, r ≠ 15 → ∀ t : State, t.advance.armReg r = t.armReg r :=
    fun r hr t => armReg_congr (by simp) (fun h => absurd h hr)
  refine ⟨?_, ?_, by simp, ?_, by simp, by simp, by simp, by simp,
    ⟨by simp, by simp, ?_, by simp, by simp, by simp, by simp, by simp, by simp, by simp⟩⟩
  · simp only [State.advance_mem, State.noteImages_mem, State.writeBack_mem, State.setMem_mem]
    exact loadPats_storePats hw hl
  · intro b hb
    simp only [State.advance_mem, State.noteImages_mem, State.writeBack_mem, State.setMem_mem]
    exact readByte_storePats_other fun i hi h => hb ⟨i, hi, h⟩
  · rw [arm' rn hn, note, armReg_writeBack hn, if_pos rfl, arm]
  · intro r hr hm
    rw [arm' r hr, note, armReg_writeBack hn, if_neg (by simpa using hm), arm]

end Sys2Proof.Machine
end

