-- ==== Sys2Proof/Laws/Transfer.lean ====
section
/-! SUPPORT. What each register transfer can do: when it answers, and the state it answers. -/

namespace Sys2Proof.Machine

theorem requireNotR15_eq_ok {reason : UnpredictableReason} {r : RReg} {u : Unit} :
    requireNotR15 reason r = .ok u ↔ r ≠ 15 := by
  unfold requireNotR15; split <;> simp_all

theorem requireNoR15_eq_ok {rd rn : RReg} {u : Unit} : requireNoR15 rd rn = .ok u ↔ rn ≠ 15 ∧ rd ≠ 15 := by
  simp only [requireNoR15, bind_eq_ok, requireNotR15_eq_ok, exists_and_left, exists_const]

theorem requireDistinct_eq_ok {rd rn : RReg} {u : Unit} : requireDistinct rd rn = .ok u ↔ rn ≠ rd := by
  unfold requireDistinct; split <;> simp_all

theorem nextSingle_eq_ok {m m' : SReg} : nextSingle m = .ok m' ↔ m'.val = m.val + 1 := by
  unfold nextSingle
  split
  · simp only [Except.ok.injEq]
    exact ⟨fun h => by rw [← h], fun h => Fin.ext h.symm⟩
  · have := m'.isLt
    simp only [reduceCtorEq, false_iff]; omega

theorem singleFromArm_eq_ok {n : SReg} {rd : RReg} {s u : State} :
    singleFromArm n rd s = .ok u ↔ rd ≠ 15 ∧ Writable .sgl n s ∧ u = s.setReg .sgl n (s.armReg rd) := by
  simp only [singleFromArm, bind_eq_ok, requireNotR15_eq_ok, requireWhole_eq_ok, Except.ok.injEq, exists_and_left,
    exists_const, Writable, pairOf]
  exact ⟨fun ⟨h, h', e⟩ => ⟨h, h', e.symm⟩, fun ⟨h, h', e⟩ => ⟨h, h', e.symm⟩⟩

theorem armFromSingle_eq_ok {n : SReg} {rd : RReg} {s u : State} :
    armFromSingle rd n s = .ok u ↔ rd ≠ 15 ∧ Readable .sgl n s ∧ u = s.setArm rd (s.rawReg .sgl n) := by
  simp only [armFromSingle, bind_eq_ok, requireNotR15_eq_ok, Except.ok.injEq, exists_and_left, exists_const]
  constructor
  · rintro ⟨h, v, hv, hu⟩
    obtain ⟨hr, rfl⟩ := readReg_eq_ok.1 hv
    exact ⟨h, hr, hu.symm⟩
  · rintro ⟨h, hr, hu⟩
    exact ⟨h, _, readReg_of_readable hr, hu.symm⟩

theorem writeHalf_eq_ok {low : Bool} {n : DReg} {w : Word} {s u : State} :
    writeHalf low n w s = .ok u ↔
      ∃ p, afterHalf low (s.pairAt n) = some p ∧ u = (s.setWord (halfIndex low n) .dbl w).setPair n p := by
  unfold writeHalf
  cases afterHalf low (s.pairAt n) with
  | none => simp
  | some p => simp [@eq_comm _ u]

theorem halfFromArm_eq_ok {low : Bool} {n : DReg} {rd : RReg} {s u : State} :
    halfFromArm low n rd s = .ok u ↔
      rd ≠ 15 ∧ ∃ p, afterHalf low (s.pairAt n) = some p ∧
        u = (s.setWord (halfIndex low n) .dbl (s.armReg rd)).setPair n p := by
  simp only [halfFromArm, bind_eq_ok, requireNotR15_eq_ok, writeHalf_eq_ok, exists_and_left, exists_const]

theorem armFromHalf_eq_ok {half : DWord → Word} {n : DReg} {rd : RReg} {s u : State} :
    armFromHalf half rd n s = .ok u ↔ rd ≠ 15 ∧ Readable .dbl n s ∧ u = s.setArm rd (half (s.rawReg .dbl n)) := by
  simp only [armFromHalf, bind_eq_ok, requireNotR15_eq_ok, Except.ok.injEq, exists_and_left, exists_const]
  constructor
  · rintro ⟨h, v, hv, hu⟩
    obtain ⟨hr, rfl⟩ := readReg_eq_ok.1 hv
    exact ⟨h, hr, hu.symm⟩
  · rintro ⟨h, hr, hu⟩
    exact ⟨h, _, readReg_of_readable hr, hu.symm⟩

theorem requirePrivilege_eq_ok {i : Instr} {reg : SysReg} {s : State} {u : Unit} :
    requirePrivilege i reg s = .ok u ↔ (s.cfg.userMode = true → reg ≠ .fpsid ∧ reg ≠ .fpexc) := by
  unfold requirePrivilege
  split
  · rename_i h; simp only [reduceCtorEq, false_iff]; rintro h'; have := h' h.1; tauto
  · rename_i h; simp only [true_iff]; intro hu; constructor <;> (intro e; exact h ⟨hu, by simp [e]⟩)

/-- A sub-architecture defined register is supplied where the parameter lists its selector (60_exceptions.md R293). -/
theorem supplies_eq_true {s : State} {low : BitVec 4} : s.supplies low = true ↔ 1#1 ++ low ∈ s.cfg.subArch := by
  simp [State.supplies, SysReg.bits]

/-- FMXR answers in these cases only. -/
theorem writeSysReg_eq_ok {reg : SysReg} {w : Word} {s u : State} :
    writeSysReg reg w s = .ok u ↔
      (reg = .fpscr ∧ fpscrWriteOk w = true ∧ u = s.setFpscr w) ∨ (reg = .fpexc ∧ w = fpexcLaunch ∧ u = s) ∨
        (∃ low, reg = .subArch low ∧ s.supplies low = true ∧
          u = s.setSubArch low (Config.subArchWrite (SysReg.subArch low).bits w (s.subArchReg low))) := by
  cases reg <;> simp only [writeSysReg]
  · simp
  · split
    · rename_i h; simp [h, @eq_comm _ u]
    · rename_i h; simp [h]
  · split
    · rename_i h; simp [h, @eq_comm _ u]
    · rename_i h; simp [h]
  · split
    · rename_i h; simp [h, @eq_comm _ u]
    · rename_i h; simp [h]

theorem systemFromArm_eq_ok {i : Instr} {reg : SysReg} {rd : RReg} {s u : State} :
    systemFromArm i reg rd s = .ok u ↔
      (s.cfg.userMode = true → reg ≠ .fpsid ∧ reg ≠ .fpexc) ∧ rd ≠ 15 ∧ writeSysReg reg (s.armReg rd) s = .ok u := by
  simp only [systemFromArm, bind_eq_ok, requirePrivilege_eq_ok, requireNotR15_eq_ok, exists_and_left, exists_const]

/-- What FMRX puts in the ARM register. -/
theorem readSysReg_eq_ok {reg : SysReg} {rd : RReg} {s u : State} :
    readSysReg reg rd s = .ok u ↔
      (reg = .fpsid ∧ u = s.setArm rd s.fpsid) ∨ (reg = .fpscr ∧ u = s.setArm rd s.fpscr.word) ∨
        (reg = .fpexc ∧ u = s.setArm rd s.fpexc) ∨
        (∃ low, reg = .subArch low ∧ s.supplies low = true ∧
          u = s.setArm rd (Config.subArchRead (SysReg.subArch low).bits (s.subArchReg low))) := by
  cases reg <;> simp only [readSysReg]
  · simp [@eq_comm _ u]
  · simp [@eq_comm _ u]
  · simp [@eq_comm _ u]
  · split
    · rename_i h; simp [h, @eq_comm _ u]
    · rename_i h; simp [h]

theorem armFromSystem_eq_ok {i : Instr} {reg : SysReg} {rd : RReg} {s u : State} :
    armFromSystem i rd reg s = .ok u ↔
      (s.cfg.userMode = true → reg ≠ .fpsid ∧ reg ≠ .fpexc) ∧
        ((rd = 15 ∧ reg = .fpscr ∧ u = s.copyFlags) ∨ (rd ≠ 15 ∧ readSysReg reg rd s = .ok u)) := by
  simp only [armFromSystem, bind_eq_ok, requirePrivilege_eq_ok, exists_and_left, exists_const]
  refine and_congr Iff.rfl ?_
  split
  · rename_i h; simp [h, @eq_comm _ u]
  · rename_i h
    simp only [bind_eq_ok, requireNotR15_eq_ok, exists_and_left, exists_const]
    constructor
    · exact fun h' => .inr h'
    · rintro (⟨h1, h2, _⟩ | h')
      · exact absurd ⟨h1, h2⟩ h
      · exact h'

theorem singlesFromArm_eq_ok {m : SReg} {rd rn : RReg} {s u : State} :
    singlesFromArm m rd rn s = .ok u ↔
      rn ≠ 15 ∧ rd ≠ 15 ∧ ∃ m' : SReg, m'.val = m.val + 1 ∧ Writable .sgl m s ∧ Writable .sgl m' s ∧
        u = (s.setReg .sgl m (s.armReg (pairOrder s rd rn).1)).setReg .sgl m' (s.armReg (pairOrder s rd rn).2) := by
  simp only [singlesFromArm, bind_eq_ok, requireNoR15_eq_ok, nextSingle_eq_ok, requireWhole_eq_ok, Except.ok.injEq,
    exists_and_left, exists_const, Writable, pairOf, and_assoc]
  exact ⟨fun ⟨h, h', m', e, a, b, hu⟩ => ⟨h, h', m', e, a, b, hu.symm⟩,
    fun ⟨h, h', m', e, a, b, hu⟩ => ⟨h, h', m', e, a, b, hu.symm⟩⟩

theorem armFromSingles_eq_ok {m : SReg} {rd rn : RReg} {s u : State} :
    armFromSingles rd rn m s = .ok u ↔
      rn ≠ 15 ∧ rd ≠ 15 ∧ rn ≠ rd ∧ ∃ m' : SReg, m'.val = m.val + 1 ∧ Readable .sgl m s ∧ Readable .sgl m' s ∧
        u = (s.setArm (pairOrder s rd rn).1 (s.rawReg .sgl m)).setArm (pairOrder s rd rn).2 (s.rawReg .sgl m') := by
  simp only [armFromSingles, bind_eq_ok, requireNoR15_eq_ok, nextSingle_eq_ok, requireDistinct_eq_ok,
    Except.ok.injEq, exists_and_left, exists_const, and_assoc]
  constructor
  · rintro ⟨h, h', m', e, hd, v, hv, v', hv', hu⟩
    obtain ⟨hr, rfl⟩ := readReg_eq_ok.1 hv
    obtain ⟨hr', rfl⟩ := readReg_eq_ok.1 hv'
    exact ⟨h, h', hd, m', e, hr, hr', hu.symm⟩
  · rintro ⟨h, h', hd, m', e, hr, hr', hu⟩
    exact ⟨h, h', m', e, hd, _, readReg_of_readable hr, _, readReg_of_readable hr', hu.symm⟩

theorem doubleFromArm_eq_ok {m : DReg} {rd rn : RReg} {s u : State} :
    doubleFromArm m rd rn s = .ok u ↔
      rn ≠ 15 ∧ rd ≠ 15 ∧ Writable .dbl m s ∧ u = s.setReg .dbl m (dwordOf (s.armReg rn) (s.armReg rd)) := by
  simp only [doubleFromArm, bind_eq_ok, requireNoR15_eq_ok, requireWhole_eq_ok, Except.ok.injEq, exists_and_left,
    exists_const, Writable, pairOf, and_assoc]
  exact ⟨fun ⟨h, h', a, hu⟩ => ⟨h, h', a, hu.symm⟩, fun ⟨h, h', a, hu⟩ => ⟨h, h', a, hu.symm⟩⟩

theorem armFromDouble_eq_ok {m : DReg} {rd rn : RReg} {s u : State} :
    armFromDouble rd rn m s = .ok u ↔
      rn ≠ 15 ∧ rd ≠ 15 ∧ rn ≠ rd ∧ Readable .dbl m s ∧
        u = (s.setArm rd (loWord (s.rawReg .dbl m))).setArm rn (hiWord (s.rawReg .dbl m)) := by
  simp only [armFromDouble, bind_eq_ok, requireNoR15_eq_ok, requireDistinct_eq_ok,
    Except.ok.injEq, exists_and_left, exists_const, and_assoc]
  constructor
  · rintro ⟨h, h', hd, v, hv, hu⟩
    obtain ⟨hr, rfl⟩ := readReg_eq_ok.1 hv
    exact ⟨h, h', hd, hr, hu.symm⟩
  · rintro ⟨h, h', hd, hr, hu⟩
    exact ⟨h, h', hd, _, readReg_of_readable hr, hu.symm⟩

end Sys2Proof.Machine
end

