-- ==== Sys2Proof/Laws/Unknown.lean ====
section
/-! SUPPORT. FSTMX and FLDMX: when they answer, what they save and what they restore. -/

namespace Sys2Proof.Machine

/-- `D[m]` is one of the `k` registers from number `i` up. -/
def InList (i k : Nat) (m : DReg) : Prop := i ≤ m.val ∧ m.val < i + k

theorem inList_succ {i k : Nat} {m : DReg} (h : i + (k + 1) ≤ 16) :
    InList i (k + 1) m ↔ m = regAt .dbl i ∨ InList (i + 1) k m := by
  have e : m = regAt .dbl i ↔ m.val = i := by
    constructor
    · intro h; rw [h]; exact Nat.mod_eq_of_lt (by omega)
    · intro h'; apply Fin.ext; rw [h']; exact (Nat.mod_eq_of_lt (by omega)).symm
  rw [e]; unfold InList; omega

theorem not_inList_succ {i k : Nat} {m : DReg} (h : i + (k + 1) ≤ 16) (hm : m = regAt .dbl i) : ¬InList (i + 1) k m := by
  have : m.val = i := by rw [hm]; exact Nat.mod_eq_of_lt (by omega)
  unfold InList; omega

/-! ### Reading -/

theorem readUnknown_eq_ok {n : DReg} {s : State} {v : Pairing × DWord} :
    readUnknown n s = .ok v ↔ Storable n s ∧ v = (s.pairAt n, s.rawDouble n) := by
  unfold readUnknown Storable
  by_cases h1 : s.pairAt n ≠ .highOnly ∧ s.tagAt (loIndex n) = .none
  · rw [if_pos h1]
    exact ⟨fun h => (by cases h), fun h => absurd h1.2 (h.1.1 h1.1)⟩
  · rw [if_neg h1]
    by_cases h2 : s.pairAt n ≠ .lowOnly ∧ s.tagAt (hiIndex n) = .none
    · rw [if_pos h2]
      exact ⟨fun h => (by cases h), fun h => absurd h2.2 (h.1.2 h2.1)⟩
    · rw [if_neg h2]
      exact ⟨fun h => ⟨⟨fun a b => h1 ⟨a, b⟩, fun a b => h2 ⟨a, b⟩⟩, (Except.ok.inj h).symm⟩, fun h => by rw [h.2]⟩

theorem readUnknowns_eq_ok {k i : Nat} {s : State} {vs : List (Pairing × DWord)} :
    readUnknowns i k s = .ok vs ↔
      (∀ l, l < k → Storable (regAt .dbl (i + l)) s) ∧
        vs = (List.range k).map fun l => ((s.pairAt (regAt .dbl (i + l))), s.rawDouble (regAt .dbl (i + l))) := by
  induction k generalizing i vs with
  | zero => simp [readUnknowns, eq_comm]
  | succ k ih =>
    simp only [readUnknowns, bind_eq_ok, readUnknown_eq_ok, ih, List.range_succ_eq_map, List.map_cons, List.map_map,
      Except.ok.injEq]
    constructor
    · rintro ⟨_, ⟨h, rfl⟩, _, ⟨h', rfl⟩, rfl⟩
      refine ⟨fun l hl => ?_, ?_⟩
      · cases l with
        | zero => exact h
        | succ l => have := h' l (by omega); rwa [Nat.add_assoc, Nat.add_comm 1 l] at this
      · refine congrArg₂ _ rfl (List.map_congr_left fun l _ => ?_)
        simp only [Function.comp_apply, Nat.succ_eq_add_one, Nat.add_assoc, Nat.add_comm 1 l]
    · rintro ⟨h, rfl⟩
      refine ⟨_, ⟨h 0 (by omega), rfl⟩, _, ⟨fun l hl => ?_, rfl⟩, ?_⟩
      · have := h (l + 1) (by omega); rwa [Nat.add_assoc, Nat.add_comm 1 l]
      · refine congrArg₂ _ rfl (List.map_congr_left fun l _ => ?_)
        simp only [Function.comp_apply, Nat.succ_eq_add_one, Nat.add_assoc, Nat.add_comm 1 l]

/-- What FSTMX reads of the `k` registers from `d` up. -/
def savedOf (s : State) (d : DReg) (k : Nat) : List (Pairing × DWord) :=
  (List.range k).map fun l => ((s.pairAt (regAt .dbl (d.val + l))), s.rawDouble (regAt .dbl (d.val + l)))

@[simp] theorem savedOf_length (s : State) (d : DReg) (k : Nat) : (savedOf s d k).length = k := by simp [savedOf]

theorem storeUnknown_eq_ok {mode : AddrMode} {d : DReg} {rn : RReg} {offset : BitVec 8} {s u : State} :
    storeUnknown mode d rn offset s = .ok u ↔
      TransferOk .dbl d.val (unknownCount offset) rn s ∧
        (∀ l, l < unknownCount offset → Storable (regAt .dbl (d.val + l)) s) ∧
        Admitted true (startAddress mode (s.armReg rn) offset) (2 * unknownCount offset + 1) s ∧
        OutsideText (startAddress mode (s.armReg rn) offset) (imageSize s.cfg (unknownCount offset)) s ∧
        u = (s.afterFstmx d (startAddress mode (s.armReg rn) offset) (savedOf s d (unknownCount offset))).writeBack
          mode rn offset := by
  simp only [storeUnknown, bind_eq_ok, requireTransfer_eq_ok, readUnknowns_eq_ok, requireAdmitted_eq_ok,
    requireOutsideText_eq_ok, Except.ok.injEq]
  exact ⟨fun ⟨_, h1, _, ⟨h2, e⟩, _, h3, _, h4, h5⟩ => ⟨h1, h2, h3, h4, by rw [← h5, e]; rfl⟩,
    fun ⟨h1, h2, h3, h4, h5⟩ => ⟨(), h1, _, ⟨h2, rfl⟩, (), h3, (), h4, h5.symm⟩⟩

theorem unknownSource_eq_ok {s : State} {d : DReg} {k : Nat} {start : Word} {image : FstmxImage} :
    unknownSource s d k start = .ok image ↔ matchingImage s d k start = some image := by
  unfold unknownSource; split <;> simp_all

/-- The image that matches was recorded, with the start, the first register and the number of registers asked for. -/
theorem matchingImage_eq_some {s : State} {d : DReg} {k : Nat} {start : Word} {image : FstmxImage}
    (h : matchingImage s d k start = some image) :
    image ∈ s.images ∧ image.start = start ∧ image.first = d ∧ image.pairs.length = k := by
  have hp := List.find?_some h
  simp only [Bool.and_eq_true, beq_iff_eq] at hp
  exact ⟨List.mem_of_find?_eq_some h, hp.1.1, hp.1.2, hp.2⟩

theorem loadUnknown_eq_ok {mode : AddrMode} {d : DReg} {rn : RReg} {offset : BitVec 8} {s u : State} :
    loadUnknown mode d rn offset s = .ok u ↔
      TransferOk .dbl d.val (unknownCount offset) rn s ∧
        Admitted false (startAddress mode (s.armReg rn) offset) (2 * unknownCount offset + 1) s ∧
        ∃ image, matchingImage s d (unknownCount offset) (startAddress mode (s.armReg rn) offset) = some image ∧
          u = (State.restoreRegs s d.val image.words image.pairs).writeBack mode rn offset := by
  simp only [loadUnknown, bind_eq_ok, requireTransfer_eq_ok, requireAdmitted_eq_ok, unknownSource_eq_ok, Except.ok.injEq]
  exact ⟨fun ⟨_, h1, _, h2, i, h3, h4⟩ => ⟨h1, h2, i, h3, h4.symm⟩, fun ⟨h1, h2, i, h3, h4⟩ => ⟨(), h1, (), h2, i, h3, h4.symm⟩⟩

/-! ### Releasing half-written registers -/

theorem pair_releaseHalf (s : State) (n m : DReg) :
    (s.releaseHalf n).pairAt m = if m = n then .whole else s.pairAt m := by
  by_cases h : s.pairAt n = .whole
  · rw [State.releaseHalf, if_pos h]
    split
    · rename_i e; rw [e, h]
    · rfl
  · rw [State.releaseHalf, if_neg h]
    exact vector_set_eq _ _ _ _

theorem tag_releaseHalf (s : State) (n : DReg) (j : SReg) :
    (s.releaseHalf n).tagAt j = if doubleOf j = n ∧ s.pairAt n ≠ .whole then .none else s.tagAt j := by
  by_cases h : s.pairAt n = .whole
  · rw [State.releaseHalf, if_pos h, if_neg (fun e => e.2 h)]
  · have hr : (s.releaseHalf n).tagAt j = if j = hiIndex n then .none else if j = loIndex n then .none else s.tagAt j := by
      rw [State.releaseHalf, if_neg h]
      show ((s.tag.set (loIndex n) .none).set (hiIndex n) .none)[j] = _
      rw [vector_set_eq, vector_set_eq]; rfl
    rw [hr]
    by_cases e : doubleOf j = n
    · rw [if_pos (⟨e, h⟩ : doubleOf j = n ∧ s.pairAt n ≠ .whole)]
      rcases index_cases j with hj | hj <;> rw [e] at hj
      · by_cases hj' : j = hiIndex n
        · rw [if_pos hj']
        · rw [if_neg hj', if_pos hj]
      · rw [if_pos hj]
    · rw [if_neg (fun h' => e (by rw [h']; simp)), if_neg (fun h' => e (by rw [h']; simp)),
        if_neg (fun h' : doubleOf j = n ∧ s.pairAt n ≠ .whole => e h'.1)]

theorem pair_releaseHalves {s : State} {i k : Nat} {m : DReg} (h : i + k ≤ 16) :
    ((s.releaseHalves i k).pairAt m = .whole ∧ InList i k m) ∨ ((s.releaseHalves i k).pairAt m = s.pairAt m ∧ ¬InList i k m) := by
  induction k generalizing s i with
  | zero => exact .inr ⟨rfl, by unfold InList; omega⟩
  | succ k ih =>
    rw [State.releaseHalves, inList_succ h]
    rcases ih (s := s.releaseHalf (regAt .dbl i)) (i := i + 1) (by omega) with ⟨e, hm⟩ | ⟨e, hm⟩
    · exact .inl ⟨e, .inr hm⟩
    · rw [pair_releaseHalf] at e
      by_cases hm' : m = regAt .dbl i
      · rw [if_pos hm'] at e; exact .inl ⟨e, .inl hm'⟩
      · rw [if_neg hm'] at e; exact .inr ⟨e, fun h => h.elim hm' hm⟩

/-- A listed register that was half-written has no value; every other tag is as it was. -/
theorem tag_releaseHalves {s : State} {i k : Nat} {j : SReg} (h : i + k ≤ 16) :
    ((s.releaseHalves i k).tagAt j = .none ∧ InList i k (doubleOf j) ∧ s.pairAt (doubleOf j) ≠ .whole) ∨
      ((s.releaseHalves i k).tagAt j = s.tagAt j ∧ (InList i k (doubleOf j) → s.pairAt (doubleOf j) = .whole)) := by
  induction k generalizing s i with
  | zero => exact .inr ⟨rfl, fun h => by unfold InList at h; omega⟩
  | succ k ih =>
    rw [State.releaseHalves, inList_succ h]
    have hp := pair_releaseHalf s (regAt .dbl i) (doubleOf j)
    have ht := tag_releaseHalf s (regAt .dbl i) j
    by_cases hm : doubleOf j = regAt .dbl i
    · rw [if_pos hm] at hp
      rcases ih (s := s.releaseHalf (regAt .dbl i)) (i := i + 1) (by omega) with ⟨_, _, h'⟩ | ⟨e, _⟩
      · exact absurd hp h'
      · rw [e, ht]
        by_cases hw : s.pairAt (doubleOf j) = .whole
        · rw [if_neg (fun h' => h'.2 (by rw [← hm]; exact hw))]
          exact .inr ⟨rfl, fun _ => hw⟩
        · rw [if_pos ⟨hm, by rw [← hm]; exact hw⟩]
          exact .inl ⟨rfl, .inl hm, hw⟩
    · rw [if_neg hm] at hp
      rw [if_neg (fun h' => hm h'.1)] at ht
      rcases ih (s := s.releaseHalf (regAt .dbl i)) (i := i + 1) (by omega) with ⟨e, hl, h'⟩ | ⟨e, h'⟩
      · exact .inl ⟨e, .inr hl, by rwa [hp] at h'⟩
      · rw [hp] at h'
        exact .inr ⟨by rw [e, ht], fun h => h.elim (fun e => absurd e hm) h'⟩

/-! ### Restoring -/

theorem imageWords_length (vs : List DWord) : (imageWords vs).length = 2 * vs.length := by
  induction vs with
  | nil => rfl
  | cons v vs ih => simp only [imageWords, List.length_cons, ih]; omega

/-- The tags that FLDMX gives a register whose image recorded the pairing state (R325). -/
def restoredTag (j : SReg) (p : Pairing) : Tag :=
  if (p = .highOnly ∧ j = loIndex (doubleOf j)) ∨ (p = .lowOnly ∧ j = hiIndex (doubleOf j)) then .none else .any

theorem tag_restoreReg (s : State) (n : DReg) (p : Pairing) (lo hi : Word) (j : SReg) :
    (s.restoreReg n p lo hi).tagAt j = if doubleOf j = n then restoredTag j p else (s.tagAt j) := by
  simp only [State.restoreReg, State.setPair_tagAt, State.setWords_tagAt, restoredTag]
  by_cases e : doubleOf j = n
  · rw [if_pos e]
    subst e
    rcases index_cases j with hj | hj
    · have ne : j ≠ hiIndex (doubleOf j) := fun h => loIndex_ne_hiIndex _ _ (hj.symm.trans h)
      rw [if_neg ne, if_pos hj]
      by_cases hp : p = .highOnly
      · rw [if_pos hp, if_pos (.inl ⟨hp, hj⟩)]
      · rw [if_neg hp, if_neg (fun h => h.elim (fun h => hp h.1) (fun h => ne h.2))]
    · have ne : j ≠ loIndex (doubleOf j) := fun h => loIndex_ne_hiIndex _ _ (h.symm.trans hj)
      rw [if_pos hj]
      by_cases hp : p = .lowOnly
      · rw [if_pos hp, if_pos (.inr ⟨hp, hj⟩)]
      · rw [if_neg hp, if_neg (fun h => h.elim (fun h => ne h.2) (fun h => hp h.1))]
  · rw [if_neg e, if_neg (fun h' => e (by rw [h']; simp)), if_neg (fun h' => e (by rw [h']; simp))]

/-- A restored list: each register holds its saved bits and pairing state, every other register is as it was. -/
theorem restoreRegs_spec {vs : List (Pairing × DWord)} {s : State} {i : Nat} (h : i + vs.length ≤ 16) :
    let t := s.restoreRegs i (imageWords (vs.map Prod.snd)) (vs.map Prod.fst)
    (∀ l p v, vs[l]? = some (p, v) →
      t.rawDouble (regAt .dbl (i + l)) = v ∧ t.pairAt (regAt .dbl (i + l)) = p ∧
        ∀ j, doubleOf j = regAt .dbl (i + l) → t.tagAt j = restoredTag j p) ∧
    (∀ j, ¬InList i vs.length (doubleOf j) → t.word j = s.word j ∧ t.tagAt j = s.tagAt j) ∧
    (∀ m, ¬InList i vs.length m → t.pairAt m = s.pairAt m) := by
  induction vs generalizing s i with
  | nil => exact ⟨by simp, fun _ _ => ⟨rfl, rfl⟩, fun _ _ => rfl⟩
  | cons x vs ih =>
    obtain ⟨p, v⟩ := x
    rw [List.length_cons] at h
    simp only [List.map_cons, imageWords, State.restoreRegs]
    obtain ⟨h1, h2, h3⟩ := ih (s := s.restoreReg (regAt .dbl i) p (loWord v) (hiWord v)) (i := i + 1) (by omega)
    refine ⟨fun l q w hl => ?_, fun j hj => ?_, fun m hm => ?_⟩
    · cases l with
      | zero =>
        simp only [List.getElem?_cons_zero, Option.some.injEq, Prod.mk.injEq] at hl
        obtain ⟨rfl, rfl⟩ := hl
        have hn : ¬InList (i + 1) vs.length (regAt .dbl i) := not_inList_succ h rfl
        have lo := (h2 (loIndex (regAt .dbl i)) (by rwa [doubleOf_loIndex])).1
        have hi := (h2 (hiIndex (regAt .dbl i)) (by rwa [doubleOf_hiIndex])).1
        have z : i + 0 = i := Nat.add_zero i
        rw [z]
        refine ⟨?_, ?_, fun j hj => ?_⟩
        · rw [State.rawDouble, lo, hi]
          simp only [State.restoreReg, State.setPair_word, State.setWords_word, if_true, if_neg (loIndex_ne_hiIndex _ _)]
          exact dwordOf_hiWord_loWord v
        · rw [h3 _ hn, State.restoreReg, State.setPair_pairAt, if_pos rfl]
        · rw [(h2 j (by rwa [hj])).2, tag_restoreReg, if_pos hj]
      | succ l =>
        rw [List.getElem?_cons_succ] at hl
        have := h1 l q w hl
        rwa [Nat.add_assoc, Nat.add_comm 1 l] at this
    · rw [List.length_cons, inList_succ h, not_or] at hj
      obtain ⟨a, b⟩ := h2 j hj.2
      refine ⟨?_, ?_⟩
      · rw [a]
        simp only [State.restoreReg, State.setPair_word, State.setWords_word]
        rw [if_neg (fun e => hj.1 (by rw [e]; simp)), if_neg (fun e => hj.1 (by rw [e]; simp))]
      · rw [b, tag_restoreReg, if_neg hj.1]
    · rw [List.length_cons, inList_succ h, not_or] at hm
      rw [h3 m hm.2, State.restoreReg, State.setPair_pairAt, if_neg hm.1, State.setWords_pairAt]

end Sys2Proof.Machine
end

