-- ==== Sys2Proof/Laws/Exec.lean ====
section
/-! SUPPORT. Everything a step of an instruction can do, said once: the kinds of next state, with what is known when an
instruction answers each. -/

namespace Sys2Proof.Machine

/-- The states that the body of an instruction answers, before the program counter advances. -/
inductive Effect (i : Instr) (s : State) : State → Prop
  /-- A result delivered (40_basic_arith.md R121). -/
  | result {f : Fmt} {d : VReg f} {r : FpResult f} (hc : i.cls = .basic ∨ i.cls = .multiplyAccumulate ∨ i.cls = .convert)
      (hl : i.cls = .convert ∨ Scalar s) (hd : Writable f d s) (ht : trapped s.fpscr.enables r.exc = none) :
      Effect i s ((s.accrue r.exc).setReg f d r.val)
  /-- A copy (44_copy.md R200). -/
  | copied {f : Fmt} {d : VReg f} {v : Pat f} (hc : i.cls = .copy) (hl : Scalar s) (hd : Writable f d s) :
      Effect i s (s.setReg f d v)
  /-- A comparison (42_compare.md R152). -/
  | compared {r : CompareResult} (hc : i.cls = .compare) (ht : trapped s.fpscr.enables r.exc = none) :
      Effect i s ((s.accrue r.exc).setFpscrFlags r.relation)
  /-- A load (45_load_store.md R218). -/
  | loaded {T : Transfer} (hc : i.cls = .load) (hi : i.transfer = some T) (ho : TransferOk T.format T.first T.k T.rn s)
      (hw : ∀ l, l < T.k → Writable T.format (regAt T.format (T.first + l)) s) :
      Effect i s ((State.setRegs T.format s T.first
        (loadPats T.format s.cfg.bigEnd (startAddress T.mode (s.armReg T.rn) T.offset) T.k s.mem)).writeBack
          T.mode T.rn T.offset)
  /-- A store (R218). -/
  | stored {T : Transfer} {vs : List (Pat T.format)} (hc : i.cls = .store) (hi : i.transfer = some T)
      (ho : TransferOk T.format T.first T.k T.rn s) (hv : vs.length = T.k) :
      Effect i s ((s.setMem (startAddress T.mode (s.armReg T.rn) T.offset) (T.k * wordsOf T.format)
        (storePats T.format s.cfg.bigEnd (startAddress T.mode (s.armReg T.rn) T.offset) vs s.mem)).writeBack
          T.mode T.rn T.offset)
  /-- FSTMD, and the image it may leave (R227, R236). -/
  | storedDoubles {T : Transfer} {d : DReg} {vs : List DWord} (hc : i.cls = .store) (hi : i.transfer = some T)
      (hf : T.format = .dbl) (hd : T.first = d.val) (ho : TransferOk .dbl d.val T.k T.rn s) (hv : vs.length = T.k) :
      Effect i s (((s.setMem (startAddress T.mode (s.armReg T.rn) T.offset) (T.k * wordsOf .dbl)
        (storePats .dbl s.cfg.bigEnd (startAddress T.mode (s.armReg T.rn) T.offset) vs s.mem)).writeBack
          T.mode T.rn T.offset).noteImages (doublesImage s.cfg d (startAddress T.mode (s.armReg T.rn) T.offset) vs))
  /-- FSTMX (R229, R236). -/
  | saved {mode : AddrMode} {d : DReg} {rn : RReg} {offset : BitVec 8} (hc : i.cls = .store) (hx : i.isUnknownPrecision)
      (hi : i.unknownTransfer = some ⟨.dbl, mode, d.val, unknownCount offset, rn, offset⟩)
      (ho : TransferOk .dbl d.val (unknownCount offset) rn s)
      (hs : ∀ l, l < unknownCount offset → Storable (regAt .dbl (d.val + l)) s) :
      Effect i s ((s.afterFstmx d (startAddress mode (s.armReg rn) offset)
        (savedOf s d (unknownCount offset))).writeBack mode rn offset)
  /-- FLDMX (R228, R236). -/
  | restored {mode : AddrMode} {d : DReg} {rn : RReg} {offset : BitVec 8} {image : FstmxImage}
      (hc : i.cls = .load) (hx : i.isUnknownPrecision)
      (hi : i.unknownTransfer = some ⟨.dbl, mode, d.val, unknownCount offset, rn, offset⟩)
      (ho : TransferOk .dbl d.val (unknownCount offset) rn s)
      (hm : matchingImage s d (unknownCount offset) (startAddress mode (s.armReg rn) offset) = some image) :
      Effect i s ((State.restoreRegs s d.val image.words image.pairs).writeBack mode rn offset)
  /-- A transfer to a VFP register (46_single_transfer.md R252, 47_two_reg_transfer.md R279). -/
  | register {f : Fmt} {d : VReg f} {v : Pat f} (hc : i.cls = .singleTransfer ∨ i.cls = .twoRegisterTransfer)
      (hd : Writable f d s) : Effect i s (s.setReg f d v)
  /-- FMSRR (47_two_reg_transfer.md R277). -/
  | registers {m m' : SReg} {v v' : Word} (hc : i.cls = .twoRegisterTransfer) (hm : Writable .sgl m s)
      (hm' : Writable .sgl m' s) : Effect i s ((s.setReg .sgl m v).setReg .sgl m' v')
  /-- FMDLR or FMDHR (46_single_transfer.md R254, R256). -/
  | half {low : Bool} {n : DReg} {w : Word} {p : Pairing} (hc : i.cls = .singleTransfer) (hd : s.cfg.hasDouble = true)
      (hp : afterHalf low (s.pairAt n) = some p) : Effect i s ((s.setWord (halfIndex low n) .dbl w).setPair n p)
  /-- A transfer to one ARM register (46_single_transfer.md R253, R255, R257, R259). -/
  | arm {r : RReg} {v : Word} (hc : i.cls = .singleTransfer) (hr : r ≠ 15) : Effect i s (s.setArm r v)
  /-- A transfer to two ARM registers (47_two_reg_transfer.md R278, R280). -/
  | arms {r q : RReg} {v w : Word} (hc : i.cls = .twoRegisterTransfer) (hr : r ≠ 15) (hq : q ≠ 15) :
      Effect i s ((s.setArm r v).setArm q w)
  /-- FMXR to the FPSCR (46_single_transfer.md R261). -/
  | fpscr {w : Word} (hc : i.cls = .singleTransfer) (hi : i.writesFpscr) (hw : fpscrWriteOk w = true) : Effect i s (s.setFpscr w)
  /-- FMXR to FPEXC of the value it holds (R261). -/
  | same (hc : i.cls = .singleTransfer) : Effect i s s
  /-- FMXR to a sub-architecture defined register (60_exceptions.md R293). -/
  | subArch {low : BitVec 4} {v : Word} (hc : i.cls = .singleTransfer) (hs : s.supplies low = true) :
      Effect i s (s.setSubArch low v)
  /-- FMSTAT, or the term of FMRX that is no instruction's reading (46_single_transfer.md R260). -/
  | flags (hc : i.cls = .singleTransfer) (hi : i.isFmstat ∨ i.wellFormed = false) : Effect i s s.copyFlags


/-- What an instruction's step is, from what its body can answer. -/
theorem instruction_effect {c : Cond} {i : Instr} {double : Bool} {body : State → Except Stop State} {s t : State}
    (hb : ∀ u, body s = .ok u → (double = true → s.cfg.hasDouble = true) → Effect i s u)
    (h : instruction c i double body s = .next t) :
    (conditionPassed c s.cpsr = false ∧ t = s.advance) ∨
      (conditionPassed c s.cpsr = true ∧ ∃ u, Effect i s u ∧ t = u.advance) := by
  rcases instruction_eq_next.1 h with h' | ⟨hr, u, hu, rfl⟩
  · exact .inl h'
  · exact .inr ⟨hr.1, u, hb u hu hr.2, rfl⟩


theorem effect_binary {i : Instr} {f : Fmt} {op : FpEnv → Pat f → Pat f → FpResult f} {d n m : VReg f} {s u : State}
    (hc : i.cls = .basic) (h : scalarOnly (binary f op d n m) s = .ok u) : Effect i s u := by
  obtain ⟨hl, h⟩ := scalarOnly_eq_ok.1 h
  obtain ⟨_, _, h⟩ := binary_eq_ok.1 h
  obtain ⟨hd, ht, rfl⟩ := deliver_eq_ok.1 h
  exact .result (.inl hc) (.inr hl) hd ht

theorem effect_unary {i : Instr} {g f : Fmt} {op : FpEnv → Pat g → FpResult f} {d : VReg f} {m : VReg g} {s u : State}
    (hc : i.cls = .convert) (h : unary g f op d m s = .ok u) : Effect i s u := by
  obtain ⟨_, h⟩ := unary_eq_ok.1 h
  obtain ⟨hd, ht, rfl⟩ := deliver_eq_ok.1 h
  exact .result (.inr (.inr hc)) (.inl hc) hd ht

theorem effect_root {i : Instr} {g f : Fmt} {op : FpEnv → Pat g → FpResult f} {d : VReg f} {m : VReg g} {s u : State}
    (hc : i.cls = .basic) (h : scalarOnly (unary g f op d m) s = .ok u) : Effect i s u := by
  obtain ⟨hl, h⟩ := scalarOnly_eq_ok.1 h
  obtain ⟨_, h⟩ := unary_eq_ok.1 h
  obtain ⟨hd, ht, rfl⟩ := deliver_eq_ok.1 h
  exact .result (.inl hc) (.inr hl) hd ht

theorem effect_mac {i : Instr} {f : Fmt} {np na : Bool} {d n m : VReg f} {s u : State}
    (hc : i.cls = .multiplyAccumulate) (h : scalarOnly (multiplyAccumulate f np na d n m) s = .ok u) : Effect i s u := by
  obtain ⟨hl, h⟩ := scalarOnly_eq_ok.1 h
  obtain ⟨_, _, _, h⟩ := multiplyAccumulate_eq_ok.1 h
  obtain ⟨hd, ht, rfl⟩ := deliver_eq_ok.1 h
  exact .result (.inr (.inl hc)) (.inr hl) hd ht

theorem effect_copy {i : Instr} {f : Fmt} {g : Pat f → Pat f} {d m : VReg f} {s u : State}
    (hc : i.cls = .copy) (h : scalarOnly (copyReg f g d m) s = .ok u) : Effect i s u := by
  obtain ⟨hl, h⟩ := scalarOnly_eq_ok.1 h
  obtain ⟨_, hd, rfl⟩ := copyReg_eq_ok.1 h
  exact .copied hc hl hd

theorem effect_compare {i : Instr} {f : Fmt} {e : Bool} {d m : VReg f} {s u : State}
    (hc : i.cls = .compare) (h : compareRegs f e d m s = .ok u) : Effect i s u := by
  obtain ⟨_, _, h⟩ := compareRegs_eq_ok.1 h
  obtain ⟨ht, rfl⟩ := deliverFlags_eq_ok.1 h
  exact .compared hc ht

theorem effect_compareZero {i : Instr} {f : Fmt} {e : Bool} {d : VReg f} {s u : State}
    (hc : i.cls = .compare) (h : compareWithZero f e d s = .ok u) : Effect i s u := by
  obtain ⟨_, h⟩ := compareWithZero_eq_ok.1 h
  obtain ⟨ht, rfl⟩ := deliverFlags_eq_ok.1 h
  exact .compared hc ht

theorem effect_load {i : Instr} {f : Fmt} {mode : AddrMode} {d : VReg f} {k : Nat} {rn : RReg} {offset : BitVec 8}
    {s u : State} (hc : i.cls = .load) (hi : i.transfer = some ⟨f, mode, regIndex f d, k, rn, offset⟩)
    (h : load f mode d k rn offset s = .ok u) : Effect i s u := by
  obtain ⟨ho, hw, _, rfl⟩ := load_eq_ok.1 h
  exact .loaded (T := ⟨f, mode, regIndex f d, k, rn, offset⟩) hc hi ho hw

theorem effect_store {i : Instr} {f : Fmt} {mode : AddrMode} {d : VReg f} {k : Nat} {rn : RReg} {offset : BitVec 8}
    {s u : State} (hc : i.cls = .store) (hi : i.transfer = some ⟨f, mode, regIndex f d, k, rn, offset⟩)
    (h : store f mode d k rn offset s = .ok u) : Effect i s u := by
  obtain ⟨ho, _, _, _, rfl⟩ := store_eq_ok.1 h
  exact .stored (T := ⟨f, mode, regIndex f d, k, rn, offset⟩) hc hi ho (by simp)

theorem effect_storeDoubles {i : Instr} {mode : AddrMode} {d : DReg} {rn : RReg} {offset : BitVec 8} {s u : State}
    (hc : i.cls = .store) (hi : i.transfer = some ⟨.dbl, mode, d.val, offset.toNat / 2, rn, offset⟩)
    (h : storeDoubles mode d rn offset s = .ok u) : Effect i s u := by
  obtain ⟨_, h', rfl⟩ := storeDoubles_eq_ok.1 h
  obtain ⟨ho, _, _, _, rfl⟩ := store_eq_ok.1 h'
  exact .storedDoubles (T := ⟨.dbl, mode, d.val, offset.toNat / 2, rn, offset⟩) hc hi rfl rfl ho (by simp)

theorem effect_fmxr {i : Instr} {reg : SysReg} {rd : RReg} {s u : State} (hc : i.cls = .singleTransfer)
    (hi : reg = .fpscr → i.writesFpscr) (h : systemFromArm i reg rd s = .ok u) : Effect i s u := by
  obtain ⟨_, _, h⟩ := systemFromArm_eq_ok.1 h
  rcases writeSysReg_eq_ok.1 h with ⟨e, hw, rfl⟩ | ⟨_, _, rfl⟩ | ⟨_, _, hs, rfl⟩
  · exact .fpscr hc (hi e) hw
  · exact .same hc
  · exact .subArch hc hs

theorem effect_fmrx {i : Instr} {reg : SysReg} {rd : RReg} {s u : State} (hc : i.cls = .singleTransfer)
    (hi : rd = 15 → reg = .fpscr → i.wellFormed = false) (h : armFromSystem i rd reg s = .ok u) : Effect i s u := by
  obtain ⟨_, ⟨h1, h2, rfl⟩ | ⟨hr, h⟩⟩ := armFromSystem_eq_ok.1 h
  · exact .flags hc (.inr (hi h1 h2))
  · rcases readSysReg_eq_ok.1 h with ⟨_, rfl⟩ | ⟨_, rfl⟩ | ⟨_, rfl⟩ | ⟨_, _, _, rfl⟩
    · exact .arm hc hr
    · exact .arm hc hr
    · exact .arm hc hr
    · exact .arm hc hr

theorem pairOrder_ne {s : State} {rd rn : RReg} (h : rn ≠ 15) (h' : rd ≠ 15) :
    (pairOrder s rd rn).1 ≠ 15 ∧ (pairOrder s rd rn).2 ≠ 15 := by
  unfold pairOrder; split <;> simp_all


/-- An instruction that answers a next state fails its condition, or has one of the effects. -/
theorem exec_effect {i : Instr} {s t : State} (h : exec i s = .next t) :
    (conditionPassed i.cond s.cpsr = false ∧ t = s.advance) ∨
      (conditionPassed i.cond s.cpsr = true ∧ ∃ u, Effect i s u ∧ t = u.advance) := by
  cases i with
  | fmacs c d n m => exact instruction_effect (body := _) (fun _ h _ => effect_mac rfl h) h
  | fmacd c d n m => exact instruction_effect (body := _) (fun _ h _ => effect_mac rfl h) h
  | fnmacs c d n m => exact instruction_effect (body := _) (fun _ h _ => effect_mac rfl h) h
  | fnmacd c d n m => exact instruction_effect (body := _) (fun _ h _ => effect_mac rfl h) h
  | fmscs c d n m => exact instruction_effect (body := _) (fun _ h _ => effect_mac rfl h) h
  | fmscd c d n m => exact instruction_effect (body := _) (fun _ h _ => effect_mac rfl h) h
  | fnmscs c d n m => exact instruction_effect (body := _) (fun _ h _ => effect_mac rfl h) h
  | fnmscd c d n m => exact instruction_effect (body := _) (fun _ h _ => effect_mac rfl h) h
  | fmuls c d n m => exact instruction_effect (body := _) (fun _ h _ => effect_binary rfl h) h
  | fmuld c d n m => exact instruction_effect (body := _) (fun _ h _ => effect_binary rfl h) h
  | fnmuls c d n m => exact instruction_effect (body := _) (fun _ h _ => effect_binary rfl h) h
  | fnmuld c d n m => exact instruction_effect (body := _) (fun _ h _ => effect_binary rfl h) h
  | fadds c d n m => exact instruction_effect (body := _) (fun _ h _ => effect_binary rfl h) h
  | faddd c d n m => exact instruction_effect (body := _) (fun _ h _ => effect_binary rfl h) h
  | fsubs c d n m => exact instruction_effect (body := _) (fun _ h _ => effect_binary rfl h) h
  | fsubd c d n m => exact instruction_effect (body := _) (fun _ h _ => effect_binary rfl h) h
  | fdivs c d n m => exact instruction_effect (body := _) (fun _ h _ => effect_binary rfl h) h
  | fdivd c d n m => exact instruction_effect (body := _) (fun _ h _ => effect_binary rfl h) h
  | fcpys c d m => exact instruction_effect (body := _) (fun _ h _ => effect_copy rfl h) h
  | fcpyd c d m => exact instruction_effect (body := _) (fun _ h _ => effect_copy rfl h) h
  | fabss c d m => exact instruction_effect (body := _) (fun _ h _ => effect_copy rfl h) h
  | fabsd c d m => exact instruction_effect (body := _) (fun _ h _ => effect_copy rfl h) h
  | fnegs c d m => exact instruction_effect (body := _) (fun _ h _ => effect_copy rfl h) h
  | fnegd c d m => exact instruction_effect (body := _) (fun _ h _ => effect_copy rfl h) h
  | fsqrts c d m => exact instruction_effect (body := _) (fun _ h _ => effect_root rfl h) h
  | fsqrtd c d m => exact instruction_effect (body := _) (fun _ h _ => effect_root rfl h) h
  | fcmps c d m => exact instruction_effect (body := _) (fun _ h _ => effect_compare rfl h) h
  | fcmpd c d m => exact instruction_effect (body := _) (fun _ h _ => effect_compare rfl h) h
  | fcmpes c d m => exact instruction_effect (body := _) (fun _ h _ => effect_compare rfl h) h
  | fcmped c d m => exact instruction_effect (body := _) (fun _ h _ => effect_compare rfl h) h
  | fcmpzs c d => exact instruction_effect (body := _) (fun _ h _ => effect_compareZero rfl h) h
  | fcmpzd c d => exact instruction_effect (body := _) (fun _ h _ => effect_compareZero rfl h) h
  | fcmpezs c d => exact instruction_effect (body := _) (fun _ h _ => effect_compareZero rfl h) h
  | fcmpezd c d => exact instruction_effect (body := _) (fun _ h _ => effect_compareZero rfl h) h
  | fcvtds c d m => exact instruction_effect (body := _) (fun _ h _ => effect_unary rfl h) h
  | fcvtsd c d m => exact instruction_effect (body := _) (fun _ h _ => effect_unary rfl h) h
  | fuitos c d m => exact instruction_effect (body := _) (fun _ h _ => effect_unary rfl h) h
  | fuitod c d m => exact instruction_effect (body := _) (fun _ h _ => effect_unary rfl h) h
  | fsitos c d m => exact instruction_effect (body := _) (fun _ h _ => effect_unary rfl h) h
  | fsitod c d m => exact instruction_effect (body := _) (fun _ h _ => effect_unary rfl h) h
  | ftouis c d m => exact instruction_effect (body := _) (fun _ h _ => effect_unary rfl h) h
  | ftouid c d m => exact instruction_effect (body := _) (fun _ h _ => effect_unary rfl h) h
  | ftouizs c d m => exact instruction_effect (body := _) (fun _ h _ => effect_unary rfl h) h
  | ftouizd c d m => exact instruction_effect (body := _) (fun _ h _ => effect_unary rfl h) h
  | ftosis c d m => exact instruction_effect (body := _) (fun _ h _ => effect_unary rfl h) h
  | ftosid c d m => exact instruction_effect (body := _) (fun _ h _ => effect_unary rfl h) h
  | ftosizs c d m => exact instruction_effect (body := _) (fun _ h _ => effect_unary rfl h) h
  | ftosizd c d m => exact instruction_effect (body := _) (fun _ h _ => effect_unary rfl h) h
  | flds c up d rn offset => exact instruction_effect (body := _) (fun _ h _ => effect_load rfl rfl h) h
  | fsts c up d rn offset => exact instruction_effect (body := _) (fun _ h _ => effect_store rfl rfl h) h
  | fldd c up d rn offset => exact instruction_effect (body := _) (fun _ h _ => effect_load rfl rfl h) h
  | fstd c up d rn offset => exact instruction_effect (body := _) (fun _ h _ => effect_store rfl rfl h) h
  | fldmsUnindexed c d rn offset => exact instruction_effect (body := _) (fun _ h _ => effect_load rfl rfl h) h
  | fldmsIncrement c d rn offset => exact instruction_effect (body := _) (fun _ h _ => effect_load rfl rfl h) h
  | fldmsDecrement c d rn offset => exact instruction_effect (body := _) (fun _ h _ => effect_load rfl rfl h) h
  | fstmsUnindexed c d rn offset => exact instruction_effect (body := _) (fun _ h _ => effect_store rfl rfl h) h
  | fstmsIncrement c d rn offset => exact instruction_effect (body := _) (fun _ h _ => effect_store rfl rfl h) h
  | fstmsDecrement c d rn offset => exact instruction_effect (body := _) (fun _ h _ => effect_store rfl rfl h) h
  | fldmdUnindexed c d rn offset => exact instruction_effect (body := _) (fun _ h _ => effect_load rfl rfl h) h
  | fldmdIncrement c d rn offset => exact instruction_effect (body := _) (fun _ h _ => effect_load rfl rfl h) h
  | fldmdDecrement c d rn offset => exact instruction_effect (body := _) (fun _ h _ => effect_load rfl rfl h) h
  | fstmdUnindexed c d rn offset => exact instruction_effect (body := _) (fun _ h _ => effect_storeDoubles rfl rfl h) h
  | fstmdIncrement c d rn offset => exact instruction_effect (body := _) (fun _ h _ => effect_storeDoubles rfl rfl h) h
  | fstmdDecrement c d rn offset => exact instruction_effect (body := _) (fun _ h _ => effect_storeDoubles rfl rfl h) h
  | fldmxUnindexed c d rn offset =>
    exact instruction_effect (body := _)
      (fun _ h _ => by obtain ⟨ho, _, _, hi, rfl⟩ := loadUnknown_eq_ok.1 h; exact .restored rfl trivial rfl ho hi) h
  | fldmxIncrement c d rn offset =>
    exact instruction_effect (body := _)
      (fun _ h _ => by obtain ⟨ho, _, _, hi, rfl⟩ := loadUnknown_eq_ok.1 h; exact .restored rfl trivial rfl ho hi) h
  | fldmxDecrement c d rn offset =>
    exact instruction_effect (body := _)
      (fun _ h _ => by obtain ⟨ho, _, _, hi, rfl⟩ := loadUnknown_eq_ok.1 h; exact .restored rfl trivial rfl ho hi) h
  | fstmxUnindexed c d rn offset =>
    exact instruction_effect (body := _)
      (fun _ h _ => by obtain ⟨ho, hs, _, _, rfl⟩ := storeUnknown_eq_ok.1 h; exact .saved rfl trivial rfl ho hs) h
  | fstmxIncrement c d rn offset =>
    exact instruction_effect (body := _)
      (fun _ h _ => by obtain ⟨ho, hs, _, _, rfl⟩ := storeUnknown_eq_ok.1 h; exact .saved rfl trivial rfl ho hs) h
  | fstmxDecrement c d rn offset =>
    exact instruction_effect (body := _)
      (fun _ h _ => by obtain ⟨ho, hs, _, _, rfl⟩ := storeUnknown_eq_ok.1 h; exact .saved rfl trivial rfl ho hs) h
  | fmstat c =>
    exact instruction_effect (double := false) (body := fun s => .ok s.copyFlags)
      (fun _ h _ => by cases h; exact .flags rfl (.inl trivial)) h
  | fmsr c n rd =>
    exact instruction_effect (body := _)
      (fun _ h _ => by obtain ⟨_, hd, rfl⟩ := singleFromArm_eq_ok.1 h; exact .register (.inl rfl) hd) h
  | fmrs c rd n =>
    exact instruction_effect (body := _)
      (fun _ h _ => by obtain ⟨hr, _, rfl⟩ := armFromSingle_eq_ok.1 h; exact .arm rfl hr) h
  | fmxr c reg rd => exact instruction_effect (body := _) (fun _ h _ => effect_fmxr rfl (fun e => by subst e; trivial) h) h
  | fmrx c rd reg =>
    exact instruction_effect (body := _)
      (fun _ h _ => effect_fmrx rfl (fun e e' => by subst e; subst e'; rfl) h) h
  | fmdlr c n rd =>
    exact instruction_effect (body := _)
      (fun _ h hd => by obtain ⟨_, _, hp, rfl⟩ := halfFromArm_eq_ok.1 h; exact .half rfl (hd rfl) hp) h
  | fmrdl c rd n =>
    exact instruction_effect (body := _)
      (fun _ h _ => by obtain ⟨hr, _, rfl⟩ := armFromHalf_eq_ok.1 h; exact .arm rfl hr) h
  | fmdhr c n rd =>
    exact instruction_effect (body := _)
      (fun _ h hd => by obtain ⟨_, _, hp, rfl⟩ := halfFromArm_eq_ok.1 h; exact .half rfl (hd rfl) hp) h
  | fmrdh c rd n =>
    exact instruction_effect (body := _)
      (fun _ h _ => by obtain ⟨hr, _, rfl⟩ := armFromHalf_eq_ok.1 h; exact .arm rfl hr) h
  | fmsrr c m rd rn =>
    exact instruction_effect (body := _)
      (fun _ h _ => by obtain ⟨_, _, _, _, hm, hm', rfl⟩ := singlesFromArm_eq_ok.1 h; exact .registers rfl hm hm') h
  | fmrrs c rd rn m =>
    exact instruction_effect (body := _)
      (fun _ h _ => by
      obtain ⟨h1, h2, _, _, _, _, _, rfl⟩ := armFromSingles_eq_ok.1 h
      exact .arms rfl (pairOrder_ne h1 h2).1 (pairOrder_ne h1 h2).2) h
  | fmdrr c m rd rn =>
    exact instruction_effect (body := _)
      (fun _ h _ => by obtain ⟨_, _, hd, rfl⟩ := doubleFromArm_eq_ok.1 h; exact .register (.inr rfl) hd) h
  | fmrrd c rd rn m =>
    exact instruction_effect (body := _)
      (fun _ h _ => by obtain ⟨h1, h2, _, _, rfl⟩ := armFromDouble_eq_ok.1 h; exact .arms rfl h2 h1) h

end Sys2Proof.Machine
end

