-- ==== Sys2Proof/Laws/Fp.lean ====
section
/-! SUPPORT. Flush-to-zero mode: what flushing an operand is, and what it adds to the exceptions of an operation. -/

namespace Sys2Proof.Machine

theorem isDenorm_zeroPat (f : Fmt) (sign : Bool) : isDenorm f (zeroPat f sign) = false := by
  cases f <;> cases sign <;> decide

theorem isNan_zeroPat (f : Fmt) (sign : Bool) : isNan f (zeroPat f sign) = false := by cases f <;> cases sign <;> decide

/-- A flushed zero is a zero, of one sign or the other (40_basic_arith.md R114). -/
theorem flushedZero_eq (f : Fmt) (cfg : Config) (sign : Bool) :
    flushedZero f cfg sign = zeroPat f (if cfg.fzSign = .keep then sign else false) := by
  unfold flushedZero; cases cfg.fzSign <;> rfl

theorem flushes_fzIn (f : Fmt) (env : FpEnv) (a : Pat f) : flushes f env (fzIn f env a) = false := by
  unfold fzIn
  split
  · rw [flushedZero_eq, flushes, isDenorm_zeroPat, Bool.and_false]
  · simp_all

/-- Flushing an operand twice is flushing it once. -/
theorem fzIn_fzIn (f : Fmt) (env : FpEnv) (a : Pat f) : fzIn f env (fzIn f env a) = fzIn f env a := by
  rw [fzIn, flushes_fzIn]; rfl

theorem isNan_of_flushes {f : Fmt} {env : FpEnv} {a : Pat f} (h : flushes f env a = true) : isNan f a = false := by
  simp only [flushes, isDenorm, Bool.and_eq_true, beq_iff_eq] at h
  rw [isNan, h.2.1]
  cases f <;> rfl

/-- Flushing neither makes nor removes a NaN. -/
theorem isNan_fzIn (f : Fmt) (env : FpEnv) (a : Pat f) : isNan f (fzIn f env a) = isNan f a := by
  unfold fzIn
  split
  · rename_i h; rw [flushedZero_eq, isNan_zeroPat, isNan_of_flushes h]
  · rfl

@[simp] theorem noteFlush_val {f : Fmt} (b : Bool) (e : ExcSet) (r : FpResult f) : (noteFlush b e r).val = r.val := rfl

/-- With no operand flushed, a result is as it is. -/
theorem noteFlush_false {f : Fmt} (e : ExcSet) (r : FpResult f) : noteFlush false e r = r := by
  obtain ⟨v, x⟩ := r
  simp [noteFlush, ExcSet.when, ExcSet.union, ExcSet.none]

/-- With an operand flushed, the exceptions are those of `withFlush` (R115, 60_exceptions.md R300). -/
theorem noteFlush_exc {f : Fmt} (e : ExcSet) (r : FpResult f) : (noteFlush true e r).exc = withFlush e r.exc := by
  obtain ⟨v, x⟩ := r
  simp only [noteFlush, withFlush, ExcSet.when, ExcSet.union, ExcSet.none]
  split <;> simp_all

end Sys2Proof.Machine
end

