-- ==== Sys2Proof/Laws/PerInstr.lean ====
section
/-! SUPPORT. What is proved of each instruction as syntax: the condition field of its word is its condition (30_encoding.md
R70, R71). -/

namespace Sys2Proof.Laws.EncodesCondition

/-- Bits 31:28 of the word of the instruction are its condition. -/
def Statement (i : Instr) : Prop := (encode i).extractLsb' 28 4 = i.cond.bits

theorem fmacs (c : Cond) (d n m : SReg) : Statement (.fmacs c d n m) :=
  DpFields.word_cond _

theorem fmacd (c : Cond) (d n m : DReg) : Statement (.fmacd c d n m) :=
  DpFields.word_cond _

theorem fnmacs (c : Cond) (d n m : SReg) : Statement (.fnmacs c d n m) :=
  DpFields.word_cond _

theorem fnmacd (c : Cond) (d n m : DReg) : Statement (.fnmacd c d n m) :=
  DpFields.word_cond _

theorem fmscs (c : Cond) (d n m : SReg) : Statement (.fmscs c d n m) :=
  DpFields.word_cond _

theorem fmscd (c : Cond) (d n m : DReg) : Statement (.fmscd c d n m) :=
  DpFields.word_cond _

theorem fnmscs (c : Cond) (d n m : SReg) : Statement (.fnmscs c d n m) :=
  DpFields.word_cond _

theorem fnmscd (c : Cond) (d n m : DReg) : Statement (.fnmscd c d n m) :=
  DpFields.word_cond _

theorem fmuls (c : Cond) (d n m : SReg) : Statement (.fmuls c d n m) :=
  DpFields.word_cond _

theorem fmuld (c : Cond) (d n m : DReg) : Statement (.fmuld c d n m) :=
  DpFields.word_cond _

theorem fnmuls (c : Cond) (d n m : SReg) : Statement (.fnmuls c d n m) :=
  DpFields.word_cond _

theorem fnmuld (c : Cond) (d n m : DReg) : Statement (.fnmuld c d n m) :=
  DpFields.word_cond _

theorem fadds (c : Cond) (d n m : SReg) : Statement (.fadds c d n m) :=
  DpFields.word_cond _

theorem faddd (c : Cond) (d n m : DReg) : Statement (.faddd c d n m) :=
  DpFields.word_cond _

theorem fsubs (c : Cond) (d n m : SReg) : Statement (.fsubs c d n m) :=
  DpFields.word_cond _

theorem fsubd (c : Cond) (d n m : DReg) : Statement (.fsubd c d n m) :=
  DpFields.word_cond _

theorem fdivs (c : Cond) (d n m : SReg) : Statement (.fdivs c d n m) :=
  DpFields.word_cond _

theorem fdivd (c : Cond) (d n m : DReg) : Statement (.fdivd c d n m) :=
  DpFields.word_cond _

theorem fcpys (c : Cond) (d m : SReg) : Statement (.fcpys c d m) :=
  DpFields.word_cond _

theorem fcpyd (c : Cond) (d m : DReg) : Statement (.fcpyd c d m) :=
  DpFields.word_cond _

theorem fabss (c : Cond) (d m : SReg) : Statement (.fabss c d m) :=
  DpFields.word_cond _

theorem fabsd (c : Cond) (d m : DReg) : Statement (.fabsd c d m) :=
  DpFields.word_cond _

theorem fnegs (c : Cond) (d m : SReg) : Statement (.fnegs c d m) :=
  DpFields.word_cond _

theorem fnegd (c : Cond) (d m : DReg) : Statement (.fnegd c d m) :=
  DpFields.word_cond _

theorem fsqrts (c : Cond) (d m : SReg) : Statement (.fsqrts c d m) :=
  DpFields.word_cond _

theorem fsqrtd (c : Cond) (d m : DReg) : Statement (.fsqrtd c d m) :=
  DpFields.word_cond _

theorem fcmps (c : Cond) (d m : SReg) : Statement (.fcmps c d m) :=
  DpFields.word_cond _

theorem fcmpd (c : Cond) (d m : DReg) : Statement (.fcmpd c d m) :=
  DpFields.word_cond _

theorem fcmpes (c : Cond) (d m : SReg) : Statement (.fcmpes c d m) :=
  DpFields.word_cond _

theorem fcmped (c : Cond) (d m : DReg) : Statement (.fcmped c d m) :=
  DpFields.word_cond _

theorem fcmpzs (c : Cond) (d : SReg) : Statement (.fcmpzs c d) :=
  DpFields.word_cond _

theorem fcmpzd (c : Cond) (d : DReg) : Statement (.fcmpzd c d) :=
  DpFields.word_cond _

theorem fcmpezs (c : Cond) (d : SReg) : Statement (.fcmpezs c d) :=
  DpFields.word_cond _

theorem fcmpezd (c : Cond) (d : DReg) : Statement (.fcmpezd c d) :=
  DpFields.word_cond _

theorem fcvtds (c : Cond) (d : DReg) (m : SReg) : Statement (.fcvtds c d m) :=
  DpFields.word_cond _

theorem fcvtsd (c : Cond) (d : SReg) (m : DReg) : Statement (.fcvtsd c d m) :=
  DpFields.word_cond _

theorem fuitos (c : Cond) (d m : SReg) : Statement (.fuitos c d m) :=
  DpFields.word_cond _

theorem fuitod (c : Cond) (d : DReg) (m : SReg) : Statement (.fuitod c d m) :=
  DpFields.word_cond _

theorem fsitos (c : Cond) (d m : SReg) : Statement (.fsitos c d m) :=
  DpFields.word_cond _

theorem fsitod (c : Cond) (d : DReg) (m : SReg) : Statement (.fsitod c d m) :=
  DpFields.word_cond _

theorem ftouis (c : Cond) (d m : SReg) : Statement (.ftouis c d m) :=
  DpFields.word_cond _

theorem ftouid (c : Cond) (d : SReg) (m : DReg) : Statement (.ftouid c d m) :=
  DpFields.word_cond _

theorem ftouizs (c : Cond) (d m : SReg) : Statement (.ftouizs c d m) :=
  DpFields.word_cond _

theorem ftouizd (c : Cond) (d : SReg) (m : DReg) : Statement (.ftouizd c d m) :=
  DpFields.word_cond _

theorem ftosis (c : Cond) (d m : SReg) : Statement (.ftosis c d m) :=
  DpFields.word_cond _

theorem ftosid (c : Cond) (d : SReg) (m : DReg) : Statement (.ftosid c d m) :=
  DpFields.word_cond _

theorem ftosizs (c : Cond) (d m : SReg) : Statement (.ftosizs c d m) :=
  DpFields.word_cond _

theorem ftosizd (c : Cond) (d : SReg) (m : DReg) : Statement (.ftosizd c d m) :=
  DpFields.word_cond _

theorem flds (c : Cond) (up : Bool) (d : SReg) (rn : RReg) (offset : BitVec 8) : Statement (.flds c up d rn offset) :=
  LsFields.word_cond _

theorem fsts (c : Cond) (up : Bool) (d : SReg) (rn : RReg) (offset : BitVec 8) : Statement (.fsts c up d rn offset) :=
  LsFields.word_cond _

theorem fldd (c : Cond) (up : Bool) (d : DReg) (rn : RReg) (offset : BitVec 8) : Statement (.fldd c up d rn offset) :=
  LsFields.word_cond _

theorem fstd (c : Cond) (up : Bool) (d : DReg) (rn : RReg) (offset : BitVec 8) : Statement (.fstd c up d rn offset) :=
  LsFields.word_cond _

theorem fldmsUnindexed (c : Cond) (d : SReg) (rn : RReg) (offset : BitVec 8) : Statement (.fldmsUnindexed c d rn offset) :=
  LsFields.word_cond _

theorem fldmsIncrement (c : Cond) (d : SReg) (rn : RReg) (offset : BitVec 8) : Statement (.fldmsIncrement c d rn offset) :=
  LsFields.word_cond _

theorem fldmsDecrement (c : Cond) (d : SReg) (rn : RReg) (offset : BitVec 8) : Statement (.fldmsDecrement c d rn offset) :=
  LsFields.word_cond _

theorem fstmsUnindexed (c : Cond) (d : SReg) (rn : RReg) (offset : BitVec 8) : Statement (.fstmsUnindexed c d rn offset) :=
  LsFields.word_cond _

theorem fstmsIncrement (c : Cond) (d : SReg) (rn : RReg) (offset : BitVec 8) : Statement (.fstmsIncrement c d rn offset) :=
  LsFields.word_cond _

theorem fstmsDecrement (c : Cond) (d : SReg) (rn : RReg) (offset : BitVec 8) : Statement (.fstmsDecrement c d rn offset) :=
  LsFields.word_cond _

theorem fldmdUnindexed (c : Cond) (d : DReg) (rn : RReg) (offset : BitVec 8) : Statement (.fldmdUnindexed c d rn offset) :=
  LsFields.word_cond _

theorem fldmdIncrement (c : Cond) (d : DReg) (rn : RReg) (offset : BitVec 8) : Statement (.fldmdIncrement c d rn offset) :=
  LsFields.word_cond _

theorem fldmdDecrement (c : Cond) (d : DReg) (rn : RReg) (offset : BitVec 8) : Statement (.fldmdDecrement c d rn offset) :=
  LsFields.word_cond _

theorem fstmdUnindexed (c : Cond) (d : DReg) (rn : RReg) (offset : BitVec 8) : Statement (.fstmdUnindexed c d rn offset) :=
  LsFields.word_cond _

theorem fstmdIncrement (c : Cond) (d : DReg) (rn : RReg) (offset : BitVec 8) : Statement (.fstmdIncrement c d rn offset) :=
  LsFields.word_cond _

theorem fstmdDecrement (c : Cond) (d : DReg) (rn : RReg) (offset : BitVec 8) : Statement (.fstmdDecrement c d rn offset) :=
  LsFields.word_cond _

theorem fldmxUnindexed (c : Cond) (d : DReg) (rn : RReg) (offset : BitVec 8) : Statement (.fldmxUnindexed c d rn offset) :=
  LsFields.word_cond _

theorem fldmxIncrement (c : Cond) (d : DReg) (rn : RReg) (offset : BitVec 8) : Statement (.fldmxIncrement c d rn offset) :=
  LsFields.word_cond _

theorem fldmxDecrement (c : Cond) (d : DReg) (rn : RReg) (offset : BitVec 8) : Statement (.fldmxDecrement c d rn offset) :=
  LsFields.word_cond _

theorem fstmxUnindexed (c : Cond) (d : DReg) (rn : RReg) (offset : BitVec 8) : Statement (.fstmxUnindexed c d rn offset) :=
  LsFields.word_cond _

theorem fstmxIncrement (c : Cond) (d : DReg) (rn : RReg) (offset : BitVec 8) : Statement (.fstmxIncrement c d rn offset) :=
  LsFields.word_cond _

theorem fstmxDecrement (c : Cond) (d : DReg) (rn : RReg) (offset : BitVec 8) : Statement (.fstmxDecrement c d rn offset) :=
  LsFields.word_cond _

theorem fmstat (c : Cond) : Statement (.fmstat c) :=
  Xfer1Fields.word_cond _

theorem fmsr (c : Cond) (n : SReg) (rd : RReg) : Statement (.fmsr c n rd) :=
  Xfer1Fields.word_cond _

theorem fmrs (c : Cond) (rd : RReg) (n : SReg) : Statement (.fmrs c rd n) :=
  Xfer1Fields.word_cond _

theorem fmxr (c : Cond) (reg : SysReg) (rd : RReg) : Statement (.fmxr c reg rd) :=
  Xfer1Fields.word_cond _

theorem fmrx (c : Cond) (rd : RReg) (reg : SysReg) : Statement (.fmrx c rd reg) :=
  Xfer1Fields.word_cond _

theorem fmdlr (c : Cond) (n : DReg) (rd : RReg) : Statement (.fmdlr c n rd) :=
  Xfer1Fields.word_cond _

theorem fmrdl (c : Cond) (rd : RReg) (n : DReg) : Statement (.fmrdl c rd n) :=
  Xfer1Fields.word_cond _

theorem fmdhr (c : Cond) (n : DReg) (rd : RReg) : Statement (.fmdhr c n rd) :=
  Xfer1Fields.word_cond _

theorem fmrdh (c : Cond) (rd : RReg) (n : DReg) : Statement (.fmrdh c rd n) :=
  Xfer1Fields.word_cond _

theorem fmsrr (c : Cond) (m : SReg) (rd rn : RReg) : Statement (.fmsrr c m rd rn) :=
  Xfer2Fields.word_cond _

theorem fmrrs (c : Cond) (rd rn : RReg) (m : SReg) : Statement (.fmrrs c rd rn m) :=
  Xfer2Fields.word_cond _

theorem fmdrr (c : Cond) (m : DReg) (rd rn : RReg) : Statement (.fmdrr c m rd rn) :=
  Xfer2Fields.word_cond _

theorem fmrrd (c : Cond) (rd rn : RReg) (m : DReg) : Statement (.fmrrd c rd rn m) :=
  Xfer2Fields.word_cond _

end Sys2Proof.Laws.EncodesCondition
end

