-- ==== Sys2Proof/Tests/Slice0.lean ====
section
/-! SUPPORT. Tests: ill-formed terms refused, words of the spec decoded, its vectors executed, and for every statement with
hypotheses a state and operands that meet them. -/

namespace Sys2Proof.Tests

open Sys2Proof Sys2Proof.Machine

/-! ### Well-formedness (30_encoding.md R28, R82, R86) -/

theorem test_wellFormed_evenOffset :
    [Instr.fldmdUnindexed .al 0 0 3, .fldmdIncrement .al 0 0 3, .fldmdDecrement .al 0 0 3, .fstmdUnindexed .al 0 0 3,
      .fstmdIncrement .al 0 0 3, .fstmdDecrement .al 0 0 3].all (fun i => !i.wellFormed) = true := by decide

theorem test_wellFormed_oddOffset :
    [Instr.fldmxUnindexed .al 0 0 4, .fldmxIncrement .al 0 0 4, .fldmxDecrement .al 0 0 4, .fstmxUnindexed .al 0 0 4,
      .fstmxIncrement .al 0 0 4, .fstmxDecrement .al 0 0 4].all (fun i => !i.wellFormed) = true := by decide

theorem test_wellFormed_sysReg :
    [Instr.fmxr .al (.subArch 0) 0, .fmrx .al 0 (.subArch 0)].all (fun i => !i.wellFormed) = true := by decide

theorem test_wellFormed_notFmstat : (Instr.fmrx .al 15 .fpscr).wellFormed = false := by decide

/-! ### Decoding -/

/-- Words of 41_mac.md R141 to R148. -/
theorem test_decode_multiplyAccumulate :
    [decode 0xEE000A81#32, decode 0xEE010B02#32, decode 0xEE000AC1#32, decode 0xEE010B42#32, decode 0xEE100A81#32,
      decode 0xEE110B02#32, decode 0xEE100AC1#32, decode 0xEE110B42#32] =
    [.ok (.fmacs .al 0 1 2), .ok (.fmacd .al 0 1 2), .ok (.fnmacs .al 0 1 2), .ok (.fnmacd .al 0 1 2),
      .ok (.fmscs .al 0 1 2), .ok (.fmscd .al 0 1 2), .ok (.fnmscs .al 0 1 2), .ok (.fnmscd .al 0 1 2)] := by decide

/-- Words of 40_basic_arith.md R122 to R133. -/
theorem test_decode_basic :
    [decode 0xEE300A81#32, decode 0xEE310B02#32, decode 0xEE721A62#32, decode 0xEE343B45#32, decode 0xEE233A84#32,
      decode 0xEE276B08#32, decode 0xEE200AC1#32, decode 0xEE210B42#32, decode 0xEE800A81#32, decode 0xEE810B02#32,
      decode 0xEEB10AE0#32, decode 0xEEB10BC1#32] =
    [.ok (.fadds .al 0 1 2), .ok (.faddd .al 0 1 2), .ok (.fsubs .al 3 4 5), .ok (.fsubd .al 3 4 5),
      .ok (.fmuls .al 6 7 8), .ok (.fmuld .al 6 7 8), .ok (.fnmuls .al 0 1 2), .ok (.fnmuld .al 0 1 2),
      .ok (.fdivs .al 0 1 2), .ok (.fdivd .al 0 1 2), .ok (.fsqrts .al 0 1), .ok (.fsqrtd .al 0 1)] := by decide

/-- Words of 42_compare.md R153 to R160; 95_test_vectors.md 2.3. -/
theorem test_decode_compare :
    [decode 0xEEB40A60#32, decode 0xEEB40B41#32, decode 0xEEB40AE0#32, decode 0xEEB40BC1#32, decode 0xEEB50A40#32,
      decode 0xEEB50B40#32, decode 0xEEB50AC0#32, decode 0xEEB53BC0#32] =
    [.ok (.fcmps .al 0 1), .ok (.fcmpd .al 0 1), .ok (.fcmpes .al 0 1), .ok (.fcmped .al 0 1), .ok (.fcmpzs .al 0),
      .ok (.fcmpzd .al 0), .ok (.fcmpezs .al 0), .ok (.fcmpezd .al 3)] := by decide

/-- Words of 43_convert.md R173 to R188; 95_test_vectors.md 2.4, 3.3. -/
theorem test_decode_convert :
    [decode 0xEEB70AE0#32, decode 0xEEF70BC0#32, decode 0xEEB80A60#32, decode 0xEEB80B60#32, decode 0xEEF80AC0#32,
      decode 0xEEB80BE0#32, decode 0xEEBC0A60#32, decode 0xEEFC0B40#32, decode 0xEEBC0AE0#32, decode 0xEEBC0BC1#32,
      decode 0xEEBD0A60#32, decode 0xEEBD0B41#32, decode 0xEEFD1AE0#32, decode 0xEEFD0BC0#32] =
    [.ok (.fcvtds .al 0 1), .ok (.fcvtsd .al 1 0), .ok (.fuitos .al 0 1), .ok (.fuitod .al 0 1),
      .ok (.fsitos .al 1 0), .ok (.fsitod .al 0 1), .ok (.ftouis .al 0 1), .ok (.ftouid .al 1 0),
      .ok (.ftouizs .al 0 1), .ok (.ftouizd .al 0 1), .ok (.ftosis .al 0 1), .ok (.ftosid .al 0 1),
      .ok (.ftosizs .al 3 1), .ok (.ftosizd .al 1 0)] := by decide

/-- Words of 44_copy.md R201 to R206; 95_test_vectors.md 2.5, 3.1. -/
theorem test_decode_copy :
    [decode 0xCEB01A40#32, decode 0xEEB08B40#32, decode 0xEEB10A60#32, decode 0xEEB10B41#32, decode 0xEEB00AE0#32,
      decode 0xEEB02BC3#32] =
    [.ok (.fcpys .gt 2 0), .ok (.fcpyd .al 8 0), .ok (.fnegs .al 0 1), .ok (.fnegd .al 0 1), .ok (.fabss .al 0 1),
      .ok (.fabsd .al 2 3)] := by decide

/-- Words of 45_load_store.md R220 to R223; 95_test_vectors.md 2.6. -/
theorem test_decode_offset :
    [decode 0xED512A02#32, decode 0xEDC22AFF#32, decode 0xED913B02#32, decode 0xED032B04#32] =
    [.ok (.flds .al false 5 1 2), .ok (.fsts .al true 5 2 255), .ok (.fldd .al true 3 1 2),
      .ok (.fstd .al false 2 3 4)] := by decide

/-- Words of 95_test_vectors.md 2.6, 3.2, 3.4; the words it does not give, by the fields of 30_encoding.md R81, R82. -/
theorem test_decode_multiple :
    [decode 0xEC90FA04#32, decode 0xECBD2A04#32, decode 0xED3D2A04#32, decode 0xEC8D2A04#32, decode 0xECAD2A04#32,
      decode 0xED2D2A04#32, decode 0xEC900B06#32, decode 0xECB04B04#32, decode 0xED304B04#32, decode 0xEC800B04#32,
      decode 0xECA04B04#32, decode 0xED2D8B04#32, decode 0xEC90FB03#32, decode 0xECBD8B11#32, decode 0xED3D8B11#32,
      decode 0xEC8D8B11#32, decode 0xECAD8B11#32, decode 0xED2D8B05#32] =
    [.ok (.fldmsUnindexed .al 30 0 4), .ok (.fldmsIncrement .al 4 13 4), .ok (.fldmsDecrement .al 4 13 4),
      .ok (.fstmsUnindexed .al 4 13 4), .ok (.fstmsIncrement .al 4 13 4), .ok (.fstmsDecrement .al 4 13 4),
      .ok (.fldmdUnindexed .al 0 0 6), .ok (.fldmdIncrement .al 4 0 4), .ok (.fldmdDecrement .al 4 0 4),
      .ok (.fstmdUnindexed .al 0 0 4), .ok (.fstmdIncrement .al 4 0 4), .ok (.fstmdDecrement .al 8 13 4),
      .ok (.fldmxUnindexed .al 15 0 3), .ok (.fldmxIncrement .al 8 13 17), .ok (.fldmxDecrement .al 8 13 17),
      .ok (.fstmxUnindexed .al 8 13 17), .ok (.fstmxIncrement .al 8 13 17), .ok (.fstmxDecrement .al 8 13 5)] := by decide

/-- Words of 46_single_transfer.md R252 to R261; 95_test_vectors.md 2.7, 2.9. -/
theorem test_decode_single :
    [decode 0xEE012A90#32, decode 0xEE103A90#32, decode 0xEE012B10#32, decode 0xEE112B10#32, decode 0xEE213B10#32,
      decode 0xEE313B10#32, decode 0xEEE10A10#32, decode 0xEEE82A10#32, decode 0xEEF01A10#32, decode 0xEEF90A10#32,
      decode 0x1EF1FA10#32] =
    [.ok (.fmsr .al 3 2), .ok (.fmrs .al 3 1), .ok (.fmdlr .al 1 2), .ok (.fmrdl .al 2 1), .ok (.fmdhr .al 1 3),
      .ok (.fmrdh .al 3 1), .ok (.fmxr .al .fpscr 0), .ok (.fmxr .al .fpexc 2), .ok (.fmrx .al 1 .fpsid),
      .ok (.fmrx .al 0 (.subArch 2)), .ok (.fmstat .ne)] := by decide

/-- Words of 95_test_vectors.md 2.8. -/
theorem test_decode_pair :
    [decode 0xEC445A11#32, decode 0xEC567A32#32, decode 0xEC410B10#32, decode 0xEC532B15#32] =
    [.ok (.fmsrr .al 2 5 4), .ok (.fmrrs .al 7 6 5), .ok (.fmdrr .al 0 0 1), .ok (.fmrrd .al 2 3 5)] := by decide

/-- Words of 95_test_vectors.md 2.9 that are UNDEFINED, one or more of each item of 30_encoding.md R92. -/
theorem test_decode_undefined :
    ([0xEE800A40#32, 0xEE900A00#32, 0xEEB00A00#32, 0xEEB20A40#32, 0xEEB70A40#32, 0xEE710B02#32, 0xEE310B82#32,
      0xEE310B22#32, 0xEEF70AE0#32, 0xEEF70BE0#32, 0xEC200A01#32, 0xEDA00A01#32, 0xEDD00B00#32, 0xEE200A10#32,
      0xEE400A10#32, 0xEEF10B10#32, 0xEE000B90#32, 0xEEF00A90#32, 0xEEF20A10#32, 0xEE10FB90#32, 0xEC410B30#32].all
      fun w => decide (decode w = .error .undefined) && undefinedWord w) = true := by decide

/-- `Rd = R15` is checked before the SBZ bits (30_encoding.md R91): FMSR, FMRDL, FMRX of FPSID, and FMSTAT, which R86 allows. -/
theorem test_decode_r15_before_sbz :
    [decode 0xEE00FA11#32, decode 0xEE10FB30#32, decode 0xEEF0FA18#32, decode 0xEEF1FA50#32] =
    [.error .fromArmR15, .error .toArmR15, .error .toArmR15, .error .sbz] := by decide

/-- Words of 95_test_vectors.md 2.9 that are refused. -/
theorem test_decode_refused :
    [decode 0xEE100A11#32, decode 0xEE100A30#32, decode 0xEEF1FA11#32, decode 0xEEB50A41#32, decode 0xEC000A00#32,
      decode 0xEC400A00#32, decode 0xEC410A90#32, decode 0xFE300A81#32, decode 0xEE300981#32] =
    [.error .sbz, .error .sbz, .error .sbz, .error .unallocatedCompareZero, .error .unallocatedTwoReg,
      .error .unallocatedTwoReg, .error .unallocatedTwoReg, .error .notVfp, .error .notVfp] := by decide

/-! ### One step -/

/-- The state after an instruction that answers one. -/
def after : Host.Outcome State Fault Refusal → Option State
  | .next t => some t
  | _ => none

/-- The fault or refusal that an instruction ends in. -/
def stop : Host.Outcome State Fault Refusal → Option Stop
  | .next _ => none
  | .fault f => some (.fault f)
  | .refused r => some (.refused r)

/-- The state after reset with other parameters. -/
def withCfg (c : Config) : State := { State.reset with cfg := c }

/-- The state after reset with a program of one word. -/
def running (w : Word) : State := { State.reset with text := [w] }

/-- Registers may be read in either precision. -/
def transparent : State := withCfg { Config.default with overlap := .transparent }

/-- Single-precision registers with values, over the state after reset. -/
def singles (l : List (SReg × Word)) (s : State) : State := l.foldl (fun s p => s.setReg .sgl p.1 p.2) s

/-- Double-precision registers with values. -/
def doubles (l : List (DReg × DWord)) (s : State) : State := l.foldl (fun s p => s.setReg .dbl p.1 p.2) s

/-- ARM registers with values. -/
def arms (l : List (RReg × Word)) (s : State) : State := l.foldl (fun s p => s.setArm p.1 p.2) s

/-- Words of memory with values, little-endian. -/
def words (l : List (Word × Word)) (s : State) : State :=
  { s with mem := l.foldl (fun m p => writeWord false p.1 p.2 m) s.mem }

/-- The state after reset in a rounding mode. -/
def inMode (m : RMode) : State := { State.reset with fpscr := { Fpscr.reset with rmode := m } }

/-- The state after reset in Flush-to-zero mode. -/
def flushing : State := { State.reset with fpscr := { Fpscr.reset with fz := true } }

/-- The result in `S[0]` and the FPSCR of an instruction whose operands `S[0]`, `S[1]`, `S[2]` are given. -/
def sgl (i : Instr) (l : List (SReg × Word)) (s : State := .reset) : Option (Word × Word) :=
  (after (exec i (singles l s))).map fun t => (t.word 0, t.fpscr.word)

/-- The same of `D[0]`. -/
def dbl (i : Instr) (l : List (DReg × DWord)) (s : State := .reset) : Option (DWord × Word) :=
  (after (exec i (doubles l s))).map fun t => (t.rawDouble 0, t.fpscr.word)

/-- 95_test_vectors.md 2.1. -/
theorem test_basic_singles :
    [sgl (.fadds .al 0 1 2) [(1, 0x3F800000), (2, 0x33800000)], sgl (.fadds .al 0 1 2) [(1, 0x3F800000),
      (2, 0x33800000)] (inMode .rp),
      sgl (.fadds .al 0 1 2) [(1, 0xFF7FFFFF), (2, 0xFF7FFFFF)] (inMode .rp), sgl (.fsubs .al 0 1 2) [(1, 0x40400000),
        (2, 0x40400000)] (inMode .rm),
      sgl (.fmuls .al 0 1 2) [(1, 0x00800001), (2, 0x3F000000)], sgl (.fmuls .al 0 1 2) [(1, 0x00800000), (2, 0x3F000000)],
      sgl (.fnmuls .al 0 1 2) [(1, 0), (2, 0x7F800000)], sgl (.fdivs .al 0 1 2) [(1, 0x3F800000), (2, 0x40400000)],
      sgl (.fdivs .al 0 1 2) [(1, 0xBF800000), (2, 0)], sgl (.fsqrts .al 0 1) [(1, 0x40000000)] (inMode .rp),
        sgl (.fsqrts .al 0 1) [(1, 1)]] =
    [some (0x3F800000, 0x10), some (0x3F800001, 0x00400010), some (0xFF7FFFFF, 0x00400014), some (0x80000000, 0x00800000),
      some (0x00400000, 0x18), some (0x00400000, 0), some (0xFFC00000, 1), some (0x3EAAAAAB, 0x10), some (0xFF800000, 2),
      some (0x3FB504F4, 0x00400010), some (0x1A3504F3, 0x10)] := by decide +kernel

/-- 95_test_vectors.md 2.1. -/
theorem test_basic_doubles :
    [dbl (.faddd .al 0 1 2) [(1, 0x3FB999999999999A), (2, 0x3FC999999999999A)] (inMode .rz),
      dbl (.fdivd .al 0 1 2) [(1, 0x3FF0000000000000), (2, 0x4008000000000000)] (inMode .rp),
      dbl (.fsqrtd .al 0 1) [(1, 0x4000000000000000)], dbl (.fsubd .al 0 1 2) [(1, 0x4008000000000000),
        (2, 0x3FF0000000000000)],
      dbl (.fmuld .al 0 1 2) [(1, 0x4008000000000000), (2, 0x4000000000000000)],
      dbl (.fnmuld .al 0 1 2) [(1, 0x4008000000000000), (2, 0x4000000000000000)]] =
    [some (0x3FD3333333333333, 0x00C00010), some (0x3FD5555555555556, 0x00400010), some (0x3FF6A09E667F3BCD, 0x10),
      some (0x4000000000000000, 0), some (0x4018000000000000, 0), some (0xC018000000000000, 0)] := by decide +kernel

/-- 95_test_vectors.md 2.1: NaNs, and Flush-to-zero mode. -/
theorem test_nans_and_flushing :
    [sgl (.fadds .al 0 1 2) [(1, 0x7FC00005), (2, 0x7F800001)], sgl (.fsubs .al 0 1 2) [(1, 0), (2, 0xFFC00001)],
      sgl (.fsubs .al 0 1 2) [(1, 0), (2, 0x7F800001)], sgl (.fadds .al 0 1 2) [(1, 1), (2, 0x3F800000)] flushing,
      sgl (.fmuls .al 0 1 2) [(1, 0x80800000), (2, 0x3F000000)] flushing, sgl (.fsubs .al 0 1 2) [(1, 0x00800001),
        (2, 0x00800000)] flushing] =
    [some (0x7FC00001, 1), some (0xFFC00001, 0), some (0x7FC00001, 1), some (0x3F800000, 0x01000080),
      some (0x80000000, 0x01000008), some (0, 0x01000008)] := by decide +kernel

/-- 95_test_vectors.md 2.2. -/
theorem test_multiplyAccumulate :
    [sgl (.fmacs .al 0 1 2) [(0, 0xBF801000), (1, 0x3F800800), (2, 0x3F800800)],
      sgl (.fnmacs .al 0 1 2) [(0, 0x3F800000), (1, 0x40000000), (2, 0x40400000)],
      sgl (.fmscs .al 0 1 2) [(0, 0x7F800001), (1, 0x3F800000), (2, 0x3F800000)],
      sgl (.fnmscs .al 0 1 2) [(0, 0x3F800000), (1, 0x40000000), (2, 0x40400000)],
      sgl (.fmacs .al 0 1 2) [(0, 0xFF800000), (1, 0x7F7FFFFF), (2, 0x7F7FFFFF)],
      sgl (.fnmacs .al 0 1 2) [(0, 0x3F800000), (1, 0), (2, 0x7F800000)]] =
    [some (0, 0x10), some (0xC0A00000, 0), some (0xFFC00001, 1), some (0xC0E00000, 0), some (0x7FC00000, 0x15),
      some (0xFFC00000, 1)] := by decide +kernel

/-- 95_test_vectors.md 2.2 and its sign table. -/
theorem test_multiplyAccumulate_doubles :
    [dbl (.fmacd .al 0 1 2) [(0, 0x3FF0000000000000), (1, 0x4000000000000000), (2, 0x4008000000000000)],
      dbl (.fnmacd .al 0 1 2) [(0, 0x3FF0000000000000), (1, 0x4000000000000000), (2, 0x4008000000000000)],
      dbl (.fmscd .al 0 1 2) [(0, 0x3FF0000000000000), (1, 0x4000000000000000), (2, 0x4008000000000000)],
      dbl (.fnmscd .al 0 1 2) [(0, 0x3FF0000000000000), (1, 0x4000000000000000), (2, 0x4008000000000000)]] =
    [some (0x401C000000000000, 0), some (0xC014000000000000, 0), some (0x4014000000000000, 0),
      some (0xC01C000000000000, 0)] := by decide +kernel

/-- 95_test_vectors.md 2.3: the FPSCR after a comparison. -/
theorem test_compare :
    [sgl (.fcmps .al 0 1) [(0, 0x3F800000), (1, 0x40000000)], sgl (.fcmps .al 0 1) [(0, 0x7FC00000), (1, 0x3F800000)],
      sgl (.fcmpes .al 0 1) [(0, 0x7FC00000), (1, 0x3F800000)], sgl (.fcmps .al 0 1) [(0, 1), (1, 0x80000001)] flushing,
      sgl (.fcmpzs .al 0) [(0, 0x80000000)], sgl (.fcmpezs .al 0) [(0, 0x7FC00000)]].map (Option.map Prod.snd) =
      [some 0x80000000, some 0x30000000, some 0x30000001, some 0x61000080, some 0x60000000, some 0x30000001] ∧
    [dbl (.fcmpd .al 0 1) [(0, 0x7FF0000000000000), (1, 0)], dbl (.fcmped .al 0 1) [(0, 0), (1, 0x7FF0000000000001)],
      dbl (.fcmpzd .al 0) [(0, 0xFFF0000000000000)], dbl (.fcmpezd .al 0) [(0, 1)]].map (Option.map Prod.snd) =
      [some 0x20000000, some 0x30000001, some 0x80000000, some 0x20000000] := by decide +kernel

/-- 95_test_vectors.md 2.4: float to integer. -/
theorem test_toInteger :
    [sgl (.ftouis .al 0 1) [(1, 0x40200000)] (inMode .rp), sgl (.ftouizs .al 0 1) [(1, 0xBF19999A)],
      sgl (.ftosis .al 0 1) [(1, 0xC0200000)] (inMode .rm), sgl (.ftosizs .al 0 1) [(1, 0xCF000001)]] =
      [some (3, 0x00400010), some (0, 0x10), some (0xFFFFFFFD, 0x00800010), some (0x80000000, 1)] ∧
    [sgl (.ftouid .al 0 1) [(2, 0xFFF00000), (3, 0x41EFFFFF)] transparent,
      sgl (.ftouizd .al 0 1) [(2, 0), (3, 0xBFE00000)] transparent,
      sgl (.ftosid .al 0 1) [(2, 0xFFE00000), (3, 0x41DFFFFF)] transparent,
      sgl (.ftosizd .al 0 1) [(2, 0x00100000), (3, 0xC1E00000)] transparent] =
      [some (0xFFFFFFFF, 1), some (0, 0x10), some (0x7FFFFFFF, 1), some (0x80000000, 0x10)] := by decide +kernel

/-- The result in `D[0]` of an instruction with the operand `S[2]`. -/
def widened (i : Instr) (v : Word) (s : State := .reset) : Option (DWord × Word) :=
  (after (exec i (singles [(2, v)] s))).map fun t => (t.rawDouble 0, t.fpscr.word)

/-- 95_test_vectors.md 2.4: integer to float, and between precisions. -/
theorem test_convert :
    [sgl (.fuitos .al 0 1) [(1, 0xFFFFFFFF)], sgl (.fsitos .al 0 1) [(1, 0x01000001)] (inMode .rp),
      sgl (.fsitos .al 0 1) [(1, 0xFF000001)]] =
      [some (0x4F800000, 0x10), some (0x4B800001, 0x00400010), some (0xCB7FFFFF, 0)] ∧
    [widened (.fuitod .al 0 2) 0xFFFFFFFF, widened (.fsitod .al 0 2) 0xFF000001, widened (.fcvtds .al 0 2) 0x3DCCCCCD,
      widened (.fcvtds .al 0 2) 1, widened (.fcvtds .al 0 2) 0x7F800001] =
      [some (0x41EFFFFFFFE00000, 0), some (0xC16FFFFFE0000000, 0), some (0x3FB99999A0000000, 0),
        some (0x36A0000000000000, 0),
        some (0x7FF8000020000000, 1)] ∧
    [(after (exec (.fcvtsd .al 0 1) (doubles [(1, 0x47EFFFFFEFFFFFFF)] State.reset))).map (fun t => (t.word 0,
      t.fpscr.word)),
      (after (exec (.fcvtsd .al 0 1) (doubles [(1, 0x3690000000000001)] State.reset))).map (fun t => (t.word 0,
        t.fpscr.word))] =
      [some (0x7F7FFFFF, 0x10), some (1, 0x18)] := by decide +kernel

/-- 95_test_vectors.md 2.5. -/
theorem test_copy :
    [sgl (.fcpys .al 0 1) [(1, 0x7F800001)] flushing, sgl (.fnegs .al 0 1) [(1, 0xFFC00001)], sgl (.fabss .al 0 1) [(1,
      0xFF800001)]] =
      [some (0x7F800001, 0x01000000), some (0x7FC00001, 0), some (0x7F800001, 0)] ∧
    [dbl (.fcpyd .al 0 1) [(1, 0x7FF0000000000001)], dbl (.fnegd .al 0 1) [(1, 0)], dbl (.fabsd .al 0 1) [(1,
      0xFFF8000000000001)]] =
      [some (0x7FF0000000000001, 0), some (0x8000000000000000, 0), some (0x7FF8000000000001, 0)] := by decide +kernel

/-- The words of memory at addresses after an instruction, and an ARM register. -/
def stored (i : Instr) (s : State) (l : List Word) (rn : RReg) : Option (List Word × Word) :=
  (after (exec i s)).map fun t => (l.map fun a => readWord false a t.mem, t.armReg rn)

/-- 95_test_vectors.md 2.6. -/
theorem test_store :
    [stored (.fsts .al true 1 0 0) (arms [(0, 0x1000)] (singles [(1, 1)] flushing)) [0x1000] 0,
      stored (.fstd .al true 3 2 255) (arms [(2, 0x2000)] (doubles [(3, 0x3FF0000000000000)] State.reset)) [0x23FC, 0x2400]
        2,
      stored (.fstmsDecrement .al 4 13 4) (arms [(13, 0x1000)] (singles [(4, 1), (5, 2), (6, 3), (7, 4)] State.reset))
        [0xFF0, 0xFF4, 0xFF8, 0xFFC] 13,
      stored (.fstmdUnindexed .al 0 0 4) (arms [(0, 0x3000)] (doubles [(0, 0x3FF0000000000000),
        (1, 0x4000000000000000)] State.reset))
        [0x3000, 0x3004, 0x3008, 0x300C] 0] =
    [some ([1], 0x1000), some ([0, 0x3FF00000], 0x2000), some ([1, 2, 3, 4], 0xFF0),
      some ([0, 0x3FF00000, 0, 0x40000000], 0x3000)] := by decide +kernel

/-- Registers after an instruction, and an ARM register. -/
def loaded (i : Instr) (s : State) (l : List SReg) (rn : RReg) : Option (List Word × Word) :=
  (after (exec i s)).map fun t => (l.map fun j => t.word j, t.armReg rn)

/-- 95_test_vectors.md 2.6. -/
theorem test_load :
    [loaded (.flds .al false 5 1 2) (arms [(1, 0x1010)] (words [(0x1008, 0x7F800001)] State.reset)) [5] 1,
      loaded (.fldd .al true 1 0 2) (arms [(0, 0x1000)] (words [(0x100C, 0x40080000)] State.reset)) [2, 3] 0,
      loaded (.fldmsIncrement .al 4 13 2) (arms [(13, 0xFF0)] (words [(0xFF0, 1), (0xFF4, 2)] State.reset)) [4, 5] 13,
      loaded (.fldmdIncrement .al 4 0 4) (arms [(0, 0x3000)] (words [(0x3004, 0x3FF00000),
        (0x300C, 0x40000000)] State.reset))
        [8, 9, 10, 11] 0] =
    [some ([0x7F800001], 0x1010), some ([0, 0x40080000], 0x1000), some ([1, 2], 0xFF8),
      some ([0, 0x3FF00000, 0, 0x40000000], 0x3010)] ∧
    [exec (.flds .al false 5 1 2) (arms [(1, 0x1012)] State.reset),
      exec (.flds .al false 5 1 2) (arms [(1, 0x1010)] (withCfg { Config.default with memMap := [⟨0, 0x1008, true, true⟩]
        })),
      exec (.fldmsUnindexed .al 30 0 4) State.reset, exec (.fldmdUnindexed .al 15 0 4) State.reset,
      exec (.fldmdUnindexed .al 0 0 0) State.reset, exec (.flds .al true 0 15 0) State.reset].map stop =
    [some (.refused .misalignedAccess), some (.fault (.dataAbort 0x1008)),
      some (.refused (.unpredictable .registerListPastEnd)),
      some (.refused (.unpredictable .registerListPastEnd)), some (.refused (.unallocatedEncoding .noRegister)),
      some (.refused (.unallocatedEncoding .baseR15))] := by decide +kernel

/-- 95_test_vectors.md 3.4: registers of unknown precision saved, used for other purposes and restored. -/
theorem test_unknownPrecision :
    let s := arms [(13, 0x2000)] (doubles [(0, 0x3FF0000000000000), (9, 0x4000000000000000)] (singles [(16, 0x3F800000),
      (17, 5)] State.reset))
    let t := after (exec (.fstmxDecrement .al 8 13 5) s)
    t.map (fun t => ([0x1FEC, 0x1FF0, 0x1FF4, 0x1FF8].map fun a => readWord false a t.mem, t.armReg 13)) =
      some ([0x3F800000, 5, 0, 0x40000000], 0x1FEC) ∧
    (((t.bind fun t => after (exec (.fcpyd .al 8 0) t)).bind fun t => after (exec (.fldmxIncrement .al 8 13 5) t)).map
      fun t => ([16, 17, 18, 19].map fun j => (t.word j, t.tagAt j), t.armReg 13)) =
      some ([(0x3F800000, .any), (5, .any), (0, .any), (0x40000000, .any)], 0x2000) ∧
    stop (exec (.fstmdDecrement .al 8 13 4) s) = some (.refused .crossPrecisionRead) := by decide +kernel

/-- 45_load_store.md R236: an FLDMX finds its image gone once an FSTD has written one of its words, and in the recommended
format matches an FSTMD. -/
theorem test_unknownPrecision_images :
    let s := arms [(13, 0x2000)] (doubles [(8, 0x3FF0000000000000), (9, 0x4000000000000000)] State.reset)
    ((after (exec (.fstmxDecrement .al 8 13 5) s)).bind fun t => (after (exec (.fstd .al true 8 13 4) t)).bind fun u =>
      stop (exec (.fldmxIncrement .al 8 13 5) u)) = some (.refused .unmatchedFldmx) ∧
    ((after (exec (.fstmdDecrement .al 8 13 4) s)).bind fun t => after (exec (.fldmxUnindexed .al 8 13 5) t)).map
      (fun t => (t.rawDouble 8, t.rawDouble 9, t.tagAt 16)) =
      some (0x3FF0000000000000, 0x4000000000000000, .any) := by decide +kernel

/-- 60_exceptions.md R306: in unprivileged execution FMXR to FPEXC is UNDEFINED, with an SBZ bit set too; and the abort of a
transfer that passes the end of the address space is at the lowest-addressed refused word (R300). -/
theorem test_stops :
    [step { running 0xEEE80A11 with cfg := { Config.default with userMode := true } },
      step { running 0xEEE10A11 with cfg := { Config.default with userMode := true } },
      exec (.fldmsUnindexed .al 0 0 2) (arms [(0, 0xFFFFFFFC)] (withCfg { Config.default with memMap := [⟨4, 4, true, true⟩] }))].map
        stop =
      [some (.fault (.undefinedInstruction 0x8000 0xEEE80A11)), some (.refused (.unpredictable .sbz)),
        some (.fault (.dataAbort 0))] := by decide +kernel

/-- 95_test_vectors.md 2.7, 3.5, 3.6. -/
theorem test_singleTransfer :
    (after (exec (.fmxr .al .fpscr 0) (arms [(0, 0x00C00000)] State.reset))).map (fun t => t.fpscr) = some { Fpscr.reset
      with rmode := .rz } ∧
    [exec (.fmxr .al .fpscr 0) (arms [(0, 0x100)] State.reset),
      exec (.fmxr .al .fpscr 0) (arms [(0, 0x08000000)] State.reset),
      exec (.fmrs .al 15 0) State.reset, exec (.fmrx .al 0 (.subArch 2)) State.reset].map stop =
      [some (.refused .badFpscrWrite), some (.refused .badFpscrWrite), some (.refused (.unpredictable .toArmR15)),
        some (.refused .subArchDefined)] ∧
    (after (exec (.fmrx .al 0 .fpscr) { State.reset with fpscr := fpscrOf 0x60C00010 })).map (fun t => t.armReg 0) = some
      0x60C00010 ∧
    (after (exec (.fmrx .al 2 .fpexc) State.reset)).map (fun t => t.armReg 2) = some 0x40000000 ∧
    (after (exec (.fmstat .al) { State.reset with fpscr := fpscrOf 0x30000000 })).map (fun t => t.cpsr) = some ⟨false,
      false, true, true⟩ ∧
    (after (exec (.fmsr .al 3 2) (arms [(2, 7)] State.reset))).map (fun t => (t.word 3, t.tagAt 3)) = some (7, .sgl) ∧
    (after (exec (.fmrs .al 3 1) (singles [(1, 9)] State.reset))).map (fun t => t.armReg 3) = some 9 := by decide +kernel

/-- 95_test_vectors.md 3.5: FMDLR and FMDHR, and a use between them. -/
theorem test_halves :
    let t := after (exec (.fmdlr .al 1 2) (arms [(2, 4), (3, 0x3FF00000)] State.reset))
    t.bind (fun t => stop (exec (.faddd .al 2 1 1) t)) = some (.refused .halfWrittenDouble) ∧
    (t.bind fun t => after (exec (.fmdhr .al 1 3) t)).map (fun t => (t.rawDouble 1, t.pairAt 1)) = some
      (0x3FF0000000000004, .whole) ∧
    (after (exec (.fmrdl .al 2 1) (doubles [(1, 0x3FF0000000000004)] State.reset))).map (fun t => t.armReg 2) = some 4 ∧
    (after (exec (.fmrdh .al 2 1) (doubles [(1, 0x3FF0000000000004)] State.reset))).map (fun t => t.armReg 2) = some
      0x3FF00000 := by
  decide +kernel

/-- 95_test_vectors.md 2.8. -/
theorem test_pairTransfer :
    loaded (.fmsrr .al 2 5 4) (arms [(4, 0x11111111), (5, 0x22222222)] State.reset) [2, 3] 4 = some ([0x11111111,
      0x22222222], 0x11111111) ∧
    (after (exec (.fmrrs .al 7 6 5) (singles [(5, 0xAAAAAAAA),
      (6, 0xBBBBBBBB)] State.reset))).map (fun t => (t.armReg 6, t.armReg 7)) =
      some (0xAAAAAAAA, 0xBBBBBBBB) ∧
    (after (exec (.fmdrr .al 0 0 1) (arms [(1, 0x3FF00000)] State.reset))).map (fun t => t.rawDouble 0) = some
      0x3FF0000000000000 ∧
    (after (exec (.fmrrd .al 2 3 5) (doubles [(5, 0x4008000000000000)] State.reset))).map (fun t => (t.armReg 2, t.armReg
      3)) =
      some (0, 0x40080000) ∧
    stop (exec (.fmsrr .al 31 1 2) State.reset) = some (.refused (.unallocatedEncoding .pairPastEnd)) := by decide +kernel

/-- 95_test_vectors.md 3.7: a program of one word, run from the state after reset; a condition that fails, and an UNDEFINED word. -/
theorem test_step :
    (after (step ((singles [(1, 0x3F800000), (2, 0x3F800000)] State.reset).withFetchWord 32 0xEE300A81))).map
      (fun t => (t.word 0, t.pc)) = some (0x40000000, 0x8004) ∧
    (after (step (State.reset.withFetchWord 32 0x0E800A40))).map (fun t => t.pc) = some 0x8004 ∧
    [step (State.reset.withFetchWord 32 0x1E800A40), step (State.reset.withFetchWord 32 0xEE100A11), step State.reset].map stop =
      [some (.fault (.undefinedInstruction 0x8000 0x1E800A40)), some (.refused (.unpredictable .sbz)),
        some (.refused .finalState)] := by decide +kernel

/-! ### The hypotheses of the statements can be met: one theorem for each statement that has any -/

theorem next_get {o : Host.Outcome State Fault Refusal} (h : (after o).isSome = true) : o = .next ((after o).get h) := by
  cases o with
  | next t => rfl
  | fault f => cases h
  | refused r => cases h

theorem next_of_isSome {o : Host.Outcome State Fault Refusal} (h : (after o).isSome = true) : ∃ t, o = .next t :=
  ⟨_, next_get h⟩

theorem fetched_running (w : Word) : Fetched w (running w) := ⟨by simp [running, State.reset], 0, by simp [running, State.reset], rfl⟩

theorem readable_reset (f : Fmt) (r : VReg f) : Readable f r State.reset := by
  cases f <;> revert r <;> unfold Readable WordReadable <;> decide

theorem writable_reset (f : Fmt) (r : VReg f) : Writable f r State.reset := by
  cases f <;> revert r <;> unfold Writable <;> decide

theorem ready_reset (d : Bool) : Ready .al d State.reset := ⟨rfl, fun _ => rfl⟩

/-- The pairing states given. -/
def paired (l : List (DReg × Pairing)) (s : State := .reset) : State := l.foldl (fun s p => s.setPair p.1 p.2) s

/-- Every content tag the same. -/
def tagged (t : Tag) (o : Overlap := .tagged) : State :=
  { State.reset with tag := Vector.replicate 32 t, cfg := { Config.default with overlap := o } }

theorem witness_DecodeEncode : (Instr.fldmdDecrement .le 15 14 254).wellFormed = true ∧
    (Instr.fstmxIncrement .eq 0 0 255).wellFormed = true ∧ (Instr.fmrx .al 15 (.subArch 15)).wellFormed = true := by decide

theorem witness_EncodeDecode : decode 0xDD7EFAFF#32 = .ok (.fldmsDecrement .le 31 14 255) := by decide

theorem witness_UndefinedEncodings (w : Word)
    (h : w ∈ [0xEE800A40#32, 0xEEBF0BC0#32, 0xEE310B22#32, 0xEDA00A01#32, 0xEDD00B00#32, 0xEEE10B10#32, 0xEE100B90#32,
      0xEEF70A90#32, 0xEC410B30#32]) :
    VfpWord w ∧ undefinedWord w = true ∧ Fetched w (running w) ∧ condOf (w.extractLsb' 28 4) = some .al ∧
      conditionPassed .al (running w).cpsr = true := by
  simp only [List.mem_cons, List.not_mem_nil, or_false] at h
  rcases h with rfl | rfl | rfl | rfl | rfl | rfl | rfl | rfl | rfl <;>
    exact ⟨by simp only [VfpWord]; decide, by decide, fetched_running _, by decide, rfl⟩

theorem witness_StepRunsDecoded : Fetched 0xEE300A81#32 (running 0xEE300A81) ∧
    decode 0xEE300A81#32 = .ok (.fadds .al 0 1 2) ∧ State.reset.pc.extractLsb' 0 2 = 0 ∧
    decodeTableWord 32 0xEE300A81 = some (.fadds .al 0 1 2) := ⟨fetched_running _, by decide⟩

theorem witness_StepWithoutInstruction :
    ({ State.reset with pc := 2 } : State).pc.extractLsb' 0 2 ≠ 0 ∧
    (State.reset.pc - State.reset.textBase).toNat = 4 * State.reset.text.length ∧ State.reset.pc.extractLsb' 0 2 = 0 ∧
    4 * State.reset.text.length < (({ State.reset with pc := 0x8004 } : State).pc - State.reset.textBase).toNat ∧
    ((0x8000#32 - 0x7FFD#32).toNat % 4 ≠ 0) ∧ Fetched 0xE1A00000#32 (running 0xE1A00000) ∧ ¬VfpWord 0xE1A00000#32 :=
  ⟨by decide, by decide, by decide, by decide, by decide, fetched_running _, by simp only [VfpWord]; decide⟩

theorem witness_ConditionFailed (w : Word) (h : w ∈ [0x0E300A81#32, 0x0E800A40#32, 0x0C000A00#32]) :
    Fetched w (running w) ∧ VfpWord w ∧ condOf (w.extractLsb' 28 4) = some .eq ∧
      conditionPassed .eq (running w).cpsr = false ∧ conditionPassed (Instr.fmstat .eq).cond State.reset.cpsr = false := by
  simp only [List.mem_cons, List.not_mem_nil, or_false] at h
  rcases h with rfl | rfl | rfl <;> exact ⟨fetched_running _, by simp only [VfpWord]; decide, by decide, rfl, rfl⟩

theorem witness_PcAdvances :
    ∃ t, step { running 0xEE012B10 with pc := 0xFFFFFFFC, textBase := 0xFFFFFFFC } = .next t := next_of_isSome (by decide +kernel)

/-- The same on a variant without double precision. -/
def single (w : Word) : State := { running w with cfg := { Config.default with hasDouble := false } }

theorem witness_SinglePrecisionVariant (w : Word) (h : w ∈ [0xEE310B02#32, 0xEE710B02#32, 0xEEB70AE0#32]) :
    Fetched w (single w) ∧ VfpWord w ∧ condOf (w.extractLsb' 28 4) = some .al ∧
      conditionPassed .al (single w).cpsr = true ∧ (single w).cfg.hasDouble = false ∧
      ((isCp11 w = true ∧ (∀ i, decode w = .ok i → ¬i.isUnknownPrecision)) ∨ (∃ i, decode w = .ok i ∧ i.isFcvtds)) := by
  have hf : Fetched w (single w) := ⟨(fetched_running w).aligned, (fetched_running w).place⟩
  simp only [List.mem_cons, List.not_mem_nil, or_false] at h
  rcases h with rfl | rfl | rfl <;> refine ⟨hf, by simp only [VfpWord]; decide, by decide, rfl, rfl, ?_⟩
  · have e : decode 0xEE310B02#32 = .ok (.faddd .al 0 1 2) := by decide
    exact .inl ⟨by decide, fun i hi => by rw [e] at hi; cases hi; exact not_false⟩
  · have e : decode 0xEE710B02#32 = .error .undefined := by decide
    exact .inl ⟨by decide, fun i hi => by rw [e] at hi; cases hi⟩
  · exact .inr ⟨.fcvtds .al 0 1, by decide, trivial⟩

theorem witness_StepKeepsInvariant : Machine.Inv (running 0xEE012B10) ∧ ∃ t, step (running 0xEE012B10) = .next t :=
  ⟨⟨⟨by simp [running, State.reset], by simp [running, State.reset]⟩, rfl, rfl, .inl rfl, rfl, by decide, by decide,
    fun _ _ h => absurd h List.not_mem_nil, fun _ h => absurd h List.not_mem_nil⟩, next_of_isSome (by decide +kernel)⟩

theorem witness_MemoryOnlyByLoadsAndStores :
    (Instr.fmrrd .al 0 1 15).cls ≠ .load ∧ (Instr.fmrrd .al 0 1 15).cls ≠ .store := by decide

theorem notInBlock {a : Word} {n byte : Nat} (h : ∀ i, i < 4 * n → byte ≠ byteAddr a i) : ¬InBlock a n byte :=
  fun ⟨i, hi, e⟩ => h i hi e

theorem witness_StoresWriteTheirWords :
    (∃ t, exec (.flds .al true 31 0 255) State.reset = .next t) ∧ (Instr.flds .al true 31 0 255).cls ≠ .store ∧
    (∃ t, exec (.fstd .al false 15 0 1) State.reset = .next t) ∧
    (Instr.fstd .al false 15 0 1).transfer = some ⟨.dbl, .negativeOffset, 15, 1, 0, 1⟩ ∧
    ¬InBlock (startAddress .negativeOffset (State.reset.armReg 0) 1) (1 * wordsOf .dbl) 4 ∧
    ¬InBlock (startAddress .negativeOffset (State.reset.armReg 0) 1) (1 * wordsOf .dbl) 0xFFFFFFFB ∧
    (∃ t, exec (.fstmxUnindexed .al 15 0 3) State.reset = .next t) ∧
    ¬InBlock (startAddress .unindexed (State.reset.armReg 0) 3) (2 * unknownCount 3 + 1) 12 ∧
    (∃ t, exec (.fstmxIncrement .al 15 0 3) State.reset = .next t) ∧
    ¬InBlock (startAddress .increment (State.reset.armReg 0) 3) (2 * unknownCount 3 + 1) 12 ∧
    (∃ t, exec (.fstmxDecrement .al 15 0 3) State.reset = .next t) ∧
    ¬InBlock (startAddress .decrement (State.reset.armReg 0) 3) (2 * unknownCount 3 + 1) 0 := by
  refine ⟨next_of_isSome ?_, ?_, next_of_isSome ?_, ?_, notInBlock ?_, notInBlock ?_, next_of_isSome ?_, notInBlock ?_,
    next_of_isSome ?_, notInBlock ?_, next_of_isSome ?_, notInBlock ?_⟩
  case refine_4 => rfl
  all_goals decide +kernel

theorem witness_CpsrOnlyByFmstat : (Instr.fcmps .al 31 0).wellFormed = true ∧ ¬(Instr.fcmps .al 31 0).isFmstat ∧
    ∃ t, exec (.fcmps .al 31 0) State.reset = .next t := ⟨rfl, not_false, next_of_isSome (by decide +kernel)⟩

theorem witness_FlagWriters :
    (Instr.fadds .al 0 1 2).cls ≠ .compare ∧ ¬(Instr.fadds .al 0 1 2).writesFpscr ∧
    (∃ t, exec (.fadds .al 0 1 2) State.reset = .next t) ∧ (Instr.fcmpezd .al 15).cls = .compare ∧
    conditionPassed (Instr.fcmpezd .al 15).cond State.reset.cpsr = true ∧ (∃ t, exec (.fcmpezd .al 15) State.reset = .next t) ∧
    Ready .al false (arms [(14, 0xF0000000)] .reset) ∧ (14 : RReg) ≠ 15 ∧
    (arms [(14, 0xF0000000)] .reset).armReg 14 = 0xF0000000 :=
  ⟨by decide, not_false, next_of_isSome (by decide +kernel), by decide, by decide, next_of_isSome (by decide +kernel),
    ⟨by decide, by decide⟩, by decide, by decide⟩

theorem witness_FpscrControl : ¬(Instr.fdivs .al 0 1 2).writesFpscr ∧ ∃ t, exec (.fdivs .al 0 1 2) State.reset = .next t :=
  ⟨not_false, next_of_isSome (by decide +kernel)⟩

theorem witness_NeverSignal (i : Instr)
    (h : i ∈ [Instr.fcpys .al 31 30, .flds .al true 0 0 0, .fsts .al true 31 0 0, .fmrs .al 0 31, .fmdrr .al 15 0 1]) :
    (i.cls = .copy ∨ i.cls = .load ∨ i.cls = .store ∨ i.cls = .singleTransfer ∨ i.cls = .twoRegisterTransfer) ∧
      (∃ t, exec i State.reset = .next t) ∧ ¬i.writesFpscr := by
  simp only [List.mem_cons, List.not_mem_nil, or_false] at h
  rcases h with rfl | rfl | rfl | rfl | rfl <;> exact ⟨by decide, next_of_isSome (by decide +kernel), not_false⟩

theorem witness_ConstantsKept : ∃ t, step (running 0xEE300A81) = .next t := next_of_isSome (by decide +kernel)

theorem witness_BasicArithmetic : Ready .al true State.reset ∧ Ready .al false State.reset ∧ Untrapped State.reset ∧
    Scalar State.reset ∧ (∀ r, Readable .sgl r State.reset ∧ Writable .sgl r State.reset) ∧
    (∀ r, Readable .dbl r State.reset ∧ Writable .dbl r State.reset) :=
  ⟨ready_reset _, ready_reset _, rfl, rfl, fun r => ⟨readable_reset .sgl r, writable_reset .sgl r⟩,
    fun r => ⟨readable_reset .dbl r, writable_reset .dbl r⟩⟩

theorem witness_MultiplyAccumulate : Ready .al true State.reset ∧ Ready .al false State.reset ∧ Untrapped State.reset ∧
    Scalar State.reset ∧ (∀ r, Readable .sgl r State.reset) ∧ (∀ r, Readable .dbl r State.reset) :=
  ⟨ready_reset _, ready_reset _, rfl, rfl, readable_reset .sgl, readable_reset .dbl⟩

theorem witness_Comparisons : Ready .al true State.reset ∧ Ready .al false State.reset ∧ Untrapped State.reset ∧
    (∀ r, Readable .sgl r State.reset) ∧ (∀ r, Readable .dbl r State.reset) :=
  ⟨ready_reset _, ready_reset _, rfl, readable_reset .sgl, readable_reset .dbl⟩

theorem witness_PrecisionConversions : Ready .al true State.reset ∧ Untrapped State.reset ∧ Readable .sgl 31 State.reset ∧
    Writable .dbl 15 State.reset ∧ Readable .dbl 15 State.reset ∧ Writable .sgl 31 State.reset :=
  ⟨ready_reset _, rfl, readable_reset _ _, writable_reset _ _, readable_reset _ _, writable_reset _ _⟩

theorem witness_IntegerResults : Ready .al true State.reset ∧ Ready .al false State.reset ∧ Untrapped State.reset ∧
    Readable .sgl 31 State.reset ∧ Readable .dbl 15 State.reset ∧ Writable .sgl 31 State.reset :=
  ⟨ready_reset _, ready_reset _, rfl, readable_reset _ _, readable_reset _ _, writable_reset _ _⟩

theorem witness_IntegerOperands : Ready .al true State.reset ∧ Ready .al false State.reset ∧ Untrapped State.reset ∧
    Readable .sgl 31 State.reset ∧ Writable .dbl 15 State.reset ∧ Writable .sgl 31 State.reset :=
  ⟨ready_reset _, ready_reset _, rfl, readable_reset _ _, writable_reset _ _, writable_reset _ _⟩

theorem witness_Copies : Ready .al true State.reset ∧ Ready .al false State.reset ∧ Scalar State.reset ∧
    (∀ r, Readable .sgl r State.reset ∧ Writable .sgl r State.reset) ∧
    (∀ r, Readable .dbl r State.reset ∧ Writable .dbl r State.reset) :=
  ⟨ready_reset _, ready_reset _, rfl, fun r => ⟨readable_reset .sgl r, writable_reset .sgl r⟩,
    fun r => ⟨readable_reset .dbl r, writable_reset .dbl r⟩⟩

theorem loadReady {f : Fmt} {mode : AddrMode} {first k : Nat} {rn : RReg} {offset : BitVec 8}
    (h : rn ≠ 15 ∧ 0 < k ∧ first + k ≤ regCount f ∧ (State.reset.armReg rn).extractLsb' 0 2 = 0)
    (ha : ∀ i, i < k * wordsOf f →
      admits State.reset.cfg.memMap false (wordAddr (startAddress mode (State.reset.armReg rn) offset) i) = true) :
    LoadReady f mode first k rn offset State.reset :=
  ⟨⟨h.1, h.2.1, h.2.2.1, h.2.2.2⟩, fun _ _ => writable_reset _ _, ha⟩

theorem storeReady {f : Fmt} {mode : AddrMode} {first k : Nat} {rn : RReg} {offset : BitVec 8}
    (h : rn ≠ 15 ∧ 0 < k ∧ first + k ≤ regCount f ∧ (State.reset.armReg rn).extractLsb' 0 2 = 0)
    (ha : ∀ i, i < k * wordsOf f →
      admits State.reset.cfg.memMap true (wordAddr (startAddress mode (State.reset.armReg rn) offset) i) = true) :
    StoreReady f mode first k rn offset State.reset :=
  ⟨⟨h.1, h.2.1, h.2.2.1, h.2.2.2⟩, fun _ _ => readable_reset _ _, ha, fun _ _ => by simp [inText, State.reset],
    by simp [State.reset], by simp [State.reset]⟩

theorem witness_Loads : Ready .al true State.reset ∧ Ready .al false State.reset ∧
    LoadReady .sgl (offsetMode false) 31 1 14 255 State.reset ∧ LoadReady .dbl (offsetMode true) 15 1 0 0 State.reset ∧
    LoadReady .sgl .unindexed 31 1 0 1 State.reset ∧ LoadReady .sgl .increment 0 32 0 32 State.reset ∧
    LoadReady .sgl .decrement 0 32 0 32 State.reset ∧ LoadReady .dbl .unindexed 15 1 0 2 State.reset ∧
    LoadReady .dbl .increment 0 16 0 32 State.reset ∧ LoadReady .dbl .decrement 0 16 0 32 State.reset := by
  refine ⟨ready_reset _, ready_reset _, loadReady ?_ ?_, loadReady ?_ ?_, loadReady ?_ ?_, loadReady ?_ ?_, loadReady ?_ ?_,
    loadReady ?_ ?_, loadReady ?_ ?_, loadReady ?_ ?_⟩ <;> decide +kernel

theorem witness_Stores : Ready .al true State.reset ∧ Ready .al false State.reset ∧
    StoreReady .sgl (offsetMode false) 31 1 14 255 State.reset ∧ StoreReady .dbl (offsetMode true) 15 1 0 0 State.reset ∧
    StoreReady .sgl .unindexed 31 1 0 1 State.reset ∧ StoreReady .sgl .increment 0 32 0 32 State.reset ∧
    StoreReady .sgl .decrement 0 32 0 32 State.reset ∧ StoreReady .dbl .unindexed 15 1 0 2 State.reset ∧
    StoreReady .dbl .increment 0 16 0 32 State.reset ∧ StoreReady .dbl .decrement 0 16 0 32 State.reset := by
  refine ⟨ready_reset _, ready_reset _, storeReady ?_ ?_, storeReady ?_ ?_, storeReady ?_ ?_, storeReady ?_ ?_, storeReady ?_ ?_,
    storeReady ?_ ?_, storeReady ?_ ?_, storeReady ?_ ?_⟩ <;> decide +kernel

/-- A state with every double half-written, for FSTMX. -/
def halves : State := paired ((List.range 16).map fun n => (Fin.ofNat 16 n, if n % 2 = 0 then .lowOnly else .highOnly))

theorem unknownStoreReady {mode : AddrMode} {first : Nat} {rn : RReg} {offset : BitVec 8}
    (h : rn ≠ 15 ∧ 0 < unknownCount offset ∧ first + unknownCount offset ≤ regCount .dbl ∧
      (halves.armReg rn).extractLsb' 0 2 = 0)
    (ha : ∀ i, i < 2 * unknownCount offset + 1 →
      admits halves.cfg.memMap true (wordAddr (startAddress mode (halves.armReg rn) offset) i) = true) :
    UnknownStoreReady mode first (unknownCount offset) rn offset halves :=
  ⟨⟨h.1, h.2.1, h.2.2.1, h.2.2.2⟩, fun i _ => by
      have : ∀ n, Storable n halves := by unfold Storable; decide +kernel
      exact this _, ha, fun _ _ => Bool.eq_false_iff.2 (by
      have : halves.text = [] := by decide +kernel
      simp [inText, this]), by decide +kernel⟩

theorem witness_UnknownPrecisionStores : Ready .al false halves ∧
    UnknownStoreReady .unindexed 15 (unknownCount 3) 0 3 halves ∧ UnknownStoreReady .unindexed 0 (unknownCount 33) 0 33 halves ∧
    UnknownStoreReady .increment 15 (unknownCount 3) 0 3 halves ∧ UnknownStoreReady .increment 0 (unknownCount 33) 0 33 halves ∧
    UnknownStoreReady .decrement 15 (unknownCount 3) 0 3 halves ∧ UnknownStoreReady .decrement 0 (unknownCount 33) 0 33 halves := by
  refine ⟨⟨by decide, by decide⟩, unknownStoreReady ?_ ?_, unknownStoreReady ?_ ?_, unknownStoreReady ?_ ?_,
    unknownStoreReady ?_ ?_, unknownStoreReady ?_ ?_, unknownStoreReady ?_ ?_⟩ <;> decide +kernel

/-- A state with the image of an FSTMX of `D[15]` at an address. -/
def saved (a : Word) (f : FstmxFormat) : State :=
  { withCfg { Config.default with fstmxFormat := f } with images := [⟨a, 15, [1, 2], [.lowOnly]⟩] }

theorem saved_loadReady (mode : AddrMode) (a : Word) (f : FstmxFormat) :
    UnknownLoadReady mode 15 (unknownCount 3) 0 3 (saved a f) := by
  refine ⟨⟨by decide, by decide, by decide, rfl⟩, fun i hi => ?_⟩
  have e : (saved a f).armReg 0 = 0 := rfl
  have m : (saved a f).cfg.memMap = Config.default.memMap := rfl
  rw [e, m]
  revert i
  cases mode <;> decide +kernel

theorem witness_UnknownPrecisionLoads :
    Ready .al false (saved 0 .standard) ∧ (∀ a f, ∀ img, img ∈ (saved a f).images → ImageOk img) ∧
    (∀ mode a f, UnknownLoadReady mode 15 (unknownCount 3) 0 3 (saved a f)) ∧
    (∀ f, (matchingImage (saved 0 f) 15 (unknownCount 3) ((saved 0 f).armReg 0)).isSome = true ∧
      (matchingImage (saved 0xFFFFFFF4 f) 15 (unknownCount 3) ((saved 0xFFFFFFF4 f).armReg 0 - off4 3)).isSome = true ∧
      matchingImage (saved 4 f) 15 (unknownCount 3) ((saved 4 f).armReg 0) = none ∧
      matchingImage (saved 4 f) 15 (unknownCount 3) ((saved 4 f).armReg 0 - off4 3) = none) := by
  refine ⟨⟨by decide, by decide⟩, fun a f img hi => ?_, saved_loadReady, fun f => by cases f <;> decide⟩
  simp only [saved, List.mem_singleton] at hi
  subst hi
  exact ⟨rfl, Nat.one_pos, Nat.le_refl 16⟩

theorem witness_SingleTransfers : Ready .al false State.reset ∧ (14 : RReg) ≠ 15 ∧ Writable .sgl 31 State.reset ∧
    Readable .sgl 31 State.reset := ⟨ready_reset _, by decide, writable_reset _ _, readable_reset _ _⟩

theorem witness_HalfWrites : Ready .al true State.reset ∧ Ready .al true halves ∧ (14 : RReg) ≠ 15 ∧
    State.reset.pairAt 15 = .whole ∧ halves.pairAt 14 = .lowOnly ∧ halves.pairAt 15 = .highOnly := by
  exact ⟨ready_reset _, ⟨by decide, by decide⟩, by decide, by decide, by decide, by decide⟩

theorem witness_HalfReads : Ready .al true State.reset ∧ (14 : RReg) ≠ 15 ∧ Readable .dbl 15 State.reset :=
  ⟨ready_reset _, by decide, readable_reset _ _⟩

/-- A word that FMXR may write to the FPSCR, with every bit set that may be. -/
def fullFpscr : Word := 0xF3F7009F

theorem fpscrAdmits_fullFpscr : FpscrAdmits fullFpscr := ⟨by decide, by decide, by decide⟩

theorem witness_SystemWrites :
    let s := arms [(14, fullFpscr), (0, 0x40000000)] (withCfg { Config.default with subArch := [17, 31] })
    Ready .al false s ∧ (14 : RReg) ≠ 15 ∧ FpscrAdmits (s.armReg 14) ∧ s.cfg.userMode = false ∧
      s.armReg 0 = 0x40000000#32 ∧ 1#1 ++ 1#4 ∈ s.cfg.subArch ∧ 1#1 ++ 15#4 ∈ s.cfg.subArch := by
  exact ⟨⟨by decide, by decide⟩, by decide, fpscrAdmits_fullFpscr, by decide, by decide, by decide, by decide⟩

theorem witness_SystemReads :
    let s := withCfg { Config.default with subArch := [17, 31] }
    Ready .al false s ∧ (14 : RReg) ≠ 15 ∧ s.cfg.userMode = false ∧ 1#1 ++ 1#4 ∈ s.cfg.subArch ∧
      1#1 ++ 15#4 ∈ s.cfg.subArch := by
  exact ⟨⟨by decide, by decide⟩, by decide, by decide, by decide, by decide⟩

/-- 60_exceptions.md R293: FMXR to a supplied register writes its content by its own selector and no other's, FMRX answers by the
selector, and a register that is not supplied is refused beside one that is. -/
theorem test_subArch :
    let s := arms [(0, 7)] (withCfg { Config.default with subArch := [17] })
    let t := { s with pc := s.pc + 4, subArch := s.subArch.set 1 (Config.subArchWrite 17 7 0) }
    exec (.fmxr .al (.subArch 1) 0) s = .next t ∧
    exec (.fmrx .al 3 (.subArch 1)) t = .next (t.setArm 3 (Config.subArchRead 17 (Config.subArchWrite 17 7 0))).advance ∧
    stop (exec (.fmxr .al (.subArch 2) 0) s) = some (.refused .subArchDefined) := ⟨rfl, rfl, rfl⟩

theorem witness_Fmstat : Ready .ne false State.reset := ⟨by decide, by decide⟩

theorem witness_PairTransfers : Ready .al false State.reset ∧ (14 : RReg) ≠ 15 ∧ (0 : RReg) ≠ 15 ∧ (0 : RReg) ≠ 14 ∧
    (31 : SReg).val = (30 : SReg).val + 1 ∧ (2 : SReg).val = (1 : SReg).val + 1 ∧
    (∀ r, Readable .sgl r State.reset ∧ Writable .sgl r State.reset) ∧
    (withCfg { Config.default with pairOrder := .swapped }).cfg.pairOrder = .swapped :=
  ⟨ready_reset _, by decide, by decide, by decide, rfl, rfl, fun r => ⟨readable_reset .sgl r, writable_reset .sgl r⟩, rfl⟩

theorem witness_DoubleTransfers : Ready .al true State.reset ∧ (14 : RReg) ≠ 15 ∧ (0 : RReg) ≠ 15 ∧ (0 : RReg) ≠ 14 ∧
    Writable .dbl 15 State.reset ∧ Readable .dbl 15 State.reset :=
  ⟨ready_reset _, by decide, by decide, by decide, writable_reset _ _, readable_reset _ _⟩

/-- The parameters after reset, in a rounding mode. -/
def env (fz : Bool := false) (n : NanSelect := .recommended) : FpEnv := ⟨{ Config.default with nanSelect := n }, .rn, fz, false⟩

theorem value_max : valueOf .sgl 0x7F7FFFFF#32 = 16777215 * 2 ^ 104 := by
  norm_num [valueOf, signOf, expOf, fracOf, Fmt.width, Fmt.fracBits, Fmt.expBits, Fmt.emax, BitVec.msb_eq_decide]

theorem value_min : valueOf .sgl 1#32 = 1 / 2 ^ 149 := by
  norm_num [valueOf, signOf, expOf, fracOf, Fmt.width, Fmt.fracBits, Fmt.expBits, Fmt.emin, BitVec.msb_eq_decide]

theorem value_double : valueOf .dbl 0x3FF8000000000000#64 = 3 / 2 := by
  norm_num [valueOf, signOf, expOf, fracOf, Fmt.width, Fmt.fracBits, Fmt.expBits, Fmt.emax, BitVec.msb_eq_decide]

theorem witness_RoundedArithmetic : Numeric .sgl 0x7F7FFFFF#32 ∧ Numeric .sgl 1#32 ∧
    flushes .sgl (env) 0x7F7FFFFF#32 = false ∧ flushes .sgl (env) 1#32 = false ∧
    valueOf .sgl 0x7F7FFFFF#32 + valueOf .sgl 1#32 ≠ 0 ∧ valueOf .sgl 0x7F7FFFFF#32 - valueOf .sgl 1#32 ≠ 0 ∧
    valueOf .sgl 0x7F7FFFFF#32 * valueOf .sgl 1#32 ≠ 0 ∧ valueOf .sgl 0x7F7FFFFF#32 ≠ 0 ∧ valueOf .sgl 1#32 ≠ 0 ∧
    0 < valueOf .sgl 1#32 := by
  rw [value_max, value_min]
  refine ⟨by unfold Numeric; decide, by unfold Numeric; decide, by decide, by decide, ?_, ?_, ?_, ?_, ?_, ?_⟩ <;> norm_num

theorem witness_RoundedConversions : Numeric .dbl 0x3FF8000000000000#64 ∧
    flushes .dbl (env true) 0x3FF8000000000000#64 = false ∧ valueOf .dbl 0x3FF8000000000000#64 ≠ 0 ∧
    (0x80000000#32 : Word) ≠ 0 ∧ (0xFFFFFFFF#32 : Word) ≠ 0 := by
  rw [value_double]
  exact ⟨by unfold Numeric; decide, by decide, by norm_num, by decide, by decide⟩

/-- Patterns that are no NaN and not flushed, of each kind: infinities, zeros, numbers. -/
theorem witness_SpecialOperands :
    [0x7F800000#32, 0xFF800000#32, 0#32, 0x80000000#32, 0x3F800000#32, 0xBF800000#32, 1#32].all
      (fun a => !isNan .sgl a && !flushes .sgl (env) a) = true ∧
    (isInf .sgl 0x7F800000#32 = true ∧ isInf .sgl 0xFF800000#32 = true ∧
      signOf .sgl 0x7F800000#32 ≠ signOf .sgl 0xFF800000#32) ∧
    (isZero .sgl 0#32 = true ∧ isZero .sgl 0x80000000#32 = true ∧ isZero .sgl 1#32 = false ∧ Numeric .sgl 1#32 ∧
      Numeric .sgl 0#32 ∧ Numeric .sgl 0xBF800000#32) ∧
    (isZero .sgl 0xBF800000#32 = false ∧ signOf .sgl 0xBF800000#32 = true ∧ signOf .sgl 0x7F800000#32 = false) ∧
    valueOf .sgl 0#32 + valueOf .sgl 0x80000000#32 = 0 := by
  have h1 : expOf .sgl 0#32 = 0 ∧ fracOf .sgl 0#32 = 0 ∧ expOf .sgl 0x80000000#32 = 0 ∧ fracOf .sgl 0x80000000#32 = 0 := by
    decide
  refine ⟨by decide +kernel, by decide +kernel, by unfold Numeric; decide +kernel, by decide +kernel, ?_⟩
  simp only [valueOf, h1, if_true, Nat.cast_zero, zero_mul, mul_zero, add_zero]

theorem witness_NanOperands :
    (flushes .sgl (env) 0#32 = false ∧ flushes .sgl (env) 0x7F800001#32 = false ∧
      (isNan .sgl 0#32 || isNan .sgl 0x7F800001#32) = true) ∧
    (isNan .sgl 0#32 = false ∧ isQnan .sgl 0xFFFFFFFF#32 = true ∧ flushes .sgl (env) 0xFFFFFFFF#32 = false ∧
      (env).dn = false) ∧
    isNan .dbl 0x7FF0000000000001#64 = true ∧ isNan .sgl 0x7F800001#32 = true ∧ (env).cfg.nanSelect = .recommended ∧
    (env false .free).cfg.nanSelect = .free ∧ ({ env with dn := true } : FpEnv).dn = true := by decide

theorem witness_FlushToZero : (env false).fz = false ∧ (env true).fz = true ∧ isDenorm .sgl 0x007FFFFF#32 = true ∧
    isDenorm .sgl 0x00800000#32 = false ∧ isDenorm .dbl 1#64 = true ∧ isDenorm .dbl 0#64 = false ∧
    (env true).cfg.fzSign = .keep ∧ isNan .sgl 0x007FFFFF#32 = false ∧ isNan .sgl 0x7F800000#32 = false ∧
    flushes .sgl (env true) 1#32 = true ∧ flushes .sgl (env true) 0x807FFFFF#32 = true ∧
    flushes .dbl (env true) 0x800FFFFFFFFFFFFF#64 = true := by decide

theorem witness_ComparisonRelation :
    isNan .sgl (fzIn .sgl (env) 0x7F800001#32) = true ∧ isNan .sgl (fzIn .sgl (env true) 0x7F800000#32) = false ∧
    isNan .sgl (fzIn .sgl (env true) 1#32) = false ∧ flushes .sgl (env true) 0x7F800000#32 = false ∧
    flushes .dbl (env true) 0x0010000000000000#64 = false := by decide

theorem witness_PredicateTesting : (Instr.fcmpes .al 31 0).cls = .compare ∧
    conditionPassed (Instr.fcmpes .al 31 0).cond State.reset.cpsr = true ∧
    ∃ t, exec (.fcmpes .al 31 0) State.reset = .next t ∧ ∃ u, exec (.fmstat .al) t = .next u := by
  refine ⟨rfl, rfl, ?_⟩
  obtain ⟨t, ht⟩ := next_of_isSome (o := exec (.fcmpes .al 31 0) State.reset) (by decide +kernel)
  exact ⟨t, ht, _, rfl⟩

theorem witness_IntegerConversion :
    flushes .sgl (env true) 0x00800000#32 = false ∧ isNan .sgl (fzIn .sgl (env) 0x7F800001#32) = true ∧
    isInf .sgl (fzIn .sgl (env) 0xFF800000#32) = true ∧ Numeric .sgl (fzIn .sgl (env true) 1#32) ∧
    Numeric .sgl (fzIn .sgl (env) 0x4F800000#32) ∧ Numeric .sgl (fzIn .sgl (env) 0xCF000001#32) := by
  unfold Numeric; decide

theorem witness_ExactConversions : flushes .sgl (env) 1#32 = false ∧ isNan .sgl 1#32 = false ∧
    flushes .sgl (env true) 0xFF800000#32 = false ∧ isNan .sgl 0xFF800000#32 = false := by decide

theorem witness_MultiplyAccumulateSequences : Ready .al true State.reset ∧ Ready .al false State.reset ∧
    Untrapped State.reset ∧ Scalar State.reset ∧ (31 : SReg) ≠ 0 ∧ (15 : DReg) ≠ 0 ∧
    (∀ r, Readable .sgl r State.reset ∧ Writable .sgl r State.reset) ∧
    (∀ r, Readable .dbl r State.reset ∧ Writable .dbl r State.reset) :=
  ⟨ready_reset _, ready_reset _, rfl, rfl, by decide, by decide, fun r => ⟨readable_reset .sgl r, writable_reset .sgl r⟩,
    fun r => ⟨readable_reset .dbl r, writable_reset .dbl r⟩⟩

theorem witness_WordOrder : Memory.wf [(0xFFFFFFFF, 1)] := by decide

/-- The state that an instruction which answers one answers. -/
def stateAfter (i : Instr) (s : State) : State := (after (exec i s)).getD s

theorem exec_stateAfter {i : Instr} {s : State} (h : (after (exec i s)).isSome = true) : exec i s = .next (stateAfter i s) := by
  unfold stateAfter
  generalize exec i s = o at *
  cases o with
  | next t => rfl
  | fault f => cases h
  | refused r => cases h

theorem witness_PushPop : State.reset.mem.wf ∧ Ready .al true State.reset ∧ Ready .al false State.reset ∧
    (32#8).toNat % 2 = 0 ∧
    exec (.fstmsDecrement .al 0 13 32) State.reset = .next (stateAfter (.fstmsDecrement .al 0 13 32) State.reset) ∧
    Ready .al false (stateAfter (.fstmsDecrement .al 0 13 32) State.reset) ∧
    (∃ v, exec (.fldmsIncrement .al 0 13 32) (stateAfter (.fstmsDecrement .al 0 13 32) State.reset) = .next v) ∧
    exec (.fstmdDecrement .al 0 13 32) State.reset = .next (stateAfter (.fstmdDecrement .al 0 13 32) State.reset) ∧
    Ready .al true (stateAfter (.fstmdDecrement .al 0 13 32) State.reset) ∧
    (∃ v, exec (.fldmdIncrement .al 0 13 32) (stateAfter (.fstmdDecrement .al 0 13 32) State.reset) = .next v) :=
  ⟨by decide, ready_reset _, ready_reset _, by decide, exec_stateAfter (by decide +kernel),
    ⟨by decide +kernel, by decide +kernel⟩, next_of_isSome (by decide +kernel), exec_stateAfter (by decide +kernel),
    ⟨by decide +kernel, by decide +kernel⟩, next_of_isSome (by decide +kernel)⟩

/-- A Decrement FSTMX with an Increment FLDMX, a Decrement one with an Unindexed one, and an FSTMD with an FLDMX. -/
theorem witness_ImageRestored (i j : Instr) (s : State) (T T' : Transfer)
    (h : (i, j, s, T, T') ∈ [
      (Instr.fstmxDecrement .al 0 13 33, Instr.fldmxIncrement .al 0 13 33, halves, ⟨.dbl, .decrement, 0, 16, 13, 33⟩,
        ⟨.dbl, .increment, 0, 16, 13, 33⟩),
      (Instr.fstmxDecrement .al 15 13 3, Instr.fldmxUnindexed .al 15 13 3, halves, ⟨.dbl, .decrement, 15, 1, 13, 3⟩,
        ⟨.dbl, .unindexed, 15, 1, 13, 3⟩),
      (Instr.fstmdUnindexed .al 15 13 2, Instr.fldmxUnindexed .al 15 13 3, .reset, ⟨.dbl, .unindexed, 15, 1, 13, 2⟩,
        ⟨.dbl, .unindexed, 15, 1, 13, 3⟩)]) :
    i.LeavesImage s.cfg.fstmxFormat T ∧ conditionPassed i.cond s.cpsr = true ∧ exec i s = .next (stateAfter i s) ∧
    j.unknownTransfer = some T' ∧ j.cls = .load ∧ conditionPassed j.cond (stateAfter i s).cpsr = true ∧ T'.first = T.first ∧
    T'.k = T.k ∧ T'.rn ≠ 15 ∧
    startAddress T'.mode ((stateAfter i s).armReg T'.rn) T'.offset = startAddress T.mode (s.armReg T.rn) T.offset ∧
    Admitted false (startAddress T.mode (s.armReg T.rn) T.offset) (2 * T.k + 1) (stateAfter i s) := by
  simp only [List.mem_cons, List.not_mem_nil, or_false, Prod.mk.injEq] at h
  rcases h with ⟨rfl, rfl, rfl, rfl, rfl⟩ | ⟨rfl, rfl, rfl, rfl, rfl⟩ | ⟨rfl, rfl, rfl, rfl, rfl⟩
  case inl => exact ⟨⟨rfl, .inl rfl⟩, rfl, exec_stateAfter (by decide +kernel), rfl, rfl, by decide +kernel, rfl, rfl, by decide,
    by decide +kernel, by unfold Admitted; decide +kernel⟩
  case inr.inl => exact ⟨⟨rfl, .inl rfl⟩, rfl, exec_stateAfter (by decide +kernel), rfl, rfl, by decide +kernel, rfl, rfl,
    by decide, by decide +kernel, by unfold Admitted; decide +kernel⟩
  case inr.inr => exact ⟨⟨rfl, .inr ⟨rfl, trivial, rfl⟩⟩, rfl, exec_stateAfter (by decide +kernel), rfl, rfl, by decide +kernel,
    rfl, rfl, by decide, by decide +kernel, by unfold Admitted; decide +kernel⟩

theorem witness_HalfWrittenUses :
    ((31 : SReg) ∈ (Instr.faddd .al 0 1 15).words ∧ halves.pairAt (doubleOf 31) ≠ .whole ∧ ¬(Instr.faddd .al 0 1 15).mayNameHalf ∧
      conditionPassed (Instr.faddd .al 0 1 15).cond halves.cpsr = true) ∧
    Ready .al true halves ∧ Ready .al false halves ∧ Scalar halves ∧ (14 : RReg) ≠ 15 ∧ halves.pairAt 15 ≠ .whole :=
  ⟨⟨by decide, by decide, not_false, by decide⟩, ⟨by decide, by decide⟩, ⟨by decide, by decide⟩, by unfold Scalar; decide, by decide, by decide⟩

/-- A readable source with a half-written destination or second register, and a list whose last register is the first that is
half-written. -/
theorem witness_HalfWrittenUses_later :
    let s := paired [(15, .lowOnly)]
    Ready .al true s ∧ Scalar s ∧ Readable .sgl 29 s ∧ s.pairAt (doubleOf 30) ≠ .whole ∧ (30 : SReg).val = (29 : SReg).val + 1 ∧
    Readable .dbl 14 s ∧ (0 : RReg) ≠ 15 ∧ (0 : RReg) ≠ 14 ∧
    (Instr.fldmdUnindexed .al 14 0 4).transfer = some ⟨.dbl, .unindexed, 14, 2, 0, 4⟩ ∧
    (Instr.fstmdUnindexed .al 14 0 4).transfer = some ⟨.dbl, .unindexed, 14, 2, 0, 4⟩ ∧
    ((0 : RReg) ≠ 15 ∧ 0 < 2 ∧ 14 + 2 ≤ regCount .dbl ∧ (s.armReg 0).extractLsb' 0 2 = 0) ∧
    ¬Writable .dbl (regAt .dbl (14 + 1)) s ∧ Readable .dbl (regAt .dbl (14 + 0)) s := by
  refine ⟨⟨by decide, by decide⟩, by unfold Scalar; decide, ?_, by decide, by decide, ?_, by decide, by decide, rfl, rfl, by decide,
    by unfold Writable; decide, ?_⟩ <;> unfold Readable WordReadable <;> decide

theorem witness_UnpredictableRefused :
    ((Instr.fldmsUnindexed .al 31 0 2).transfer = some ⟨.sgl, .unindexed, 31, 2, 0, 2⟩ ∧ regCount .sgl < 31 + 2 ∧
      conditionPassed (Instr.fldmsUnindexed .al 31 0 2).cond State.reset.cpsr = true) ∧
    ((Instr.fstmdDecrement .al 1 15 32).transfer = some ⟨.dbl, .decrement, 1, 16, 15, 32⟩ ∧ regCount .dbl < 1 + 16 ∧
      (State.reset.cfg.hasDouble = true)) ∧
    ((Instr.fldmxIncrement .al 15 0 5).unknownTransfer = some ⟨.dbl, .increment, 15, 2, 0, 5⟩ ∧ 16 < 15 + 2) ∧
    Ready .al true State.reset ∧ Ready .al false State.reset ∧ State.reset.cfg.userMode = false := by
  exact ⟨⟨rfl, by decide, rfl⟩, ⟨rfl, by decide, rfl⟩, ⟨rfl, by decide⟩, ready_reset _, ready_reset _, rfl⟩

/-- FMSR from R15 with an SBZ bit, FMRDH with one, FMSTAT with one; the first also without double precision, and a word of FMRX
that names a register which `USER_MODE` leaves alone. -/
theorem witness_UnpredictableRefused_sbz (w : Word) (s : State)
    (h : (w, s) ∈ [(0xEE00FA11#32, single 0xEE00FA11), (0xEE310B30#32, running 0xEE310B30), (0xEEF1FA50#32, running 0xEEF1FA50),
      (0xEEFFFA98#32, { running 0xEEFFFA98 with cfg := { Config.default with userMode := true } })]) :
    Fetched w s ∧ VfpWord w ∧ condOf (w.extractLsb' 28 4) = some .al ∧ Ready .al (isCp11 w) s ∧ w.extractLsb' 24 4 = 0b1110 ∧
      w.getLsbD 4 = true ∧ undefinedWord w = false ∧
      (s.cfg.userMode = true → w.extractLsb' 21 3 = 0b111 → extOf w ≠ 0 ∧ extOf w ≠ 16) ∧
      (w.extractLsb' 5 2 ≠ 0 ∨ w.extractLsb' 0 4 ≠ 0) := by
  simp only [List.mem_cons, List.not_mem_nil, or_false, Prod.mk.injEq] at h
  rcases h with ⟨rfl, rfl⟩ | ⟨rfl, rfl⟩ | ⟨rfl, rfl⟩ | ⟨rfl, rfl⟩ <;>
    exact ⟨⟨by decide, 0, by decide, rfl⟩, by simp only [VfpWord]; decide, by decide,
      ⟨by decide, by decide⟩, by decide, by decide, by decide, by decide, by decide⟩

theorem witness_UnallocatedRefused :
    (Fetched 0xEC000A00#32 (single 0xEC000A00) ∧ VfpWord 0xEC000A00#32 ∧ Ready .al (isCp11 0xEC000A00#32) (single 0xEC000A00) ∧
      condOf (0xEC000A00#32 |>.extractLsb' 28 4) = some .al ∧ (0xEC000A00#32).extractLsb' 25 3 = 0b110 ∧ puwOf 0xEC000A00#32 = 0 ∧
      twoRegPattern 0xEC000A00#32 = false) ∧
    ((0xEEB50A60#32).extractLsb' 24 4 = 0b1110 ∧ (0xEEB50A60#32).getLsbD 4 = false ∧ pqrsOf 0xEEB50A60#32 = 15 ∧
      extOf 0xEEB50A60#32 = 10 ∧ isCp11 0xEEB50A60#32 = false ∧ bitM 0xEEB50A60#32 = true) ∧
    (pqrsOf 0xEEB50BC1#32 = 15 ∧ extOf 0xEEB50BC1#32 = 11 ∧ isCp11 0xEEB50BC1#32 = true ∧ bitD 0xEEB50BC1#32 = false ∧
      bitM 0xEEB50BC1#32 = false ∧ (0xEEB50BC1#32).extractLsb' 0 4 ≠ 0) ∧
    ((Instr.fldmdIncrement .al 0 15 0).transfer = some ⟨.dbl, .increment, 0, 0, 15, 0⟩ ∧
      (Instr.fldmdIncrement .al 0 0 1).transfer = some ⟨.dbl, .increment, 0, 0, 0, 1⟩) ∧
    ((Instr.fldmxUnindexed .al 0 15 1).unknownTransfer = some ⟨.dbl, .unindexed, 0, 0, 15, 1⟩ ∧
      (Instr.fldmxUnindexed .al 0 0 1).unknownTransfer = some ⟨.dbl, .unindexed, 0, 0, 0, 1⟩) ∧
    Ready .al true State.reset ∧ Ready .al false State.reset ∧ (14 : RReg) ≠ 15 ∧ (30 : SReg) ≠ 31 :=
  ⟨⟨⟨by decide, 0, by decide, rfl⟩, by simp only [VfpWord]; decide, ⟨by decide, by decide⟩, by decide⟩,
    by decide, by decide, ⟨rfl, rfl⟩,
    ⟨rfl, rfl⟩, ready_reset _, ready_reset _, by decide⟩

/-- A state whose memory map admits words 1 and 2 alone. -/
def narrow (base : Word) : State := arms [(0, base)] (withCfg { Config.default with memMap := [⟨4, 8, true, true⟩] })

/-- Transfers that end and that begin with a refused word, one of each kind; and a transfer that passes the end of the address
space, whose lowest refused word is not its first. -/
theorem witness_MemoryStops :
    (Instr.fldd .al true 15 0 0).transfer = some ⟨.dbl, .positiveOffset, 15, 1, 0, 0⟩ ∧
    (Instr.fstd .al true 15 0 0).transfer = some ⟨.dbl, .positiveOffset, 15, 1, 0, 0⟩ ∧
    (Instr.fldmxUnindexed .al 15 0 3).unknownTransfer = some ⟨.dbl, .unindexed, 15, 1, 0, 3⟩ ∧
    (Instr.fstmxUnindexed .al 15 0 3).unknownTransfer = some ⟨.dbl, .unindexed, 15, 1, 0, 3⟩ ∧
    ((0 : RReg) ≠ 15 ∧ 15 + 1 ≤ regCount .dbl ∧ ((narrow 8).armReg 0).extractLsb' 0 2 = 0) ∧
    ((narrow 2).armReg 0).extractLsb' 0 2 ≠ 0 ∧
    (∀ a, Writable .dbl (regAt .dbl (15 + 0)) (narrow a) ∧ Readable .dbl (regAt .dbl (15 + 0)) (narrow a) ∧
      Storable (regAt .dbl (15 + 0)) (narrow a)) ∧
    (∀ w, LowestRefused w (startAddress .positiveOffset ((narrow 8).armReg 0) 0) (1 * wordsOf .dbl) 1 (narrow 8) ∧
      LowestRefused w (startAddress .unindexed ((narrow 0).armReg 0) 3) (2 * 1 + 1) 0 (narrow 0) ∧
      LowestRefused w (startAddress .unindexed ((narrow 4).armReg 0) 3) (2 * 1 + 1) 2 (narrow 4) ∧
      LowestRefused w (startAddress .unindexed ((narrow 0xFFFFFFFC).armReg 0) 3) (2 * 1 + 1) 1 (narrow 0xFFFFFFFC)) ∧
    Admitted true 0x8000 (1 * wordsOf .dbl) (running 0xEE300A81) ∧ Admitted true 0x8000 (2 * 1 + 1) (running 0xEE300A81) ∧
    inText (running 0xEE300A81) (wordAddr 0x8000 0) = true := by
  refine ⟨rfl, rfl, rfl, rfl, by decide, by decide, fun a => ?_, fun w => ⟨⟨?_, ?_, ?_⟩, ⟨?_, ?_, ?_⟩, ⟨?_, ?_, ?_⟩, ⟨?_, ?_, ?_⟩⟩,
    by unfold Admitted; decide +kernel, by unfold Admitted; decide +kernel, by decide +kernel⟩
  · have t : ∀ j, (narrow a).tagAt j = .any := fun j => Vector.getElem_replicate _
    simp only [Writable, Readable, WordReadable, Storable, t]
    exact ⟨rfl, ⟨rfl, by simp⟩, by simp⟩
  all_goals cases w <;> decide +kernel

theorem witness_ShortVectors :
    let s := { State.reset with fpscr := { Fpscr.reset with len := 3 } }
    let u := { s with cfg := { Config.default with hasDouble := false } }
    (Instr.fadds .al 0 1 2).cls = .basic ∧ Ready .al (Instr.fadds .al 0 1 2).needsDouble u ∧ u.fpscr.len ≠ 0 ∧
    (Instr.fnmscd .al 0 1 2).cls = .multiplyAccumulate ∧ (Instr.fabsd .al 0 1).cls = .copy ∧
    Ready .al (Instr.fabsd .al 0 1).needsDouble s ∧ s.fpscr.len ≠ 0 ∧ (Instr.fcmps .al 0 1).cls ≠ .basic := by
  exact ⟨rfl, ⟨by decide, by decide⟩, by decide, rfl, rfl, ⟨by decide, by decide⟩, by decide, by decide⟩

theorem witness_Signalling :
    let s := singles [(1, 0x7F800001)] { State.reset with fpscr := { Fpscr.reset with enables := .invalid } }
    (∀ x, State.reset.fpscr.enables.has x = true → ExcSet.invalid.has x = false) ∧
    (s.fpscr.enables.has .invalidOp = true ∧ ExcSet.invalid.has .invalidOp = true) ∧
    (Ready .al false s ∧ Scalar s ∧ Readable .sgl 1 s ∧ Readable .sgl 31 s ∧ Writable .sgl 0 s ∧
      (fpAdd .sgl (fpEnv s) (s.word 1) (s.word 31)).exc.has .invalidOp = true) := by
  refine ⟨fun x => by cases x <;> decide, by decide, ⟨by decide, by decide⟩, rfl, ?_, ?_, ?_, by decide +kernel⟩
  all_goals (first | unfold Readable WordReadable | unfold Writable); decide

/-- Words of FMXR and FMRX that name FPSID or FPEXC, with SBZ bits and `Rd` at their bounds, in unprivileged execution. -/
theorem witness_SystemStops (w : Word) (h : w ∈ [0xEEE00A10#32, 0xEEF8FA10#32, 0xEEF80A7F#32]) :
    (Ready .al false State.reset ∧ (14 : RReg) ≠ 15 ∧ State.reset.cfg.userMode = false ∧
      ¬FpscrAdmits ((arms [(14, 0x00100000)] State.reset).armReg 14) ∧
      ¬FpscrAdmits ((arms [(14, 0x00000100)] State.reset).armReg 14) ∧
      ¬FpscrAdmits ((arms [(14, 0x08000000)] State.reset).armReg 14) ∧ State.reset.armReg 14 ≠ 0x40000000#32 ∧
      1#1 ++ 15#4 ∉ State.reset.cfg.subArch) ∧
    (let s := { running w with cfg := { Config.default with userMode := true } }
    Ready .al false s ∧ s.cfg.userMode = true ∧ Fetched w s ∧ condOf (w.extractLsb' 28 4) = some .al ∧
      w.extractLsb' 24 4 = 0b1110 ∧ w.extractLsb' 8 4 = 10 ∧ w.getLsbD 4 = true ∧ w.extractLsb' 21 3 = 0b111 ∧
      (extOf w = 0 ∨ extOf w = 16)) := by
  refine ⟨⟨ready_reset _, by decide, by decide, fun h => absurd h.stride (by decide),
    fun h => absurd (h.enables 8 (by decide)) (by decide), fun h => absurd (h.reserved 27 (by decide)) (by decide), by decide,
    by decide⟩, ⟨rfl, fun h => nomatch h⟩, rfl, ⟨(fetched_running w).aligned, (fetched_running w).place⟩, ?_⟩
  simp only [List.mem_cons, List.not_mem_nil, or_false] at h
  rcases h with rfl | rfl | rfl <;> decide

theorem witness_ContentTags : Ready .al true (tagged .none) ∧ Ready .al false (tagged .dbl) ∧ (14 : RReg) ≠ 15 ∧
    (tagged .none).pairAt 15 = .whole ∧ (tagged .none).tagAt 31 = .none ∧ (tagged .dbl).tagAt 31 = .dbl ∧
    (tagged .sgl).tagAt (loIndex 15) = .sgl ∧ (tagged .sgl).cfg.overlap = .tagged ∧
    (tagged .sgl .transparent).cfg.overlap = .transparent ∧ State.reset.tagAt 31 = .any ∧
    ({ State.reset with tag := (Vector.replicate 32 .dbl).set 31 .none } : State).tagAt (hiIndex 15) = .none ∧
    ({ State.reset with tag := (Vector.replicate 32 .dbl).set 31 .none } : State).tagAt (loIndex 15) = .dbl :=
  ⟨⟨by decide, by decide⟩, ⟨by decide, by decide⟩, by decide, by decide, by decide, by decide, by decide, by decide, by decide,
    by decide, by decide, by decide⟩

theorem witness_FpscrReadBack : Ready .al false (arms [(14, fullFpscr)] State.reset) ∧ (14 : RReg) ≠ 15 ∧ (0 : RReg) ≠ 15 ∧
    FpscrAdmits ((arms [(14, fullFpscr)] State.reset).armReg 14) :=
  ⟨⟨by decide, by decide⟩, by decide, by decide, fpscrAdmits_fullFpscr⟩

end Sys2Proof.Tests
end

section
/-! PROOFS. The scope statements (00_scope.md): what a completed step is, and the constants of a run. -/

namespace Sys2Proof.Machine

/-! ### What a step that completes does -/

/-- A word that is no instruction completes only as a no-op, when its condition fails (30_encoding.md R71). -/
theorem noInstruction_eq_next {e : DecodeError} {w : Word} {s t : State} (h : noInstruction e w s = .next t) :
    t = s.advance := by
  have refuse {r : UnpredictableReason} : refuseTransferWord r w s ≠ .next t := by
    unfold refuseTransferWord; split <;> exact nofun
  unfold noInstruction at h
  split at h
  · cases h
  · cases h
  · split at h
    · cases h; rfl
    · split at h
      · cases h
      · split at h
        case h_2 | h_3 | h_4 => exact absurd h refuse
        all_goals cases h

/-- A step that completes leaves the state as it was, or has the effect of an instruction; the program counter advances
after either. -/
theorem step_effect {s t : State} (h : step s = .next t) : t = s.advance ∨ ∃ i u, Effect i s u ∧ t = u.advance := by
  unfold step at h
  split at h
  · cases h
  · split at h
    · rcases exec_effect h with ⟨_, ht⟩ | ⟨_, u, hu, ht⟩
      · exact .inl ht
      · exact .inr ⟨_, u, hu, ht⟩
    · exact .inl (noInstruction_eq_next h)

/-! ### The constants of a run -/

/-- What the spec fixes for a whole run: FPSID (10_state.md R29), FPEXC (R37), the program text (20_memory.md R64) with its
place (70_reset_and_hazards.md R322), and the implementation parameters (00_scope.md R5). -/
def State.constants (s : State) : Word × Word × List Word × Word × Config := (s.fpsid, s.fpexc, s.text, s.textBase, s.cfg)

theorem constants_eq_iff {s t : State} :
    t.constants = s.constants ↔
      t.fpsid = s.fpsid ∧ t.fpexc = s.fpexc ∧ t.text = s.text ∧ t.textBase = s.textBase ∧ t.cfg = s.cfg := by
  simp only [State.constants, Prod.mk.injEq]

@[simp] theorem State.advance_constants (s : State) : s.advance.constants = s.constants := rfl
@[simp] theorem State.accrue_constants (s : State) (e : ExcSet) : (s.accrue e).constants = s.constants := rfl
@[simp] theorem State.setFpscrFlags_constants (s : State) (r : Relation) : (s.setFpscrFlags r).constants = s.constants := rfl
@[simp] theorem State.setFpscr_constants (s : State) (w : Word) : (s.setFpscr w).constants = s.constants := rfl
@[simp] theorem State.copyFlags_constants (s : State) : s.copyFlags.constants = s.constants := rfl
@[simp] theorem State.setSubArch_constants (s : State) (low : BitVec 4) (v : Word) :
    (s.setSubArch low v).constants = s.constants := rfl
@[simp] theorem State.setWord_constants (s : State) (j : SReg) (t : Tag) (w : Word) :
    (s.setWord j t w).constants = s.constants := rfl
@[simp] theorem State.setPair_constants (s : State) (n : DReg) (p : Pairing) : (s.setPair n p).constants = s.constants := rfl
@[simp] theorem State.setMem_constants (s : State) (a : Word) (n : Nat) (m : Memory) :
    (s.setMem a n m).constants = s.constants := rfl
@[simp] theorem State.noteImages_constants (s : State) (l : List FstmxImage) :
    (s.noteImages l).constants = s.constants := rfl
@[simp] theorem State.setArm_constants (s : State) (r : RReg) (v : Word) : (s.setArm r v).constants = s.constants := by
  simp [State.constants]
@[simp] theorem State.writeBack_constants (s : State) (mode : AddrMode) (rn : RReg) (offset : BitVec 8) :
    (s.writeBack mode rn offset).constants = s.constants := by
  simp [State.constants]
@[simp] theorem State.setReg_constants (s : State) (f : Fmt) (r : VReg f) (v : Pat f) :
    (s.setReg f r v).constants = s.constants := by
  simp [State.constants]
@[simp] theorem State.setRegs_constants (f : Fmt) (vs : List (Pat f)) (s : State) (i : Nat) :
    (State.setRegs f s i vs).constants = s.constants := by
  simp [State.constants]
@[simp] theorem State.restoreRegs_constants (ws : List Word) (ps : List Pairing) (s : State) (i : Nat) :
    (s.restoreRegs i ws ps).constants = s.constants := by
  simp [State.constants]
@[simp] theorem State.afterFstmx_constants (s : State) (d : DReg) (start : Word) (vs : List (Pairing × DWord)) :
    (s.afterFstmx d start vs).constants = s.constants := by
  simp [State.afterFstmx, State.constants]

/-- No instruction has an operation that writes a constant of a run: FMXR of FPEXC can only write the value it holds, and a
store writes memory, not the program text. -/
theorem Effect.constants_eq {i : Instr} {s u : State} (h : Effect i s u) : u.constants = s.constants := by
  cases h with
  | result => rw [State.setReg_constants, State.accrue_constants]
  | copied => rw [State.setReg_constants]
  | compared => rw [State.setFpscrFlags_constants, State.accrue_constants]
  | loaded => rw [State.writeBack_constants, State.setRegs_constants]
  | stored => rw [State.writeBack_constants, State.setMem_constants]
  | storedDoubles => rw [State.noteImages_constants, State.writeBack_constants, State.setMem_constants]
  | saved => rw [State.writeBack_constants, State.afterFstmx_constants]
  | restored => rw [State.writeBack_constants, State.restoreRegs_constants]
  | register => rw [State.setReg_constants]
  | registers => rw [State.setReg_constants, State.setReg_constants]
  | half => rw [State.setPair_constants, State.setWord_constants]
  | arm => rw [State.setArm_constants]
  | arms => rw [State.setArm_constants, State.setArm_constants]
  | fpscr => rw [State.setFpscr_constants]
  | same => rfl
  | subArch => rw [State.setSubArch_constants]
  | flags => rw [State.copyFlags_constants]

theorem step_constants {s t : State} (h : step s = .next t) : t.constants = s.constants := by
  rcases step_effect h with rfl | ⟨i, u, hu, rfl⟩
  · exact s.advance_constants
  · rw [State.advance_constants, hu.constants_eq]

/-- Settles O19, from the effects that a completed step can have. -/
theorem constantsKept : Obligations.ConstantsKept := fun _ _ h => constants_eq_iff.1 (step_constants h)

end Sys2Proof.Machine
end

section
/-! PROOFS. The invariant: it holds after reset, each update of the state that an instruction makes keeps it, and so does
every step. -/

namespace Sys2Proof.Machine

/-! ### The parts of the invariant -/

/-- What the invariant says of one double-precision register: the written half of a half-written one has a value, and
without double precision it is whole (70_reset_and_hazards.md R325). -/
structure HalfOk (s : State) (n : DReg) : Prop where
  low : s.pairAt n = .lowOnly → s.tagAt (loIndex n) ≠ .none
  high : s.pairAt n = .highOnly → s.tagAt (hiIndex n) ≠ .none
  single : s.cfg.hasDouble = false → s.pairAt n = .whole

/-- What the invariant says of one image (45_load_store.md R236, 70_reset_and_hazards.md R325). -/
structure ImageKept (s : State) (img : FstmxImage) : Prop where
  ok : ImageOk img
  single : s.cfg.hasDouble = false → ∀ p, p ∈ img.pairs → p = .whole

/-- The fields that the invariant speaks of, beside the tags and the pairing states. -/
def State.guarded (s : State) : Memory × Word × ExcSet × BitVec 2 × Word × Config × List FstmxImage :=
  (s.mem, s.pc, s.fpscr.enables, s.fpscr.stride, s.fpexc, s.cfg, s.images)

theorem Inv.halfOk {s : State} (h : Inv s) (n : DReg) : HalfOk s n :=
  ⟨(h.halves n).1, (h.halves n).2, fun hd => h.singles hd n⟩

theorem Inv.imageKept {s : State} (h : Inv s) {img : FstmxImage} (hi : img ∈ s.images) : ImageKept s img :=
  ⟨h.images img hi, fun hd => h.imageSingles hd img hi⟩

theorem Inv.of_guarded {s t : State} (h : Inv s) (e : t.guarded = s.guarded) (hn : ∀ n, HalfOk t n) : Inv t := by
  simp only [State.guarded, Prod.mk.injEq] at e
  obtain ⟨hm, hp, he, hs, hx, hc, hi⟩ := e
  exact
    { memory := hm ▸ h.memory
      pc := hp ▸ h.pc
      enables := he ▸ h.enables
      stride := hs ▸ h.stride
      fpexc := hx ▸ h.fpexc
      halves := fun n => ⟨(hn n).low, (hn n).high⟩
      singles := fun hd n => (hn n).single hd
      imageSingles := by rw [hc, hi]; exact h.imageSingles
      images := hi ▸ h.images }

theorem HalfOk.congr {s t : State} {n : DReg} (h : HalfOk s n) (hp : t.pairAt n = s.pairAt n)
    (hl : t.tagAt (loIndex n) = s.tagAt (loIndex n)) (hh : t.tagAt (hiIndex n) = s.tagAt (hiIndex n)) (hc : t.cfg = s.cfg) :
    HalfOk t n :=
  ⟨by rw [hp, hl]; exact h.low, by rw [hp, hh]; exact h.high, by rw [hp, hc]; exact h.single⟩

theorem cfg_of_guarded {s t : State} (e : t.guarded = s.guarded) : t.cfg = s.cfg := by
  simp only [State.guarded, Prod.mk.injEq] at e
  obtain ⟨_, _, _, _, _, hc, _⟩ := e
  exact hc

/-- An update of none of the fields that the invariant speaks of keeps it. -/
theorem Inv.congr {s t : State} (h : Inv s) (e : t.guarded = s.guarded) (ht : t.tag = s.tag) (hp : t.pair = s.pair) : Inv t :=
  h.of_guarded e fun n =>
    (h.halfOk n).congr (pairAt_congr hp) (tagAt_congr ht) (tagAt_congr ht) (cfg_of_guarded e)

/-- An update of the words, tags and pairing state of `D[n]` keeps the invariant where `D[n]` is left as it should be. -/
theorem Inv.update_double {s t : State} {n : DReg} (h : Inv s) (e : t.guarded = s.guarded)
    (hp : ∀ m, m ≠ n → t.pairAt m = s.pairAt m) (ht : ∀ j, doubleOf j ≠ n → t.tagAt j = s.tagAt j) (hn : HalfOk t n) :
    Inv t := by
  refine h.of_guarded e fun m => ?_
  by_cases hm : m = n
  · exact hm ▸ hn
  · exact (h.halfOk m).congr (hp m hm) (ht _ (by rwa [doubleOf_loIndex])) (ht _ (by rwa [doubleOf_hiIndex]))
      (cfg_of_guarded e)

/-! ### Updates of fields that the invariant does not speak of -/

theorem Inv.accrue {s : State} (h : Inv s) (e : ExcSet) : Inv (s.accrue e) := h.congr rfl rfl rfl

theorem Inv.setFpscrFlags {s : State} (h : Inv s) (r : Relation) : Inv (s.setFpscrFlags r) := h.congr rfl rfl rfl

theorem Inv.copyFlags {s : State} (h : Inv s) : Inv s.copyFlags := h.congr rfl rfl rfl

theorem Inv.setSubArch {s : State} (h : Inv s) (low : BitVec 4) (v : Word) : Inv (s.setSubArch low v) := h.congr rfl rfl rfl

theorem Inv.setArm {s : State} (h : Inv s) (r : RReg) (v : Word) : Inv (s.setArm r v) :=
  h.congr (by simp [State.guarded]) (by simp) (by simp)

theorem Inv.writeBack {s : State} (h : Inv s) (mode : AddrMode) (rn : RReg) (offset : BitVec 8) :
    Inv (s.writeBack mode rn offset) :=
  h.congr (by simp [State.guarded]) (by simp) (by simp)

/-! ### The program counter and the FPSCR -/

/-- Adding 4 leaves the two low bits of an address (10_state.md R27). -/
theorem extractLsb'_add_four (a : Word) : (a + 4).extractLsb' 0 2 = a.extractLsb' 0 2 := by
  apply BitVec.eq_of_toNat_eq
  simp only [BitVec.extractLsb'_toNat, BitVec.toNat_add, BitVec.reduceToNat, Nat.shiftRight_zero]
  omega

theorem Inv.advance {s : State} (h : Inv s) : Inv s.advance :=
  { h with pc := (extractLsb'_add_four s.pc).trans h.pc }

/-- A word that FMXR may write enables no trap and has a `STRIDE` that is permitted (46_single_transfer.md R261). -/
theorem fpscrOf_of_writeOk {w : Word} (h : fpscrWriteOk w = true) :
    (fpscrOf w).enables = .none ∧ ((fpscrOf w).stride = 0 ∨ (fpscrOf w).stride = 3) := by
  simp only [fpscrWriteOk, Bool.and_eq_true, Bool.or_eq_true, beq_iff_eq] at h
  exact ⟨h.1.2, h.2⟩

theorem Inv.setFpscr {s : State} {w : Word} (h : Inv s) (hw : fpscrWriteOk w = true) : Inv (s.setFpscr w) :=
  { h with enables := (fpscrOf_of_writeOk hw).1, stride := (fpscrOf_of_writeOk hw).2 }

/-! ### Register words and pairing states -/

theorem Inv.setWord {s : State} {t : Tag} (h : Inv s) (ht : t ≠ .none) (j : SReg) (w : Word) : Inv (s.setWord j t w) := by
  have keep (i : SReg) (hi : s.tagAt i ≠ .none) : (s.setWord j t w).tagAt i ≠ .none := by
    rw [State.setWord_tagAt]; split
    · exact ht
    · exact hi
  exact h.of_guarded rfl fun n =>
    ⟨fun hp => keep _ ((h.halfOk n).low hp), fun hp => keep _ ((h.halfOk n).high hp), (h.halfOk n).single⟩

theorem Inv.setReg {s : State} (h : Inv s) (f : Fmt) (r : VReg f) (v : Pat f) : Inv (s.setReg f r v) := by
  cases f
  · exact h.setWord (by decide) _ _
  · exact (h.setWord (by decide) _ _).setWord (by decide) _ _

theorem Inv.setRegs {f : Fmt} {s : State} (h : Inv s) (i : Nat) (vs : List (Pat f)) : Inv (State.setRegs f s i vs) := by
  induction vs generalizing s i with
  | nil => exact h
  | cons v vs ih => exact ih (h.setReg f _ v) _

/-- FMDLR or FMDHR leaves a half-written double only with the half it has written (70_reset_and_hazards.md R325). -/
theorem afterHalf_eq_some {low : Bool} {p q : Pairing} (h : afterHalf low p = some q) :
    (q = .lowOnly → low = true) ∧ (q = .highOnly → low = false) := by
  revert h; cases low <;> cases p <;> cases q <;> decide

theorem Inv.half {s : State} {low : Bool} {n : DReg} {p : Pairing} (h : Inv s) (hd : s.cfg.hasDouble = true)
    (hp : afterHalf low (s.pairAt n) = some p) (w : Word) : Inv ((s.setWord (halfIndex low n) .dbl w).setPair n p) := by
  obtain ⟨hl, hh⟩ := afterHalf_eq_some hp
  have written : ((s.setWord (halfIndex low n) .dbl w).setPair n p).tagAt (halfIndex low n) ≠ .none := by
    simp [State.setWord_tagAt]
  have pair : ((s.setWord (halfIndex low n) .dbl w).setPair n p).pairAt n = p := by simp [State.setPair_pairAt]
  refine (h.setWord (by decide) (halfIndex low n) w).update_double (n := n) rfl (fun m hm => ?_) (fun _ _ => rfl)
    ⟨fun e => ?_, fun e => ?_, fun e => ?_⟩
  · rw [State.setPair_pairAt, if_neg hm]
  · rw [hl (pair.symm.trans e)] at written ⊢; exact written
  · rw [hh (pair.symm.trans e)] at written ⊢; exact written
  · exact absurd (hd.symm.trans e) (by decide)

/-! ### FLDMX -/

theorem Inv.restoreReg {s : State} {p : Pairing} (h : Inv s) (hp : s.cfg.hasDouble = false → p = .whole) (n : DReg)
    (lo hi : Word) : Inv (s.restoreReg n p lo hi) := by
  have pair (m : DReg) : (s.restoreReg n p lo hi).pairAt m = if m = n then p else s.pairAt m :=
    State.setPair_pairAt _ _ _ _
  refine h.update_double (n := n) rfl (fun m hm => ?_) (fun j hj => ?_) ⟨fun e => ?_, fun e => ?_, fun e => ?_⟩
  · rw [pair, if_neg hm]
  · rw [tag_restoreReg, if_neg hj]
  · rw [pair, if_pos rfl] at e
    rw [tag_restoreReg, if_pos (doubleOf_loIndex n), e, restoredTag, if_neg]
    · decide
    · rintro (⟨h, _⟩ | ⟨_, h⟩)
      · cases h
      · exact loIndex_ne_hiIndex _ _ h
  · rw [pair, if_pos rfl] at e
    rw [tag_restoreReg, if_pos (doubleOf_hiIndex n), e, restoredTag, if_neg]
    · decide
    · rintro (⟨_, h⟩ | ⟨h, _⟩)
      · exact loIndex_ne_hiIndex _ _ h.symm
      · cases h
  · rw [pair, if_pos rfl]; exact hp e

theorem Inv.restoreRegs {s : State} {ps : List Pairing} (h : Inv s)
    (hp : s.cfg.hasDouble = false → ∀ p, p ∈ ps → p = .whole) (i : Nat) (ws : List Word) : Inv (s.restoreRegs i ws ps) := by
  induction ps generalizing s i ws with
  | nil => rcases ws with _ | ⟨_, _ | ⟨_, _⟩⟩ <;> exact h
  | cons p ps ih =>
    rcases ws with _ | ⟨lo, _ | ⟨hi, ws⟩⟩
    · exact h
    · exact h
    · exact ih (h.restoreReg (fun hd => hp hd p (by simp)) _ lo hi) (fun hd q hq => hp hd q (by simp [hq])) _ _

/-! ### Stores, and the images of FSTMD and FSTMX -/

theorem Inv.setMem {s : State} {m : Memory} (h : Inv s) (hm : m.wf) (a : Word) (n : Nat) : Inv (s.setMem a n m) :=
  { h with
    memory := hm
    imageSingles := fun hd img hi => h.imageSingles hd img (List.mem_filter.1 hi).1
    images := fun img hi => h.images img (List.mem_filter.1 hi).1 }

theorem Inv.noteImages {s : State} {l : List FstmxImage} (h : Inv s) (hl : ∀ img, img ∈ l → ImageKept s img) :
    Inv (s.noteImages l) := by
  have kept (img : FstmxImage) (hi : img ∈ (s.noteImages l).images) : ImageKept s img :=
    (List.mem_append.1 hi).elim (hl img) h.imageKept
  exact { h with imageSingles := fun hd img hi => (kept img hi).single hd, images := fun img hi => (kept img hi).ok }

/-- An image of registers that there are, with pairing states as they may be. -/
theorem imageKept_imageOf {s : State} {d : DReg} {start : Word} {vs : List (Pairing × DWord)} (hpos : 0 < vs.length)
    (hlist : d.val + vs.length ≤ 16) (hs : s.cfg.hasDouble = false → ∀ v, v ∈ vs → v.1 = .whole) :
    ImageKept s (imageOf d start vs) where
  ok :=
    { words := by simp [imageOf, imageWords_length]
      some := by simpa [imageOf] using hpos
      list := by simpa [imageOf] using hlist }
  single := fun hd p hp => by
    obtain ⟨v, hv, rfl⟩ := List.mem_map.1 hp
    exact hs hd v hv

theorem imageKept_doublesImage {s : State} {cfg : Config} {d : DReg} {start : Word} {vs : List DWord} (hpos : 0 < vs.length)
    (hlist : d.val + vs.length ≤ 16) : ∀ img, img ∈ doublesImage cfg d start vs → ImageKept s img := by
  intro img hi
  unfold doublesImage at hi
  split at hi
  · rw [List.mem_singleton.1 hi]
    refine imageKept_imageOf (by simpa using hpos) (by simpa using hlist) fun _ v hv => ?_
    obtain ⟨_, _, rfl⟩ := List.mem_map.1 hv
    rfl
  · cases hi

theorem Inv.releaseHalf {s : State} (h : Inv s) (n : DReg) : Inv (s.releaseHalf n) := by
  have whole : (s.releaseHalf n).pairAt n = .whole := by rw [pair_releaseHalf, if_pos rfl]
  refine h.update_double (n := n) (by simp [State.guarded]) (fun m hm => ?_) (fun j hj => ?_)
    ⟨fun e => ?_, fun e => ?_, fun _ => whole⟩
  · rw [pair_releaseHalf, if_neg hm]
  · rw [tag_releaseHalf, if_neg fun e => hj e.1]
  · cases whole.symm.trans e
  · cases whole.symm.trans e

theorem Inv.releaseHalves {s : State} (h : Inv s) (i k : Nat) : Inv (s.releaseHalves i k) := by
  induction k generalizing s i with
  | zero => exact h
  | succ k ih => exact ih (h.releaseHalf _) _

theorem Inv.afterFstmx {s : State} {d : DReg} {k : Nat} (h : Inv s) (hpos : 0 < k) (hlist : d.val + k ≤ 16) (start : Word) :
    Inv (s.afterFstmx d start (savedOf s d k)) := by
  have image : ImageKept s (imageOf d start (savedOf s d k)) := by
    refine imageKept_imageOf (by simpa using hpos) (by simpa using hlist) fun hd v hv => ?_
    obtain ⟨l, _, rfl⟩ := List.mem_map.1 hv
    exact h.singles hd _
  have stored := (h.setMem (wf_writeImage (start := start) (vs := (savedOf s d k).map Prod.snd) h.memory) start
    (imageSize s.cfg (savedOf s d k).length)).noteImages (l := [imageOf d start (savedOf s d k)])
    fun img hi => List.mem_singleton.1 hi ▸ ⟨image.ok, image.single⟩
  refine Inv.releaseHalves ?_ _ _
  exact stored.congr rfl rfl rfl

/-! ### Every step -/

/-- Every effect of an instruction keeps the invariant. -/
theorem Effect.inv {i : Instr} {s u : State} (h : Effect i s u) (hs : Inv s) : Inv u := by
  cases h with
  | result => exact (hs.accrue _).setReg _ _ _
  | copied => exact hs.setReg _ _ _
  | compared => exact (hs.accrue _).setFpscrFlags _
  | loaded => exact (hs.setRegs _ _).writeBack _ _ _
  | stored => exact (hs.setMem (wf_storePats hs.memory) _ _).writeBack _ _ _
  | storedDoubles _ _ _ _ ho hv =>
    exact ((hs.setMem (wf_storePats hs.memory) _ _).writeBack _ _ _).noteImages
      (imageKept_doublesImage (hv ▸ ho.some) (hv ▸ ho.list))
  | saved _ _ _ ho => exact (hs.afterFstmx ho.some ho.list _).writeBack _ _ _
  | restored _ _ _ _ hm =>
    exact (hs.restoreRegs (fun hd => hs.imageSingles hd _ (matchingImage_eq_some hm).1) _ _).writeBack _ _ _
  | register => exact hs.setReg _ _ _
  | registers => exact (hs.setReg .sgl _ _).setReg .sgl _ _
  | half _ hd hp => exact hs.half hd hp _
  | arm => exact hs.setArm _ _
  | arms => exact (hs.setArm _ _).setArm _ _
  | fpscr _ _ hw => exact hs.setFpscr hw
  | same => exact hs
  | subArch => exact hs.setSubArch _ _
  | flags => exact hs.copyFlags

/-- Settles O12, from the effects that a completed step can have, each of which keeps the invariant. -/
theorem stepKeepsInvariant : Obligations.StepKeepsInvariant := by
  intro s t hs h
  rcases step_effect h with rfl | ⟨i, u, hu, rfl⟩
  · exact hs.advance
  · exact (hu.inv hs).advance

/-- Settles O11: after reset nothing is half-written, and there is no image. -/
theorem resetInvariant : Obligations.ResetInvariant where
  memory := Memory.wf_nil
  pc := by decide
  enables := rfl
  stride := .inl rfl
  fpexc := rfl
  halves := fun n => by simp [State.pairAt, State.reset]
  singles := fun _ n => by simp [State.pairAt, State.reset]
  imageSingles := fun _ _ h => by cases h
  images := fun _ h => by cases h

end Sys2Proof.Machine
end

section
/-! PROOFS. The program counter, the CPSR and the FPSCR: what a completed step does to each (10_state.md R26, R27, R30 to
R36), and the layout of the FPSCR (R31). -/

namespace Sys2Proof.Machine

/-! ### The program counter and the CPSR -/

/-- The ARM registers other than `R15` do not depend on the program counter (10_state.md R25). -/
theorem armReg_advance {s : State} {r : RReg} (hr : r ≠ 15) : s.advance.armReg r = s.armReg r :=
  armReg_congr rfl fun h => absurd h hr

@[simp] theorem State.afterFstmx_pc (s : State) (d : DReg) (start : Word) (vs : List (Pairing × DWord)) :
    (s.afterFstmx d start vs).pc = s.pc := by simp [State.afterFstmx]
@[simp] theorem State.afterFstmx_cpsr (s : State) (d : DReg) (start : Word) (vs : List (Pairing × DWord)) :
    (s.afterFstmx d start vs).cpsr = s.cpsr := by simp [State.afterFstmx]
@[simp] theorem State.afterFstmx_fpscr (s : State) (d : DReg) (start : Word) (vs : List (Pairing × DWord)) :
    (s.afterFstmx d start vs).fpscr = s.fpscr := by simp [State.afterFstmx]

/-- No instruction's body writes the program counter: `R15` is no destination of a transfer (30_encoding.md R93). -/
theorem Effect.pc_eq {i : Instr} {s u : State} (h : Effect i s u) : u.pc = s.pc := by
  cases h <;> simp

/-- Settles O8, from the effects that a completed step can have before the program counter advances. -/
theorem pcAdvances : Obligations.PcAdvances := by
  intro s t h
  rcases step_effect h with rfl | ⟨i, u, hu, rfl⟩
  · exact s.advance_pc
  · rw [State.advance_pc, hu.pc_eq]

/-- The one effect that writes the CPSR flags is FMSTAT's (10_state.md R26). -/
theorem Effect.cpsr_eq {i : Instr} {s u : State} (h : Effect i s u) (hw : i.wellFormed = true) (hf : ¬i.isFmstat) :
    u.cpsr = s.cpsr := by
  cases h with
  | flags _ hi => exact absurd hi (by simp [hw, hf])
  | _ => simp

/-- Settles O15, from the effects that an instruction can have. -/
theorem cpsrOnlyByFmstat : Obligations.CpsrOnlyByFmstat := by
  intro i s t hw hf h
  rcases exec_effect h with ⟨_, rfl⟩ | ⟨_, u, hu, rfl⟩
  · exact s.advance_cpsr
  · rw [State.advance_cpsr, hu.cpsr_eq hw hf]

/-! ### The writers of the FPSCR -/

/-- What the body of an instruction does to the FPSCR. -/
inductive FpscrEffect (i : Instr) (p : Fpscr) : Fpscr → Prop
  /-- Nothing. -/
  | kept (hc : i.cls ≠ .compare) : FpscrEffect i p p
  /-- The exceptions of a result signalled (60_exceptions.md R297). -/
  | accrued {e : ExcSet} (hc : i.cls ≠ .compare) : FpscrEffect i p { p with cumulative := p.cumulative.union e }
  /-- The exceptions and the flags of a comparison (42_compare.md R152). -/
  | compared {r : CompareResult} (hc : i.cls = .compare) :
      FpscrEffect i p { p with flags := relationFlags r.relation, cumulative := p.cumulative.union r.exc }
  /-- FMXR (46_single_transfer.md R261). -/
  | written {w : Word} (hc : i.cls ≠ .compare) (hi : i.writesFpscr) : FpscrEffect i p (fpscrOf w)

theorem Effect.fpscr_effect {i : Instr} {s u : State} (h : Effect i s u) : FpscrEffect i s.fpscr u.fpscr := by
  cases h with
  | result hc => rw [State.setReg_fpscr, State.accrue_fpscr]; exact .accrued (by rcases hc with hc | hc | hc <;> simp [hc])
  | compared hc => exact .compared hc
  | fpscr hc hi => exact .written (by simp [hc]) hi
  | register hc => rw [State.setReg_fpscr]; exact .kept (by rcases hc with hc | hc <;> simp [hc])
  | copied hc | loaded hc | stored hc | storedDoubles hc | saved hc | restored hc | registers hc | half hc | arm hc
  | arms hc | same hc | subArch hc | flags hc =>
    simpa using FpscrEffect.kept (p := s.fpscr) (by simp [hc])

/-- An instruction that completes fails its condition and leaves the FPSCR, or does one of these things to it. -/
theorem exec_fpscr {i : Instr} {s t : State} (h : exec i s = .next t) :
    (conditionPassed i.cond s.cpsr = false ∧ t.fpscr = s.fpscr) ∨
      (conditionPassed i.cond s.cpsr = true ∧ FpscrEffect i s.fpscr t.fpscr) := by
  rcases exec_effect h with ⟨hc, rfl⟩ | ⟨hc, u, hu, rfl⟩
  · exact .inl ⟨hc, rfl⟩
  · exact .inr ⟨hc, hu.fpscr_effect⟩

/-- An exception of either set is in the union. -/
theorem has_union (a b : ExcSet) (e : FpExc) : (a.union b).has e = (a.has e || b.has e) := by cases e <;> rfl

/-- What no instruction but FMXR does: a mode field or a trap enable changed, or a cumulative flag cleared (10_state.md R36). -/
theorem FpscrEffect.control {i : Instr} {p q : Fpscr} (h : FpscrEffect i p q) (hi : ¬i.writesFpscr) :
    q.dn = p.dn ∧ q.fz = p.fz ∧ q.rmode = p.rmode ∧ q.stride = p.stride ∧ q.len = p.len ∧ q.enables = p.enables ∧
      ∀ e, p.cumulative.has e = true → q.cumulative.has e = true := by
  cases h with
  | kept => exact ⟨rfl, rfl, rfl, rfl, rfl, rfl, fun _ => id⟩
  | accrued | compared => exact ⟨rfl, rfl, rfl, rfl, rfl, rfl, fun e he => by rw [has_union, he, Bool.true_or]⟩
  | written _ hw => exact absurd hw hi

/-- Settles O17, from what an instruction can do to the FPSCR. -/
theorem fpscrControl : Obligations.FpscrControl := by
  intro i s t hi h
  obtain ⟨_, e⟩ | ⟨_, e⟩ := exec_fpscr h
  · rw [e]; exact ⟨rfl, rfl, rfl, rfl, rfl, rfl, fun _ => id⟩
  · exact e.control hi

theorem FpscrEffect.flags_eq {i : Instr} {p q : Fpscr} (h : FpscrEffect i p q) (hc : i.cls ≠ .compare)
    (hi : ¬i.writesFpscr) : q.flags = p.flags := by
  cases h with
  | kept | accrued => rfl
  | compared hc' => exact absurd hc' hc
  | written _ hw => exact absurd hw hi

theorem FpscrEffect.flags_of_compare {i : Instr} {p q : Fpscr} (h : FpscrEffect i p q) (hc : i.cls = .compare) :
    ∃ r, q.flags = relationFlags r := by
  cases h with
  | compared => exact ⟨_, rfl⟩
  | kept hc' | accrued hc' | written hc' => exact absurd hc hc'

/-! ### The layout of the FPSCR -/

theorem rmode_bits_getLsbD_one (m : RMode) : m.bits.getLsbD 1 = decide (m = .rm ∨ m = .rz) := by cases m <;> decide

theorem rmode_bits_getLsbD_zero (m : RMode) : m.bits.getLsbD 0 = decide (m = .rp ∨ m = .rz) := by cases m <;> decide

/-- The fields of the FPSCR at their places (10_state.md R31). -/
theorem Fpscr.getLsbD_word (p : Fpscr) (i : Nat) : p.word.getLsbD i =
    match i with
    | 31 => p.flags.n | 30 => p.flags.z | 29 => p.flags.c | 28 => p.flags.v
    | 25 => p.dn | 24 => p.fz
    | 23 => decide (p.rmode = .rm ∨ p.rmode = .rz) | 22 => decide (p.rmode = .rp ∨ p.rmode = .rz)
    | 21 => p.stride.getLsbD 1 | 20 => p.stride.getLsbD 0
    | 18 => p.len.getLsbD 2 | 17 => p.len.getLsbD 1 | 16 => p.len.getLsbD 0
    | 15 => p.enables.inputDenormal | 12 => p.enables.inexact | 11 => p.enables.underflow
    | 10 => p.enables.overflow | 9 => p.enables.divByZero | 8 => p.enables.invalidOp
    | 7 => p.cumulative.inputDenormal | 4 => p.cumulative.inexact | 3 => p.cumulative.underflow
    | 2 => p.cumulative.overflow | 1 => p.cumulative.divByZero | 0 => p.cumulative.invalidOp
    | _ => false := by
  rcases Nat.lt_or_ge i 32 with hi | hi
  · interval_cases i <;>
      simp only [Fpscr.word, Nzcv.bits, BitVec.getLsbD_cast, BitVec.getLsbD_append, ← rmode_bits_getLsbD_one,
        ← rmode_bits_getLsbD_zero] <;> simp
  · rw [BitVec.getLsbD_of_ge _ _ hi]
    obtain ⟨k, rfl⟩ := Nat.exists_eq_add_of_le' hi
    rfl

theorem rmodeOf_eq_high {b : BitVec 2} : rmodeOf b = .rm ∨ rmodeOf b = .rz ↔ b.getLsbD 1 = true := by revert b; decide

theorem rmodeOf_eq_low {b : BitVec 2} : rmodeOf b = .rp ∨ rmodeOf b = .rz ↔ b.getLsbD 0 = true := by revert b; decide

/-- A word that FMXR may write has nothing but the fields of the FPSCR, so it is read back as it was. -/
theorem FpscrAdmits.word_fpscrOf {w : Word} (h : FpscrAdmits w) : (fpscrOf w).word = w := by
  have reserved := h.reserved
  simp only [List.mem_cons, List.not_mem_nil, or_false, forall_eq_or_imp, forall_eq] at reserved
  refine BitVec.eq_of_getLsbD_eq fun i hi => ?_
  rw [Fpscr.getLsbD_word]
  interval_cases i <;>
    simp [fpscrOf, nzcvOf, enablesOf, cumulativeOf, rmodeOf_eq_high, rmodeOf_eq_low, reserved, -BitVec.getLsbD_eq_getElem]

theorem extractLsb'_eq_zero {w : Word} {k n : Nat} (h : ∀ i, i < n → w.getLsbD (k + i) = false) :
    w.extractLsb' k n = 0 := by
  refine BitVec.eq_of_getLsbD_eq fun i hi => ?_
  rw [BitVec.getLsbD_extractLsb', h i hi, Bool.and_false, BitVec.ofNat_eq_ofNat, BitVec.getLsbD_zero]

theorem eq_zero_or_three {b : BitVec 2} (h : b.getLsbD 1 = b.getLsbD 0) : b = 0 ∨ b = 3 := by
  revert b; decide

theorem FpscrAdmits.writeOk {w : Word} (h : FpscrAdmits w) : fpscrWriteOk w = true := by
  have reserved {k n : Nat} (hk : ∀ i, i < n → k + i ∈ [27, 26, 19, 14, 13, 6, 5]) : w.extractLsb' k n = 0 :=
    extractLsb'_eq_zero fun i hi => h.reserved _ (hk i hi)
  have enables : enablesOf w = .none := by
    have bits := h.enables
    simp only [List.mem_cons, List.not_mem_nil, or_false, forall_eq_or_imp, forall_eq] at bits
    simp only [enablesOf, ExcSet.none, bits]
  have stride : w.extractLsb' 20 2 = 0 ∨ w.extractLsb' 20 2 = 3 := eq_zero_or_three (by simpa using h.stride)
  simp only [fpscrWriteOk, Bool.and_eq_true, Bool.or_eq_true, beq_iff_eq]
  exact ⟨⟨⟨⟨⟨reserved (by decide), reserved (by decide)⟩, reserved (by decide)⟩, reserved (by decide)⟩, enables⟩, stride⟩

/-! ### FMXR and FMRX of the FPSCR -/

theorem exec_fmxr_fpscr {c : Cond} {rd : RReg} {s : State} (h : Ready c false s) (hr : rd ≠ 15)
    (hw : fpscrWriteOk (s.armReg rd) = true) : exec (.fmxr c .fpscr rd) s = .next (s.setFpscr (s.armReg rd)).advance :=
  instruction_next_of_ok h (systemFromArm_eq_ok.2 ⟨by simp, hr, writeSysReg_eq_ok.2 (.inl ⟨rfl, hw, rfl⟩)⟩)

theorem exec_fmrx_fpscr {c : Cond} {rd : RReg} {s : State} (h : Ready c false s) (hr : rd ≠ 15) :
    exec (.fmrx c rd .fpscr) s = .next (s.setArm rd s.fpscr.word).advance :=
  instruction_next_of_ok h
    (armFromSystem_eq_ok.2 ⟨by simp, .inr ⟨hr, readSysReg_eq_ok.2 (.inr (.inl ⟨rfl, rfl⟩))⟩⟩)

/-- Settles O60: the layout bit by bit, and a run of FMXR and FMRX. -/
theorem fpscrReadBack : Obligations.FpscrReadBack := by
  refine ⟨Fpscr.getLsbD_word, fun c rd rd' s hc hr hr' h => ?_⟩
  refine ⟨_, ⟨_, exec_fmxr_fpscr hc hr h.writeOk, _, exec_fmrx_fpscr (by simpa [Ready] using hc) hr', rfl⟩, ?_⟩
  rw [armReg_advance hr', armReg_setArm hr', if_pos rfl]
  exact h.word_fpscrOf

/-- The word that has the given flags and no other bit. -/
def flagsWord (f : Nzcv) : Word := Fpscr.word { Fpscr.reset with flags := f }

/-- FMXR may write any of the sixteen combinations of the flags. -/
theorem fpscrOf_flagsWord (f : Nzcv) : fpscrWriteOk (flagsWord f) = true ∧ (fpscrOf (flagsWord f)).flags = f := by
  obtain ⟨n, z, c, v⟩ := f
  cases n <;> cases z <;> cases c <;> cases v <;> decide

/-- Settles O16, from what an instruction can do to the FPSCR; FMXR of a word with the four flags alone writes them. -/
theorem flagWriters : Obligations.FlagWriters := by
  refine ⟨fun i s t hc hi h => ?_, fun i s t hc hp h => ?_, fun f => ?_⟩
  · obtain ⟨_, e⟩ | ⟨_, e⟩ := exec_fpscr h
    · rw [e]
    · exact e.flags_eq hc hi
  · obtain ⟨hp', _⟩ | ⟨_, e⟩ := exec_fpscr h
    · exact absurd (hp.symm.trans hp') (by decide)
    · obtain ⟨r, hr⟩ := e.flags_of_compare hc
      rw [hr]
      cases r <;> simp [relationFlags]
  · obtain ⟨ok, flags⟩ := fpscrOf_flagsWord f
    exact ⟨flagsWord f, fun c rd s hc hr hw => ⟨_, exec_fmxr_fpscr hc hr (hw ▸ ok), by simp [hw, flags]⟩⟩

end Sys2Proof.Machine
end

section
/-! PROOFS. The state after reset (10_state.md R42), the content tags (R23), and a store whose registers a load restores
(45_load_store.md R237). -/

namespace Sys2Proof.Machine

/-! ### Reset -/

/-- Settles O10: the fields of `State.reset`, one after another. -/
theorem resetState : Obligations.ResetState := by
  have pair (n : DReg) : State.reset.pairAt n = .whole := by simp [State.pairAt, State.reset]
  have word (j : SReg) : State.reset.word j = 0 ∧ State.reset.tagAt j = .any := by
    simp [State.word, State.tagAt, State.reset]
  have arm (r : RReg) (hr : r ≠ 15) : State.reset.armReg r = 0 := by revert r; decide
  have subArch (low : BitVec 4) : State.reset.subArchReg low = 0 := by simp [State.subArchReg, State.reset]
  exact ⟨pair, rfl, rfl, rfl, word, arm, by decide, rfl, rfl, rfl, rfl, rfl, rfl, rfl, rfl, rfl, subArch⟩

/-! ### Content tags -/

theorem requireTag_unwritten {other : Tag} {j : SReg} {s : State} (h : s.tagAt j = .none) :
    requireTag other j s = .error (.fault (.unwrittenRegister j)) := by
  unfold requireTag; rw [if_pos h]

theorem requireTag_crossed {other : Tag} {j : SReg} {s : State} (hn : other ≠ .none) (h : s.tagAt j = other)
    (ho : s.cfg.overlap = .tagged) : requireTag other j s = .error (.refused .crossPrecisionRead) := by
  unfold requireTag; rw [if_neg (h ▸ hn), if_pos ⟨h, ho⟩]

/-- A word last written in the precision `own`, in either or in a transparent other one is readable (10_state.md R23). -/
theorem requireTag_ok {own other : Tag} {j : SReg} {s : State} (hown : own ≠ .none ∧ own ≠ other)
    (hother : other ≠ .none ∧ other ≠ .any)
    (h : s.tagAt j = own ∨ s.tagAt j = .any ∨ (s.tagAt j = other ∧ s.cfg.overlap = .transparent)) :
    requireTag other j s = .ok () := by
  rw [requireTag_eq_ok]
  rcases h with h | h | ⟨h, ho⟩
  · exact ⟨h ▸ hown.1, fun _ => h ▸ hown.2⟩
  · exact ⟨by rw [h]; decide, fun _ => h ▸ hother.2.symm⟩
  · exact ⟨h ▸ hother.1, fun ho' => absurd (ho.symm.trans ho') (by decide)⟩

/-- A register that is whole is read once its tags are checked. -/
theorem readReg_of_writable {f : Fmt} {r : VReg f} {s : State} (h : Writable f r s) :
    readReg f r s = requireReadable f r s >>= fun _ => .ok (s.rawReg f r) := by
  rw [readReg, requireWhole_of_writable h, ok_bind]

/-- FMRS reads a word once its tag is checked. -/
theorem exec_fmrs_whole {c : Cond} {rd : RReg} {n : SReg} {s : State} (h : Ready c false s) (hr : rd ≠ 15)
    (hw : Writable .sgl n s) :
    exec (.fmrs c rd n) s = finish (requireTag .dbl n s >>= fun _ => .ok (s.setArm rd (s.word n))) := by
  refine (instruction_ready h).trans (congrArg finish ?_)
  rw [armFromSingle, (requireNotR15_eq_ok (u := ())).2 hr, ok_bind, readReg_of_writable hw, requireReadable]
  cases requireTag .dbl n s <;> rfl

/-- FMRDL reads the low word of a double once the tags of both words are checked, the low word's first. -/
theorem exec_fmrdl_whole {c : Cond} {rd : RReg} {n : DReg} {s : State} (h : Ready c true s) (hr : rd ≠ 15)
    (hw : Writable .dbl n s) :
    exec (.fmrdl c rd n) s = finish (requireTag .sgl (loIndex n) s >>= fun _ => requireTag .sgl (hiIndex n) s >>= fun _ =>
      .ok (s.setArm rd (s.word (loIndex n)))) := by
  have low : loWord (s.rawReg .dbl n) = s.word (loIndex n) := loWord_dwordOf _ _
  refine (instruction_ready h).trans (congrArg finish ?_)
  rw [armFromHalf, (requireNotR15_eq_ok (u := ())).2 hr, ok_bind, readReg_of_writable hw, requireReadable, ← low]
  cases requireTag .sgl (loIndex n) s
  · rfl
  · cases requireTag .sgl (hiIndex n) s <;> rfl

/-- A transfer to an ARM register completes with the value there. -/
theorem finish_setArm {s : State} {rd : RReg} (hr : rd ≠ 15) (v : Word) :
    ∃ t, finish (.ok (s.setArm rd v)) = .next t ∧ t.armReg rd = v :=
  ⟨_, rfl, by rw [armReg_advance hr, armReg_setArm hr, if_pos rfl]⟩

/-- Settles O59, by what the check of each word's tag answers. -/
theorem contentTags : Obligations.ContentTags := by
  refine ⟨fun c rd n s h hr hp => ?_, fun c rd n s h hr hp => ?_⟩
  · rw [exec_fmrs_whole (n := n) h hr hp]
    refine ⟨fun ht => ?_, fun ht ho => ?_, fun ht => ?_⟩
    · rw [requireTag_unwritten ht]; rfl
    · rw [requireTag_crossed (by decide) ht ho]; rfl
    · rw [requireTag_ok (by decide) (by decide) ht]; exact finish_setArm hr _
  · rw [exec_fmrdl_whole (n := n) h hr hp]
    refine ⟨fun ht => ?_, fun ht ho => ?_, fun ht => ?_⟩
    · rw [requireTag_unwritten ht]; rfl
    · rw [requireTag_crossed (by decide) ht ho]; rfl
    · rw [requireTag_ok (by decide) (by decide) ht, ok_bind]
      refine ⟨fun ht' => ?_, fun ht' ho => ?_, fun ht' => ?_⟩
      · rw [requireTag_unwritten ht']; rfl
      · rw [requireTag_crossed (by decide) ht' ho]; rfl
      · rw [requireTag_ok (by decide) (by decide) ht']; exact finish_setArm hr _

/-! ### A Decrement store and an Increment load -/

/-- An instruction that is ready and completes does so with the state of its body. -/
theorem body_of_ready {c : Cond} {i : Instr} {double : Bool} {body : State → Except Stop State} {s t : State}
    (hr : Ready c double s) (h : instruction c i double body s = .next t) : ∃ u, body s = .ok u ∧ t = u.advance := by
  rcases instruction_eq_next.1 h with ⟨hc, _⟩ | ⟨_, hu⟩
  · exact absurd (hr.1.symm.trans hc) (by decide)
  · exact hu

/-- The base is decremented by what it is then incremented by, so the load starts where the store did, reads the block
that the store wrote and puts the base back (45_load_store.md R237). -/
theorem load_increment_of_store_decrement {f : Fmt} {d : VReg f} {k : Nat} {rn : RReg} {offset : BitVec 8}
    {s t u v : State} (hw : s.mem.wf) (hs : store f .decrement d k rn offset s = .ok t) (hm : u.mem = t.mem)
    (hc : u.cfg = t.cfg) (hb : u.armReg rn = t.armReg rn) (hl : load f .increment d k rn offset u = .ok v) :
    v.armReg rn = s.armReg rn ∧
      ∀ i, i < k → v.rawReg f (regAt f (regIndex f d + i)) = s.rawReg f (regAt f (regIndex f d + i)) := by
  obtain ⟨ho, _, _, _, rfl⟩ := store_eq_ok.1 hs
  obtain ⟨_, _, _, rfl⟩ := load_eq_ok.1 hl
  have base : u.armReg rn = s.armReg rn - off4 offset := by
    rw [hb, armReg_writeBack ho.base, if_pos rfl]; rfl
  have short : 4 * (k * wordsOf f) < 2 ^ 32 := by
    have := ho.list
    cases f <;> simp only [regCount, wordsOf] at * <;> omega
  have block : loadPats f u.cfg.bigEnd (startAddress .increment (u.armReg rn) offset) k u.mem =
      (List.range k).map fun l => s.rawReg f (regAt f (regIndex f d + l)) := by
    have := loadPats_storePats (f := f) (bigEnd := s.cfg.bigEnd) (a := s.armReg rn - off4 offset)
      (vs := (List.range k).map fun l => s.rawReg f (regAt f (regIndex f d + l))) hw (by simpa using short)
    rw [hm, hc, base]
    simpa [startAddress] using this
  constructor
  · rw [armReg_writeBack ho.base, if_pos rfl, newBase, Option.getD_some,
      armReg_congr (s := u) (State.setRegs_arm _ _ _ _) (fun _ => State.setRegs_pc _ _ _ _), base, BitVec.sub_add_cancel]
  · intro i hi
    rw [block, rawReg_congr (s := State.setRegs f u _ _) (fun _ _ => State.writeBack_word _ _ _ _ _)]
    exact rawReg_setRegs (by simpa using ho.list) (by simp [hi])

/-- Settles O50: both pairs are a store and a load of one list of registers. -/
theorem pushPop : Obligations.PushPop := by
  constructor
  · intro c c' d rn offset s t u v hw hr hs hm hc hb hr' hl
    obtain ⟨t', stores, rfl⟩ := body_of_ready hr hs
    obtain ⟨v', loads, rfl⟩ := body_of_ready hr' hl
    have hn : rn ≠ 15 := (store_eq_ok.1 stores).1.base
    rw [armReg_advance hn] at hb ⊢
    exact load_increment_of_store_decrement hw stores hm hc hb loads
  · intro c c' d rn offset s t u v _ hw hr hs hm hc hb hr' hl
    obtain ⟨_, doubles, rfl⟩ := body_of_ready hr hs
    obtain ⟨v', loads, rfl⟩ := body_of_ready hr' hl
    obtain ⟨t', stores, rfl⟩ := storeDoubles_eq_ok.1 doubles
    have hn : rn ≠ 15 := (store_eq_ok.1 stores).1.base
    rw [armReg_advance hn] at hb ⊢
    exact load_increment_of_store_decrement hw stores hm hc hb loads

end Sys2Proof.Machine
end

section
/-! PROOFS. Steps that find no instruction (20_memory.md R55, 70_reset_and_hazards.md R322, 30_encoding.md R91), and the word
order of a double-precision value in memory (20_memory.md R54). -/

namespace Sys2Proof.Machine

/-! ### Fetching -/

theorem fetch_misaligned {s : State} (h : s.pc.extractLsb' 0 2 ≠ 0) : fetch s = .error .misalignedAccess := by
  unfold fetch; rw [if_pos h]

/-- At an aligned program counter a whole number of words above the text base, what is fetched depends on the text alone. -/
theorem fetch_of_getElem? {s : State} {k : Nat} (ha : s.pc.extractLsb' 0 2 = 0)
    (hk : (s.pc - s.textBase).toNat = 4 * k) :
    (∀ w, s.text[k]? = some w → fetch s = .ok w) ∧
      (s.text[k]? = none → fetch s = .error (if k = s.text.length then .finalState else .outsideText)) := by
  have aligned : ¬4 * k % 4 ≠ 0 := by omega
  have end_iff : 4 * k = 4 * s.text.length ↔ k = s.text.length := by omega
  unfold fetch
  rw [if_neg (not_not.2 ha)]
  simp only [hk, if_neg aligned, Nat.mul_div_cancel_left k (by decide : 0 < 4), end_iff]
  exact ⟨fun w hw => by rw [hw], fun hn => by rw [hn]⟩

theorem fetch_of_fetched {w : Word} {s : State} (h : Fetched w s) : fetch s = .ok w := by
  obtain ⟨k, hk, hw⟩ := h.place
  exact (fetch_of_getElem? h.aligned hk).1 w hw

/-- Just past the text there is no word, and the state is final. -/
theorem fetch_final {s : State} (ha : s.pc.extractLsb' 0 2 = 0) (hk : (s.pc - s.textBase).toNat = 4 * s.text.length) :
    fetch s = .error .finalState := by
  rw [(fetch_of_getElem? ha hk).2 (List.getElem?_eq_none (Nat.le_refl _)), if_pos rfl]

/-- Elsewhere outside the text: beyond its end, or between two words of a text whose base is misaligned. -/
theorem fetch_outside {s : State} (ha : s.pc.extractLsb' 0 2 = 0)
    (h : 4 * s.text.length < (s.pc - s.textBase).toNat ∨ (s.pc - s.textBase).toNat % 4 ≠ 0) :
    fetch s = .error .outsideText := by
  by_cases hm : (s.pc - s.textBase).toNat % 4 = 0
  · obtain ⟨k, hk⟩ := Nat.dvd_of_mod_eq_zero hm
    have past : s.text.length < k := by omega
    rw [(fetch_of_getElem? ha hk).2 (List.getElem?_eq_none past.le), if_neg past.ne']
  · unfold fetch
    rw [if_neg (not_not.2 ha), if_pos hm]

theorem step_of_fetch_error {s : State} {r : Refusal} (h : fetch s = .error r) : step s = .refused r := by
  unfold step; rw [h]

/-! ### Words of other instructions -/

/-- The decoder refuses as no VFP instruction every word outside the space of the VFP. -/
theorem decode_of_not_vfpWord {w : Word} (h : ¬VfpWord w) : decode w = .error .notVfp := by
  unfold decode
  cases hc : condOf (w.extractLsb' 28 4) with
  | none => rfl
  | some c =>
    have cond : w.extractLsb' 28 4 ≠ 15 := fun e => by rw [e] at hc; cases hc
    by_cases hp : w.extractLsb' 8 4 = 10 ∨ w.extractLsb' 8 4 = 11
    · have format : ¬(w.extractLsb' 24 4 = 0b1110 ∨ w.extractLsb' 25 3 = 0b110) := fun hf => h ⟨cond, hp, hf⟩
      rw [not_or] at format
      simp only [if_pos hp, if_neg format.1, if_neg format.2]
    · simp only [if_neg hp]

theorem step_of_not_vfpWord {w : Word} {s : State} (hf : Fetched w s) (h : ¬VfpWord w) : step s = .refused .notVfp := by
  unfold step
  rw [fetch_of_fetched hf]
  simp only [decode_of_not_vfpWord h]
  rfl

/-- Settles O6, by what a fetch answers for each place of the program counter. -/
theorem stepWithoutInstruction : Obligations.StepWithoutInstruction := fun _ =>
  ⟨fun h => step_of_fetch_error (fetch_misaligned h),
    fun ha => ⟨fun h => step_of_fetch_error (fetch_final ha h), fun h => step_of_fetch_error (fetch_outside ha h)⟩,
    fun _ hf h => step_of_not_vfpWord hf h⟩

/-! ### The word order of a double -/

theorem loadPat_dbl_little (a : Word) (m : Memory) :
    loadPat .dbl false a m = dwordOf (readWord false (a + 4) m) (readWord false a m) := rfl

theorem loadPat_dbl_big (a : Word) (m : Memory) :
    loadPat .dbl true a m = dwordOf (readWord true a m) (readWord true (a + 4) m) := rfl

theorem dwordOf_eq_iff {hi lo : Word} {v : DWord} : dwordOf hi lo = v ↔ hi = hiWord v ∧ lo = loWord v := by
  constructor
  · rintro rfl; rw [hiWord_dwordOf, loWord_dwordOf]; exact ⟨rfl, rfl⟩
  · rintro ⟨rfl, rfl⟩; exact dwordOf_hiWord_loWord v

/-- Settles O49: a load reads the two words in the order of R54, and a stored double loads as its value, so its words lie in
that order too. -/
theorem wordOrder : Obligations.WordOrder := by
  refine fun a m => ⟨loadPat_dbl_little a m, loadPat_dbl_big a m, fun hm v => ?_⟩
  have little : loadPat .dbl false a (storePat .dbl false a v m) = v := loadPat_storePat hm
  have big : loadPat .dbl true a (storePat .dbl true a v m) = v := loadPat_storePat hm
  rw [loadPat_dbl_little, dwordOf_eq_iff] at little
  rw [loadPat_dbl_big, dwordOf_eq_iff] at big
  exact ⟨little.2, little.1, big.1, big.2⟩

end Sys2Proof.Machine
end

section
/-! PROOFS. Instructions other than loads and stores neither read nor write memory (20_memory.md R51). -/

namespace Sys2Proof.Machine

/-! ### Computations that neither read nor write memory -/

/-- The state with another memory. -/
def State.withMem (s : State) (m : Memory) : State := { s with mem := m }

/-- What is computed of a state does not depend on its memory. -/
def MemoryUnread {α : Type} (read : State → α) : Prop := ∀ s m, read (s.withMem m) = read s

/-- The body of an instruction does not depend on memory and leaves it as it is. -/
def MemoryFree (body : State → Except Stop State) : Prop := ∀ s m, body (s.withMem m) = (body s).map (·.withMem m)

theorem memoryFree_ok {update : State → State} (h : ∀ s m, update (s.withMem m) = (update s).withMem m) :
    MemoryFree fun s => .ok (update s) :=
  fun s m => congrArg Except.ok (h s m)

theorem memoryFree_error (e : Stop) : MemoryFree fun _ => .error e := fun _ _ => rfl

/-- A value read, and a body that goes on with it. -/
theorem memoryFree_bind {α : Type} {read : State → Except Stop α} {body : α → State → Except Stop State}
    (hr : MemoryUnread read) (hb : ∀ a, MemoryFree (body a)) : MemoryFree fun s => read s >>= fun a => body a s := by
  intro s m
  simp only [hr s m]
  cases read s with
  | error e => rfl
  | ok a => exact hb a s m

/-- An intermediate state, and a body that goes on from it. -/
theorem memoryFree_andThen {body next : State → Except Stop State} (hb : MemoryFree body) (hn : MemoryFree next) :
    MemoryFree fun s => body s >>= next := by
  intro s m
  simp only [hb s m]
  cases body s with
  | error e => rfl
  | ok t => exact hn t m

/-- A choice that does not depend on memory. -/
theorem memoryFree_ite {P : State → Prop} [DecidablePred P] {body other : State → Except Stop State}
    (hP : MemoryUnread P) (hb : MemoryFree body) (ho : MemoryFree other) :
    MemoryFree fun s => if P s then body s else other s := by
  intro s m
  simp only [hP s m]
  by_cases h : P s
  · simp only [if_pos h]; exact hb s m
  · simp only [if_neg h]; exact ho s m

/-- The template of an instruction adds nothing that depends on memory. -/
theorem instruction_withMem {c : Cond} {i : Instr} {double : Bool} {body : State → Except Stop State}
    (h : MemoryFree body) (s : State) (m : Memory) :
    instruction c i double body (s.withMem m) = withMemory m (instruction c i double body s) := by
  have finished : finish (body (s.withMem m)) = withMemory m (finish (body s)) := by
    rw [h s m]
    cases body s with
    | ok t => rfl
    | error e => cases e <;> rfl
  have cpsr : (s.withMem m).cpsr = s.cpsr := rfl
  have cfg : (s.withMem m).cfg = s.cfg := rfl
  simp only [instruction, finished, cpsr, cfg]
  by_cases hc : conditionPassed c s.cpsr = true
  · by_cases hd : (double && !s.cfg.hasDouble) = true
    · simp only [if_pos hc, if_pos hd]; rfl
    · simp only [if_pos hc, if_neg hd]
  · simp only [if_neg hc]; rfl

/-! ### Registers -/

theorem memoryUnread_const {α : Type} (a : α) : MemoryUnread fun _ => a := fun _ _ => rfl

theorem memoryUnread_requireWhole (n : DReg) : MemoryUnread (requireWhole n) := fun _ _ => rfl

theorem memoryUnread_readReg (f : Fmt) (r : VReg f) : MemoryUnread (readReg f r) := by
  intro s m; cases f <;> rfl

@[simp] theorem State.withMem_armReg (s : State) (m : Memory) (r : RReg) : (s.withMem m).armReg r = s.armReg r := rfl

@[simp] theorem State.withMem_pairOrder (s : State) (m : Memory) (rd rn : RReg) :
    pairOrder (s.withMem m) rd rn = pairOrder s rd rn := rfl

@[simp] theorem State.withMem_setReg (s : State) (m : Memory) (f : Fmt) (r : VReg f) (v : Pat f) :
    (s.withMem m).setReg f r v = (s.setReg f r v).withMem m := by cases f <;> rfl

@[simp] theorem State.withMem_setArm (s : State) (m : Memory) (r : RReg) (v : Word) :
    (s.withMem m).setArm r v = (s.setArm r v).withMem m := by
  unfold State.setArm; split <;> rfl

/-! ### Data-processing -/

theorem memoryFree_scalarOnly {body : State → Except Stop State} (h : MemoryFree body) : MemoryFree (scalarOnly body) :=
  memoryFree_ite (P := fun s => s.fpscr.len = 0) (fun _ _ => rfl) h (memoryFree_error _)

theorem memoryFree_signal (e : ExcSet) : MemoryFree (signal e) := by
  intro s m
  have fpscr : (s.withMem m).fpscr = s.fpscr := rfl
  simp only [signal, fpscr]
  cases trapped s.fpscr.enables e <;> rfl

theorem memoryFree_deliver (f : Fmt) (d : VReg f) (r : FpEnv → FpResult f) :
    MemoryFree fun s => deliver f d (r (fpEnv s)) s := by
  have fixed (r : FpResult f) : MemoryFree (deliver f d r) :=
    memoryFree_bind (memoryUnread_requireWhole _) fun _ =>
      memoryFree_andThen (memoryFree_signal _) (memoryFree_ok fun _ _ => by simp)
  exact fun s m => fixed (r (fpEnv s)) s m

theorem memoryFree_binary {f : Fmt} {op : FpEnv → Pat f → Pat f → FpResult f} {d n m : VReg f} :
    MemoryFree (binary f op d n m) :=
  memoryFree_bind (memoryUnread_readReg f n) fun a => memoryFree_bind (memoryUnread_readReg f m) fun b =>
    memoryFree_deliver f d fun env => op env a b

theorem memoryFree_unary {g f : Fmt} {op : FpEnv → Pat g → FpResult f} {d : VReg f} {m : VReg g} :
    MemoryFree (unary g f op d m) :=
  memoryFree_bind (memoryUnread_readReg g m) fun a => memoryFree_deliver f d fun env => op env a

theorem memoryFree_multiplyAccumulate {f : Fmt} {np na : Bool} {d n m : VReg f} :
    MemoryFree (multiplyAccumulate f np na d n m) :=
  memoryFree_bind (memoryUnread_readReg f d) fun acc => memoryFree_bind (memoryUnread_readReg f n) fun a =>
    memoryFree_bind (memoryUnread_readReg f m) fun b => memoryFree_deliver f d fun env => fpMac f env np na acc a b

theorem memoryFree_copyReg {f : Fmt} {g : Pat f → Pat f} {d m : VReg f} : MemoryFree (copyReg f g d m) :=
  memoryFree_bind (memoryUnread_readReg f m) fun _ => memoryFree_bind (memoryUnread_requireWhole _) fun _ =>
    memoryFree_ok fun _ _ => by simp

theorem memoryFree_deliverFlags (r : FpEnv → CompareResult) : MemoryFree fun s => deliverFlags (r (fpEnv s)) s := by
  have fixed (r : CompareResult) : MemoryFree (deliverFlags r) :=
    memoryFree_andThen (memoryFree_signal _) (memoryFree_ok fun _ _ => rfl)
  exact fun s m => fixed (r (fpEnv s)) s m

theorem memoryFree_compareRegs {f : Fmt} {e : Bool} {d m : VReg f} : MemoryFree (compareRegs f e d m) :=
  memoryFree_bind (memoryUnread_readReg f d) fun a => memoryFree_bind (memoryUnread_readReg f m) fun b =>
    memoryFree_deliverFlags fun env => compareValues f env e a b

theorem memoryFree_compareWithZero {f : Fmt} {e : Bool} {d : VReg f} : MemoryFree (compareWithZero f e d) :=
  memoryFree_bind (memoryUnread_readReg f d) fun a =>
    memoryFree_deliverFlags fun env => compareValues f env e a (zeroPat f false)

/-! ### Transfers -/

theorem memoryFree_singleFromArm {n : SReg} {rd : RReg} : MemoryFree (singleFromArm n rd) :=
  memoryFree_bind (memoryUnread_const _) fun _ => memoryFree_bind (memoryUnread_requireWhole _) fun _ =>
    memoryFree_ok fun _ _ => by simp

theorem memoryFree_armFromSingle {rd : RReg} {n : SReg} : MemoryFree (armFromSingle rd n) :=
  memoryFree_bind (memoryUnread_const _) fun _ => memoryFree_bind (memoryUnread_readReg .sgl n) fun _ =>
    memoryFree_ok fun _ _ => by simp

theorem memoryFree_halfFromArm {low : Bool} {n : DReg} {rd : RReg} : MemoryFree (halfFromArm low n rd) := by
  refine memoryFree_bind (memoryUnread_const _) fun _ s m => ?_
  have pair : (s.withMem m).pairAt n = s.pairAt n := rfl
  simp only [writeHalf, pair]
  cases afterHalf low (s.pairAt n) <;> rfl

theorem memoryFree_armFromHalf {half : DWord → Word} {rd : RReg} {n : DReg} : MemoryFree (armFromHalf half rd n) :=
  memoryFree_bind (memoryUnread_const _) fun _ => memoryFree_bind (memoryUnread_readReg .dbl n) fun _ =>
    memoryFree_ok fun _ _ => by simp

theorem memoryFree_systemFromArm {i : Instr} {reg : SysReg} {rd : RReg} : MemoryFree (systemFromArm i reg rd) := by
  refine memoryFree_bind (fun _ _ => rfl) fun _ => memoryFree_bind (memoryUnread_const _) fun _ => ?_
  cases reg with
  | fpsid => exact memoryFree_error _
  | fpscr => exact memoryFree_ite (fun _ _ => rfl) (memoryFree_ok fun _ _ => rfl) (memoryFree_error _)
  | fpexc => exact memoryFree_ite (fun _ _ => rfl) (memoryFree_ok fun _ _ => rfl) (memoryFree_error _)
  | subArch low => exact memoryFree_ite (fun _ _ => rfl) (memoryFree_ok fun _ _ => rfl) (memoryFree_error _)

theorem memoryFree_readSysReg {reg : SysReg} {rd : RReg} : MemoryFree (readSysReg reg rd) := by
  cases reg with
  | fpsid => exact memoryFree_ok fun s m => State.withMem_setArm s m rd s.fpsid
  | fpscr => exact memoryFree_ok fun s m => State.withMem_setArm s m rd s.fpscr.word
  | fpexc => exact memoryFree_ok fun s m => State.withMem_setArm s m rd s.fpexc
  | subArch low =>
    exact memoryFree_ite (fun _ _ => rfl)
      (memoryFree_ok fun s m => State.withMem_setArm s m rd (Config.subArchRead (SysReg.subArch low).bits (s.subArchReg low)))
      (memoryFree_error _)

theorem memoryFree_armFromSystem {i : Instr} {rd : RReg} {reg : SysReg} : MemoryFree (armFromSystem i rd reg) :=
  memoryFree_bind (fun _ _ => rfl) fun _ => memoryFree_ite (fun _ _ => rfl) (memoryFree_ok fun _ _ => rfl)
    (memoryFree_bind (memoryUnread_const _) fun _ => memoryFree_readSysReg)

theorem memoryFree_singlesFromArm {m : SReg} {rd rn : RReg} : MemoryFree (singlesFromArm m rd rn) :=
  memoryFree_bind (memoryUnread_const _) fun _ => memoryFree_bind (memoryUnread_const _) fun _ =>
    memoryFree_bind (memoryUnread_requireWhole _) fun _ => memoryFree_bind (memoryUnread_requireWhole _) fun _ =>
      memoryFree_ok fun _ _ => by simp

theorem memoryFree_armFromSingles {rd rn : RReg} {m : SReg} : MemoryFree (armFromSingles rd rn m) :=
  memoryFree_bind (memoryUnread_const _) fun _ => memoryFree_bind (memoryUnread_const _) fun _ =>
    memoryFree_bind (memoryUnread_const _) fun _ => memoryFree_bind (memoryUnread_readReg .sgl m) fun _ =>
      memoryFree_bind (memoryUnread_readReg .sgl _) fun _ => memoryFree_ok fun _ _ => by simp

theorem memoryFree_doubleFromArm {m : DReg} {rd rn : RReg} : MemoryFree (doubleFromArm m rd rn) :=
  memoryFree_bind (memoryUnread_const _) fun _ => memoryFree_bind (memoryUnread_requireWhole _) fun _ =>
    memoryFree_ok fun _ _ => by simp

theorem memoryFree_armFromDouble {rd rn : RReg} {m : DReg} : MemoryFree (armFromDouble rd rn m) :=
  memoryFree_bind (memoryUnread_const _) fun _ => memoryFree_bind (memoryUnread_const _) fun _ =>
    memoryFree_bind (memoryUnread_readReg .dbl m) fun _ => memoryFree_ok fun _ _ => by simp

/-! ### Every instruction -/

/-- An instruction that is neither a load nor a store runs a memory-free body. -/
theorem exec_withMem {i : Instr} (hl : i.cls ≠ .load) (hs : i.cls ≠ .store) (s : State) (m : Memory) :
    exec i (s.withMem m) = withMemory m (exec i s) := by
  cases i with
  | fmacs | fmacd | fnmacs | fnmacd | fmscs | fmscd | fnmscs | fnmscd =>
    exact instruction_withMem (memoryFree_scalarOnly memoryFree_multiplyAccumulate) s m
  | fmuls | fmuld | fnmuls | fnmuld | fadds | faddd | fsubs | fsubd | fdivs | fdivd =>
    exact instruction_withMem (memoryFree_scalarOnly memoryFree_binary) s m
  | fsqrts | fsqrtd => exact instruction_withMem (memoryFree_scalarOnly memoryFree_unary) s m
  | fcpys | fcpyd | fabss | fabsd | fnegs | fnegd =>
    exact instruction_withMem (memoryFree_scalarOnly memoryFree_copyReg) s m
  | fcmps | fcmpd | fcmpes | fcmped => exact instruction_withMem memoryFree_compareRegs s m
  | fcmpzs | fcmpzd | fcmpezs | fcmpezd => exact instruction_withMem memoryFree_compareWithZero s m
  | fcvtds | fcvtsd | fuitos | fuitod | fsitos | fsitod | ftouis | ftouid | ftouizs | ftouizd | ftosis | ftosid | ftosizs
  | ftosizd => exact instruction_withMem memoryFree_unary s m
  | flds | fldd | fldmsUnindexed | fldmsIncrement | fldmsDecrement | fldmdUnindexed | fldmdIncrement | fldmdDecrement
  | fldmxUnindexed | fldmxIncrement | fldmxDecrement => exact absurd rfl hl
  | fsts | fstd | fstmsUnindexed | fstmsIncrement | fstmsDecrement | fstmdUnindexed | fstmdIncrement | fstmdDecrement
  | fstmxUnindexed | fstmxIncrement | fstmxDecrement => exact absurd rfl hs
  | fmstat => exact instruction_withMem (memoryFree_ok fun _ _ => rfl) s m
  | fmsr => exact instruction_withMem memoryFree_singleFromArm s m
  | fmrs => exact instruction_withMem memoryFree_armFromSingle s m
  | fmxr => exact instruction_withMem memoryFree_systemFromArm s m
  | fmrx => exact instruction_withMem memoryFree_armFromSystem s m
  | fmdlr | fmdhr => exact instruction_withMem memoryFree_halfFromArm s m
  | fmrdl | fmrdh => exact instruction_withMem memoryFree_armFromHalf s m
  | fmsrr => exact instruction_withMem memoryFree_singlesFromArm s m
  | fmrrs => exact instruction_withMem memoryFree_armFromSingles s m
  | fmdrr => exact instruction_withMem memoryFree_doubleFromArm s m
  | fmrrd => exact instruction_withMem memoryFree_armFromDouble s m

/-- Settles O13, by the body that each instruction runs. -/
theorem memoryOnlyByLoadsAndStores : Obligations.MemoryOnlyByLoadsAndStores := fun _ s m hl hs => exec_withMem hl hs s m

end Sys2Proof.Machine
end

section
/-! PROOFS. Loads and stores complete: the registers or the words transferred, the base written back, and nothing else
changed (45_load_store.md R216 to R227). -/

namespace Sys2Proof.Machine

/-- A load that is ready completes (45_load_store.md R218). -/
theorem instruction_loaded {f : Fmt} {mode : AddrMode} {d : VReg f} {k : Nat} {rn : RReg} {offset : BitVec 8} {c : Cond}
    {i : Instr} {double : Bool} {s : State} (h : Ready c double s) (hl : LoadReady f mode (regIndex f d) k rn offset s) :
    ∃ t, instruction c i double (load f mode d k rn offset) s = .next t ∧
      Loaded f (regIndex f d) (loadPats f s.cfg.bigEnd (startAddress mode (s.armReg rn) offset) k s.mem) rn
        (newBase mode (s.armReg rn) offset) s t :=
  ⟨_, instruction_next_of_ok h (load_eq_ok.2 ⟨hl.operands, hl.writable, hl.admitted, rfl⟩),
    loaded_advance hl.operands.base (by simpa using hl.operands.list)⟩

/-- Settles O27: each form is a load in one mode, whose start address and new base are those of R216. -/
theorem loads : Obligations.Loads := by
  refine ⟨fun _ up d _ _ _ h hl => ?_, fun _ up d _ _ _ h hl => ?_, fun _ d _ _ _ h => ?_, fun _ d _ _ _ h => ?_⟩
  · cases up <;> exact instruction_loaded (f := .sgl) (d := d) h hl
  · cases up <;> exact instruction_loaded (f := .dbl) (d := d) h hl
  · refine ⟨?_, ?_, ?_⟩ <;> exact instruction_loaded (f := .sgl) (d := d) h
  · refine ⟨?_, ?_, ?_⟩ <;> exact instruction_loaded (f := .dbl) (d := d) h

/-! ### Stores -/

/-- The values of `k` registers from `d` up. -/
def valuesOf (f : Fmt) (s : State) (d : VReg f) (k : Nat) : List (Pat f) :=
  (List.range k).map fun l => s.rawReg f (regAt f (regIndex f d + l))

@[simp] theorem valuesOf_length (f : Fmt) (s : State) (d : VReg f) (k : Nat) : (valuesOf f s d k).length = k := by
  simp [valuesOf]

theorem valuesOf_one (f : Fmt) (s : State) (d : VReg f) : valuesOf f s d 1 = [s.rawReg f d] := by
  simp [valuesOf]

/-- The transfers that R217 admits are shorter than the address space. -/
theorem TransferOk.short {f : Fmt} {first k : Nat} {rn : RReg} {s : State} (h : TransferOk f first k rn s) :
    4 * (k * wordsOf f) < 2 ^ 32 := by
  have list := h.list
  cases f <;> simp only [regCount, wordsOf] at * <;> omega

/-- The state that a ready store answers, with images recorded, is one that `Stored` describes. -/
theorem storeReady_stored {f : Fmt} {mode : AddrMode} {d : VReg f} {k : Nat} {rn : RReg} {offset : BitVec 8} {s : State}
    (images : List FstmxImage) (hs : StoreReady f mode (regIndex f d) k rn offset s) :
    ∃ u, store f mode d k rn offset s = .ok u ∧
      Stored f (startAddress mode (s.armReg rn) offset) (valuesOf f s d k) images rn (newBase mode (s.armReg rn) offset) s
        (u.noteImages images).advance := by
  refine ⟨_, store_eq_ok.2 ⟨hs.operands, hs.readable, hs.admitted, hs.outsideText, rfl⟩, ?_⟩
  have := stored_advance (f := f) (mode := mode) (vs := valuesOf f s d k) (offset := offset)
    (a := startAddress mode (s.armReg rn) offset) (images := images) hs.operands.base hs.memory
    (by rw [valuesOf_length]; exact hs.operands.short)
  rwa [valuesOf_length] at this

/-- A store that is ready completes (45_load_store.md R218). -/
theorem instruction_stored {f : Fmt} {mode : AddrMode} {d : VReg f} {k : Nat} {rn : RReg} {offset : BitVec 8} {c : Cond}
    {i : Instr} {double : Bool} {s : State} (h : Ready c double s) (hs : StoreReady f mode (regIndex f d) k rn offset s) :
    ∃ t, instruction c i double (store f mode d k rn offset) s = .next t ∧
      Stored f (startAddress mode (s.armReg rn) offset) (valuesOf f s d k) [] rn (newBase mode (s.armReg rn) offset) s t := by
  obtain ⟨u, hu, stored⟩ := storeReady_stored [] hs
  exact ⟨_, instruction_next_of_ok h hu, stored⟩

/-- The image of an FSTMD records every register as whole, since it stores no half-written one (R236, R325). -/
theorem doublesImage_eq (cfg : Config) (d : DReg) (start : Word) (vs : List DWord) :
    doublesImage cfg d start vs = fstmdImages cfg d start vs := by
  unfold doublesImage fstmdImages
  cases cfg.fstmxFormat
  · simp [imageOf, Function.comp_def]
  · rfl

/-- An FSTMD that is ready completes, and leaves its image (R227, R236). -/
theorem instruction_storedDoubles {mode : AddrMode} {d : DReg} {rn : RReg} {offset : BitVec 8} {c : Cond}
    {i : Instr} {double : Bool} {s : State} (h : Ready c double s)
    (hs : StoreReady .dbl mode d.val (offset.toNat / 2) rn offset s) :
    ∃ t, instruction c i double (storeDoubles mode d rn offset) s = .next t ∧
      Stored .dbl (startAddress mode (s.armReg rn) offset) (valuesOf .dbl s d (offset.toNat / 2))
        (fstmdImages s.cfg d (startAddress mode (s.armReg rn) offset) (valuesOf .dbl s d (offset.toNat / 2))) rn
        (newBase mode (s.armReg rn) offset) s t := by
  obtain ⟨u, hu, stored⟩ := storeReady_stored (f := .dbl) (d := d)
    (doublesImage s.cfg d (startAddress mode (s.armReg rn) offset) (valuesOf .dbl s d (offset.toNat / 2))) hs
  rw [← doublesImage_eq]
  exact ⟨_, instruction_next_of_ok h (storeDoubles_eq_ok.2 ⟨u, hu, rfl⟩), stored⟩

/-- Settles O28: each form is a store in one mode, whose start address and new base are those of R216. -/
theorem stores : Obligations.Stores := by
  refine ⟨fun c up d rn offset _ h hs => ?_, fun c up d rn offset _ h hs => ?_, fun _ d _ _ _ h => ?_,
    fun _ _ _ _ _ h => ⟨instruction_storedDoubles h, instruction_storedDoubles h, instruction_storedDoubles h⟩⟩
  · have single := instruction_stored (f := .sgl) (d := d) (i := .fsts c up d rn offset) h hs
    rw [valuesOf_one] at single
    cases up <;> exact single
  · have double := instruction_stored (f := .dbl) (d := d) (i := .fstd c up d rn offset) h hs
    rw [valuesOf_one] at double
    cases up <;> exact double
  · refine ⟨?_, ?_, ?_⟩ <;> exact instruction_stored (f := .sgl) (d := d) h

end Sys2Proof.Machine
end

section
/-! PROOFS. Where loads and stores stop: misaligned bases, accesses that `MemMap` does not admit, stores into the program text
(20_memory.md R55, R60, R64; 60_exceptions.md R294, R300). -/

namespace Sys2Proof.Machine

/-- Of operands that are otherwise as R217 wants them, a misaligned base is refused (20_memory.md R55). -/
theorem requireTransfer_misaligned {f : Fmt} {first k : Nat} {rn : RReg} {s : State} (hb : rn ≠ 15) (hk : 0 < k)
    (hl : first + k ≤ regCount f) (ha : (s.armReg rn).extractLsb' 0 2 ≠ 0) :
    requireTransfer f first k rn s = .error (.refused .misalignedAccess) := by
  unfold requireTransfer
  rw [if_neg hb, if_neg (Nat.ne_of_gt hk), if_neg (Nat.not_lt.2 hl), if_pos ha]

/-! ### A check that stops is what the transfer answers, if the checks before it pass (45_load_store.md R218) -/

section Stops

variable {f : Fmt} {mode : AddrMode} {k : Nat} {rn : RReg} {offset : BitVec 8} {s : State} {e : Stop}

theorem load_of_transfer_error {d : VReg f} (h : requireTransfer f (regIndex f d) k rn s = .error e) :
    load f mode d k rn offset s = .error e := by
  simp only [load, h, error_bind]

theorem load_of_access_error {d : VReg f} (ho : TransferOk f (regIndex f d) k rn s)
    (hw : ∀ l, l < k → Writable f (regAt f (regIndex f d + l)) s)
    (h : requireAdmitted false (startAddress mode (s.armReg rn) offset) (k * wordsOf f) s = .error e) :
    load f mode d k rn offset s = .error e := by
  simp only [load, (requireTransfer_eq_ok (u := ())).2 ho, (requireWholes_eq_ok (u := ())).2 hw, h, ok_bind, error_bind]

theorem store_of_transfer_error {d : VReg f} (h : requireTransfer f (regIndex f d) k rn s = .error e) :
    store f mode d k rn offset s = .error e := by
  simp only [store, h, error_bind]

theorem store_of_access_error {d : VReg f} (ho : TransferOk f (regIndex f d) k rn s)
    (hr : ∀ l, l < k → Readable f (regAt f (regIndex f d + l)) s)
    (h : requireAdmitted true (startAddress mode (s.armReg rn) offset) (k * wordsOf f) s = .error e) :
    store f mode d k rn offset s = .error e := by
  simp only [store, (requireTransfer_eq_ok (u := ())).2 ho, readRegs_eq_ok.2 ⟨hr, rfl⟩, h, ok_bind, error_bind]

theorem store_of_text_error {d : VReg f} (ho : TransferOk f (regIndex f d) k rn s)
    (hr : ∀ l, l < k → Readable f (regAt f (regIndex f d + l)) s)
    (ha : Admitted true (startAddress mode (s.armReg rn) offset) (k * wordsOf f) s)
    (h : requireOutsideText (startAddress mode (s.armReg rn) offset) (k * wordsOf f) s = .error e) :
    store f mode d k rn offset s = .error e := by
  simp only [store, (requireTransfer_eq_ok (u := ())).2 ho, readRegs_eq_ok.2 ⟨hr, rfl⟩,
    (requireAdmitted_eq_ok (u := ())).2 ha, h, ok_bind, error_bind]

theorem storeDoubles_of_error {d : DReg} (h : store .dbl mode d (offset.toNat / 2) rn offset s = .error e) :
    storeDoubles mode d rn offset s = .error e := by
  simp only [storeDoubles, h, error_bind]

variable {d : DReg}

theorem loadUnknown_of_transfer_error (h : requireTransfer .dbl d.val (unknownCount offset) rn s = .error e) :
    loadUnknown mode d rn offset s = .error e := by
  simp only [loadUnknown, h, error_bind]

theorem loadUnknown_of_access_error (ho : TransferOk .dbl d.val (unknownCount offset) rn s)
    (h : requireAdmitted false (startAddress mode (s.armReg rn) offset) (2 * unknownCount offset + 1) s = .error e) :
    loadUnknown mode d rn offset s = .error e := by
  simp only [loadUnknown, (requireTransfer_eq_ok (u := ())).2 ho, h, ok_bind, error_bind]

theorem storeUnknown_of_transfer_error (h : requireTransfer .dbl d.val (unknownCount offset) rn s = .error e) :
    storeUnknown mode d rn offset s = .error e := by
  simp only [storeUnknown, h, error_bind]

theorem storeUnknown_of_access_error (ho : TransferOk .dbl d.val (unknownCount offset) rn s)
    (hs : ∀ l, l < unknownCount offset → Storable (regAt .dbl (d.val + l)) s)
    (h : requireAdmitted true (startAddress mode (s.armReg rn) offset) (2 * unknownCount offset + 1) s = .error e) :
    storeUnknown mode d rn offset s = .error e := by
  simp only [storeUnknown, (requireTransfer_eq_ok (u := ())).2 ho, readUnknowns_eq_ok.2 ⟨hs, rfl⟩, h, ok_bind, error_bind]

theorem storeUnknown_of_text_error (ho : TransferOk .dbl d.val (unknownCount offset) rn s)
    (hs : ∀ l, l < unknownCount offset → Storable (regAt .dbl (d.val + l)) s)
    (ha : Admitted true (startAddress mode (s.armReg rn) offset) (2 * unknownCount offset + 1) s)
    (h : requireOutsideText (startAddress mode (s.armReg rn) offset) (imageSize s.cfg (unknownCount offset)) s = .error e) :
    storeUnknown mode d rn offset s = .error e := by
  simp only [storeUnknown, (requireTransfer_eq_ok (u := ())).2 ho, readUnknowns_eq_ok.2 ⟨hs, rfl⟩,
    (requireAdmitted_eq_ok (u := ())).2 ha, h, ok_bind, error_bind]

end Stops

/-! ### The transfer that a load or store makes -/

/-- Where the body stops, the instruction stops in the same way. -/
def StopsWith (i : Instr) (s : State) (body : State → Except Stop State) : Prop :=
  ∀ e, body s = .error e → exec i s = finish (.error e)

theorem stopsWith_of_instruction {c : Cond} {i j : Instr} {double : Bool} {body : State → Except Stop State} {s : State}
    (h : Ready c double s) (hx : exec i s = instruction c j double body s) : StopsWith i s body := by
  intro e he
  rw [hx, instruction_ready h, he]

/-- FSTMD stops where the store of its registers does, before it leaves an image. -/
theorem StopsWith.of_storeDoubles {i : Instr} {s : State} {mode : AddrMode} {d : DReg} {rn : RReg} {offset : BitVec 8}
    (h : StopsWith i s (storeDoubles mode d rn offset)) : StopsWith i s (store .dbl mode d (offset.toNat / 2) rn offset) :=
  fun e he => h e (storeDoubles_of_error he)

/-- A load or store stops where the load or the store of its transfer does. -/
theorem exec_of_transfer {i : Instr} {T : Transfer} {s : State} (hi : i.transfer = some T)
    (hc : conditionPassed i.cond s.cpsr = true) (hd : T.format = .dbl → s.cfg.hasDouble = true) :
    ∃ d : VReg T.format, regIndex T.format d = T.first ∧
      ((i.cls = .load ∧ StopsWith i s (load T.format T.mode d T.k T.rn T.offset)) ∨
        (i.cls = .store ∧ StopsWith i s (store T.format T.mode d T.k T.rn T.offset))) := by
  have single : Ready i.cond false s := ⟨hc, nofun⟩
  have double (h : T.format = .dbl) : Ready i.cond true s := ⟨hc, fun _ => hd h⟩
  cases i with
  | flds _ _ d _ _ | fldmsUnindexed _ d _ _ | fldmsIncrement _ d _ _ | fldmsDecrement _ d _ _ =>
    cases hi; exact ⟨d, rfl, .inl ⟨rfl, stopsWith_of_instruction single rfl⟩⟩
  | fldd _ _ d _ _ | fldmdUnindexed _ d _ _ | fldmdIncrement _ d _ _ | fldmdDecrement _ d _ _ =>
    cases hi; exact ⟨d, rfl, .inl ⟨rfl, stopsWith_of_instruction (double rfl) rfl⟩⟩
  | fsts _ _ d _ _ | fstmsUnindexed _ d _ _ | fstmsIncrement _ d _ _ | fstmsDecrement _ d _ _ =>
    cases hi; exact ⟨d, rfl, .inr ⟨rfl, stopsWith_of_instruction single rfl⟩⟩
  | fstd _ _ d _ _ => cases hi; exact ⟨d, rfl, .inr ⟨rfl, stopsWith_of_instruction (double rfl) rfl⟩⟩
  | fstmdUnindexed _ d _ _ | fstmdIncrement _ d _ _ | fstmdDecrement _ d _ _ =>
    cases hi; exact ⟨d, rfl, .inr ⟨rfl, (stopsWith_of_instruction (double rfl) rfl).of_storeDoubles⟩⟩
  | _ => cases hi

/-- FLDMX and FSTMX stop where their templates do, in a variant without double precision too (30_encoding.md R96). -/
theorem exec_of_unknownTransfer {i : Instr} {T : Transfer} {s : State} (hi : i.unknownTransfer = some T)
    (hc : conditionPassed i.cond s.cpsr = true) :
    ∃ d : DReg, d.val = T.first ∧ unknownCount T.offset = T.k ∧
      ((i.cls = .load ∧ StopsWith i s (loadUnknown T.mode d T.rn T.offset)) ∨
        (i.cls = .store ∧ StopsWith i s (storeUnknown T.mode d T.rn T.offset))) := by
  have ready : Ready i.cond false s := ⟨hc, nofun⟩
  cases i with
  | fldmxUnindexed _ d _ _ | fldmxIncrement _ d _ _ | fldmxDecrement _ d _ _ =>
    cases hi; exact ⟨d, rfl, rfl, .inl ⟨rfl, stopsWith_of_instruction ready rfl⟩⟩
  | fstmxUnindexed _ d _ _ | fstmxIncrement _ d _ _ | fstmxDecrement _ d _ _ =>
    cases hi; exact ⟨d, rfl, rfl, .inr ⟨rfl, stopsWith_of_instruction ready rfl⟩⟩
  | _ => cases hi

theorem imageSize_eq (cfg : Config) (k : Nat) :
    imageSize cfg k = if cfg.fstmxFormat = .standard then 2 * k else 2 * k + 1 := by
  unfold imageSize; cases cfg.fstmxFormat <;> rfl

/-- Settles O55: the checks of each template in their order, each with what it answers where it stops. -/
theorem memoryStops : Obligations.MemoryStops := by
  constructor
  · intro i T s hi hc hd hb hk
    obtain ⟨d, first, hx⟩ := exec_of_transfer hi hc hd
    rw [← first]
    intro hl
    obtain ⟨cls, stops⟩ | ⟨cls, stops⟩ := hx
    · refine ⟨fun ha => stops _ (load_of_transfer_error (requireTransfer_misaligned hb hk hl ha)), fun ha => ?_⟩
      have operands : TransferOk T.format (regIndex T.format d) T.k T.rn s := ⟨hb, hk, hl, ha⟩
      exact ⟨fun _ hw j hj => stops _ (load_of_access_error operands hw (requireAdmitted_eq_abort hj)),
        fun cls' => nomatch cls.symm.trans cls'⟩
    · refine ⟨fun ha => stops _ (store_of_transfer_error (requireTransfer_misaligned hb hk hl ha)), fun ha => ?_⟩
      have operands : TransferOk T.format (regIndex T.format d) T.k T.rn s := ⟨hb, hk, hl, ha⟩
      exact ⟨fun cls' => (nomatch cls.symm.trans cls'), fun _ hr =>
        ⟨fun j hj => stops _ (store_of_access_error operands hr (requireAdmitted_eq_abort hj)),
          fun hm j hj ht => stops _ (store_of_text_error operands hr hm (requireOutsideText_eq_refused hj ht))⟩⟩
  · intro i T s hi hc hb
    obtain ⟨d, first, count, hx⟩ := exec_of_unknownTransfer hi hc
    rw [← first, ← count]
    intro hk hl
    obtain ⟨cls, stops⟩ | ⟨cls, stops⟩ := hx
    · refine ⟨fun ha => stops _ (loadUnknown_of_transfer_error (requireTransfer_misaligned hb hk hl ha)), fun ha => ?_⟩
      have operands : TransferOk .dbl d.val (unknownCount T.offset) T.rn s := ⟨hb, hk, hl, ha⟩
      exact ⟨fun _ j hj => stops _ (loadUnknown_of_access_error operands (requireAdmitted_eq_abort hj)),
        fun cls' => nomatch cls.symm.trans cls'⟩
    · refine ⟨fun ha => stops _ (storeUnknown_of_transfer_error (requireTransfer_misaligned hb hk hl ha)), fun ha => ?_⟩
      have operands : TransferOk .dbl d.val (unknownCount T.offset) T.rn s := ⟨hb, hk, hl, ha⟩
      rw [← imageSize_eq]
      exact ⟨fun cls' => (nomatch cls.symm.trans cls'), fun _ hs =>
        ⟨fun j hj => stops _ (storeUnknown_of_access_error operands hs (requireAdmitted_eq_abort hj)),
          fun hm j hj ht => stops _ (storeUnknown_of_text_error operands hs hm (requireOutsideText_eq_refused hj ht))⟩⟩

end Sys2Proof.Machine
end

section
/-! PROOFS. The decoder reads the word of every well-formed instruction as that instruction (30_encoding.md R70, R75 to R90). -/

namespace Sys2Proof

/-! ### Fields joined again -/

theorem pqrs_of_split (k : BitVec 4) (cond : BitVec 4) (D : BitVec 1) (Fn Fd cp : BitVec 4) (N M : BitVec 1) (Fm : BitVec 4) :
    DpFields.pqrs ⟨cond, k.extractLsb' 3 1, D, k.extractLsb' 2 1, k.extractLsb' 1 1, Fn, Fd, cp, N, k.extractLsb' 0 1, M, Fm⟩
      = k := by
  simp only [DpFields.pqrs]; revert k; decide

theorem pqrs_of_ones (cond : BitVec 4) (D : BitVec 1) (Fn Fd cp : BitVec 4) (N M : BitVec 1) (Fm : BitVec 4) :
    DpFields.pqrs ⟨cond, 1, D, 1, 1, Fn, Fd, cp, N, 1, M, Fm⟩ = 15 := by simp only [DpFields.pqrs]; decide

theorem ext_of_split (k : BitVec 5) (cond : BitVec 4) (p D q r : BitVec 1) (Fd cp : BitVec 4) (s M : BitVec 1) (Fm : BitVec 4) :
    DpFields.ext ⟨cond, p, D, q, r, k.extractLsb' 1 4, Fd, cp, k.extractLsb' 0 1, s, M, Fm⟩ = k := by
  simp only [DpFields.ext]; revert k; decide

theorem puw_of_split (k : BitVec 3) (cond : BitVec 4) (D L : BitVec 1) (Rn Fd cp : BitVec 4) (offset : BitVec 8) :
    LsFields.puw ⟨cond, k.extractLsb' 2 1, k.extractLsb' 1 1, D, k.extractLsb' 0 1, L, Rn, Fd, cp, offset⟩ = k := by
  simp only [LsFields.puw]; revert k; decide

theorem sysRegOf_bits {reg : SysReg} (h : sysRegOk reg = true) :
    sysRegOf (reg.bits.extractLsb' 1 4) (reg.bits.extractLsb' 0 1) = some reg := by
  cases reg with
  | subArch low => revert low; decide
  | fpsid | fpscr | fpexc => rfl

theorem evenOffset_eq_not_oddOffset (offset : BitVec 8) : evenOffset offset = !oddOffset offset := by
  unfold evenOffset oddOffset
  rcases Nat.mod_two_eq_zero_or_one offset.toNat with h | h <;> simp [h]

/-! ### Data-processing words (R77, R78) -/

theorem decodeDp_ext_sgl {c : Cond} {f : DpFields} (hp : f.cp = 10) (hq : f.pqrs = 15) : decodeDp c f = decodeExtSgl c f := by
  rw [decodeDp, if_pos hp, hq]; rfl

theorem decodeDp_ext_dbl {c : Cond} {f : DpFields} (hp : f.cp = 11) (hq : f.pqrs = 15) : decodeDp c f = decodeExtDbl c f := by
  rw [decodeDp, hp, hq]; rfl

/-- A row of R77 on single-precision registers. -/
theorem decode_dpSgl {c : Cond} {k : BitVec 4} {d n m : SReg} {mk : SReg → SReg → SReg → Instr}
    (row : ∀ f : DpFields, f.cp = 10 → f.pqrs = k → decodeDp c f = f.sss mk) : decode (dpSgl c k d n m) = .ok (mk d n m) := by
  rw [dpSgl, decode_dp (.inl rfl), row _ rfl (pqrs_of_split ..)]
  simp only [DpFields.sss, sregOf_field_extra]

/-- A row of R77 on double-precision registers. -/
theorem decode_dpDbl {c : Cond} {k : BitVec 4} {d n m : DReg} {mk : DReg → DReg → DReg → Instr}
    (row : ∀ f : DpFields, f.cp = 11 → f.pqrs = k → decodeDp c f = f.ddd mk) : decode (dpDbl c k d n m) = .ok (mk d n m) := by
  rw [dpDbl, decode_dp (.inr rfl), row _ rfl (pqrs_of_split ..)]
  simp only [DpFields.ddd, regOf_field, and_self, if_true]

theorem decode_dpExt_sgl {c : Cond} {k : BitVec 5} {Fd Fm : BitVec 4} {D M : BitVec 1} {i : Instr}
    (row : ∀ f : DpFields, f.ext = k → f.Fd = Fd → f.D = D → f.Fm = Fm → f.M = M → decodeExtSgl c f = .ok i) :
    decode (dpExt c 10 k Fd D Fm M) = .ok i := by
  rw [dpExt, decode_dp (.inl rfl), decodeDp_ext_sgl rfl (pqrs_of_ones ..)]
  exact row _ (ext_of_split ..) rfl rfl rfl rfl

theorem decode_dpExt_dbl {c : Cond} {k : BitVec 5} {Fd Fm : BitVec 4} {D M : BitVec 1} {i : Instr}
    (row : ∀ f : DpFields, f.ext = k → f.Fd = Fd → f.D = D → f.Fm = Fm → f.M = M → decodeExtDbl c f = .ok i) :
    decode (dpExt c 11 k Fd D Fm M) = .ok i := by
  rw [dpExt, decode_dp (.inr rfl), decodeDp_ext_dbl rfl (pqrs_of_ones ..)]
  exact row _ (ext_of_split ..) rfl rfl rfl rfl

theorem decode_extSS {c : Cond} {k : BitVec 5} {d m : SReg} {mk : SReg → SReg → Instr}
    (row : ∀ f : DpFields, f.ext = k → decodeExtSgl c f = f.ss mk) : decode (extSS c k d m) = .ok (mk d m) :=
  decode_dpExt_sgl fun f hk hd hD hm hM => by
    rw [row f hk, DpFields.ss, hd, hD, hm, hM, sregOf_field_extra, sregOf_field_extra]

theorem decode_extDD {c : Cond} {k : BitVec 5} {d m : DReg} {mk : DReg → DReg → Instr}
    (row : ∀ f : DpFields, f.ext = k → decodeExtDbl c f = f.dd mk) : decode (extDD c k d m) = .ok (mk d m) :=
  decode_dpExt_dbl fun f hk hd hD hm hM => by
    rw [row f hk, DpFields.dd, if_pos ⟨hD, hM⟩, hd, hm, regOf_field, regOf_field]

theorem decode_extDS_sgl {c : Cond} {k : BitVec 5} {d : DReg} {m : SReg} {mk : DReg → SReg → Instr}
    (row : ∀ f : DpFields, f.ext = k → decodeExtSgl c f = f.ds mk) : decode (extDS c 10 k d m) = .ok (mk d m) :=
  decode_dpExt_sgl fun f hk hd hD hm hM => by
    rw [row f hk, DpFields.ds, if_pos hD, hd, hm, hM, regOf_field, sregOf_field_extra]

theorem decode_extDS_dbl {c : Cond} {k : BitVec 5} {d : DReg} {m : SReg} {mk : DReg → SReg → Instr}
    (row : ∀ f : DpFields, f.ext = k → decodeExtDbl c f = f.ds mk) : decode (extDS c 11 k d m) = .ok (mk d m) :=
  decode_dpExt_dbl fun f hk hd hD hm hM => by
    rw [row f hk, DpFields.ds, if_pos hD, hd, hm, hM, regOf_field, sregOf_field_extra]

theorem decode_extSD {c : Cond} {k : BitVec 5} {d : SReg} {m : DReg} {mk : SReg → DReg → Instr}
    (row : ∀ f : DpFields, f.ext = k → decodeExtDbl c f = f.sd mk) : decode (extSD c k d m) = .ok (mk d m) :=
  decode_dpExt_dbl fun f hk hd hD hm hM => by
    rw [row f hk, DpFields.sd, if_pos hM, hd, hD, hm, sregOf_field_extra, regOf_field]

/-- A comparison with zero has the field `Fm` and the bit `M` 0 (R80). -/
theorem decode_extSZ {c : Cond} {k : BitVec 5} {d : SReg} {mk : SReg → Instr}
    (row : ∀ f : DpFields, f.ext = k → decodeExtSgl c f = f.sz mk) :
    decode (dpExt c 10 k (sregField d) (sregExtra d) 0 0) = .ok (mk d) :=
  decode_dpExt_sgl fun f hk hd hD hm hM => by
    rw [row f hk, DpFields.sz, if_pos ⟨hm, hM⟩, hd, hD, sregOf_field_extra]

theorem decode_extDZ {c : Cond} {k : BitVec 5} {d : DReg} {mk : DReg → Instr}
    (row : ∀ f : DpFields, f.ext = k → decodeExtDbl c f = f.dz mk) :
    decode (dpExt c 11 k (regField d) 0 0 0) = .ok (mk d) :=
  decode_dpExt_dbl fun f hk hd hD hm hM => by
    rw [row f hk, DpFields.dz, if_pos ⟨hD, hM⟩, if_pos hm, hd, regOf_field]

/-! ### Loads and stores (R82) -/

section Modes

variable {c : Cond} {w : Word}

theorem decodeLs_unindexed (h : (lsFields w).puw = 2) :
    decodeLs c w = (lsFields w).multiple (.fstmsUnindexed c) (.fldmsUnindexed c) (.fstmdUnindexed c) (.fldmdUnindexed c)
      (.fstmxUnindexed c) (.fldmxUnindexed c) := by
  simp only [decodeLs, h]; rfl

theorem decodeLs_increment (h : (lsFields w).puw = 3) :
    decodeLs c w = (lsFields w).multiple (.fstmsIncrement c) (.fldmsIncrement c) (.fstmdIncrement c) (.fldmdIncrement c)
      (.fstmxIncrement c) (.fldmxIncrement c) := by
  simp only [decodeLs, h]; rfl

theorem decodeLs_decrement (h : (lsFields w).puw = 5) :
    decodeLs c w = (lsFields w).multiple (.fstmsDecrement c) (.fldmsDecrement c) (.fstmdDecrement c) (.fldmdDecrement c)
      (.fstmxDecrement c) (.fldmxDecrement c) := by
  simp only [decodeLs, h]; rfl

theorem decodeLs_offset {up : Bool} (h : (lsFields w).puw = offsetPuw up) : decodeLs c w = (lsFields w).single c up := by
  cases up <;> simp only [decodeLs, h] <;> rfl

end Modes

section Multiple

variable {f : LsFields} {storeS loadS : SReg → RReg → BitVec 8 → Instr}
  {storeD loadD storeX loadX : DReg → RReg → BitVec 8 → Instr}

theorem multiple_sgl (hp : f.cp = 10) :
    f.multiple storeS loadS storeD loadD storeX loadX = if f.L = 0 then f.sgl storeS else f.sgl loadS := by
  rw [LsFields.multiple, if_pos hp]

theorem multiple_dbl (hp : f.cp = 11) (h : evenOffset f.offset = true) :
    f.multiple storeS loadS storeD loadD storeX loadX = if f.L = 0 then f.dbl storeD else f.dbl loadD := by
  rw [LsFields.multiple, if_neg (by rw [hp]; decide), if_pos h]

theorem multiple_unknown (hp : f.cp = 11) (h : oddOffset f.offset = true) :
    f.multiple storeS loadS storeD loadD storeX loadX = if f.L = 0 then f.dbl storeX else f.dbl loadX := by
  rw [LsFields.multiple, if_neg (by rw [hp]; decide), if_neg (by rw [evenOffset_eq_not_oddOffset, h]; decide)]

end Multiple

/-- A row of R82 on single-precision registers. -/
theorem decode_lsSgl {c : Cond} {k : BitVec 3} {L : BitVec 1} {d : SReg} {rn : RReg} {offset : BitVec 8}
    {mk : SReg → RReg → BitVec 8 → Instr}
    (row : ∀ w : Word, (lsFields w).puw = k → (lsFields w).cp = 10 → (lsFields w).L = L →
      decodeLs c w = (lsFields w).sgl mk) :
    decode (lsSgl c k L d rn offset) = .ok (mk d rn offset) := by
  rw [lsSgl, decode_ls (.inl rfl), row, lsFields_word]
  · simp only [LsFields.sgl, sregOf_field_extra, regOf_field]
  · rw [lsFields_word]; exact puw_of_split ..
  · rw [lsFields_word]
  · rw [lsFields_word]

/-- A row of R82 on double-precision registers. -/
theorem decode_lsDbl {c : Cond} {k : BitVec 3} {L : BitVec 1} {d : DReg} {rn : RReg} {offset : BitVec 8}
    {mk : DReg → RReg → BitVec 8 → Instr}
    (row : ∀ w : Word, (lsFields w).puw = k → (lsFields w).cp = 11 → (lsFields w).L = L → (lsFields w).offset = offset →
      decodeLs c w = (lsFields w).dbl mk) :
    decode (lsDbl c k L d rn offset) = .ok (mk d rn offset) := by
  rw [lsDbl, decode_ls (.inr rfl), row, lsFields_word]
  · simp only [LsFields.dbl, regOf_field, if_true]
  · rw [lsFields_word]; exact puw_of_split ..
  · rw [lsFields_word]
  · rw [lsFields_word]
  · rw [lsFields_word]

/-! ### Transfers (R84, R85, R88) -/

/-- A row of R84 or R85; the encoder's SBZ bits are 0. -/
theorem decode_xfer1_row {c : Cond} {opcode : BitVec 3} {L : BitVec 1} {cp Fn : BitVec 4} {N : BitVec 1} {rd : RReg} {i : Instr}
    (hp : cp = 10 ∨ cp = 11)
    (row : ∀ f : Xfer1Fields, f.opcode = opcode → f.L = L → f.cp = cp → f.Fn = Fn → f.N = N → f.Rd = regField rd →
      decodeXfer1 c f = f.rdChecked i ∨ decodeXfer1 c f = f.sbzChecked i) :
    decode (xfer1 c opcode L cp Fn N rd) = .ok i := by
  rw [xfer1, decode_xfer1 hp]
  obtain h | h := row ⟨c.bits, opcode, L, Fn, regField rd, cp, N, 0, 0⟩ rfl rfl rfl rfl rfl rfl
  · rw [h]; simp [Xfer1Fields.rdChecked, Xfer1Fields.sbzChecked]
  · rw [h]; simp [Xfer1Fields.sbzChecked]

theorem decode_xfer2_row {c : Cond} {L : BitVec 1} {cp Fm : BitVec 4} {M : BitVec 1} {rd rn : RReg} {i : Instr}
    (hp : cp = 10 ∨ cp = 11)
    (row : ∀ f : Xfer2Fields, f.L = L → f.cp = cp → f.Fm = Fm → f.M = M → f.Rd = regField rd → f.Rn = regField rn →
      decodeXfer2 c f = .ok i) :
    decode (xfer2 c L cp Fm M rd rn) = .ok i := by
  rw [xfer2, decode_xfer2 hp]
  exact row _ rfl rfl rfl rfl rfl rfl

/-! ### Every instruction -/

/-- Each instruction by the row of the decoder's tables that its word selects. -/
theorem decode_encode (i : Instr) (h : i.wellFormed = true) : decode (encode i) = .ok i := by
  cases i with
  | fmacs | fnmacs | fmscs | fnmscs | fmuls | fnmuls | fadds | fsubs | fdivs =>
    exact decode_dpSgl fun f hp hk => by rw [decodeDp, if_pos hp, hk]; rfl
  | fmacd | fnmacd | fmscd | fnmscd | fmuld | fnmuld | faddd | fsubd | fdivd =>
    exact decode_dpDbl fun f hp hk => by rw [decodeDp, hp, hk]; rfl
  | fcpys | fabss | fnegs | fsqrts | fcmps | fcmpes | fuitos | fsitos | ftouis | ftouizs | ftosis | ftosizs =>
    exact decode_extSS fun f hk => by rw [decodeExtSgl, hk]; rfl
  | fcpyd | fabsd | fnegd | fsqrtd | fcmpd | fcmped => exact decode_extDD fun f hk => by rw [decodeExtDbl, hk]; rfl
  | fcmpzs | fcmpezs => exact decode_extSZ fun f hk => by rw [decodeExtSgl, hk]; rfl
  | fcmpzd | fcmpezd => exact decode_extDZ fun f hk => by rw [decodeExtDbl, hk]; rfl
  | fcvtds => exact decode_extDS_sgl fun f hk => by rw [decodeExtSgl, hk]; rfl
  | fuitod | fsitod => exact decode_extDS_dbl fun f hk => by rw [decodeExtDbl, hk]; rfl
  | fcvtsd | ftouid | ftouizd | ftosid | ftosizd => exact decode_extSD fun f hk => by rw [decodeExtDbl, hk]; rfl
  | flds | fsts => exact decode_lsSgl fun w hk hp hL => by rw [decodeLs_offset hk, LsFields.single, hp, hL]; rfl
  | fldd | fstd => exact decode_lsDbl fun w hk hp hL _ => by rw [decodeLs_offset hk, LsFields.single, hp, hL]; rfl
  | fldmsUnindexed | fstmsUnindexed =>
    exact decode_lsSgl fun w hk hp hL => by rw [decodeLs_unindexed hk, multiple_sgl hp, hL]; rfl
  | fldmsIncrement | fstmsIncrement =>
    exact decode_lsSgl fun w hk hp hL => by rw [decodeLs_increment hk, multiple_sgl hp, hL]; rfl
  | fldmsDecrement | fstmsDecrement =>
    exact decode_lsSgl fun w hk hp hL => by rw [decodeLs_decrement hk, multiple_sgl hp, hL]; rfl
  | fldmdUnindexed | fstmdUnindexed =>
    exact decode_lsDbl fun w hk hp hL ho => by rw [decodeLs_unindexed hk, multiple_dbl hp (ho ▸ h), hL]; rfl
  | fldmdIncrement | fstmdIncrement =>
    exact decode_lsDbl fun w hk hp hL ho => by rw [decodeLs_increment hk, multiple_dbl hp (ho ▸ h), hL]; rfl
  | fldmdDecrement | fstmdDecrement =>
    exact decode_lsDbl fun w hk hp hL ho => by rw [decodeLs_decrement hk, multiple_dbl hp (ho ▸ h), hL]; rfl
  | fldmxUnindexed | fstmxUnindexed =>
    exact decode_lsDbl fun w hk hp hL ho => by rw [decodeLs_unindexed hk, multiple_unknown hp (ho ▸ h), hL]; rfl
  | fldmxIncrement | fstmxIncrement =>
    exact decode_lsDbl fun w hk hp hL ho => by rw [decodeLs_increment hk, multiple_unknown hp (ho ▸ h), hL]; rfl
  | fldmxDecrement | fstmxDecrement =>
    exact decode_lsDbl fun w hk hp hL ho => by rw [decodeLs_decrement hk, multiple_unknown hp (ho ▸ h), hL]; rfl
  | fmstat =>
    exact decode_xfer1_row (.inl rfl) fun f ho hL hp hn hN hr => .inr (by rw [decodeXfer1, hp, ho, hn, hN, hL, hr]; rfl)
  | fmsr | fmrs =>
    exact decode_xfer1_row (.inl rfl) fun f ho hL hp hn hN hr => .inl (by
      rw [decodeXfer1, hp, ho, hn, hN, hL, hr, sregOf_field_extra, regOf_field]; rfl)
  | fmxr c reg rd =>
    exact decode_xfer1_row (.inl rfl) fun f ho hL hp hn hN hr => .inl (by
      rw [decodeXfer1, hp, ho, hn, hN, hL, hr, sysRegOf_bits h, regOf_field]; rfl)
  | fmrx c rd reg =>
    obtain ⟨hs, hf⟩ := Bool.and_eq_true_iff.1 h
    exact decode_xfer1_row (.inl rfl) fun f ho hL hp hn hN hr => .inl (by
      rw [decodeXfer1, hp, ho, hn, hN, hL, hr, sysRegOf_bits hs, regOf_field]; exact if_pos hf)
  | fmdlr | fmrdl | fmdhr | fmrdh =>
    exact decode_xfer1_row (.inr rfl) fun f ho hL hp hn hN hr => .inl (by
      rw [decodeXfer1, hp, ho, hn, hN, hL, hr, regOf_field, regOf_field]; rfl)
  | fmsrr | fmrrs =>
    exact decode_xfer2_row (.inl rfl) fun f hL hp hm hM hd hn => by
      rw [decodeXfer2, hp, hL, hm, hM, hd, hn, sregOf_field_extra, regOf_field, regOf_field]; rfl
  | fmdrr | fmrrd =>
    exact decode_xfer2_row (.inr rfl) fun f hL hp hm hM hd hn => by
      rw [decodeXfer2, hp, hL, hm, hM, hd, hn, regOf_field, regOf_field, regOf_field]; rfl

/-- Settles O1, by the row of the decoder's tables for each instruction. -/
theorem decodeEncode : Obligations.DecodeEncode := decode_encode

end Sys2Proof
end

section
/-! PROOFS. A word that the decoder answers is the word of a well-formed instruction (30_encoding.md R91, R94). -/

namespace Sys2Proof

/-! ### A word is the word of its fields -/

theorem word_dpFields {w : Word} (h : w.extractLsb' 24 4 = 0b1110) (h4 : w.extractLsb' 4 1 = 0) : (dpFields w).word = w := by
  unfold dpFields DpFields.word
  rw [show 0b1110#4 = w.extractLsb' 24 4 from h.symm, show 0#1 = w.extractLsb' 4 1 from h4.symm]
  simp (disch := omega) only [BitVec.extractLsb'_append_extractLsb'_eq_extractLsb', BitVec.extractLsb'_eq_self, BitVec.cast_eq]

theorem word_xfer1Fields {w : Word} (h : w.extractLsb' 24 4 = 0b1110) (h4 : w.extractLsb' 4 1 = 1) :
    (xfer1Fields w).word = w := by
  unfold xfer1Fields Xfer1Fields.word
  rw [show 0b1110#4 = w.extractLsb' 24 4 from h.symm, show 1#1 = w.extractLsb' 4 1 from h4.symm]
  simp (disch := omega) only [BitVec.extractLsb'_append_extractLsb'_eq_extractLsb', BitVec.extractLsb'_eq_self, BitVec.cast_eq]

theorem word_lsFields {w : Word} (h : w.extractLsb' 25 3 = 0b110) : (lsFields w).word = w := by
  unfold lsFields LsFields.word
  rw [show 0b110#3 = w.extractLsb' 25 3 from h.symm]
  simp (disch := omega) only [BitVec.extractLsb'_append_extractLsb'_eq_extractLsb', BitVec.extractLsb'_eq_self, BitVec.cast_eq]

theorem word_xfer2Fields {w : Word} (h : w.extractLsb' 21 7 = 0b1100010) (h6 : w.extractLsb' 6 2 = 0)
    (h4 : w.extractLsb' 4 1 = 1) : (xfer2Fields w).word = w := by
  unfold xfer2Fields Xfer2Fields.word
  rw [show 0b1100010#7 = w.extractLsb' 21 7 from h.symm, show 0b00#2 = w.extractLsb' 6 2 from h6.symm,
    show 1#1 = w.extractLsb' 4 1 from h4.symm]
  simp (disch := omega) only [BitVec.extractLsb'_append_extractLsb'_eq_extractLsb', BitVec.extractLsb'_eq_self, BitVec.cast_eq]

/-- The bits that make an `LS` word with `P:U:W = 000` one of the `XFER2` format. -/
theorem xfer2_bits {w : Word} (h : w.extractLsb' 25 3 = 0b110) (hk : (lsFields w).puw = 0) (ht : twoRegPattern w = true) :
    w.extractLsb' 21 7 = 0b1100010 ∧ w.extractLsb' 6 2 = 0 ∧ w.extractLsb' 4 1 = 1 := by
  simp only [twoRegPattern, Bool.and_eq_true, beq_iff_eq] at ht
  obtain ⟨⟨h22, h6⟩, h4⟩ := ht
  refine ⟨?_, h6, h4⟩
  have key : ∀ a : BitVec 3, ∀ P U D W : BitVec 1, a = 0b110#3 → P ++ U ++ W = 0#3 → D = 1#1 →
      a ++ P ++ U ++ D ++ W = 0b1100010#7 := by
    decide
  have := key _ _ _ _ _ h hk h22
  simp (disch := omega) only [lsFields, BitVec.extractLsb'_append_extractLsb'_eq_extractLsb'] at this
  exact this

theorem eq_ofNat {n k : Nat} {b : BitVec n} (h : b.toNat = k) : b = BitVec.ofNat n k := by
  rw [← h, BitVec.ofNat_toNat, BitVec.setWidth_eq]

/-- FMSTAT is FMRX of the FPSCR to `R15` (R86). -/
theorem notFmstat_eq_false {rd : RReg} {reg : SysReg} : notFmstat rd reg = false ↔ rd = 15 ∧ reg = .fpscr := by
  simp [notFmstat]

theorem bit_eq_one {b : BitVec 1} (h : ¬b = 0) : b = 1 := by revert b; decide

/-- The primary opcode gives back the four bits it is made of. -/
theorem pqrs_extract (f : DpFields) :
    f.pqrs.extractLsb' 3 1 = f.p ∧ f.pqrs.extractLsb' 2 1 = f.q ∧ f.pqrs.extractLsb' 1 1 = f.r ∧
      f.pqrs.extractLsb' 0 1 = f.s := by
  simp (disch := decide) only [DpFields.pqrs, BitVec.extractLsb'_append_eq_of_add_le, BitVec.extractLsb'_append_eq_of_le,
    Nat.reduceSub, BitVec.extractLsb'_eq_self, and_self]

theorem ext_extract (f : DpFields) : f.ext.extractLsb' 1 4 = f.Fn ∧ f.ext.extractLsb' 0 1 = f.N := by
  simp (disch := decide) only [DpFields.ext, BitVec.extractLsb'_append_eq_of_add_le, BitVec.extractLsb'_append_eq_of_le,
    Nat.reduceSub, BitVec.extractLsb'_eq_self, and_self]

theorem puw_extract (f : LsFields) :
    f.puw.extractLsb' 2 1 = f.P ∧ f.puw.extractLsb' 1 1 = f.U ∧ f.puw.extractLsb' 0 1 = f.W := by
  simp (disch := decide) only [LsFields.puw, BitVec.extractLsb'_append_eq_of_add_le, BitVec.extractLsb'_append_eq_of_le,
    Nat.reduceSub, BitVec.extractLsb'_eq_self, and_self]

/-! ### When the operands of a format are decoded (R76, R80, R81, R91) -/

section Operands

variable {f : DpFields} {i : Instr}

/-- A checked answer is the instruction, where the check passes. -/
theorem checked_eq_ok {p : Prop} [Decidable p] {e : DecodeError} {j : Instr} :
    (if p then .ok j else .error e : Decoded) = .ok i ↔ p ∧ j = i := by
  by_cases h : p
  · rw [if_pos h, Except.ok.injEq, and_iff_right h]
  · rw [if_neg h]; exact ⟨nofun, fun h' => absurd h'.1 h⟩

theorem ddd_eq_ok {mk : DReg → DReg → DReg → Instr} :
    f.ddd mk = .ok i ↔ (f.D = 0 ∧ f.N = 0 ∧ f.M = 0) ∧ mk (regOf f.Fd) (regOf f.Fn) (regOf f.Fm) = i :=
  checked_eq_ok

theorem dd_eq_ok {mk : DReg → DReg → Instr} :
    f.dd mk = .ok i ↔ (f.D = 0 ∧ f.M = 0) ∧ mk (regOf f.Fd) (regOf f.Fm) = i :=
  checked_eq_ok

theorem ds_eq_ok {mk : DReg → SReg → Instr} :
    f.ds mk = .ok i ↔ f.D = 0 ∧ mk (regOf f.Fd) (sregOf f.Fm f.M) = i :=
  checked_eq_ok

theorem sd_eq_ok {mk : SReg → DReg → Instr} :
    f.sd mk = .ok i ↔ f.M = 0 ∧ mk (sregOf f.Fd f.D) (regOf f.Fm) = i :=
  checked_eq_ok

theorem sz_eq_ok {mk : SReg → Instr} :
    f.sz mk = .ok i ↔ (f.Fm = 0 ∧ f.M = 0) ∧ mk (sregOf f.Fd f.D) = i :=
  checked_eq_ok

theorem dz_eq_ok {mk : DReg → Instr} :
    f.dz mk = .ok i ↔ (f.D = 0 ∧ f.M = 0) ∧ f.Fm = 0 ∧ mk (regOf f.Fd) = i := by
  unfold DpFields.dz
  by_cases h : f.D = 0 ∧ f.M = 0
  · rw [if_pos h, checked_eq_ok, and_iff_right h]
  · rw [if_neg h]; exact ⟨nofun, fun h' => absurd h'.1 h⟩

theorem dbl_eq_ok {f : LsFields} {mk : DReg → RReg → BitVec 8 → Instr} :
    f.dbl mk = .ok i ↔ f.D = 0 ∧ mk (regOf f.Fd) (regOf f.Rn) f.offset = i :=
  checked_eq_ok

theorem sbzChecked_eq_ok {f : Xfer1Fields} {j : Instr} :
    f.sbzChecked j = .ok i ↔ (f.sbzHi = 0 ∧ f.sbzLo = 0) ∧ j = i :=
  checked_eq_ok

theorem rdChecked_eq_ok {f : Xfer1Fields} {j : Instr} :
    f.rdChecked j = .ok i ↔ (f.sbzHi = 0 ∧ f.sbzLo = 0) ∧ j = i := by
  unfold Xfer1Fields.rdChecked
  split
  next h => exact ⟨nofun, fun h' => absurd h'.1 h.2⟩
  next => exact sbzChecked_eq_ok

end Operands

/-! ### The decoder answers the instruction whose word it reads -/

/-- The instruction is well-formed, and its word is `w`. -/
def Instr.HasWord (i : Instr) (w : Word) : Prop := i.wellFormed = true ∧ encode i = w

section Dp

variable {c : Cond} {f : DpFields} {k : Nat} {i : Instr} (hc : f.cond = c.bits)
include hc

theorem hasWord_of_sss {mk : SReg → SReg → SReg → Instr} (hp : f.cp = 10) (hk : f.pqrs.toNat = k)
    (row : ∀ d n m, (mk d n m).HasWord (dpSgl c (.ofNat 4 k) d n m)) (h : f.sss mk = .ok i) : i.HasWord f.word := by
  obtain ⟨h3, h2, h1, h0⟩ := pqrs_extract f
  rw [eq_ofNat hk] at h3 h2 h1 h0
  cases f; subst hc hp; cases h
  convert row _ _ _ using 1
  simp only [dpSgl, h3, h2, h1, h0, sregField_sregOf, sregExtra_sregOf]

theorem hasWord_of_ddd {mk : DReg → DReg → DReg → Instr} (hp : f.cp = 11) (hk : f.pqrs.toNat = k)
    (row : ∀ d n m, (mk d n m).HasWord (dpDbl c (.ofNat 4 k) d n m)) (h : f.ddd mk = .ok i) : i.HasWord f.word := by
  obtain ⟨h3, h2, h1, h0⟩ := pqrs_extract f
  rw [eq_ofNat hk] at h3 h2 h1 h0
  obtain ⟨⟨hD, hN, hM⟩, rfl⟩ := ddd_eq_ok.1 h
  cases f; subst hc hp hD hN hM
  convert row _ _ _ using 1
  simp only [dpDbl, h3, h2, h1, h0, regField_regOf]

variable (hq : f.pqrs.toNat = 15) (hk : f.ext.toNat = k)
include hq hk

/-- The word of the fields of an extension instruction. -/
theorem word_eq_dpExt {cp Fd Fm : BitVec 4} {D M : BitVec 1} (hp : f.cp = cp) (hd : f.Fd = Fd) (hD : f.D = D) (hm : f.Fm = Fm)
    (hM : f.M = M) : f.word = dpExt c cp (.ofNat 5 k) Fd D Fm M := by
  obtain ⟨h3, h2, h1, h0⟩ := pqrs_extract f
  obtain ⟨hn, hN⟩ := ext_extract f
  rw [eq_ofNat hq] at h3 h2 h1 h0
  rw [eq_ofNat hk] at hn hN
  cases f; subst hc hp hd hD hm hM h3 h2 h1 h0
  simp only [dpExt, hn, hN]
  rfl

theorem hasWord_of_ss {mk : SReg → SReg → Instr} (hp : f.cp = 10) (row : ∀ d m, (mk d m).HasWord (extSS c (.ofNat 5 k) d m))
    (h : f.ss mk = .ok i) : i.HasWord f.word := by
  cases h
  convert row _ _ using 1
  exact word_eq_dpExt hc hq hk hp (sregField_sregOf ..).symm (sregExtra_sregOf ..).symm (sregField_sregOf ..).symm
    (sregExtra_sregOf ..).symm

theorem hasWord_of_dd {mk : DReg → DReg → Instr} (hp : f.cp = 11) (row : ∀ d m, (mk d m).HasWord (extDD c (.ofNat 5 k) d m))
    (h : f.dd mk = .ok i) : i.HasWord f.word := by
  obtain ⟨⟨hD, hM⟩, rfl⟩ := dd_eq_ok.1 h
  convert row _ _ using 1
  exact word_eq_dpExt hc hq hk hp (regField_regOf _).symm hD (regField_regOf _).symm hM

theorem hasWord_of_ds {cp : BitVec 4} {mk : DReg → SReg → Instr} (hp : f.cp = cp)
    (row : ∀ d m, (mk d m).HasWord (extDS c cp (.ofNat 5 k) d m)) (h : f.ds mk = .ok i) : i.HasWord f.word := by
  obtain ⟨hD, rfl⟩ := ds_eq_ok.1 h
  convert row _ _ using 1
  exact word_eq_dpExt hc hq hk hp (regField_regOf _).symm hD (sregField_sregOf ..).symm (sregExtra_sregOf ..).symm

theorem hasWord_of_sd {mk : SReg → DReg → Instr} (hp : f.cp = 11) (row : ∀ d m, (mk d m).HasWord (extSD c (.ofNat 5 k) d m))
    (h : f.sd mk = .ok i) : i.HasWord f.word := by
  obtain ⟨hM, rfl⟩ := sd_eq_ok.1 h
  convert row _ _ using 1
  exact word_eq_dpExt hc hq hk hp (sregField_sregOf ..).symm (sregExtra_sregOf ..).symm (regField_regOf _).symm hM

theorem hasWord_of_sz {mk : SReg → Instr} (hp : f.cp = 10)
    (row : ∀ d, (mk d).HasWord (dpExt c 10 (.ofNat 5 k) (sregField d) (sregExtra d) 0 0)) (h : f.sz mk = .ok i) :
    i.HasWord f.word := by
  obtain ⟨⟨hm, hM⟩, rfl⟩ := sz_eq_ok.1 h
  convert row _ using 1
  exact word_eq_dpExt hc hq hk hp (sregField_sregOf ..).symm (sregExtra_sregOf ..).symm hm hM

theorem hasWord_of_dz {mk : DReg → Instr} (hp : f.cp = 11)
    (row : ∀ d, (mk d).HasWord (dpExt c 11 (.ofNat 5 k) (regField d) 0 0 0)) (h : f.dz mk = .ok i) : i.HasWord f.word := by
  obtain ⟨⟨hD, hM⟩, hm, rfl⟩ := dz_eq_ok.1 h
  convert row _ using 1
  exact word_eq_dpExt hc hq hk hp (regField_regOf _).symm hD hm hM

end Dp

theorem decodeExtSgl_hasWord {c : Cond} {f : DpFields} {i : Instr} (hc : f.cond = c.bits) (hp : f.cp = 10)
    (hq : f.pqrs.toNat = 15) (h : decodeExtSgl c f = .ok i) : i.HasWord f.word := by
  unfold decodeExtSgl at h
  split at h
  case h_7 hk | h_8 hk => exact hasWord_of_sz hc hq hk hp (fun _ => ⟨rfl, rfl⟩) h
  case h_9 hk => exact hasWord_of_ds hc hq hk hp (fun _ _ => ⟨rfl, rfl⟩) h
  case h_16 => cases h
  all_goals exact hasWord_of_ss hc hq ‹_› hp (fun _ _ => ⟨rfl, rfl⟩) h

theorem decodeExtDbl_hasWord {c : Cond} {f : DpFields} {i : Instr} (hc : f.cond = c.bits) (hp : f.cp = 11)
    (hq : f.pqrs.toNat = 15) (h : decodeExtDbl c f = .ok i) : i.HasWord f.word := by
  unfold decodeExtDbl at h
  split at h
  case h_1 hk | h_2 hk | h_3 hk | h_4 hk | h_5 hk | h_6 hk => exact hasWord_of_dd hc hq hk hp (fun _ _ => ⟨rfl, rfl⟩) h
  case h_7 hk | h_8 hk => exact hasWord_of_dz hc hq hk hp (fun _ => ⟨rfl, rfl⟩) h
  case h_10 hk | h_11 hk => exact hasWord_of_ds hc hq hk hp (fun _ _ => ⟨rfl, rfl⟩) h
  case h_16 => cases h
  all_goals exact hasWord_of_sd hc hq ‹_› hp (fun _ _ => ⟨rfl, rfl⟩) h

theorem decodeDp_hasWord {c : Cond} {f : DpFields} {i : Instr} (hc : f.cond = c.bits) (hp : f.cp = 10 ∨ f.cp = 11)
    (h : decodeDp c f = .ok i) : i.HasWord f.word := by
  unfold decodeDp at h
  split at h
  next hp =>
    split at h
    case h_10 hq => exact decodeExtSgl_hasWord hc hp hq h
    case h_11 => cases h
    all_goals exact hasWord_of_sss hc hp ‹_› (fun _ _ _ => ⟨rfl, rfl⟩) h
  next hn =>
    have hp : f.cp = 11 := hp.resolve_left hn
    split at h
    case h_10 hq => exact decodeExtDbl_hasWord hc hp hq h
    case h_11 => cases h
    all_goals exact hasWord_of_ddd hc hp ‹_› (fun _ _ _ => ⟨rfl, rfl⟩) h

section Ls

variable {c : Cond} {f : LsFields} {k : Nat} {L : BitVec 1} {i : Instr} (hc : f.cond = c.bits) (hk : f.puw.toNat = k)
include hc hk

theorem hasWord_of_sgl {mk : SReg → RReg → BitVec 8 → Instr} (hp : f.cp = 10) (hL : f.L = L)
    (row : ∀ d rn, (mk d rn f.offset).HasWord (lsSgl c (.ofNat 3 k) L d rn f.offset)) (h : f.sgl mk = .ok i) :
    i.HasWord f.word := by
  obtain ⟨h2, h1, h0⟩ := puw_extract f
  rw [eq_ofNat hk] at h2 h1 h0
  cases f; subst hc hp hL; cases h
  convert row _ _ using 1
  simp only [lsSgl, h2, h1, h0, sregField_sregOf, sregExtra_sregOf, regField_regOf]

theorem hasWord_of_dbl {mk : DReg → RReg → BitVec 8 → Instr} (hp : f.cp = 11) (hL : f.L = L)
    (row : ∀ d rn, (mk d rn f.offset).HasWord (lsDbl c (.ofNat 3 k) L d rn f.offset)) (h : f.dbl mk = .ok i) :
    i.HasWord f.word := by
  obtain ⟨h2, h1, h0⟩ := puw_extract f
  rw [eq_ofNat hk] at h2 h1 h0
  obtain ⟨hD, rfl⟩ := dbl_eq_ok.1 h
  cases f; subst hc hp hL hD
  convert row _ _ using 1
  simp only [lsDbl, h2, h1, h0, regField_regOf]

theorem hasWord_of_single {up : Bool} (hp : f.cp = 10 ∨ f.cp = 11) (hup : BitVec.ofNat 3 k = offsetPuw up)
    (h : f.single c up = .ok i) : i.HasWord f.word := by
  unfold LsFields.single at h
  split at h
  next hp =>
    split at h
    next hL => exact hasWord_of_sgl hc hk hp hL (fun _ _ => ⟨rfl, by rw [hup]; rfl⟩) h
    next hL => exact hasWord_of_sgl hc hk hp (bit_eq_one hL) (fun _ _ => ⟨rfl, by rw [hup]; rfl⟩) h
  next hn =>
    have hp : f.cp = 11 := hp.resolve_left hn
    split at h
    next hL => exact hasWord_of_dbl hc hk hp hL (fun _ _ => ⟨rfl, by rw [hup]; rfl⟩) h
    next hL => exact hasWord_of_dbl hc hk hp (bit_eq_one hL) (fun _ _ => ⟨rfl, by rw [hup]; rfl⟩) h

/-- A mode of the multiples, from the words of its six instructions. -/
theorem hasWord_of_multiple {storeS loadS : SReg → RReg → BitVec 8 → Instr}
    {storeD loadD storeX loadX : DReg → RReg → BitVec 8 → Instr} (hp : f.cp = 10 ∨ f.cp = 11)
    (h : f.multiple storeS loadS storeD loadD storeX loadX = .ok i)
    (sgl : ∀ d rn o, (storeS d rn o).HasWord (lsSgl c (.ofNat 3 k) 0 d rn o) ∧
      (loadS d rn o).HasWord (lsSgl c (.ofNat 3 k) 1 d rn o))
    (dbl : ∀ d rn o, evenOffset o = true → (storeD d rn o).HasWord (lsDbl c (.ofNat 3 k) 0 d rn o) ∧
      (loadD d rn o).HasWord (lsDbl c (.ofNat 3 k) 1 d rn o))
    (unknown : ∀ d rn o, oddOffset o = true → (storeX d rn o).HasWord (lsDbl c (.ofNat 3 k) 0 d rn o) ∧
      (loadX d rn o).HasWord (lsDbl c (.ofNat 3 k) 1 d rn o)) : i.HasWord f.word := by
  obtain hp | hp := hp
  · rw [multiple_sgl hp] at h
    split at h
    next hL => exact hasWord_of_sgl hc hk hp hL (fun _ _ => (sgl _ _ _).1) h
    next hL => exact hasWord_of_sgl hc hk hp (bit_eq_one hL) (fun _ _ => (sgl _ _ _).2) h
  · cases ho : oddOffset f.offset with
    | false =>
      have he : evenOffset f.offset = true := by rw [evenOffset_eq_not_oddOffset, ho]; rfl
      rw [multiple_dbl hp he] at h
      split at h
      next hL => exact hasWord_of_dbl hc hk hp hL (fun _ _ => (dbl _ _ _ he).1) h
      next hL => exact hasWord_of_dbl hc hk hp (bit_eq_one hL) (fun _ _ => (dbl _ _ _ he).2) h
    | true =>
      rw [multiple_unknown hp ho] at h
      split at h
      next hL => exact hasWord_of_dbl hc hk hp hL (fun _ _ => (unknown _ _ _ ho).1) h
      next hL => exact hasWord_of_dbl hc hk hp (bit_eq_one hL) (fun _ _ => (unknown _ _ _ ho).2) h

end Ls

/-- The word of the fields of a two-register transfer. -/
theorem word_eq_xfer2 {c : Cond} {f : Xfer2Fields} {cp Fm : BitVec 4} {L M : BitVec 1} (hc : f.cond = c.bits) (hp : f.cp = cp)
    (hL : f.L = L) (hm : f.Fm = Fm) (hM : f.M = M) : f.word = xfer2 c L cp Fm M (regOf f.Rd) (regOf f.Rn) := by
  cases f; subst hc hp hL hm hM
  simp only [xfer2, regField_regOf]

theorem decodeXfer2_hasWord {c : Cond} {f : Xfer2Fields} {i : Instr} (hc : f.cond = c.bits) (hp : f.cp = 10 ∨ f.cp = 11)
    (h : decodeXfer2 c f = .ok i) : i.HasWord f.word := by
  unfold decodeXfer2 at h
  split at h
  next hp =>
    have single {L : BitVec 1} (hL : f.L = L) :=
      (word_eq_xfer2 hc hp hL (sregField_sregOf f.Fm f.M).symm (sregExtra_sregOf f.Fm f.M).symm).symm
    split at h
    next hL => cases h; exact ⟨rfl, single hL⟩
    next hL => cases h; exact ⟨rfl, single (bit_eq_one hL)⟩
  next hn =>
    split at h
    next hM =>
      have double {L : BitVec 1} (hL : f.L = L) :=
        (word_eq_xfer2 hc (hp.resolve_left hn) hL (regField_regOf f.Fm).symm hM).symm
      split at h
      next hL => cases h; exact ⟨rfl, double hL⟩
      next hL => cases h; exact ⟨rfl, double (bit_eq_one hL)⟩
    next => cases h

/-- The word of the fields of a single register transfer whose SBZ bits are 0. -/
theorem word_eq_xfer1 {c : Cond} {f : Xfer1Fields} {k : Nat} {cp Fn : BitVec 4} {L N : BitVec 1} (hc : f.cond = c.bits)
    (hk : f.opcode.toNat = k) (hsbz : f.sbzHi = 0 ∧ f.sbzLo = 0) (hp : f.cp = cp) (hL : f.L = L) (hn : f.Fn = Fn) (hN : f.N = N) :
    f.word = xfer1 c (.ofNat 3 k) L cp Fn N (regOf f.Rd) := by
  obtain ⟨hh, hl⟩ := hsbz
  have hk := eq_ofNat hk
  cases f; subst hc hk hp hL hn hN hh hl
  simp only [xfer1, regField_regOf]

/-- The bits of a system register are the fields it is read from (R28, R85). -/
theorem bits_sysRegOf {a : BitVec 4} {b : BitVec 1} {reg : SysReg} (h : sysRegOf a b = some reg) :
    sysRegOk reg = true ∧ a = reg.bits.extractLsb' 1 4 ∧ b = reg.bits.extractLsb' 0 1 := by
  have all : ∀ (a : BitVec 4) (b : BitVec 1), ∀ reg ∈ sysRegOf a b,
      sysRegOk reg = true ∧ a = reg.bits.extractLsb' 1 4 ∧ b = reg.bits.extractLsb' 0 1 := by decide
  exact all a b reg h

theorem decodeXfer1_hasWord {c : Cond} {f : Xfer1Fields} {i : Instr} (hc : f.cond = c.bits) (hp : f.cp = 10 ∨ f.cp = 11)
    (h : decodeXfer1 c f = .ok i) : i.HasWord f.word := by
  unfold decodeXfer1 at h
  split at h
  next hp =>
    split at h
    next hk =>
      have word {L : BitVec 1} (hL : f.L = L) (hz : f.sbzHi = 0 ∧ f.sbzLo = 0) :=
        (word_eq_xfer1 hc hk hz hp hL (sregField_sregOf f.Fn f.N).symm (sregExtra_sregOf f.Fn f.N).symm).symm
      split at h
      next hL => obtain ⟨hz, rfl⟩ := rdChecked_eq_ok.1 h; exact ⟨rfl, word hL hz⟩
      next hL => obtain ⟨hz, rfl⟩ := rdChecked_eq_ok.1 h; exact ⟨rfl, word (bit_eq_one hL) hz⟩
    next hk =>
      split at h
      next => cases h
      next reg hr =>
        obtain ⟨ok, hn, hN⟩ := bits_sysRegOf hr
        have word {L : BitVec 1} (hL : f.L = L) (hz : f.sbzHi = 0 ∧ f.sbzLo = 0) := (word_eq_xfer1 hc hk hz hp hL hn hN).symm
        split at h
        next hL => obtain ⟨hz, rfl⟩ := rdChecked_eq_ok.1 h; exact ⟨ok, word hL hz⟩
        next hL =>
          split at h
          next hf =>
            obtain ⟨hz, rfl⟩ := rdChecked_eq_ok.1 h
            exact ⟨Bool.and_eq_true_iff.2 ⟨ok, hf⟩, word (bit_eq_one hL) hz⟩
          next hf =>
            obtain ⟨hz, rfl⟩ := sbzChecked_eq_ok.1 h
            obtain ⟨hd, rfl⟩ := notFmstat_eq_false.1 (Bool.not_eq_true _ ▸ hf)
            exact ⟨rfl, by rw [← word (bit_eq_one hL) hz, hd]; rfl⟩
    next => cases h
  next hn =>
    have hp := hp.resolve_left hn
    split at h
    case h_1 hk | h_2 hk =>
      split at h
      next hN =>
        have word {L : BitVec 1} (hL : f.L = L) (hz : f.sbzHi = 0 ∧ f.sbzLo = 0) :=
          (word_eq_xfer1 hc hk hz hp hL (regField_regOf f.Fn).symm hN).symm
        split at h
        next hL => obtain ⟨hz, rfl⟩ := rdChecked_eq_ok.1 h; exact ⟨rfl, word hL hz⟩
        next hL => obtain ⟨hz, rfl⟩ := rdChecked_eq_ok.1 h; exact ⟨rfl, word (bit_eq_one hL) hz⟩
      next => cases h
    case h_3 => cases h

theorem decodeLs_hasWord {c : Cond} {w : Word} {i : Instr} (hb : w.extractLsb' 25 3 = 0b110)
    (hc : (lsFields w).cond = c.bits) (hp : (lsFields w).cp = 10 ∨ (lsFields w).cp = 11) (h : decodeLs c w = .ok i) :
    i.HasWord w := by
  rw [← word_lsFields hb]
  simp only [decodeLs] at h
  split at h
  case h_1 hk =>
    split at h
    next ht =>
      obtain ⟨h21, h6, h4⟩ := xfer2_bits hb (eq_ofNat hk) ht
      rw [word_lsFields hb, ← word_xfer2Fields h21 h6 h4]
      exact decodeXfer2_hasWord hc hp h
    next => cases h
  case h_2 hk | h_3 hk | h_5 hk =>
    exact hasWord_of_multiple hc hk hp h (fun _ _ _ => ⟨⟨rfl, rfl⟩, rfl, rfl⟩) (fun _ _ _ ho => ⟨⟨ho, rfl⟩, ho, rfl⟩)
      (fun _ _ _ ho => ⟨⟨ho, rfl⟩, ho, rfl⟩)
  case h_4 hk => exact hasWord_of_single hc hk hp rfl h
  case h_6 hk => exact hasWord_of_single hc hk hp rfl h
  case h_7 => cases h

theorem eq_bits_of_condOf {b : BitVec 4} {c : Cond} (h : condOf b = some c) : b = c.bits := by
  have all : ∀ b : BitVec 4, ∀ c ∈ condOf b, b = c.bits := by decide
  exact all b c h

theorem decode_hasWord {w : Word} {i : Instr} (h : decode w = .ok i) : i.HasWord w := by
  unfold decode at h
  split at h
  next => cases h
  next c hc =>
    have hc := eq_bits_of_condOf hc
    split at h
    next hp =>
      split at h
      next h24 =>
        split at h
        next h4 => exact word_dpFields h24 h4 ▸ decodeDp_hasWord hc hp h
        next h4 => exact word_xfer1Fields h24 (bit_eq_one h4) ▸ decodeXfer1_hasWord hc hp h
      next =>
        split at h
        next h25 => exact decodeLs_hasWord h25 hc hp h
        next => cases h
    next => cases h

/-- Settles O2, from the words of the fields of each format. -/
theorem encodeDecode : Obligations.EncodeDecode := fun _ _ => decode_hasWord

end Sys2Proof
end

section
/-! PROOFS. The words that the decoder calls no instruction, by format (30_encoding.md R91, R92, R94, R95). -/

namespace Sys2Proof

open Machine

/-! ### When the operands of a format are not decoded (R76, R80, R81, R94) -/

section Operands

variable {f : DpFields} {e : DecodeError}

/-- A checked answer is the error, where the check fails. -/
theorem checked_eq_error {p : Prop} [Decidable p] {e e' : DecodeError} {j : Instr} :
    (if p then .ok j else .error e' : Decoded) = .error e ↔ ¬p ∧ e' = e := by
  by_cases h : p
  · rw [if_pos h]; exact ⟨nofun, fun h' => absurd h h'.1⟩
  · rw [if_neg h, Except.error.injEq, and_iff_right h]

theorem sss_ne_error {mk : SReg → SReg → SReg → Instr} : f.sss mk ≠ .error e := nofun

theorem ss_ne_error {mk : SReg → SReg → Instr} : f.ss mk ≠ .error e := nofun

theorem ddd_eq_error {mk : DReg → DReg → DReg → Instr} :
    f.ddd mk = .error e ↔ ¬(f.D = 0 ∧ f.N = 0 ∧ f.M = 0) ∧ .undefined = e :=
  checked_eq_error

theorem dd_eq_error {mk : DReg → DReg → Instr} : f.dd mk = .error e ↔ ¬(f.D = 0 ∧ f.M = 0) ∧ .undefined = e :=
  checked_eq_error

theorem ds_eq_error {mk : DReg → SReg → Instr} : f.ds mk = .error e ↔ ¬f.D = 0 ∧ .undefined = e :=
  checked_eq_error

theorem sd_eq_error {mk : SReg → DReg → Instr} : f.sd mk = .error e ↔ ¬f.M = 0 ∧ .undefined = e :=
  checked_eq_error

theorem sz_eq_error {mk : SReg → Instr} :
    f.sz mk = .error e ↔ ¬(f.Fm = 0 ∧ f.M = 0) ∧ .unallocatedCompareZero = e :=
  checked_eq_error

theorem dz_eq_error {mk : DReg → Instr} :
    f.dz mk = .error e ↔
      (¬(f.D = 0 ∧ f.M = 0) ∧ .undefined = e) ∨ ((f.D = 0 ∧ f.M = 0) ∧ ¬f.Fm = 0 ∧ .unallocatedCompareZero = e) := by
  unfold DpFields.dz
  by_cases h : f.D = 0 ∧ f.M = 0
  · rw [if_pos h, checked_eq_error]; simp [h]
  · rw [if_neg h, Except.error.injEq]; simp only [h, not_false_eq_true, true_and, false_and, or_false]

theorem ddd_undefined {mk : DReg → DReg → DReg → Instr} :
    f.ddd mk = .error .undefined ↔ ¬(f.D = 0 ∧ f.N = 0 ∧ f.M = 0) :=
  ddd_eq_error.trans (and_iff_left rfl)

theorem dd_undefined {mk : DReg → DReg → Instr} : f.dd mk = .error .undefined ↔ ¬(f.D = 0 ∧ f.M = 0) :=
  dd_eq_error.trans (and_iff_left rfl)

theorem ds_undefined {mk : DReg → SReg → Instr} : f.ds mk = .error .undefined ↔ ¬f.D = 0 :=
  ds_eq_error.trans (and_iff_left rfl)

theorem sd_undefined {mk : SReg → DReg → Instr} : f.sd mk = .error .undefined ↔ ¬f.M = 0 :=
  sd_eq_error.trans (and_iff_left rfl)

theorem dz_undefined {mk : DReg → Instr} : f.dz mk = .error .undefined ↔ ¬(f.D = 0 ∧ f.M = 0) := by
  simp only [dz_eq_error, reduceCtorEq, and_false, or_false, and_true]

end Operands

/-! ### The bits of a word and its fields -/

theorem extractLsb'_one_eq_zero {w : Word} {k : Nat} : w.extractLsb' k 1 = 0 ↔ w.getLsbD k = false := by
  constructor
  · intro h
    have := congrArg (BitVec.getLsbD · 0) h
    simpa using this
  · intro h
    apply BitVec.eq_of_getLsbD_eq
    intro i hi
    obtain rfl : i = 0 := by omega
    simpa using h

theorem extractLsb'_one_ne_zero {w : Word} {k : Nat} : ¬w.extractLsb' k 1 = 0 ↔ w.getLsbD k = true := by
  rw [extractLsb'_one_eq_zero, Bool.not_eq_false]

theorem extractLsb'_two (w : Word) (k : Nat) : w.extractLsb' k 2 = w.extractLsb' (k + 1) 1 ++ w.extractLsb' k 1 := by
  rw [BitVec.extractLsb'_append_extractLsb'_eq_extractLsb' rfl]

theorem pqrsOf_eq (w : Word) : pqrsOf w = (dpFields w).pqrs.toNat := by
  have assoc : ∀ p q r s : BitVec 1, (p ++ (q ++ r) ++ s).toNat = (p ++ q ++ r ++ s).toNat := by decide
  rw [pqrsOf, extractLsb'_two]
  exact assoc ..

theorem puwOf_eq (w : Word) : puwOf w = (lsFields w).puw.toNat := by
  rw [puwOf, extractLsb'_two]
  rfl

theorem isCp11_of_cp10 {w : Word} (h : w.extractLsb' 8 4 = 10) : isCp11 w = false := by
  rw [isCp11, h]; rfl

theorem isCp11_of_cp11 {w : Word} (h : w.extractLsb' 8 4 = 11) : isCp11 w = true := by
  rw [isCp11, h]; rfl

theorem extra_D {w : Word} : ¬(dpFields w).D = 0 ↔ bitD w = true := extractLsb'_one_ne_zero

theorem extra_N {w : Word} : ¬(dpFields w).N = 0 ↔ bitN w = true := extractLsb'_one_ne_zero

theorem extra_M {w : Word} : ¬(dpFields w).M = 0 ↔ bitM w = true := extractLsb'_one_ne_zero

theorem extra_DM {w : Word} : ¬((dpFields w).D = 0 ∧ (dpFields w).M = 0) ↔ (bitD w || bitM w) = true := by
  rw [not_and_or, extra_D, extra_M, Bool.or_eq_true]

theorem extra_DNM {w : Word} :
    ¬((dpFields w).D = 0 ∧ (dpFields w).N = 0 ∧ (dpFields w).M = 0) ↔ (bitD w || bitN w || bitM w) = true := by
  rw [not_and_or, not_and_or, extra_D, extra_N, extra_M, Bool.or_assoc, Bool.or_eq_true, Bool.or_eq_true]

/-! ### UNDEFINED data-processing words (R92 items 1 to 3) -/

section Dp

variable {c : Cond} {w : Word}

/-- An extension opcode that neither coprocessor has (R78, item 2). -/
def unusedExt (k : Nat) : Bool := [4, 5, 6, 7, 12, 13, 14, 18, 19, 20, 21, 22, 23, 28, 29, 30, 31].contains k

theorem undefinedDp_ext (hq : pqrsOf w = 15) : undefinedDp w = (unusedExt (extOf w) || doubleExtraBit w) := by
  simp [undefinedDp, unusedExt, hq]

theorem undefinedDp_primary (hq : pqrsOf w ≤ 8) : undefinedDp w = (isCp11 w && (bitD w || bitN w || bitM w)) := by
  have unused : [9, 10, 11, 12, 13, 14].contains (pqrsOf w) = false := by
    simp only [List.contains_eq_mem, List.mem_cons, List.not_mem_nil, or_false, decide_eq_false_iff_not]; omega
  have ext : (pqrsOf w == 15) = false := by rw [beq_eq_false_iff_ne]; omega
  rw [undefinedDp, unused, ext, Bool.false_and, Bool.false_or, Bool.false_or, doubleExtraBit, if_pos hq]

theorem decodeExtSgl_undefined (hp : w.extractLsb' 8 4 = 10) (hq : pqrsOf w = 15) :
    decodeExtSgl c (dpFields w) = .error .undefined ↔ undefinedDp w = true := by
  have bound : extOf w < 32 := BitVec.isLt _
  rw [undefinedDp_ext hq, doubleExtraBit, hq, isCp11_of_cp10 hp, decodeExtSgl, show (dpFields w).ext.toNat = extOf w from rfl]
  generalize extOf w = k at bound ⊢
  split
  case h_7 | h_8 => exact iff_of_false (fun h => nomatch (sz_eq_error.1 h).2) Bool.false_ne_true
  case h_9 => exact ds_undefined.trans extra_D
  case h_16 => simp only [imp_false] at *; simp [unusedExt]; omega
  all_goals exact iff_of_false ss_ne_error Bool.false_ne_true

theorem decodeExtDbl_undefined (hp : w.extractLsb' 8 4 = 11) (hq : pqrsOf w = 15) :
    decodeExtDbl c (dpFields w) = .error .undefined ↔ undefinedDp w = true := by
  have bound : extOf w < 32 := BitVec.isLt _
  rw [undefinedDp_ext hq, doubleExtraBit, hq, isCp11_of_cp11 hp, decodeExtDbl, show (dpFields w).ext.toNat = extOf w from rfl]
  generalize extOf w = k at bound ⊢
  split
  case h_1 | h_2 | h_3 | h_4 | h_5 | h_6 => exact dd_undefined.trans extra_DM
  case h_7 | h_8 => exact dz_undefined.trans extra_DM
  case h_10 | h_11 => exact ds_undefined.trans extra_D
  case h_16 => simp only [imp_false] at *; simp [unusedExt]; omega
  all_goals exact sd_undefined.trans extra_M

theorem undefinedDp_of_unused (h : 9 ≤ pqrsOf w ∧ pqrsOf w ≤ 14) : undefinedDp w = true := by
  simp only [undefinedDp, List.contains_eq_mem, List.mem_cons, List.not_mem_nil, or_false, Bool.or_eq_true, decide_eq_true_eq]
  omega

theorem decodeDp_undefined (hp : w.extractLsb' 8 4 = 10 ∨ w.extractLsb' 8 4 = 11) :
    decodeDp c (dpFields w) = .error .undefined ↔ undefinedDp w = true := by
  have bound : pqrsOf w < 16 := BitVec.isLt _
  unfold decodeDp
  rw [← pqrsOf_eq]
  split
  next hp =>
    split
    case h_10 hq => exact decodeExtSgl_undefined hp hq
    case h_11 => exact iff_of_true rfl (undefinedDp_of_unused (by simp only [imp_false] at *; omega))
    all_goals
      rw [undefinedDp_primary (by omega), isCp11_of_cp10 hp]
      exact iff_of_false sss_ne_error Bool.false_ne_true
  next hn =>
    have hp := hp.resolve_left hn
    split
    case h_10 hq => exact decodeExtDbl_undefined hp hq
    case h_11 => exact iff_of_true rfl (undefinedDp_of_unused (by simp only [imp_false] at *; omega))
    all_goals
      rw [undefinedDp_primary (by omega), isCp11_of_cp11 hp]
      exact ddd_undefined.trans extra_DNM

end Dp

/-! ### UNDEFINED loads, stores and two-register transfers (R92 items 4, 5 and 9) -/

section Ls

variable {c : Cond} {w : Word} {f : LsFields} {e : DecodeError}

theorem sgl_ne_error {mk : SReg → RReg → BitVec 8 → Instr} : f.sgl mk ≠ .error e := nofun

theorem dbl_eq_error {mk : DReg → RReg → BitVec 8 → Instr} : f.dbl mk = .error e ↔ ¬f.D = 0 ∧ .undefined = e :=
  checked_eq_error

/-- A multiple is an instruction or, with the extra bit of a double-precision register, UNDEFINED. -/
theorem multiple_eq_error {storeS loadS : SReg → RReg → BitVec 8 → Instr}
    {storeD loadD storeX loadX : DReg → RReg → BitVec 8 → Instr} :
    f.multiple storeS loadS storeD loadD storeX loadX = .error e ↔ (f.cp ≠ 10 ∧ ¬f.D = 0) ∧ .undefined = e := by
  unfold LsFields.multiple
  split
  next hp => split <;> exact iff_of_false sgl_ne_error fun h => h.1.1 hp
  next hp =>
    rw [and_iff_right hp]
    split <;> split <;> exact dbl_eq_error

theorem single_eq_error {up : Bool} : f.single c up = .error e ↔ (f.cp ≠ 10 ∧ ¬f.D = 0) ∧ .undefined = e := by
  unfold LsFields.single
  split
  next hp => split <;> exact iff_of_false sgl_ne_error fun h => h.1.1 hp
  next hp =>
    rw [and_iff_right hp]
    split <;> exact dbl_eq_error

theorem decodeXfer2_eq_error {f : Xfer2Fields} : decodeXfer2 c f = .error e ↔ (f.cp ≠ 10 ∧ ¬f.M = 0) ∧ .undefined = e := by
  unfold decodeXfer2
  split
  next hp => split <;> exact iff_of_false nofun fun h => h.1.1 hp
  next hp =>
    split
    next hM => split <;> exact iff_of_false nofun fun h => h.1.2 hM
    next hM => rw [Except.error.injEq, and_iff_right ⟨hp, hM⟩]

theorem cp_ne_10 (hp : w.extractLsb' 8 4 = 10 ∨ w.extractLsb' 8 4 = 11) : w.extractLsb' 8 4 ≠ 10 ↔ isCp11 w = true := by
  obtain hp | hp := hp
  · rw [hp, isCp11_of_cp10 hp]; decide
  · rw [hp, isCp11_of_cp11 hp]; decide

theorem undefinedLs_mode (h0 : puwOf w ≠ 0) (h1 : puwOf w ≠ 1) (h7 : puwOf w ≠ 7) :
    undefinedLs w = (isCp11 w && bitD w) := by
  rw [undefinedLs, beq_false_of_ne h0, beq_false_of_ne h1, beq_false_of_ne h7, bne_iff_ne.2 h0]
  simp only [Bool.false_or, Bool.true_and, Bool.false_and, Bool.or_false]

theorem undefinedLs_twoReg (h : puwOf w = 0) : undefinedLs w = (twoRegPattern w && isCp11 w && bitM w) := by
  rw [undefinedLs, h]; rfl

/-- Every error of the `LS` and `XFER2` formats, by the bits `P:U:W` (R82, R95 item 1). -/
theorem decodeLs_eq_error (hp : w.extractLsb' 8 4 = 10 ∨ w.extractLsb' 8 4 = 11) :
    decodeLs c w = .error e ↔
      (undefinedLs w = true ∧ .undefined = e) ∨ (puwOf w = 0 ∧ twoRegPattern w = false ∧ .unallocatedTwoReg = e) := by
  have bound : puwOf w < 8 := BitVec.isLt _
  have cp (k : Nat) : (w.extractLsb' 8 4 ≠ 10 ∧ ¬w.extractLsb' k 1 = 0) ↔ (isCp11 w && w.getLsbD k) = true := by
    rw [cp_ne_10 hp, extractLsb'_one_ne_zero, Bool.and_eq_true]
  have mode (h0 : puwOf w ≠ 0) (h1 : puwOf w ≠ 1) (h7 : puwOf w ≠ 7) {x : Decoded}
      (h : x = .error e ↔ ((lsFields w).cp ≠ 10 ∧ ¬(lsFields w).D = 0) ∧ .undefined = e) :
      x = .error e ↔ (undefinedLs w = true ∧ .undefined = e) ∨
        (puwOf w = 0 ∧ twoRegPattern w = false ∧ .unallocatedTwoReg = e) := by
    rw [or_iff_left (fun h => h0 h.1), undefinedLs_mode h0 h1 h7, h]
    exact and_congr_left' (cp 22)
  simp only [decodeLs, ← puwOf_eq]
  split
  case h_1 hk =>
    rw [undefinedLs_twoReg hk]
    cases twoRegPattern w with
    | true =>
      rw [or_iff_left (fun h => nomatch h.2.1), Bool.true_and]
      exact decodeXfer2_eq_error.trans (and_congr_left' (cp 5))
    | false =>
      rw [or_iff_right (fun h => nomatch h.1), and_iff_right hk, and_iff_right rfl]
      rw [if_neg Bool.false_ne_true, Except.error.injEq]
  case h_7 =>
    simp only [imp_false] at *
    have hu : undefinedLs w = true := by
      have : puwOf w = 1 ∨ puwOf w = 7 := by omega
      obtain h | h := this <;> rw [undefinedLs, h] <;> rfl
    rw [hu, and_iff_right rfl, or_iff_left (by tauto), Except.error.injEq]
  case h_4 hk | h_6 hk => exact mode (by omega) (by omega) (by omega) single_eq_error
  all_goals exact mode (by omega) (by omega) (by omega) multiple_eq_error

end Ls

/-! ### Single register transfers that are no instruction (R92 items 6 to 8, R94) -/

section Xfer1

variable {c : Cond} {w : Word}

theorem sysRegOf_eq_none {a : BitVec 4} {b : BitVec 1} :
    sysRegOf a b = none ↔ (a ++ b).toNat < 16 ∧ (a ++ b).toNat ≠ 0 ∧ (a ++ b).toNat ≠ 2 := by
  revert a b; decide

theorem sysRegOf_fpscr {a : BitVec 4} {b : BitVec 1} : sysRegOf a b = some .fpscr ↔ (a ++ b).toNat = 2 := by
  revert a b; decide

theorem regOf_eq_fifteen {b : BitVec 4} : regOf b = 15 ↔ b = 15 := by revert b; decide

/-- The fields of FMSTAT, whatever the SBZ bits are: FMRX of the FPSCR to `R15` (R86). -/
abbrev Xfer1Fields.IsFmstat (f : Xfer1Fields) : Prop :=
  f.cp = 10 ∧ f.opcode.toNat = 7 ∧ ¬f.L = 0 ∧ (f.Fn ++ f.N).toNat = 2 ∧ f.Rd = 15

/-- What the decoder answers for the fields of an instruction: `Rd` and the SBZ bits are checked last (R91), for FMSTAT the
SBZ bits alone. -/
def Xfer1Fields.Checked (f : Xfer1Fields) (c : Cond) (x : Decoded) : Prop :=
  (f.IsFmstat ∧ x = f.sbzChecked (.fmstat c)) ∨ (¬f.IsFmstat ∧ ∃ i, x = f.rdChecked i)

theorem undefinedXfer1_sgl (hp : isCp11 w = false) :
    undefinedXfer1 w = true ↔
      ((xfer1Fields w).opcode.toNat ≠ 0 ∧ (xfer1Fields w).opcode.toNat ≠ 7) ∨
        ((xfer1Fields w).opcode.toNat = 7 ∧ sysRegOf (xfer1Fields w).Fn (xfer1Fields w).N = none) := by
  have bound : (w.extractLsb' 21 3).toNat < 8 := BitVec.isLt _
  rw [sysRegOf_eq_none, show (xfer1Fields w).opcode = w.extractLsb' 21 3 from rfl,
    show ((xfer1Fields w).Fn ++ (xfer1Fields w).N).toNat = extOf w from rfl]
  simp only [undefinedXfer1, hp]
  generalize (w.extractLsb' 21 3).toNat = k at bound ⊢
  simp
  omega

theorem undefinedXfer1_dbl (hp : isCp11 w = true) :
    undefinedXfer1 w = true ↔
      ((xfer1Fields w).opcode.toNat ≠ 0 ∧ (xfer1Fields w).opcode.toNat ≠ 1) ∨ ¬(xfer1Fields w).N = 0 := by
  have bound : (w.extractLsb' 21 3).toNat < 8 := BitVec.isLt _
  rw [show ¬(xfer1Fields w).N = 0 ↔ bitN w = true from extractLsb'_one_ne_zero,
    show (xfer1Fields w).opcode = w.extractLsb' 21 3 from rfl]
  simp only [undefinedXfer1, hp]
  generalize (w.extractLsb' 21 3).toNat = k at bound ⊢
  cases bitN w <;> simp <;> omega

/-- A single register transfer is UNDEFINED as R92 says, or its `Rd` and its SBZ bits decide. -/
theorem decodeXfer1_cases (hp : w.extractLsb' 8 4 = 10 ∨ w.extractLsb' 8 4 = 11) :
    (undefinedXfer1 w = true ∧ decodeXfer1 c (xfer1Fields w) = .error .undefined) ∨
      (undefinedXfer1 w = false ∧ (xfer1Fields w).Checked c (decodeXfer1 c (xfer1Fields w))) := by
  unfold decodeXfer1
  split
  next h10 =>
    have spec := undefinedXfer1_sgl (isCp11_of_cp10 h10)
    split
    case h_1 ho =>
      have ok : undefinedXfer1 w = false := by simp [← Bool.not_eq_true, spec, ho]
      split <;> exact .inr ⟨ok, .inr ⟨fun h => (by simp [Xfer1Fields.IsFmstat, ho] at h), _, rfl⟩⟩
    case h_2 ho =>
      split
      next hr => exact .inl ⟨spec.2 (.inr ⟨ho, hr⟩), rfl⟩
      next reg hr =>
        have ok : undefinedXfer1 w = false := by simp [← Bool.not_eq_true, spec, ho, hr]
        split
        next hL => exact .inr ⟨ok, .inr ⟨fun ⟨_, _, h, _⟩ => h hL, _, rfl⟩⟩
        next hL =>
          split
          next hn =>
            refine .inr ⟨ok, .inr ⟨?_, _, rfl⟩⟩
            rintro ⟨_, _, _, h2, h15⟩
            obtain rfl : reg = .fpscr := Option.some.inj (hr.symm.trans (sysRegOf_fpscr.2 h2))
            rw [notFmstat_eq_false.2 ⟨regOf_eq_fifteen.2 h15, rfl⟩] at hn
            cases hn
          next hn =>
            obtain ⟨h15, rfl⟩ := notFmstat_eq_false.1 (eq_false_of_ne_true hn)
            exact .inr ⟨ok, .inl ⟨⟨h10, ho, hL, sysRegOf_fpscr.1 hr, regOf_eq_fifteen.1 h15⟩, rfl⟩⟩
    case h_3 => exact .inl ⟨spec.2 (.inl ⟨by assumption, by assumption⟩), rfl⟩
  next h10 =>
    have spec := undefinedXfer1_dbl (isCp11_of_cp11 (hp.resolve_left h10))
    split
    case h_1 ho | h_2 ho =>
      split
      next hN =>
        have ok : undefinedXfer1 w = false := by simp [← Bool.not_eq_true, spec, ho, hN]
        split <;> exact .inr ⟨ok, .inr ⟨fun h => h10 h.1, _, rfl⟩⟩
      next hN => exact .inl ⟨spec.2 (.inr hN), rfl⟩
    case h_3 => exact .inl ⟨spec.2 (.inl ⟨by assumption, by assumption⟩), rfl⟩

/-- Why the fields of an instruction are refused, if an SBZ bit is not 0 (R91, R94). -/
def Xfer1Fields.refusal (f : Xfer1Fields) : DecodeError :=
  if f.Rd = 15 ∧ ¬f.IsFmstat then (if f.L = 0 then .fromArmR15 else .toArmR15) else .sbz

theorem Xfer1Fields.Checked.eq_error {f : Xfer1Fields} {x : Decoded} {e : DecodeError} (h : f.Checked c x) :
    x = .error e ↔ ¬(f.sbzHi = 0 ∧ f.sbzLo = 0) ∧ f.refusal = e := by
  unfold Xfer1Fields.refusal
  obtain ⟨hf, rfl⟩ | ⟨hf, i, rfl⟩ := h
  · rw [if_neg fun h => h.2 hf]
    exact checked_eq_error
  · simp only [hf, not_false_eq_true, and_true, Xfer1Fields.rdChecked]
    by_cases hr : f.Rd = 15
    · by_cases hz : f.sbzHi = 0 ∧ f.sbzLo = 0
      · rw [if_neg fun h => h.2 hz, Xfer1Fields.sbzChecked, if_pos hz]
        exact iff_of_false nofun fun h => h.1 hz
      · rw [if_pos ⟨hr, hz⟩, if_pos hr, Except.error.injEq, and_iff_right hz]
    · rw [if_neg fun h => hr h.1, if_neg hr]
      exact checked_eq_error

/-- Every error of the `XFER1` format. -/
theorem decodeXfer1_eq_error {e : DecodeError} (hp : w.extractLsb' 8 4 = 10 ∨ w.extractLsb' 8 4 = 11) :
    decodeXfer1 c (xfer1Fields w) = .error e ↔
      if undefinedXfer1 w then .undefined = e
      else ¬(w.extractLsb' 5 2 = 0 ∧ w.extractLsb' 0 4 = 0) ∧ (xfer1Fields w).refusal = e := by
  obtain ⟨hu, hx⟩ | ⟨hu, hx⟩ := decodeXfer1_cases (c := c) hp
  · rw [hx, if_pos hu, Except.error.injEq]
  · rw [hu, if_neg Bool.false_ne_true]
    exact hx.eq_error

theorem Xfer1Fields.refusal_cases (f : Xfer1Fields) :
    f.refusal = .fromArmR15 ∨ f.refusal = .toArmR15 ∨ f.refusal = .sbz := by
  unfold Xfer1Fields.refusal
  split
  · split
    · exact .inl rfl
    · exact .inr (.inl rfl)
  · exact .inr (.inr rfl)

end Xfer1

/-! ### The formats of the VFP's words (R70, R91) -/

section Formats

variable {c : Cond} {w : Word} (hc : condOf (w.extractLsb' 28 4) = some c)
  (hp : w.extractLsb' 8 4 = 10 ∨ w.extractLsb' 8 4 = 11)
include hc hp

theorem decode_data (h24 : w.extractLsb' 24 4 = 0b1110) (h4 : w.getLsbD 4 = false) : decode w = decodeDp c (dpFields w) := by
  simp only [decode, hc, if_pos hp, if_pos h24, if_pos (extractLsb'_one_eq_zero.2 h4)]

theorem decode_transfer (h24 : w.extractLsb' 24 4 = 0b1110) (h4 : w.getLsbD 4 = true) :
    decode w = decodeXfer1 c (xfer1Fields w) := by
  simp only [decode, hc, if_pos hp, if_pos h24, if_neg (extractLsb'_one_ne_zero.2 h4)]

theorem decode_memory (h25 : w.extractLsb' 25 3 = 0b110) : decode w = decodeLs c w := by
  simp only [decode, hc, if_pos hp, if_neg (not_data_bits h25), if_pos h25]

end Formats

theorem Machine.VfpWord.exists_cond {w : Word} (h : VfpWord w) : ∃ c, condOf (w.extractLsb' 28 4) = some c := by
  have all : ∀ b : BitVec 4, b ≠ 15 → (condOf b).isSome = true := by decide
  exact Option.isSome_iff_exists.1 (all _ h.1)

/-- A word of the VFP's space is of one of three formats, `LS` and `XFER2` taken together. -/
theorem Machine.VfpWord.format {w : Word} (h : VfpWord w) :
    (w.extractLsb' 24 4 = 0b1110 ∧ w.getLsbD 4 = false) ∨ (w.extractLsb' 24 4 = 0b1110 ∧ w.getLsbD 4 = true) ∨
      w.extractLsb' 25 3 = 0b110 := by
  obtain ⟨_, _, h24 | h25⟩ := h
  · cases h4 : w.getLsbD 4 with
    | false => exact .inl ⟨h24, rfl⟩
    | true => exact .inr (.inl ⟨h24, rfl⟩)
  · exact .inr (.inr h25)

theorem undefinedWord_data {w : Word} (h24 : w.extractLsb' 24 4 = 0b1110) (h4 : w.getLsbD 4 = false) :
    undefinedWord w = undefinedDp w := by
  rw [undefinedWord, if_pos (beq_iff_eq.2 h24), h4]; rfl

theorem undefinedWord_transfer {w : Word} (h24 : w.extractLsb' 24 4 = 0b1110) (h4 : w.getLsbD 4 = true) :
    undefinedWord w = undefinedXfer1 w := by
  rw [undefinedWord, if_pos (beq_iff_eq.2 h24), h4]; rfl

theorem undefinedWord_memory {w : Word} (h25 : w.extractLsb' 25 3 = 0b110) : undefinedWord w = undefinedLs w := by
  rw [undefinedWord, if_neg (mt beq_iff_eq.1 (not_data_bits h25)), h25]; rfl

/-- The decoder calls UNDEFINED the words of R92, and no others. -/
theorem decode_undefined {w : Word} (h : VfpWord w) : decode w = .error .undefined ↔ undefinedWord w = true := by
  obtain ⟨c, hc⟩ := h.exists_cond
  have hp := h.2.1
  obtain ⟨h24, h4⟩ | ⟨h24, h4⟩ | h25 := h.format
  · rw [decode_data hc hp h24 h4, undefinedWord_data h24 h4, decodeDp_undefined hp]
  · rw [decode_transfer hc hp h24 h4, undefinedWord_transfer h24 h4, decodeXfer1_eq_error hp]
    cases undefinedXfer1 w with
    | true => exact iff_of_true rfl rfl
    | false =>
      refine iff_of_false (fun h => ?_) Bool.false_ne_true
      obtain e | e | e := (xfer1Fields w).refusal_cases <;> cases e.symm.trans h.2
  · rw [decode_memory hc hp h25, undefinedWord_memory h25, decodeLs_eq_error hp]
    simp only [reduceCtorEq, and_true, and_false, or_false]

/-! ### A word of the VFP's space is never called another instruction -/

theorem decodeExtSgl_ne_notVfp {c : Cond} {f : DpFields} : decodeExtSgl c f ≠ .error .notVfp := by
  intro h
  unfold decodeExtSgl at h
  split at h
  case h_7 | h_8 => exact nomatch (sz_eq_error.1 h).2
  case h_9 => exact nomatch (ds_eq_error.1 h).2
  case h_16 => cases h
  all_goals exact ss_ne_error h

theorem decodeExtDbl_ne_notVfp {c : Cond} {f : DpFields} : decodeExtDbl c f ≠ .error .notVfp := by
  intro h
  unfold decodeExtDbl at h
  split at h
  case h_1 | h_2 | h_3 | h_4 | h_5 | h_6 => exact nomatch (dd_eq_error.1 h).2
  case h_7 | h_8 => obtain ⟨_, e⟩ | ⟨_, _, e⟩ := dz_eq_error.1 h <;> cases e
  case h_10 | h_11 => exact nomatch (ds_eq_error.1 h).2
  case h_16 => cases h
  all_goals exact nomatch (sd_eq_error.1 h).2

theorem decodeDp_ne_notVfp {c : Cond} {f : DpFields} : decodeDp c f ≠ .error .notVfp := by
  intro h
  unfold decodeDp at h
  split at h
  · split at h
    case h_10 => exact decodeExtSgl_ne_notVfp h
    case h_11 => cases h
    all_goals exact sss_ne_error h
  · split at h
    case h_10 => exact decodeExtDbl_ne_notVfp h
    case h_11 => cases h
    all_goals exact nomatch (ddd_eq_error.1 h).2

theorem decode_ne_notVfp {w : Word} (h : VfpWord w) : decode w ≠ .error .notVfp := by
  obtain ⟨c, hc⟩ := h.exists_cond
  have hp := h.2.1
  obtain ⟨h24, h4⟩ | ⟨h24, h4⟩ | h25 := h.format
  · rw [decode_data hc hp h24 h4]; exact decodeDp_ne_notVfp
  · rw [decode_transfer hc hp h24 h4, ne_eq, decodeXfer1_eq_error hp]
    split
    · exact nofun
    · rintro ⟨_, e'⟩
      obtain e | e | e := (xfer1Fields w).refusal_cases <;> cases e.symm.trans e'
  · rw [decode_memory hc hp h25, ne_eq, decodeLs_eq_error hp]
    exact nofun

end Sys2Proof
end

section
/-! PROOFS. A step: the condition first, then the instructions that the variant lacks, then the reasons a word is no instruction
(30_encoding.md R71, R92, R96; 60_exceptions.md R300). -/

namespace Sys2Proof.Machine

/-! ### What a step does with a word that is no instruction (60_exceptions.md R300) -/

section Step

variable {w : Word} {c : Cond} {s : State} {e : DecodeError}

theorem step_of_decode_ok {i : Instr} (hf : Fetched w s) (h : decode w = .ok i) : step s = exec i s := by
  simp only [step, fetch_of_fetched hf, h]

theorem step_of_decode_error (hf : Fetched w s) (h : decode w = .error e) : step s = noInstruction e w s := by
  simp only [step, fetch_of_fetched hf, h]

theorem absentWord_of_ready (h : Ready c (isCp11 w) s) : absentWord w s = false := by
  unfold absentWord
  cases hp : isCp11 w with
  | false => rw [isCp11] at hp; rw [hp, Bool.and_false]
  | true => rw [h.2 hp]; rfl

variable (hc : condOf (w.extractLsb' 28 4) = some c)
include hc

/-- A failed condition comes before every other reason (30_encoding.md R71). -/
theorem noInstruction_failed (he : e ≠ .notVfp) (h : conditionPassed c s.cpsr = false) :
    noInstruction e w s = .next s.advance := by
  cases e with
  | notVfp => exact absurd rfl he
  | _ => unfold noInstruction; rw [hc]; exact if_pos (by rw [h]; rfl)

/-- Without double precision the space of coprocessor 11 is UNDEFINED before it is anything else (30_encoding.md R96). -/
theorem noInstruction_absent (he : e ≠ .notVfp) (h : conditionPassed c s.cpsr = true) (ha : absentWord w s = true) :
    noInstruction e w s = .fault (.undefinedInstruction s.pc w) := by
  cases e with
  | notVfp => exact absurd rfl he
  | _ => unfold noInstruction; rw [hc]; exact (if_neg (by rw [h]; decide)).trans (if_pos ha)

theorem noInstruction_undefined (h : conditionPassed c s.cpsr = true) :
    noInstruction .undefined w s = .fault (.undefinedInstruction s.pc w) := by
  unfold noInstruction; rw [hc]; exact (if_neg (by rw [h]; decide)).trans (ite_self _)

variable (h : Ready c (isCp11 w) s)
include h

theorem noInstruction_twoReg : noInstruction .unallocatedTwoReg w s = .refused (.unallocatedEncoding .twoRegPattern) := by
  unfold noInstruction
  rw [hc]
  exact (if_neg (by rw [h.1]; decide)).trans (if_neg (by rw [absentWord_of_ready h]; decide))

theorem noInstruction_compareZero :
    noInstruction .unallocatedCompareZero w s = .refused (.unallocatedEncoding .compareZeroOperand) := by
  unfold noInstruction
  rw [hc]
  exact (if_neg (by rw [h.1]; decide)).trans (if_neg (by rw [absentWord_of_ready h]; decide))

end Step

/-- Settles O4: the decoder calls UNDEFINED what R92 lists, and the step then takes the exception. -/
theorem undefinedEncodings : Obligations.UndefinedEncodings := fun _ hw =>
  ⟨decode_undefined hw, fun hu _ _ hf hc hpass =>
    (step_of_decode_error hf ((decode_undefined hw).2 hu)).trans (noInstruction_undefined hc hpass)⟩

/-! ### Every instruction is its condition, the variant it needs and its body (30_encoding.md R71, R96) -/

theorem exec_eq_instruction (i : Instr) : ∃ body, ∀ s, exec i s = instruction i.cond i i.needsDouble body s := by
  cases i <;> exact ⟨_, fun _ => rfl⟩

theorem exec_failed {i : Instr} {s : State} (h : conditionPassed i.cond s.cpsr = false) : exec i s = .next s.advance := by
  obtain ⟨body, hx⟩ := exec_eq_instruction i
  rw [hx, instruction_failed h]

theorem exec_absent {i : Instr} {s : State} (h : conditionPassed i.cond s.cpsr = true) (hi : i.needsDouble = true)
    (hd : s.cfg.hasDouble = false) : exec i s = .fault (.undefinedInstruction s.pc (encode i)) := by
  obtain ⟨body, hx⟩ := exec_eq_instruction i
  rw [hx, instruction, if_pos h, if_pos (by rw [hi, hd]; rfl)]
  rfl

/-- Bits 31:28 of an instruction's word are its condition (30_encoding.md R70). -/
theorem encode_cond (i : Instr) : (encode i).extractLsb' 28 4 = i.cond.bits := by
  cases i with
  | flds | fsts | fldd | fstd => exact LsFields.word_cond _
  | fldmsUnindexed | fldmsIncrement | fldmsDecrement | fstmsUnindexed | fstmsIncrement | fstmsDecrement
  | fldmdUnindexed | fldmdIncrement | fldmdDecrement | fstmdUnindexed | fstmdIncrement | fstmdDecrement
  | fldmxUnindexed | fldmxIncrement | fldmxDecrement | fstmxUnindexed | fstmxIncrement | fstmxDecrement =>
    exact LsFields.word_cond _
  | fmstat | fmsr | fmrs | fmxr | fmrx | fmdlr | fmrdl | fmdhr | fmrdh => exact Xfer1Fields.word_cond _
  | fmsrr | fmrrs | fmdrr | fmrrd => exact Xfer2Fields.word_cond _
  | _ => exact DpFields.word_cond _

/-- The instructions of coprocessor 11 are those that need double precision, FCVTDS apart, and FSTMX and FLDMX. -/
theorem needsDouble_of_cp11 {i : Instr} (h : (encode i).extractLsb' 8 4 = 11) (hx : ¬i.isUnknownPrecision) :
    i.needsDouble = true := by
  have sgl {w : Word} (hw : w.extractLsb' 8 4 = 10) : w.extractLsb' 8 4 ≠ 11 := by rw [hw]; decide
  cases i with
  | flds | fsts | fldmsUnindexed | fldmsIncrement | fldmsDecrement | fstmsUnindexed | fstmsIncrement | fstmsDecrement =>
    exact absurd h (sgl (LsFields.word_cp _))
  | fmstat | fmsr | fmrs | fmxr | fmrx => exact absurd h (sgl (Xfer1Fields.word_cp _))
  | fmsrr | fmrrs => exact absurd h (sgl (Xfer2Fields.word_cp _))
  | fmacs | fnmacs | fmscs | fnmscs | fmuls | fnmuls | fadds | fsubs | fdivs | fcpys | fabss | fnegs | fsqrts | fcmps | fcmpes
  | fcmpzs | fcmpezs | fuitos | fsitos | ftouis | ftouizs | ftosis | ftosizs => exact absurd h (sgl (DpFields.word_cp _))
  | fldmxUnindexed | fldmxIncrement | fldmxDecrement | fstmxUnindexed | fstmxIncrement | fstmxDecrement =>
    exact absurd trivial hx
  | _ => rfl

theorem needsDouble_of_fcvtds {i : Instr} (h : i.isFcvtds) : i.needsDouble = true := by
  cases i with
  | fcvtds => rfl
  | _ => exact h.elim

theorem cond_of_decode {w : Word} {i : Instr} {c : Cond} (h : decode w = .ok i) (hc : condOf (w.extractLsb' 28 4) = some c) :
    i.cond = c := by
  rw [← (decode_hasWord h).2, encode_cond, condOf_bits] at hc
  exact Option.some.inj hc

/-- Settles O7: the condition comes first, for an instruction and for a word that is none. -/
theorem conditionFailed : Obligations.ConditionFailed := by
  refine ⟨fun w c s hf hw hc h => ?_, fun i s h => exec_failed h⟩
  cases hd : decode w with
  | ok i =>
    rw [step_of_decode_ok hf hd]
    exact exec_failed (cond_of_decode hd hc ▸ h)
  | error e =>
    rw [step_of_decode_error hf hd]
    exact noInstruction_failed hc (fun he => decode_ne_notVfp hw (he ▸ hd)) h

/-- Settles O9: a word that is decoded needs double precision and has its own word in the fault, and one that is not decoded is
of the space that the variant lacks. -/
theorem singlePrecisionVariant : Obligations.SinglePrecisionVariant := by
  intro w c s hf hw hc h hd hcase
  have fault {i : Instr} (hi : decode w = .ok i) (hn : i.needsDouble = true) :
      step s = .fault (.undefinedInstruction s.pc w) := by
    rw [step_of_decode_ok hf hi, exec_absent (cond_of_decode hi hc ▸ h) hn hd, (decode_hasWord hi).2]
  obtain ⟨hp, hx⟩ | ⟨i, hi, hx⟩ := hcase
  · cases hi : decode w with
    | ok i =>
      refine fault hi (needsDouble_of_cp11 ?_ (hx i hi))
      rw [(decode_hasWord hi).2]
      exact beq_iff_eq.1 hp
    | error e =>
      rw [step_of_decode_error hf hi]
      exact noInstruction_absent hc (fun he => decode_ne_notVfp hw (he ▸ hi)) h (by rw [absentWord, hd]; exact hp)
  · exact fault hi (needsDouble_of_fcvtds hx)

end Sys2Proof.Machine
end

section
/-! PROOFS. What the ARM conditions test after a comparison and FMSTAT (42_compare.md R161, R162). -/

namespace Sys2Proof.Machine

/-- A comparison that completes writes the flags of the relation it finds to the FPSCR, and leaves the CPSR (R151). -/
theorem exec_compare {i : Instr} {s t : State} (hi : i.cls = .compare) (hc : conditionPassed i.cond s.cpsr = true)
    (h : exec i s = .next t) : t.cpsr = s.cpsr ∧ ∃ r : Relation, t.fpscr.flags = relationFlags r := by
  obtain ⟨hf, _⟩ | ⟨_, u, hu, rfl⟩ := exec_effect h
  · rw [hc] at hf; cases hf
  · cases hu with
    | @compared r _ _ => exact ⟨rfl, r.relation, rfl⟩
    | result hc | register hc => simp [hi] at hc
    | copied hc | loaded hc | stored hc | storedDoubles hc | saved hc | restored hc | registers hc | half hc | arm hc | arms hc
    | fpscr hc | same hc | subArch hc | flags hc => simp [hi] at hc

theorem exec_fmstat {s t : State} (h : exec (.fmstat .al) s = .next t) : t.cpsr = s.fpscr.flags := by
  cases h; rfl

/-- No condition holds exactly for `less` and `greater` (R162). -/
theorem no_condition_less_or_greater (c : Cond) :
    ¬∀ r : Relation, conditionPassed c (relationFlags r) = true ↔ r = .less ∨ r = .greater := by
  intro h
  have e := h .equal
  have l := h .less
  have g := h .greater
  have u := h .unordered
  clear h
  revert e l g u
  cases c <;> decide

/-- No condition holds exactly for `equal` and `unordered` (R162). -/
theorem no_condition_equal_or_unordered (c : Cond) :
    ¬∀ r : Relation, conditionPassed c (relationFlags r) = true ↔ r = .equal ∨ r = .unordered := by
  intro h
  have e := h .equal
  have l := h .less
  have g := h .greater
  have u := h .unordered
  clear h
  revert e l g u
  cases c <;> decide

/-- Settles O45: the flags of a relation reach the CPSR, and the table of R161 is read off for each relation. -/
theorem predicateTesting : Obligations.PredicateTesting := by
  refine ⟨fun i s t u hi hc h h' => ?_, fun r => ?_, fun c =>
    ⟨no_condition_less_or_greater c, no_condition_equal_or_unordered c⟩⟩
  · obtain ⟨hs, r, hr⟩ := exec_compare hi hc h
    exact ⟨hs, r, hr, (exec_fmstat h').trans hr⟩
  · cases r <;> decide

end Sys2Proof.Machine
end

section
/-! PROOFS. The refusals by operand values and by bit patterns (30_encoding.md R93 to R95). -/

namespace Sys2Proof.Machine

/-! ### Operands of loads and stores, in the order of 45_load_store.md R218 -/

section Transfer

variable {f : Fmt} {first k : Nat} {rn : RReg} {s : State}

theorem requireTransfer_base (h : rn = 15) : requireTransfer f first k rn s = .error (.refused (.unallocatedEncoding .baseR15)) :=
  if_pos h

theorem requireTransfer_none (hb : rn ≠ 15) (hk : k = 0) :
    requireTransfer f first k rn s = .error (.refused (.unallocatedEncoding .noRegister)) :=
  (if_neg hb).trans (if_pos hk)

theorem requireTransfer_pastEnd (hf : first < regCount f) (h : regCount f < first + k) :
    requireTransfer f first k rn s =
      .error (.refused (if rn = 15 then .unallocatedEncoding .baseR15 else .unpredictable .registerListPastEnd)) := by
  by_cases hb : rn = 15
  · rw [requireTransfer_base hb, if_pos hb]
  · rw [if_neg hb]
    exact (if_neg hb).trans ((if_neg (by omega)).trans (if_pos h))

/-- Operands that R218 refuses are what a load or store is refused for. -/
theorem exec_of_requireTransfer_error {i : Instr} {T : Transfer} {r : Refusal} (hi : i.transfer = some T)
    (hc : conditionPassed i.cond s.cpsr = true) (hd : T.format = .dbl → s.cfg.hasDouble = true)
    (h : T.first < regCount T.format → requireTransfer T.format T.first T.k T.rn s = .error (.refused r)) :
    exec i s = .refused r := by
  obtain ⟨d, first, ⟨_, stops⟩ | ⟨_, stops⟩⟩ := exec_of_transfer hi hc hd
  · exact stops _ (load_of_transfer_error (first ▸ h (first ▸ regIndex_lt _ d)))
  · exact stops _ (store_of_transfer_error (first ▸ h (first ▸ regIndex_lt _ d)))

/-- The same for FLDMX and FSTMX. -/
theorem exec_of_requireUnknown_error {i : Instr} {T : Transfer} {r : Refusal} (hi : i.unknownTransfer = some T)
    (hc : conditionPassed i.cond s.cpsr = true)
    (h : T.first < 16 → requireTransfer .dbl T.first T.k T.rn s = .error (.refused r)) : exec i s = .refused r := by
  obtain ⟨d, first, count, ⟨_, stops⟩ | ⟨_, stops⟩⟩ := exec_of_unknownTransfer hi hc
  · exact stops _ (loadUnknown_of_transfer_error (by rw [first, count]; exact h (first ▸ d.isLt)))
  · exact stops _ (storeUnknown_of_transfer_error (by rw [first, count]; exact h (first ▸ d.isLt)))

end Transfer

/-! ### ARM registers of transfers (46_single_transfer.md R251, 47_two_reg_transfer.md R276) -/

section Arm

variable {c : Cond} {s : State}

theorem exec_fmxr_r15 (h : Ready c false s) {reg : SysReg} (hu : s.cfg.userMode = false ∨ reg ≠ .fpsid ∧ reg ≠ .fpexc) :
    exec (.fmxr c reg 15) s = .refused (.unpredictable .fromArmR15) := by
  have privilege : requirePrivilege (.fmxr c reg 15) reg s = .ok () :=
    requirePrivilege_eq_ok.2 fun hm => hu.resolve_left (by rw [hm]; decide)
  refine (instruction_ready h).trans ?_
  rw [systemFromArm, privilege]
  rfl

theorem exec_fmrx_r15 (h : Ready c false s) {reg : SysReg} (hu : s.cfg.userMode = false ∨ reg ≠ .fpsid ∧ reg ≠ .fpexc)
    (hr : reg ≠ .fpscr) : exec (.fmrx c 15 reg) s = .refused (.unpredictable .toArmR15) := by
  have privilege : requirePrivilege (.fmrx c 15 reg) reg s = .ok () :=
    requirePrivilege_eq_ok.2 fun hm => hu.resolve_left (by rw [hm]; decide)
  refine (instruction_ready h).trans ?_
  rw [armFromSystem, privilege, ok_bind, if_neg fun h => hr h.2]
  rfl

theorem requireNoR15_r15 {rd rn : RReg} (h : rd = 15 ∨ rn = 15) :
    requireNoR15 rd rn = .error (.refused (.unpredictable .twoRegR15)) := by
  unfold requireNoR15 requireNotR15
  by_cases hn : rn = 15
  · rw [if_pos hn, error_bind]
  · rw [if_neg hn, ok_bind, if_pos (h.resolve_right hn)]

theorem requireDistinct_same {rd rn : RReg} (h : rn = rd) :
    requireDistinct rd rn = .error (.refused (.unallocatedEncoding .sameArmRegister)) := if_pos h

theorem exec_singles_r15 (h : Ready c false s) {m : SReg} {rd rn : RReg} (hr : rd = 15 ∨ rn = 15) :
    exec (.fmsrr c m rd rn) s = .refused (.unpredictable .twoRegR15) ∧
      exec (.fmrrs c rd rn m) s = .refused (.unpredictable .twoRegR15) := by
  constructor
  · refine (instruction_ready h).trans ?_
    rw [singlesFromArm, requireNoR15_r15 hr]; rfl
  · refine (instruction_ready h).trans ?_
    rw [armFromSingles, requireNoR15_r15 hr]; rfl

theorem exec_double_r15 (h : Ready c true s) {m : DReg} {rd rn : RReg} (hr : rd = 15 ∨ rn = 15) :
    exec (.fmdrr c m rd rn) s = .refused (.unpredictable .twoRegR15) ∧
      exec (.fmrrd c rd rn m) s = .refused (.unpredictable .twoRegR15) := by
  constructor
  · refine (instruction_ready h).trans ?_
    rw [doubleFromArm, requireNoR15_r15 hr]; rfl
  · refine (instruction_ready h).trans ?_
    rw [armFromDouble, requireNoR15_r15 hr]; rfl

theorem nextSingle_of_ne {m : SReg} (h : m ≠ 31) : ∃ m', nextSingle m = .ok m' := by
  have hm : m.val + 1 < 32 := by
    have : m.val ≠ 31 := fun e => h (Fin.ext e)
    omega
  exact ⟨_, dif_pos hm⟩

theorem exec_singles_pastEnd (h : Ready c false s) {rd rn : RReg} (hd : rd ≠ 15) (hn : rn ≠ 15) :
    exec (.fmsrr c 31 rd rn) s = .refused (.unallocatedEncoding .pairPastEnd) ∧
      exec (.fmrrs c rd rn 31) s = .refused (.unallocatedEncoding .pairPastEnd) := by
  have regs : requireNoR15 rd rn = .ok () := requireNoR15_eq_ok.2 ⟨hn, hd⟩
  constructor
  · refine (instruction_ready h).trans ?_
    rw [singlesFromArm, regs]; rfl
  · refine (instruction_ready h).trans ?_
    rw [armFromSingles, regs]; rfl

theorem exec_fmrrs_same (h : Ready c false s) {rd rn : RReg} (hd : rd ≠ 15) (hn : rn ≠ 15) (he : rn = rd) {m : SReg}
    (hm : m ≠ 31) : exec (.fmrrs c rd rn m) s = .refused (.unallocatedEncoding .sameArmRegister) := by
  have regs : requireNoR15 rd rn = .ok () := requireNoR15_eq_ok.2 ⟨hn, hd⟩
  obtain ⟨m', next⟩ := nextSingle_of_ne hm
  refine (instruction_ready h).trans ?_
  rw [armFromSingles, regs, ok_bind, next, ok_bind, requireDistinct_same he]
  rfl

theorem exec_fmrrd_same (h : Ready c true s) {rd rn : RReg} (hd : rd ≠ 15) (hn : rn ≠ 15) (he : rn = rd) (m : DReg) :
    exec (.fmrrd c rd rn m) s = .refused (.unallocatedEncoding .sameArmRegister) := by
  have regs : requireNoR15 rd rn = .ok () := requireNoR15_eq_ok.2 ⟨hn, hd⟩
  refine (instruction_ready h).trans ?_
  rw [armFromDouble, regs, ok_bind, requireDistinct_same he]
  rfl

end Arm

/-! ### Words of the `XFER1` format with an SBZ bit that is not 0 (30_encoding.md R94) -/

section Sbz

variable {w : Word} {c : Cond} {s : State}

theorem privilegedWord_eq_false
    (h : s.cfg.userMode = true → w.extractLsb' 21 3 = 0b111 → extOf w ≠ 0 ∧ extOf w ≠ 16) : privilegedWord w s = false := by
  have names : ∀ (a : BitVec 4) (b : BitVec 1), (a ++ b).toNat ≠ 0 → (a ++ b).toNat ≠ 16 →
      (sysRegOf a b == some .fpsid || sysRegOf a b == some .fpexc) = false := by decide
  cases hm : s.cfg.userMode with
  | false => rw [privilegedWord, hm]; rfl
  | true =>
    by_cases ho : w.extractLsb' 21 3 = 0b111
    · obtain ⟨h0, h16⟩ := h hm ho
      rw [privilegedWord, names (xfer1Fields w).Fn (xfer1Fields w).N h0 h16, Bool.and_false]
    · rw [privilegedWord, show ((xfer1Fields w).opcode == 7) = false from beq_false_of_ne ho, Bool.and_false, Bool.false_and]

/-- The reason that a refusal of R91 names. -/
def refusalReason : DecodeError → UnpredictableReason
  | .fromArmR15 => .fromArmR15
  | .toArmR15 => .toArmR15
  | _ => .sbz

theorem noInstruction_refusal (hc : condOf (w.extractLsb' 28 4) = some c) (h : Ready c (isCp11 w) s)
    (hp : privilegedWord w s = false) :
    noInstruction (xfer1Fields w).refusal w s = .refused (.unpredictable (refusalReason (xfer1Fields w).refusal)) := by
  have passed : ¬(!conditionPassed c s.cpsr) = true := by rw [h.1]; decide
  have present : ¬absentWord w s = true := by rw [absentWord_of_ready h]; decide
  have refuse (r : UnpredictableReason) : refuseTransferWord r w s = .refused (.unpredictable r) := if_neg (by rw [hp]; decide)
  obtain e | e | e := (xfer1Fields w).refusal_cases <;> rw [e] <;> unfold noInstruction <;> rw [hc] <;>
    exact (if_neg passed).trans ((if_neg present).trans (refuse _))

/-- Which refusal it is, on the bits of the word. -/
theorem refusalReason_eq (hp : w.extractLsb' 8 4 = 10 ∨ w.extractLsb' 8 4 = 11) (hu : undefinedXfer1 w = false) :
    refusalReason (xfer1Fields w).refusal =
      if w.extractLsb' 12 4 = 15 ∧ ¬(w.extractLsb' 21 3 = 0b111 ∧ w.getLsbD 20 = true ∧ extOf w = 2) then
        if w.getLsbD 20 then .toArmR15 else .fromArmR15
      else .sbz := by
  have fmstat (hr : (xfer1Fields w).Rd = 15) :
      (xfer1Fields w).IsFmstat ↔ w.extractLsb' 21 3 = 0b111 ∧ w.getLsbD 20 = true ∧ extOf w = 2 := by
    rw [← extractLsb'_one_ne_zero]
    constructor
    · rintro ⟨_, ho, hL, hx, _⟩
      exact ⟨eq_ofNat ho, hL, hx⟩
    · rintro ⟨ho, hL, hx⟩
      refine ⟨hp.resolve_right fun h11 => ?_, congrArg BitVec.toNat ho, hL, hx, hr⟩
      have undefined := (undefinedXfer1_dbl (isCp11_of_cp11 h11)).2
        (.inl (by rw [show (xfer1Fields w).opcode = 0b111 from ho]; decide))
      rw [hu] at undefined
      cases undefined
  have named : ((xfer1Fields w).Rd = 15 ∧ ¬(xfer1Fields w).IsFmstat) ↔
      (w.extractLsb' 12 4 = 15 ∧ ¬(w.extractLsb' 21 3 = 0b111 ∧ w.getLsbD 20 = true ∧ extOf w = 2)) :=
    and_congr_right fun hr => not_congr (fmstat hr)
  unfold Xfer1Fields.refusal
  split
  next h =>
    rw [if_pos (named.1 h)]
    cases hL : w.getLsbD 20 with
    | false => rw [if_pos (show (xfer1Fields w).L = 0 from extractLsb'_one_eq_zero.2 hL)]; rfl
    | true => rw [if_neg (show ¬(xfer1Fields w).L = 0 from extractLsb'_one_ne_zero.2 hL)]; rfl
  next h => rw [if_neg (mt named.2 h)]; rfl

theorem step_sbz (hf : Fetched w s) (hw : VfpWord w) (hc : condOf (w.extractLsb' 28 4) = some c) (h : Ready c (isCp11 w) s)
    (h24 : w.extractLsb' 24 4 = 0b1110) (h4 : w.getLsbD 4 = true) (hu : undefinedWord w = false)
    (hp : privilegedWord w s = false) (hz : w.extractLsb' 5 2 ≠ 0 ∨ w.extractLsb' 0 4 ≠ 0) :
    step s = .refused (.unpredictable
      (if w.extractLsb' 12 4 = 15 ∧ ¬(w.extractLsb' 21 3 = 0b111 ∧ w.getLsbD 20 = true ∧ extOf w = 2) then
        if w.getLsbD 20 then .toArmR15 else .fromArmR15
      else .sbz)) := by
  rw [undefinedWord_transfer h24 h4] at hu
  have decoded : decode w = .error (xfer1Fields w).refusal := by
    rw [decode_transfer hc hw.2.1 h24 h4, decodeXfer1_eq_error hw.2.1, hu]
    exact ⟨not_and_or.2 hz, rfl⟩
  rw [step_of_decode_error hf decoded, noInstruction_refusal hc h hp, refusalReason_eq hw.2.1 hu]

end Sbz

/-- Settles O53: the checks of each template that come first, and the order of R91 for a word. -/
theorem unpredictableRefused : Obligations.UnpredictableRefused := by
  refine ⟨fun i T s hi hc hd h => ?_, fun i T s hi hc h => ?_, fun c s h => ⟨fun n => ?_, fun n => ?_, fun reg hu => ?_,
    fun reg hu hr => ?_, fun m rd rn hr => ?_⟩, fun c s h => ⟨fun n => ⟨?_, ?_, ?_, ?_⟩, fun m rd rn hr => ?_⟩,
    fun w c s hf hw hc h h24 h4 hu hm hz => ?_⟩
  · exact exec_of_requireTransfer_error hi hc hd fun first => requireTransfer_pastEnd first h
  · exact exec_of_requireUnknown_error hi hc fun first => requireTransfer_pastEnd (f := .dbl) first h
  · exact instruction_ready h
  · exact instruction_ready h
  · exact exec_fmxr_r15 h hu
  · exact exec_fmrx_r15 h hu hr
  · exact exec_singles_r15 h hr
  · exact instruction_ready h
  · exact instruction_ready h
  · exact instruction_ready h
  · exact instruction_ready h
  · exact exec_double_r15 h hr
  · exact step_sbz hf hw hc h h24 h4 hu (privilegedWord_eq_false hm) hz

/-! ### Bit patterns that are neither allocated nor UNDEFINED (30_encoding.md R95) -/

section Patterns

variable {w : Word} {c : Cond} {s : State}

theorem step_twoRegPattern (hf : Fetched w s) (hw : VfpWord w) (hc : condOf (w.extractLsb' 28 4) = some c)
    (h : Ready c (isCp11 w) s) (h25 : w.extractLsb' 25 3 = 0b110) (hk : puwOf w = 0) (ht : twoRegPattern w = false) :
    step s = .refused (.unallocatedEncoding .twoRegPattern) := by
  have decoded : decode w = .error .unallocatedTwoReg := by
    rw [decode_memory hc hw.2.1 h25, decodeLs_eq_error hw.2.1]
    exact .inr ⟨hk, ht, rfl⟩
  rw [step_of_decode_error hf decoded, noInstruction_twoReg hc h]

/-- FCMPZ or FCMPEZ with another operand than 0 (R80). -/
theorem decodeDp_compareZero (hk : extOf w = 10 ∨ extOf w = 11) (hq : pqrsOf w = 15)
    (h : (w.extractLsb' 8 4 = 10 ∧ (w.extractLsb' 0 4 ≠ 0 ∨ bitM w = true)) ∨
      (w.extractLsb' 8 4 = 11 ∧ bitD w = false ∧ bitM w = false ∧ w.extractLsb' 0 4 ≠ 0)) :
    decodeDp c (dpFields w) = .error .unallocatedCompareZero := by
  have hq : (dpFields w).pqrs = 15 := eq_ofNat (pqrsOf_eq w ▸ hq)
  have hx : (dpFields w).ext.toNat = extOf w := rfl
  obtain ⟨hp, ho⟩ | ⟨hp, hD, hM, ho⟩ := h
  · have refused {mk : SReg → Instr} : (dpFields w).sz mk = .error .unallocatedCompareZero :=
      sz_eq_error.2 ⟨not_and_or.2 (ho.imp_right extra_M.2), rfl⟩
    rw [decodeDp_ext_sgl hp hq, decodeExtSgl, hx]
    obtain hk | hk := hk <;> rw [hk] <;> exact refused
  · have refused {mk : DReg → Instr} : (dpFields w).dz mk = .error .unallocatedCompareZero :=
      dz_eq_error.2 (.inr ⟨⟨extractLsb'_one_eq_zero.2 hD, extractLsb'_one_eq_zero.2 hM⟩, ho, rfl⟩)
    rw [decodeDp_ext_dbl hp hq, decodeExtDbl, hx]
    obtain hk | hk := hk <;> rw [hk] <;> exact refused

end Patterns

/-- Settles O54: the patterns of a word, and the checks of each template that follow those of O53. -/
theorem unallocatedRefused : Obligations.UnallocatedRefused := by
  refine ⟨fun w c s hf hw hc h => ⟨fun h25 hk ht => ?_, fun h24 h4 hq hk hz => ?_⟩,
    fun i T s hi hc hd => ⟨fun hb => ?_, fun hb hk => ?_⟩, fun i T s hi hc => ⟨fun hb => ?_, fun hb hk => ?_⟩,
    fun c rd rn s h hd hn => ⟨?_, ?_, fun he m hm => ?_⟩, fun c rd rn s h hd hn he m => ?_⟩
  · exact step_twoRegPattern hf hw hc h h25 hk ht
  · have decoded : decode w = .error .unallocatedCompareZero := by
      rw [decode_data hc hw.2.1 h24 h4]
      refine decodeDp_compareZero hk hq (hz.imp (fun ⟨hp, ho⟩ => ⟨?_, ho⟩) fun ⟨hp, ho⟩ => ⟨beq_iff_eq.1 hp, ho⟩)
      exact hw.2.1.resolve_right (ne_of_beq_false hp)
    rw [step_of_decode_error hf decoded, noInstruction_compareZero hc h]
  · exact exec_of_requireTransfer_error hi hc hd fun _ => requireTransfer_base hb
  · exact exec_of_requireTransfer_error hi hc hd fun _ => requireTransfer_none hb hk
  · exact exec_of_requireUnknown_error hi hc fun _ => requireTransfer_base hb
  · exact exec_of_requireUnknown_error hi hc fun _ => requireTransfer_none hb hk
  · exact (exec_singles_pastEnd h hd hn).1
  · exact (exec_singles_pastEnd h hd hn).2
  · exact exec_fmrrs_same h hd hn he hm
  · exact exec_fmrrd_same h hd hn he m

end Sys2Proof.Machine
end

section
/-! PROOFS. Short vectors: `LEN` is looked at by the vector-capable instructions, and by no other (40_basic_arith.md R113). -/

namespace Sys2Proof.Machine

/-! ### The vector-capable instructions -/

theorem exec_eq_scalarOnly {i : Instr} (h : i.cls = .basic ∨ i.cls = .multiplyAccumulate ∨ i.cls = .copy) :
    ∃ body, ∀ s, exec i s = instruction i.cond i i.needsDouble (scalarOnly body) s := by
  cases i with
  | fmacs | fmacd | fnmacs | fnmacd | fmscs | fmscd | fnmscs | fnmscd => exact ⟨_, fun _ => rfl⟩
  | fmuls | fmuld | fnmuls | fnmuld | fadds | faddd | fsubs | fsubd | fdivs | fdivd | fsqrts | fsqrtd => exact ⟨_, fun _ => rfl⟩
  | fcpys | fcpyd | fabss | fabsd | fnegs | fnegd => exact ⟨_, fun _ => rfl⟩
  | _ => simp [Instr.cls] at h

theorem exec_shortVector {i : Instr} {s : State} (hi : i.cls = .basic ∨ i.cls = .multiplyAccumulate ∨ i.cls = .copy)
    (h : Ready i.cond i.needsDouble s) (hl : s.fpscr.len ≠ 0) : exec i s = .refused .shortVectorNotModelled := by
  obtain ⟨body, hx⟩ := exec_eq_scalarOnly hi
  rw [hx, instruction_ready h, scalarOnly, if_neg hl]
  rfl

/-! ### Computations that are not refused for `LEN` -/

/-- The computation does not stop with the refusal of R113. -/
structure LenFree {α : Type} (x : Except Stop α) : Prop where
  ne_shortVector : x ≠ .error (.refused .shortVectorNotModelled)

theorem lenFree_ok {α : Type} (a : α) : LenFree (.ok a) := ⟨nofun⟩

theorem lenFree_bind {α β : Type} {x : Except Stop α} {f : α → Except Stop β} (hx : LenFree x) (hf : ∀ a, LenFree (f a)) :
    LenFree (x >>= f) := by
  cases x with
  | ok a => exact hf a
  | error e => exact ⟨fun h => hx.ne_shortVector (congrArg _ (Except.error.inj h))⟩

theorem lenFree_ite {α : Type} {p : Prop} [Decidable p] {x y : Except Stop α} (hx : LenFree x) (hy : LenFree y) :
    LenFree (if p then x else y) := by
  split
  · exact hx
  · exact hy

/-! ### Registers -/

theorem lenFree_requireWhole (n : DReg) (s : State) : LenFree (requireWhole n s) := lenFree_ite ⟨nofun⟩ ⟨nofun⟩

theorem lenFree_requireTag (other : Tag) (j : SReg) (s : State) : LenFree (requireTag other j s) :=
  lenFree_ite ⟨nofun⟩ (lenFree_ite ⟨nofun⟩ ⟨nofun⟩)

theorem lenFree_readReg (f : Fmt) (r : VReg f) (s : State) : LenFree (readReg f r s) := by
  refine lenFree_bind (lenFree_requireWhole _ s) fun _ => lenFree_bind ?_ fun _ => lenFree_ok _
  cases f with
  | sgl => exact lenFree_requireTag ..
  | dbl => exact lenFree_bind (lenFree_requireTag ..) fun _ => lenFree_requireTag ..

theorem lenFree_readRegs (f : Fmt) (i k : Nat) (s : State) : LenFree (readRegs f i k s) := by
  induction k generalizing i with
  | zero => exact lenFree_ok _
  | succ k ih => exact lenFree_bind (lenFree_readReg ..) fun _ => lenFree_bind (ih _) fun _ => lenFree_ok _

theorem lenFree_requireWholes (f : Fmt) (i k : Nat) (s : State) : LenFree (requireWholes f i k s) := by
  induction k generalizing i with
  | zero => exact lenFree_ok _
  | succ k ih => exact lenFree_bind (lenFree_requireWhole ..) fun _ => ih _

theorem lenFree_requireNotR15 (reason : UnpredictableReason) (r : RReg) : LenFree (requireNotR15 reason r) :=
  lenFree_ite ⟨nofun⟩ ⟨nofun⟩

theorem lenFree_requireNoR15 (rd rn : RReg) : LenFree (requireNoR15 rd rn) :=
  lenFree_bind (lenFree_requireNotR15 ..) fun _ => lenFree_requireNotR15 ..

/-! ### Data-processing -/

theorem lenFree_signal (e : ExcSet) (s : State) : LenFree (signal e s) := by
  unfold signal; split <;> exact ⟨nofun⟩

theorem lenFree_deliver (f : Fmt) (d : VReg f) (r : FpResult f) (s : State) : LenFree (deliver f d r s) :=
  lenFree_bind (lenFree_requireWhole ..) fun _ => lenFree_bind (lenFree_signal ..) fun _ => lenFree_ok _

theorem lenFree_unary {g f : Fmt} {op : FpEnv → Pat g → FpResult f} {d : VReg f} {m : VReg g} (s : State) :
    LenFree (unary g f op d m s) :=
  lenFree_bind (lenFree_readReg ..) fun _ => lenFree_deliver ..

theorem lenFree_deliverFlags (r : CompareResult) (s : State) : LenFree (deliverFlags r s) :=
  lenFree_bind (lenFree_signal ..) fun _ => lenFree_ok _

theorem lenFree_compareRegs {f : Fmt} {e : Bool} {d m : VReg f} (s : State) : LenFree (compareRegs f e d m s) :=
  lenFree_bind (lenFree_readReg ..) fun _ => lenFree_bind (lenFree_readReg ..) fun _ => lenFree_deliverFlags ..

theorem lenFree_compareWithZero {f : Fmt} {e : Bool} {d : VReg f} (s : State) : LenFree (compareWithZero f e d s) :=
  lenFree_bind (lenFree_readReg ..) fun _ => lenFree_deliverFlags ..

/-! ### Loads and stores -/

theorem lenFree_requireTransfer (f : Fmt) (first k : Nat) (rn : RReg) (s : State) : LenFree (requireTransfer f first k rn s) :=
  lenFree_ite ⟨nofun⟩ (lenFree_ite ⟨nofun⟩ (lenFree_ite ⟨nofun⟩ (lenFree_ite ⟨nofun⟩ ⟨nofun⟩)))

theorem lenFree_requireAdmitted (write : Bool) (a : Word) (n : Nat) (s : State) : LenFree (requireAdmitted write a n s) := by
  unfold requireAdmitted; split <;> exact ⟨nofun⟩

theorem lenFree_requireOutsideText (a : Word) (n : Nat) (s : State) : LenFree (requireOutsideText a n s) := by
  unfold requireOutsideText; split <;> exact ⟨nofun⟩

section LoadStore

variable {mode : AddrMode} {rn : RReg} {offset : BitVec 8}

theorem lenFree_load {f : Fmt} {d : VReg f} {k : Nat} (s : State) : LenFree (load f mode d k rn offset s) :=
  lenFree_bind (lenFree_requireTransfer ..) fun _ => lenFree_bind (lenFree_requireWholes ..) fun _ =>
    lenFree_bind (lenFree_requireAdmitted ..) fun _ => lenFree_ok _

theorem lenFree_store {f : Fmt} {d : VReg f} {k : Nat} (s : State) : LenFree (store f mode d k rn offset s) :=
  lenFree_bind (lenFree_requireTransfer ..) fun _ => lenFree_bind (lenFree_readRegs ..) fun _ =>
    lenFree_bind (lenFree_requireAdmitted ..) fun _ => lenFree_bind (lenFree_requireOutsideText ..) fun _ => lenFree_ok _

theorem lenFree_storeDoubles {d : DReg} (s : State) : LenFree (storeDoubles mode d rn offset s) :=
  lenFree_bind (lenFree_store _) fun _ => lenFree_ok _

theorem lenFree_readUnknowns (i k : Nat) (s : State) : LenFree (readUnknowns i k s) := by
  induction k generalizing i with
  | zero => exact lenFree_ok _
  | succ k ih =>
    exact lenFree_bind (lenFree_ite ⟨nofun⟩ (lenFree_ite ⟨nofun⟩ ⟨nofun⟩)) fun _ => lenFree_bind (ih _) fun _ => lenFree_ok _

theorem lenFree_storeUnknown {d : DReg} (s : State) : LenFree (storeUnknown mode d rn offset s) :=
  lenFree_bind (lenFree_requireTransfer ..) fun _ => lenFree_bind (lenFree_readUnknowns ..) fun _ =>
    lenFree_bind (lenFree_requireAdmitted ..) fun _ => lenFree_bind (lenFree_requireOutsideText ..) fun _ => lenFree_ok _

theorem lenFree_unknownSource (s : State) (d : DReg) (k : Nat) (start : Word) : LenFree (unknownSource s d k start) := by
  unfold unknownSource; split <;> exact ⟨nofun⟩

theorem lenFree_loadUnknown {d : DReg} (s : State) : LenFree (loadUnknown mode d rn offset s) :=
  lenFree_bind (lenFree_requireTransfer ..) fun _ => lenFree_bind (lenFree_requireAdmitted ..) fun _ =>
    lenFree_bind (lenFree_unknownSource ..) fun _ => lenFree_ok _

end LoadStore

/-! ### Transfers -/

theorem lenFree_singleFromArm {n : SReg} {rd : RReg} (s : State) : LenFree (singleFromArm n rd s) :=
  lenFree_bind (lenFree_requireNotR15 ..) fun _ => lenFree_bind (lenFree_requireWhole ..) fun _ => lenFree_ok _

theorem lenFree_armFromSingle {rd : RReg} {n : SReg} (s : State) : LenFree (armFromSingle rd n s) :=
  lenFree_bind (lenFree_requireNotR15 ..) fun _ => lenFree_bind (lenFree_readReg ..) fun _ => lenFree_ok _

theorem lenFree_halfFromArm {low : Bool} {n : DReg} {rd : RReg} (s : State) : LenFree (halfFromArm low n rd s) := by
  refine lenFree_bind (lenFree_requireNotR15 ..) fun _ => ?_
  unfold writeHalf; split <;> exact ⟨nofun⟩

theorem lenFree_armFromHalf {half : DWord → Word} {rd : RReg} {n : DReg} (s : State) : LenFree (armFromHalf half rd n s) :=
  lenFree_bind (lenFree_requireNotR15 ..) fun _ => lenFree_bind (lenFree_readReg ..) fun _ => lenFree_ok _

theorem lenFree_requirePrivilege (i : Instr) (reg : SysReg) (s : State) : LenFree (requirePrivilege i reg s) :=
  lenFree_ite ⟨nofun⟩ ⟨nofun⟩

theorem lenFree_systemFromArm {i : Instr} {reg : SysReg} {rd : RReg} (s : State) : LenFree (systemFromArm i reg rd s) := by
  refine lenFree_bind (lenFree_requirePrivilege ..) fun _ => lenFree_bind (lenFree_requireNotR15 ..) fun _ => ?_
  cases reg with
  | fpsid => exact ⟨nofun⟩
  | fpscr | fpexc | subArch => exact lenFree_ite ⟨nofun⟩ ⟨nofun⟩

theorem lenFree_armFromSystem {i : Instr} {rd : RReg} {reg : SysReg} (s : State) : LenFree (armFromSystem i rd reg s) := by
  refine lenFree_bind (lenFree_requirePrivilege ..) fun _ => lenFree_ite ⟨nofun⟩ (lenFree_bind (lenFree_requireNotR15 ..) fun _ => ?_)
  cases reg with
  | fpsid | fpscr | fpexc => exact ⟨nofun⟩
  | subArch => exact lenFree_ite ⟨nofun⟩ ⟨nofun⟩

theorem lenFree_nextSingle (m : SReg) : LenFree (nextSingle m) := by
  unfold nextSingle; split <;> exact ⟨nofun⟩

theorem lenFree_requireDistinct (rd rn : RReg) : LenFree (requireDistinct rd rn) := lenFree_ite ⟨nofun⟩ ⟨nofun⟩

theorem lenFree_singlesFromArm {m : SReg} {rd rn : RReg} (s : State) : LenFree (singlesFromArm m rd rn s) :=
  lenFree_bind (lenFree_requireNoR15 ..) fun _ => lenFree_bind (lenFree_nextSingle _) fun _ =>
    lenFree_bind (lenFree_requireWhole ..) fun _ => lenFree_bind (lenFree_requireWhole ..) fun _ => lenFree_ok _

theorem lenFree_armFromSingles {rd rn : RReg} {m : SReg} (s : State) : LenFree (armFromSingles rd rn m s) :=
  lenFree_bind (lenFree_requireNoR15 ..) fun _ => lenFree_bind (lenFree_nextSingle _) fun _ =>
    lenFree_bind (lenFree_requireDistinct ..) fun _ => lenFree_bind (lenFree_readReg ..) fun _ =>
      lenFree_bind (lenFree_readReg ..) fun _ => lenFree_ok _

theorem lenFree_doubleFromArm {m : DReg} {rd rn : RReg} (s : State) : LenFree (doubleFromArm m rd rn s) :=
  lenFree_bind (lenFree_requireNoR15 ..) fun _ => lenFree_bind (lenFree_requireWhole ..) fun _ => lenFree_ok _

theorem lenFree_armFromDouble {rd rn : RReg} {m : DReg} (s : State) : LenFree (armFromDouble rd rn m s) :=
  lenFree_bind (lenFree_requireNoR15 ..) fun _ => lenFree_bind (lenFree_requireDistinct ..) fun _ =>
    lenFree_bind (lenFree_readReg ..) fun _ => lenFree_ok _

/-! ### Every other instruction -/

theorem instruction_ne_shortVector {c : Cond} {i : Instr} {double : Bool} {body : State → Except Stop State}
    (hb : ∀ s, LenFree (body s)) (s : State) : instruction c i double body s ≠ .refused .shortVectorNotModelled := by
  unfold instruction
  split
  · split
    · exact nofun
    · intro h
      refine (hb s).ne_shortVector ?_
      cases hx : body s with
      | ok t => rw [hx] at h; cases h
      | error e =>
        rw [hx] at h
        cases e with
        | fault f => cases h
        | refused r => cases h; rfl
  · exact nofun

theorem exec_ne_shortVector {i : Instr} (hb : i.cls ≠ .basic) (hm : i.cls ≠ .multiplyAccumulate) (hc : i.cls ≠ .copy)
    (s : State) : exec i s ≠ .refused .shortVectorNotModelled := by
  cases i with
  | fcmps | fcmpd | fcmpes | fcmped => exact instruction_ne_shortVector lenFree_compareRegs s
  | fcmpzs | fcmpzd | fcmpezs | fcmpezd => exact instruction_ne_shortVector lenFree_compareWithZero s
  | fcvtds | fcvtsd | fuitos | fuitod | fsitos | fsitod => exact instruction_ne_shortVector lenFree_unary s
  | ftouis | ftouid | ftouizs | ftouizd | ftosis | ftosid | ftosizs | ftosizd => exact instruction_ne_shortVector lenFree_unary s
  | flds | fldd | fldmsUnindexed | fldmsIncrement | fldmsDecrement | fldmdUnindexed | fldmdIncrement | fldmdDecrement =>
    exact instruction_ne_shortVector lenFree_load s
  | fsts | fstd | fstmsUnindexed | fstmsIncrement | fstmsDecrement => exact instruction_ne_shortVector lenFree_store s
  | fstmdUnindexed | fstmdIncrement | fstmdDecrement => exact instruction_ne_shortVector lenFree_storeDoubles s
  | fldmxUnindexed | fldmxIncrement | fldmxDecrement => exact instruction_ne_shortVector lenFree_loadUnknown s
  | fstmxUnindexed | fstmxIncrement | fstmxDecrement => exact instruction_ne_shortVector lenFree_storeUnknown s
  | fmstat => exact instruction_ne_shortVector (fun _ => lenFree_ok _) s
  | fmsr => exact instruction_ne_shortVector lenFree_singleFromArm s
  | fmrs => exact instruction_ne_shortVector lenFree_armFromSingle s
  | fmxr => exact instruction_ne_shortVector lenFree_systemFromArm s
  | fmrx => exact instruction_ne_shortVector lenFree_armFromSystem s
  | fmdlr | fmdhr => exact instruction_ne_shortVector lenFree_halfFromArm s
  | fmrdl | fmrdh => exact instruction_ne_shortVector lenFree_armFromHalf s
  | fmsrr => exact instruction_ne_shortVector lenFree_singlesFromArm s
  | fmrrs => exact instruction_ne_shortVector lenFree_armFromSingles s
  | fmdrr => exact instruction_ne_shortVector lenFree_doubleFromArm s
  | fmrrd => exact instruction_ne_shortVector lenFree_armFromDouble s
  | fmacs | fmacd | fnmacs | fnmacd | fmscs | fmscd | fnmscs | fnmscd => exact absurd rfl hm
  | fcpys | fcpyd | fabss | fabsd | fnegs | fnegd => exact absurd rfl hc
  | _ => exact absurd rfl hb

/-- Settles O56: `LEN` is what `scalarOnly` checks, and no check of another template has its refusal. -/
theorem shortVectors : Obligations.ShortVectors := fun _ s =>
  ⟨fun hi h hl => exec_shortVector hi h hl, fun hb hm hc => exec_ne_shortVector hb hm hc s⟩

end Sys2Proof.Machine
end

section
/-! PROOFS. Example words (30_encoding.md), basic arithmetic (40_basic_arith.md R121 to R134), and the sequences that a
multiply-accumulate and an FNMUL stand for (41_mac.md R140 to R148, 40_basic_arith.md R128). -/

namespace Sys2Proof.Machine

/-- Settles O3: the decoder is evaluated on each word. -/
theorem exampleWords : Obligations.ExampleWords := by
  unfold Obligations.ExampleWords; decide

/-! ### Data-processing bodies that answer -/

theorem scalarOnly_of_scalar {body : State → Except Stop State} {s : State} (hl : Scalar s) : scalarOnly body s = body s :=
  if_pos hl

theorem binary_of_readable {f : Fmt} {op : FpEnv → Pat f → Pat f → FpResult f} {d n m : VReg f} {s : State}
    (hn : Readable f n s) (hm : Readable f m s) :
    binary f op d n m s = deliver f d (op (fpEnv s) (s.rawReg f n) (s.rawReg f m)) s := by
  simp only [binary, readReg_of_readable hn, readReg_of_readable hm, ok_bind]

theorem unary_of_readable {g f : Fmt} {op : FpEnv → Pat g → FpResult f} {d : VReg f} {m : VReg g} {s : State}
    (hm : Readable g m s) : unary g f op d m s = deliver f d (op (fpEnv s) (s.rawReg g m)) s := by
  simp only [unary, readReg_of_readable hm, ok_bind]

theorem multiplyAccumulate_of_readable {f : Fmt} {np na : Bool} {d n m : VReg f} {s : State}
    (hd : Readable f d s) (hn : Readable f n s) (hm : Readable f m s) :
    multiplyAccumulate f np na d n m s =
      deliver f d (fpMac f (fpEnv s) np na (s.rawReg f d) (s.rawReg f n) (s.rawReg f m)) s := by
  simp only [multiplyAccumulate, readReg_of_readable hd, readReg_of_readable hn, readReg_of_readable hm, ok_bind]

@[simp] theorem excSet_union_none (e : ExcSet) : e.union .none = e := by simp [ExcSet.union, ExcSet.none]

theorem excSet_union_assoc (a b c : ExcSet) : (a.union b).union c = a.union (b.union c) := by
  simp [ExcSet.union, Bool.or_assoc]

section Template

variable {f : Fmt} {c : Cond} {i : Instr} {double : Bool} {s : State}

theorem binary_delivered {op : FpEnv → Pat f → Pat f → FpResult f} {d n m : VReg f} (h : Ready c double s) (ht : Untrapped s)
    (hl : Scalar s) (hn : Readable f n s) (hm : Readable f m s) (hd : Writable f d s) :
    ∃ t, instruction c i double (scalarOnly (binary f op d n m)) s = .next t ∧
      Delivered f d (op (fpEnv s) (s.rawReg f n) (s.rawReg f m)) s t :=
  instruction_delivered h ht hd ((scalarOnly_of_scalar hl).trans (binary_of_readable hn hm))

theorem unary_delivered {op : FpEnv → Pat f → FpResult f} {d m : VReg f} (h : Ready c double s) (ht : Untrapped s)
    (hl : Scalar s) (hm : Readable f m s) (hd : Writable f d s) :
    ∃ t, instruction c i double (scalarOnly (unary f f op d m)) s = .next t ∧
      Delivered f d (op (fpEnv s) (s.rawReg f m)) s t :=
  instruction_delivered h ht hd ((scalarOnly_of_scalar hl).trans (unary_of_readable hm))

theorem multiplyAccumulate_delivered {np na : Bool} {d n m : VReg f} (h : Ready c double s) (ht : Untrapped s)
    (hl : Scalar s) (hd : Readable f d s) (hn : Readable f n s) (hm : Readable f m s) :
    ∃ t, instruction c i double (scalarOnly (multiplyAccumulate f np na d n m)) s = .next t ∧
      Delivered f d (fpMac f (fpEnv s) np na (s.rawReg f d) (s.rawReg f n) (s.rawReg f m)) s t :=
  instruction_delivered h ht hd.writable ((scalarOnly_of_scalar hl).trans (multiplyAccumulate_of_readable hd hn hm))

/-- A copy delivers the adjusted bits and signals nothing, whatever is trapped (44_copy.md R200). -/
theorem copyReg_delivered {adjust : Pat f → Pat f} {d m : VReg f} (h : Ready c double s) (hl : Scalar s)
    (hm : Readable f m s) (hd : Writable f d s) :
    ∃ t, instruction c i double (scalarOnly (copyReg f adjust d m)) s = .next t ∧
      Delivered f d ⟨adjust (s.rawReg f m), .none⟩ s t := by
  have body : scalarOnly (copyReg f adjust d m) s = .ok (s.setReg f d (adjust (s.rawReg f m))) :=
    scalarOnly_eq_ok.2 ⟨hl, copyReg_eq_ok.2 ⟨hm, hd, rfl⟩⟩
  have accrue_none : s.accrue .none = s := by simp [State.accrue]
  refine ⟨_, instruction_next_of_ok h body, ?_⟩
  have := delivered_advance (d := d) (r := ⟨adjust (s.rawReg f m), .none⟩) (s := s)
  rwa [accrue_none] at this

end Template

/-- Settles O20: each instruction is its template, whose body delivers the result of the operation. -/
theorem basicArithmetic : Obligations.BasicArithmetic := by
  refine ⟨fun c d n m s h ht hl hn hm hd => ?_, fun c d m s h ht hl hm hd => ?_,
    fun c d n m s h ht hl hn hm hd => ?_, fun c d m s h ht hl hm hd => ?_⟩
  · have result := fun op i => binary_delivered (f := .sgl) (double := false) (op := op) (i := i) h ht hl hn hm hd
    exact ⟨result (fpAdd .sgl) (.fadds c d n m), result (fpSub .sgl) (.fsubs c d n m), result (fpMul .sgl) (.fmuls c d n m),
      result (fun env a b => (fpMul .sgl env a b).neg) (.fnmuls c d n m), result (fpDiv .sgl) (.fdivs c d n m)⟩
  · exact unary_delivered (f := .sgl) h ht hl hm hd
  · have result := fun op i => binary_delivered (f := .dbl) (double := true) (op := op) (i := i) h ht hl hn hm hd
    exact ⟨result (fpAdd .dbl) (.faddd c d n m), result (fpSub .dbl) (.fsubd c d n m), result (fpMul .dbl) (.fmuld c d n m),
      result (fun env a b => (fpMul .dbl env a b).neg) (.fnmuld c d n m), result (fpDiv .dbl) (.fdivd c d n m)⟩
  · exact unary_delivered (f := .dbl) h ht hl hm hd

/-! ### What a delivered result leaves for the next instruction -/

/-- The tag that a read in the format must not find (10_state.md R23). -/
def otherTag : Fmt → Tag
  | .sgl => .dbl
  | .dbl => .sgl

theorem readable_iff {f : Fmt} {r : VReg f} {s : State} :
    Readable f r s ↔ Writable f r s ∧ ∀ j, j ∈ wordsOfReg f r → WordReadable (otherTag f) j s := by
  cases f <;> simp [Readable, Writable, pairOf, wordsOfReg, otherTag]

theorem wordReadable_congr {other : Tag} {j : SReg} {s t : State} (htag : t.tagAt j = s.tagAt j) (hcfg : t.cfg = s.cfg) :
    WordReadable other j t ↔ WordReadable other j s := by
  unfold WordReadable; rw [htag, hcfg]

section Delivered

variable {f : Fmt} {d x : VReg f} {r : FpResult f} {s t : State}

theorem Delivered.writable (h : Delivered f d r s t) : Writable f x t ↔ Writable f x s := by
  unfold Writable; rw [pairAt_congr h.rest.pair]

theorem Delivered.readable_self (h : Delivered f d r s t) (hd : Writable f d s) : Readable f d t := by
  refine readable_iff.2 ⟨h.writable.2 hd, fun j hj => ?_⟩
  unfold WordReadable
  rw [h.tags j hj]
  cases f <;> simp [tagOf, otherTag]

theorem not_mem_wordsOfReg_of_ne (h : x ≠ d) {j : SReg} (hj : j ∈ wordsOfReg f x) : j ∉ wordsOfReg f d :=
  fun hj' => h (wordsOfReg_disjoint hj hj')

theorem Delivered.readable_other (h : Delivered f d r s t) (hx : x ≠ d) (hr : Readable f x s) : Readable f x t := by
  obtain ⟨hw, hr⟩ := readable_iff.1 hr
  exact readable_iff.2 ⟨h.writable.2 hw, fun j hj =>
    (wordReadable_congr (h.rest.frame.tag j (not_mem_wordsOfReg_of_ne hx hj)) h.rest.frame.cfg).2 (hr j hj)⟩

theorem Delivered.rawReg_other (h : Delivered f d r s t) (hx : x ≠ d) : t.rawReg f x = s.rawReg f x :=
  rawReg_congr fun j hj => h.rest.frame.vreg j (not_mem_wordsOfReg_of_ne hx hj)

end Delivered

/-- The state `u` comes after `s`: the exceptions `e` were signalled since, and `d` and `x` may be read and hold `vd` and
`vx`. -/
structure Holding (f : Fmt) (d x : VReg f) (vd vx : Pat f) (e : ExcSet) (s u : State) : Prop where
  value : u.rawReg f d = vd
  value' : u.rawReg f x = vx
  readable : Readable f d u
  readable' : Readable f x u
  signalled : Signalled e s u
  cpsr : u.cpsr = s.cpsr
  cfg : u.cfg = s.cfg

section Holding

variable {f : Fmt} {d x : VReg f} {vd vx : Pat f} {e : ExcSet} {s u v : State} {r : FpResult f} {c : Cond} {double : Bool}

theorem Holding.symm (h : Holding f d x vd vx e s u) : Holding f x d vx vd e s u :=
  ⟨h.value', h.value, h.readable', h.readable, h.signalled, h.cpsr, h.cfg⟩

theorem Holding.ready (h : Holding f d x vd vx e s u) (hr : Ready c double s) : Ready c double u := by
  unfold Ready; rw [h.cpsr, h.cfg]; exact hr

theorem Holding.untrapped (h : Holding f d x vd vx e s u) (ht : Untrapped s) : Untrapped u := by
  unfold Untrapped; rw [h.signalled]; exact ht

theorem Holding.scalar (h : Holding f d x vd vx e s u) (hl : Scalar s) : Scalar u := by
  unfold Scalar; rw [h.signalled]; exact hl

theorem Holding.fpEnv_eq (h : Holding f d x vd vx e s u) : fpEnv u = fpEnv s := by
  unfold fpEnv; rw [h.signalled, h.cfg]

/-- The first result: `x` holds it, and `d` what it held. -/
theorem Delivered.holding (h : Delivered f x r s u) (hx : d ≠ x) (hd : Readable f d s) (hw : Writable f x s) :
    Holding f d x (s.rawReg f d) r.val r.exc s u :=
  ⟨h.rawReg_other hx, h.value, h.readable_other hx hd, h.readable_self hw, h.signalled, h.rest.cpsr, h.rest.frame.cfg⟩

theorem Holding.signalled_after (h : Holding f d x vd vx e s u) (h' : Delivered f d r u v) :
    Signalled (e.union r.exc) s v := by
  unfold Signalled
  rw [h'.signalled, h.signalled]
  simp [excSet_union_assoc]

/-- A further result in `d`. -/
theorem Holding.delivered (h : Holding f d x vd vx e s u) (hx : x ≠ d) (h' : Delivered f d r u v) :
    Holding f d x r.val vx (e.union r.exc) s v where
  value := h'.value
  value' := (h'.rawReg_other hx).trans h.value'
  readable := h'.readable_self h.readable.writable
  readable' := h'.readable_other hx h.readable'
  signalled := h.signalled_after h'
  cpsr := h'.rest.cpsr.trans h.cpsr
  cfg := h'.rest.frame.cfg.trans h.cfg

end Holding

/-! ### The sequences -/

theorem runs_append {is js : List Instr} {s u v : State} (h : runs is s u) (h' : runs js u v) : runs (is ++ js) s v := by
  induction is generalizing s with
  | nil => cases h; exact h'
  | cons i is ih =>
    obtain ⟨w, hw, h⟩ := h
    exact ⟨w, hw, ih h⟩

theorem runs_single {i : Instr} {s u : State} (h : exec i s = .next u) : runs [i] s u := ⟨u, h, rfl⟩

/-- The value with its sign inverted if `b` says so. -/
def negIf (f : Fmt) (b : Bool) (a : Pat f) : Pat f := if b then fpNeg f a else a

theorem fpMac_eq (f : Fmt) (env : FpEnv) (np na : Bool) (acc a b : Pat f) :
    fpMac f env np na acc a b =
      ⟨(fpAdd f env (negIf f na acc) (negIf f np (fpMul f env a b).val)).val,
        (fpMul f env a b).exc.union (fpAdd f env (negIf f na acc) (negIf f np (fpMul f env a b).val)).exc⟩ := rfl

section Sequence

variable {f : Fmt} {c : Cond} {double : Bool} {d n m x : VReg f} {s : State}

/-- An FNEG of `d` in place, or nothing. -/
theorem runs_negIf {vd vx : Pat f} {e : ExcSet} {u : State} {neg : Instr} (b : Bool)
    (hneg : ∀ s, exec neg s = instruction c neg double (scalarOnly (copyReg f (fpNeg f) d d)) s) (hx : x ≠ d)
    (h : Ready c double s) (hl : Scalar s) (hu : Holding f d x vd vx e s u) :
    ∃ v, runs (bif b then [neg] else []) u v ∧ Holding f d x (negIf f b vd) vx e s v := by
  cases b with
  | false => exact ⟨u, rfl, hu⟩
  | true =>
    obtain ⟨v, hv, h'⟩ := copyReg_delivered (i := neg) (adjust := fpNeg f) (hu.ready h) (hu.scalar hl) hu.readable
      hu.readable.writable
    refine ⟨v, runs_single ((hneg u).trans hv), ?_⟩
    have := hu.delivered hx h'
    rwa [hu.value, excSet_union_none] at this

/-- A multiply-accumulate leaves in its destination and in the FPSCR what FMUL into another register `x`, FNEG of `x` or of
the accumulator where it says so, and FADD leave (41_mac.md R140). -/
theorem multiplyAccumulate_sequence {np na : Bool} {mac mul negX negD add : Instr}
    (hmac : ∀ s, exec mac s = instruction c mac double (scalarOnly (multiplyAccumulate f np na d n m)) s)
    (hmul : ∀ s, exec mul s = instruction c mul double (scalarOnly (binary f (fpMul f) x n m)) s)
    (hnegX : ∀ s, exec negX s = instruction c negX double (scalarOnly (copyReg f (fpNeg f) x x)) s)
    (hnegD : ∀ s, exec negD s = instruction c negD double (scalarOnly (copyReg f (fpNeg f) d d)) s)
    (hadd : ∀ s, exec add s = instruction c add double (scalarOnly (binary f (fpAdd f) d d x)) s)
    (hx : x ≠ d) (h : Ready c double s) (ht : Untrapped s) (hl : Scalar s) (hd : Readable f d s) (hn : Readable f n s)
    (hm : Readable f m s) (hw : Writable f x s) :
    ∃ t u, exec mac s = .next t ∧
      runs ([mul] ++ ((bif np then [negX] else []) ++ ((bif na then [negD] else []) ++ [add]))) s u ∧
      t.rawReg f d = u.rawReg f d ∧ t.fpscr = u.fpscr := by
  obtain ⟨t, htnext, htd⟩ := multiplyAccumulate_delivered (i := mac) (np := np) (na := na) h ht hl hd hn hm
  obtain ⟨u₁, hu₁, hprod⟩ := binary_delivered (i := mul) (op := fpMul f) h ht hl hn hm hw
  have hold₁ := hprod.holding hx.symm hd hw
  obtain ⟨u₂, hu₂, hold₂⟩ := runs_negIf np hnegX hx.symm h hl hold₁.symm
  obtain ⟨u₃, hu₃, hold₃⟩ := runs_negIf na hnegD hx h hl hold₂.symm
  obtain ⟨u, hu, hsum⟩ := binary_delivered (i := add) (op := fpAdd f) (hold₃.ready h) (hold₃.untrapped ht)
    (hold₃.scalar hl) hold₃.readable hold₃.readable' hold₃.readable.writable
  have hfpscr := hold₃.signalled_after hsum
  rw [hold₃.value, hold₃.value', hold₃.fpEnv_eq] at hsum hfpscr
  refine ⟨t, u, (hmac s).trans htnext, ?_, ?_, htd.signalled.trans hfpscr.symm⟩
  · exact runs_append (runs_single ((hmul s).trans hu₁))
      (runs_append hu₂ (runs_append hu₃ (runs_single ((hadd u₃).trans hu))))
  · rw [htd.value, hsum.value, fpMac_eq]

/-- FNMUL leaves what FMUL and FNEG in place leave (40_basic_arith.md R128). -/
theorem negatedMultiply_sequence {nmul mul neg : Instr}
    (hnmul : ∀ s, exec nmul s =
      instruction c nmul double (scalarOnly (binary f (fun env a b => (fpMul f env a b).neg) d n m)) s)
    (hmul : ∀ s, exec mul s = instruction c mul double (scalarOnly (binary f (fpMul f) d n m)) s)
    (hneg : ∀ s, exec neg s = instruction c neg double (scalarOnly (copyReg f (fpNeg f) d d)) s)
    (h : Ready c double s) (ht : Untrapped s) (hl : Scalar s) (hn : Readable f n s) (hm : Readable f m s)
    (hd : Writable f d s) :
    ∃ t u, exec nmul s = .next t ∧ runs [mul, neg] s u ∧ t.rawReg f d = u.rawReg f d ∧ t.fpscr = u.fpscr := by
  obtain ⟨t, htnext, htd⟩ :=
    binary_delivered (i := nmul) (op := fun env a b => (fpMul f env a b).neg) h ht hl hn hm hd
  obtain ⟨u₁, hu₁, hprod⟩ := binary_delivered (i := mul) (op := fpMul f) h ht hl hn hm hd
  have hread := hprod.readable_self hd
  have hold : Holding f d d _ _ _ s u₁ :=
    ⟨hprod.value, hprod.value, hread, hread, hprod.signalled, hprod.rest.cpsr, hprod.rest.frame.cfg⟩
  obtain ⟨u, hu, hneg'⟩ := copyReg_delivered (i := neg) (adjust := fpNeg f) (hold.ready h) (hold.scalar hl) hread
    hread.writable
  have hfpscr := hold.signalled_after hneg'
  rw [excSet_union_none] at hfpscr
  refine ⟨t, u, (hnmul s).trans htnext, ⟨u₁, (hmul s).trans hu₁, runs_single ((hneg u₁).trans hu)⟩, ?_,
    htd.signalled.trans hfpscr.symm⟩
  rw [htd.value, hneg'.value, hprod.value]; rfl

end Sequence

/-- Settles O48: each sequence is that of the template for its two signs. -/
theorem multiplyAccumulateSequences : Obligations.MultiplyAccumulateSequences := by
  constructor
  · intro c d n m x s hx h ht hl hd hn hm hw
    have mac := fun np na mac hmac =>
      multiplyAccumulate_sequence (f := .sgl) (double := false) (np := np) (na := na) (mac := mac) (mul := .fmuls c x n m)
        (negX := .fnegs c x x) (negD := .fnegs c d d) (add := .fadds c d d x) hmac (fun _ => rfl) (fun _ => rfl)
        (fun _ => rfl) (fun _ => rfl) hx h ht hl hd hn hm hw
    exact ⟨mac false false (.fmacs c d n m) fun _ => rfl, mac true false (.fnmacs c d n m) fun _ => rfl,
      mac false true (.fmscs c d n m) fun _ => rfl, mac true true (.fnmscs c d n m) fun _ => rfl,
      negatedMultiply_sequence (f := .sgl) (double := false) (fun _ => rfl) (fun _ => rfl) (fun _ => rfl) h ht hl hn hm
        hd.writable⟩
  · intro c d n m x s hx h ht hl hd hn hm hw
    have mac := fun np na mac hmac =>
      multiplyAccumulate_sequence (f := .dbl) (double := true) (np := np) (na := na) (mac := mac) (mul := .fmuld c x n m)
        (negX := .fnegd c x x) (negD := .fnegd c d d) (add := .faddd c d d x) hmac (fun _ => rfl) (fun _ => rfl)
        (fun _ => rfl) (fun _ => rfl) hx h ht hl hd hn hm hw
    exact ⟨mac false false (.fmacd c d n m) fun _ => rfl, mac true false (.fnmacd c d n m) fun _ => rfl,
      mac false true (.fmscd c d n m) fun _ => rfl, mac true true (.fnmscd c d n m) fun _ => rfl,
      negatedMultiply_sequence (f := .dbl) (double := true) (fun _ => rfl) (fun _ => rfl) (fun _ => rfl) h ht hl hn hm
        hd.writable⟩

end Sys2Proof.Machine
end

section
/-! PROOFS. Bit patterns: the fields of a pattern that an operation builds, the classes of patterns, and the value of a numeric
one (40_basic_arith.md R110, R118, R120). -/

namespace Sys2Proof.Machine

/-! ### Fields -/

theorem fmt_expOnes_pos (f : Fmt) : 0 < f.expOnes := by cases f <;> decide

theorem expOf_lt (f : Fmt) (a : Pat f) : expOf f a < 2 ^ f.expBits := Nat.mod_lt _ (by positivity)

theorem fracOf_lt (f : Fmt) (a : Pat f) : fracOf f a < 2 ^ f.fracBits := Nat.mod_lt _ (by positivity)

/-- The magnitude bits of a pattern are those below its sign bit. -/
theorem toNat_patOf {f : Fmt} {sign : Bool} {n : Nat} (h : n < 2 ^ (f.width - 1)) :
    (patOf f sign n).toNat = (if sign then 2 ^ (f.width - 1) else 0) + n := by
  rw [patOf, BitVec.toNat_ofNat]
  have double : 2 ^ f.width = 2 * 2 ^ (f.width - 1) := by cases f <;> rfl
  refine Nat.mod_eq_of_lt ?_
  split <;> omega

theorem signOf_patOf {f : Fmt} {sign : Bool} {n : Nat} (h : n < 2 ^ (f.width - 1)) : signOf f (patOf f sign n) = sign := by
  rw [signOf, BitVec.msb_eq_decide, toNat_patOf h]
  cases sign <;> simp [h]

theorem expOf_patOf {f : Fmt} {sign : Bool} {n : Nat} (h : n < 2 ^ (f.width - 1)) :
    expOf f (patOf f sign n) = n / 2 ^ f.fracBits := by
  rw [expOf, toNat_patOf h]
  cases f <;> cases sign <;> simp [Fmt.fracBits, Fmt.expBits] at h ⊢ <;> omega

theorem fracOf_patOf {f : Fmt} {sign : Bool} {n : Nat} (h : n < 2 ^ (f.width - 1)) :
    fracOf f (patOf f sign n) = n % 2 ^ f.fracBits := by
  rw [fracOf, toNat_patOf h]
  cases f <;> cases sign <;> simp [Fmt.fracBits] at h ⊢ <;> omega

/-- The pattern with a given exponent field and fraction. -/
theorem patOf_fields {f : Fmt} {sign : Bool} {E t : Nat} (hE : E ≤ f.expOnes) (ht : t < 2 ^ f.fracBits) :
    signOf f (patOf f sign (E * 2 ^ f.fracBits + t)) = sign ∧ expOf f (patOf f sign (E * 2 ^ f.fracBits + t)) = E ∧
      fracOf f (patOf f sign (E * 2 ^ f.fracBits + t)) = t := by
  have hm : E * 2 ^ f.fracBits + t < 2 ^ (f.width - 1) := by
    cases f <;> simp only [Fmt.expOnes, Fmt.expBits, Fmt.width, Fmt.fracBits] at hE ht ⊢ <;> omega
  have hpos : 0 < 2 ^ f.fracBits := by positivity
  rw [signOf_patOf hm, expOf_patOf hm, fracOf_patOf hm, Nat.add_comm, Nat.add_mul_div_right _ _ hpos, Nat.div_eq_of_lt ht,
    Nat.add_mul_mod_self_right, Nat.mod_eq_of_lt ht]
  exact ⟨rfl, Nat.zero_add _, rfl⟩

theorem expOf_or (f : Fmt) (a b : Pat f) : expOf f (a ||| b) = expOf f a ||| expOf f b := by
  simp only [expOf, BitVec.toNat_or, Nat.or_div_two_pow, Nat.or_mod_two_pow]

theorem fracOf_or (f : Fmt) (a b : Pat f) : fracOf f (a ||| b) = fracOf f a ||| fracOf f b := by
  simp only [fracOf, BitVec.toNat_or, Nat.or_mod_two_pow]

theorem expOf_xor (f : Fmt) (a b : Pat f) : expOf f (a ^^^ b) = expOf f a ^^^ expOf f b := by
  simp only [expOf, BitVec.toNat_xor, Nat.xor_div_two_pow, Nat.xor_mod_two_pow]

theorem fracOf_xor (f : Fmt) (a b : Pat f) : fracOf f (a ^^^ b) = fracOf f a ^^^ fracOf f b := by
  simp only [fracOf, BitVec.toNat_xor, Nat.xor_mod_two_pow]

/-! ### The sign inverted (R120) -/

@[simp] theorem expOf_fpNeg (f : Fmt) (a : Pat f) : expOf f (fpNeg f a) = expOf f a := by
  have mask : expOf f (BitVec.ofNat f.width (2 ^ (f.width - 1))) = 0 := by cases f <;> decide
  rw [fpNeg, expOf_xor, mask, Nat.xor_zero]

@[simp] theorem fracOf_fpNeg (f : Fmt) (a : Pat f) : fracOf f (fpNeg f a) = fracOf f a := by
  have mask : fracOf f (BitVec.ofNat f.width (2 ^ (f.width - 1))) = 0 := by cases f <;> decide
  rw [fpNeg, fracOf_xor, mask, Nat.xor_zero]

@[simp] theorem signOf_fpNeg (f : Fmt) (a : Pat f) : signOf f (fpNeg f a) = !signOf f a := by
  have mask : (BitVec.ofNat f.width (2 ^ (f.width - 1))).msb = true := by cases f <;> decide
  rw [signOf, fpNeg, BitVec.msb_xor, mask, Bool.xor_true]; rfl

@[simp] theorem isZero_fpNeg (f : Fmt) (a : Pat f) : isZero f (fpNeg f a) = isZero f a := by simp [isZero]
@[simp] theorem isDenorm_fpNeg (f : Fmt) (a : Pat f) : isDenorm f (fpNeg f a) = isDenorm f a := by simp [isDenorm]
@[simp] theorem isInf_fpNeg (f : Fmt) (a : Pat f) : isInf f (fpNeg f a) = isInf f a := by simp [isInf]
@[simp] theorem isNan_fpNeg (f : Fmt) (a : Pat f) : isNan f (fpNeg f a) = isNan f a := by simp [isNan]
@[simp] theorem flushes_fpNeg (f : Fmt) (env : FpEnv) (a : Pat f) : flushes f env (fpNeg f a) = flushes f env a := by
  simp [flushes]

theorem numeric_fpNeg {f : Fmt} {a : Pat f} : Numeric f (fpNeg f a) ↔ Numeric f a := by simp [Numeric]

theorem fpNeg_zeroPat (f : Fmt) (sign : Bool) : fpNeg f (zeroPat f sign) = zeroPat f (!sign) := by
  cases f <;> cases sign <;> decide

/-! ### Classes (R110) -/

theorem isZero_iff {f : Fmt} {a : Pat f} : isZero f a = true ↔ expOf f a = 0 ∧ fracOf f a = 0 := by simp [isZero]

theorem isInf_iff {f : Fmt} {a : Pat f} : isInf f a = true ↔ expOf f a = f.expOnes ∧ fracOf f a = 0 := by simp [isInf]

theorem isNan_iff {f : Fmt} {a : Pat f} : isNan f a = true ↔ expOf f a = f.expOnes ∧ fracOf f a ≠ 0 := by simp [isNan]

theorem isQnan_iff {f : Fmt} {a : Pat f} :
    isQnan f a = true ↔ expOf f a = f.expOnes ∧ 2 ^ (f.fracBits - 1) ≤ fracOf f a := by
  have : 0 < 2 ^ (f.fracBits - 1) := by positivity
  simp only [isQnan, isSnan, Bool.and_eq_true, Bool.not_eq_true', isNan_iff, Bool.and_eq_false_iff, decide_eq_false_iff_not,
    Nat.not_lt, ← Bool.not_eq_true (isNan f a)]
  constructor
  · rintro ⟨⟨he, h0⟩, h | h⟩
    · exact absurd ⟨he, h0⟩ h
    · exact ⟨he, h⟩
  · rintro ⟨he, h⟩
    exact ⟨⟨he, by omega⟩, .inr h⟩

theorem isZero_zeroPat (f : Fmt) (sign : Bool) : isZero f (zeroPat f sign) = true := by cases f <;> cases sign <;> decide

theorem isQnan_defaultNan (f : Fmt) : isQnan f (defaultNan f) = true := by cases f <;> decide

section Classes

variable {f : Fmt} {a : Pat f}

theorem numeric_of_isZero (h : isZero f a = true) : Numeric f a := by
  rw [Numeric, (isZero_iff.1 h).1]; exact (fmt_expOnes_pos f).ne

theorem isInf_of_numeric (h : Numeric f a) : isInf f a = false := by
  rw [← Bool.not_eq_true, isInf_iff]; exact fun h' => h h'.1

theorem isNan_of_numeric (h : Numeric f a) : isNan f a = false := by
  rw [← Bool.not_eq_true, isNan_iff]; exact fun h' => h h'.1

theorem isZero_of_isInf (h : isInf f a = true) : isZero f a = false := by
  rw [← Bool.not_eq_true]; exact fun h' => numeric_of_isZero h' (isInf_iff.1 h).1

end Classes

/-! ### Values of numeric patterns -/

theorem fmt_emin_eq (f : Fmt) : f.emin = 1 - f.emax := by cases f <;> rfl

section Values

variable {f : Fmt} {a : Pat f}

theorem valueOf_eq_mant (f : Fmt) (a : Pat f) :
    valueOf f a = (if signOf f a then -1 else 1) * ((mantOf f a : ℚ) * 2 ^ scaleOf f a) := by
  unfold valueOf mantOf scaleOf
  by_cases h : expOf f a = 0 <;> simp [h]

theorem valueOf_eq_units (f : Fmt) (a : Pat f) : valueOf f a = (unitsOf f a : ℚ) * 2 ^ (f.emin - f.fracBits) := by
  have units : (mantOf f a : ℚ) * 2 ^ scaleOf f a = (mantOf f a * 2 ^ (expOf f a - 1) : Nat) * 2 ^ (f.emin - f.fracBits) := by
    push_cast
    rw [mul_assoc, ← zpow_natCast, ← zpow_add₀ two_ne_zero]
    unfold scaleOf
    split
    · rename_i h; simp at h; simp [h]
    · rename_i h
      have : 0 < expOf f a := by simp at h; omega
      rw [fmt_emin_eq]
      congr 2; omega
  rw [valueOf_eq_mant, units, unitsOf]
  split <;> simp

theorem mantOf_eq_zero : mantOf f a = 0 ↔ isZero f a = true := by
  have : 0 < 2 ^ f.fracBits := by positivity
  rw [isZero_iff, mantOf]
  split <;> simp_all

theorem valueOf_eq_zero : valueOf f a = 0 ↔ isZero f a = true := by
  rw [valueOf_eq_mant, ← mantOf_eq_zero]
  split <;> simp [zpow_ne_zero]

theorem valueOf_fpNeg (f : Fmt) (a : Pat f) : valueOf f (fpNeg f a) = -valueOf f a := by
  have sign : (if !signOf f a then (-1 : ℚ) else 1) = -(if signOf f a then -1 else 1) := by cases signOf f a <;> simp
  rw [valueOf, valueOf, signOf_fpNeg, expOf_fpNeg, fracOf_fpNeg, sign, neg_mul]

theorem abs_valueOf (f : Fmt) (a : Pat f) : |valueOf f a| = (mantOf f a : ℚ) * 2 ^ scaleOf f a := by
  rw [valueOf_eq_mant]
  split <;> simp

/-- The sign bit of a numeric pattern that is no zero is the sign of its value. -/
theorem valueOf_neg_iff (h : isZero f a = false) : valueOf f a < 0 ↔ signOf f a = true := by
  have : (0 : ℚ) < (mantOf f a : ℚ) * 2 ^ scaleOf f a := by
    have : mantOf f a ≠ 0 := by simp [mantOf_eq_zero, h]
    positivity
  rw [valueOf_eq_mant]
  split <;> simp_all [le_of_lt]

end Values

end Sys2Proof.Machine
end

section
/-! PROOFS. Operations on operands that are not flushed, Flush-to-zero mode, the special operands and NaN operands
(40_basic_arith.md R114 to R119, 43_convert.md R171, R172). -/

namespace Sys2Proof.Machine

/-! ### No operand flushed -/

theorem fzIn_of_not_flushes {f : Fmt} {env : FpEnv} {a : Pat f} (h : flushes f env a = false) : fzIn f env a = a := by
  simp [fzIn, h]

/-- What an operation answers for an operand that is a NaN, and for operands that are none. -/
def nanOr (f : Fmt) (env : FpEnv) (op : NanOp) (a b : Pat f) (r : FpResult f) : FpResult f :=
  if isNan f a || isNan f b then processNans f env op a b else r

theorem nanOr_nan {f : Fmt} {env : FpEnv} {op : NanOp} {a b : Pat f} {r : FpResult f} (h : (isNan f a || isNan f b) = true) :
    nanOr f env op a b r = processNans f env op a b := if_pos h

theorem nanOr_value {f : Fmt} {env : FpEnv} {op : NanOp} {a b : Pat f} {r : FpResult f} (ha : isNan f a = false)
    (hb : isNan f b = false) : nanOr f env op a b r = r := by simp [nanOr, ha, hb]

section Unflushed

variable {f : Fmt} {env : FpEnv} {a b : Pat f}

theorem fpAdd_unflushed (ha : flushes f env a = false) (hb : flushes f env b = false) :
    fpAdd f env a b = nanOr f env .add a b (addValues f env a b) := by
  simp only [fpAdd, fzIn_of_not_flushes ha, fzIn_of_not_flushes hb, ha, hb, Bool.or_false, noteFlush_false, nanOr]

theorem fpSub_unflushed (ha : flushes f env a = false) (hb : flushes f env b = false) :
    fpSub f env a b = nanOr f env .sub a b (addValues f env a (fpNeg f b)) := by
  have hb' : flushes f env (fpNeg f b) = false := by rw [flushes_fpNeg, hb]
  simp only [fpSub, fzIn_of_not_flushes ha, fzIn_of_not_flushes hb, fzIn_of_not_flushes hb', ha, hb, Bool.or_false,
    noteFlush_false, nanOr]

theorem fpMul_unflushed (ha : flushes f env a = false) (hb : flushes f env b = false) :
    fpMul f env a b = nanOr f env .mul a b (mulValues f env a b) := by
  simp only [fpMul, fzIn_of_not_flushes ha, fzIn_of_not_flushes hb, ha, hb, Bool.or_false, noteFlush_false, nanOr]

theorem fpDiv_unflushed (ha : flushes f env a = false) (hb : flushes f env b = false) :
    fpDiv f env a b = nanOr f env .div a b (divValues f env a b) := by
  simp only [fpDiv, fzIn_of_not_flushes ha, fzIn_of_not_flushes hb, ha, hb, Bool.or_false, noteFlush_false, nanOr]

theorem fpSqrt_unflushed (ha : flushes f env a = false) : fpSqrt f env a = nanOr f env .sqrt a a (sqrtValue f env a) := by
  simp only [fpSqrt, fzIn_of_not_flushes ha, ha, noteFlush_false, nanOr, Bool.or_self]

end Unflushed

/-! ### An operand flushed (R114)

Each operation is the operation on the flushed operands, with what the flush signals noted beside it. -/

section Flushed

variable (f : Fmt) (env : FpEnv) (a b : Pat f)

theorem fpAdd_flush :
    fpAdd f env a b =
      noteFlush (flushes f env a || flushes f env b) env.cfg.fzInput (fpAdd f env (fzIn f env a) (fzIn f env b)) := by
  rw [fpAdd_unflushed (flushes_fzIn ..) (flushes_fzIn ..)]; rfl

theorem fpMul_flush :
    fpMul f env a b =
      noteFlush (flushes f env a || flushes f env b) env.cfg.fzInput (fpMul f env (fzIn f env a) (fzIn f env b)) := by
  rw [fpMul_unflushed (flushes_fzIn ..) (flushes_fzIn ..)]; rfl

theorem fpDiv_flush :
    fpDiv f env a b =
      noteFlush (flushes f env a || flushes f env b) env.cfg.fzInput (fpDiv f env (fzIn f env a) (fzIn f env b)) := by
  rw [fpDiv_unflushed (flushes_fzIn ..) (flushes_fzIn ..)]; rfl

theorem fpSqrt_flush : fpSqrt f env a = noteFlush (flushes f env a) env.cfg.fzInput (fpSqrt f env (fzIn f env a)) := by
  rw [fpSqrt_unflushed (flushes_fzIn ..), nanOr, Bool.or_self]; rfl

theorem fpToInt_flush (unsigned : Bool) (mode : RMode) :
    fpToInt f env unsigned mode a =
      noteFlush (flushes f env a) env.cfg.fzInputToInt (fpToInt f env unsigned mode (fzIn f env a)) := by
  simp only [fpToInt, flushes_fzIn, fzIn_fzIn, noteFlush_false]

theorem singleToDouble_flush (a : Word) :
    singleToDouble env a = noteFlush (flushes .sgl env a) env.cfg.fzInput (singleToDouble env (fzIn .sgl env a)) := by
  simp only [singleToDouble, flushes_fzIn, fzIn_fzIn, noteFlush_false]

theorem doubleToSingle_flush (a : DWord) :
    doubleToSingle env a = noteFlush (flushes .dbl env a) env.cfg.fzInput (doubleToSingle env (fzIn .dbl env a)) := by
  simp only [doubleToSingle, flushes_fzIn, fzIn_fzIn, noteFlush_false]

theorem compareValues_flush (e : Bool) :
    compareValues f env e a b =
      ⟨(compareValues f env e (fzIn f env a) (fzIn f env b)).relation,
        (noteFlush (f := f) (flushes f env a || flushes f env b) env.cfg.fzInput
          ⟨a, (compareValues f env e (fzIn f env a) (fzIn f env b)).exc⟩).exc⟩ := by
  simp only [compareValues, flushes_fzIn, fzIn_fzIn, noteFlush, CompareResult.mk.injEq, true_and]
  generalize (isSnan f (fzIn f env a) || isSnan f (fzIn f env b) || (e && (isNan f (fzIn f env a) || isNan f (fzIn f env b))))
    = invalid
  cases invalid <;> simp [ExcSet.when, ExcSet.union, ExcSet.invalid, ExcSet.none]

/-- A subtraction is that of the flushed first operand and the second one negated before it is flushed; the NaN rule sees the
flushed operand (R116). -/
theorem fpSub_flush :
    fpSub f env a b = noteFlush (flushes f env a || flushes f env b) env.cfg.fzInput
      (nanOr f env .sub (fzIn f env a) (fzIn f env b) (addValues f env (fzIn f env a) (fzIn f env (fpNeg f b)))) := by
  simp only [fpSub, nanOr, isNan_fzIn]

end Flushed

theorem fzIn_of_flushes {f : Fmt} {env : FpEnv} {a : Pat f} (h : flushes f env a = true) :
    fzIn f env a = zeroPat f (if env.cfg.fzSign = .keep then signOf f a else false) := by
  rw [fzIn, if_pos h, flushedZero_eq]

/-- With the sign kept, flushing a negated operand is negating the flushed one. -/
theorem fzIn_fpNeg {f : Fmt} {env : FpEnv} {b : Pat f} (h : flushes f env b = true → env.cfg.fzSign = .keep) :
    fzIn f env (fpNeg f b) = fpNeg f (fzIn f env b) := by
  cases hb : flushes f env b with
  | false => rw [fzIn_of_not_flushes hb, fzIn_of_not_flushes (by rw [flushes_fpNeg, hb])]
  | true =>
    rw [fzIn_of_flushes hb, fzIn_of_flushes (by rw [flushes_fpNeg, hb]), if_pos (h hb), if_pos (h hb), fpNeg_zeroPat,
      signOf_fpNeg]

theorem unitsOf_of_isZero {f : Fmt} {a : Pat f} (h : isZero f a = true) : unitsOf f a = 0 := by
  simp [unitsOf, mantOf_eq_zero.2 h]

/-- The sign of a zero does not matter to the exceptions of a sum. -/
theorem addValues_zero_exc {f : Fmt} {env : FpEnv} {a z z' : Pat f} (hz : isZero f z = true) (hz' : isZero f z' = true) :
    (addValues f env a z).exc = (addValues f env a z').exc := by
  have sum : ∀ z, isZero f z = true → (addValues f env a z).exc =
      if isInf f a then .none
      else if unitsOf f a ≠ 0 then
        (round f env (decide (unitsOf f a < 0)) ⟨(unitsOf f a).natAbs, f.emin - f.fracBits, false⟩).exc
      else .none := by
    intro z hz
    simp only [addValues, isInf_of_numeric (numeric_of_isZero hz), unitsOf_of_isZero hz, add_zero, Bool.and_false,
      Bool.false_and, Bool.false_eq_true, if_false]
    split
    · rfl
    · split
      · rfl
      · split <;> rfl
  rw [sum z hz, sum z' hz']

/-- What a subtraction signals does not depend on when its second operand is negated. -/
theorem fpSub_flushed_exc (f : Fmt) (env : FpEnv) (a b : Pat f) :
    (nanOr f env .sub (fzIn f env a) (fzIn f env b) (addValues f env (fzIn f env a) (fzIn f env (fpNeg f b)))).exc =
      (fpSub f env (fzIn f env a) (fzIn f env b)).exc := by
  rw [fpSub_unflushed (flushes_fzIn ..) (flushes_fzIn ..)]
  unfold nanOr
  split
  · rfl
  · cases hb : flushes f env b with
    | false => rw [fzIn_fpNeg (by simp [hb])]
    | true =>
      refine addValues_zero_exc ?_ ?_
      · rw [fzIn_of_flushes (by rw [flushes_fpNeg, hb]), isZero_zeroPat]
      · rw [isZero_fpNeg, fzIn_of_flushes hb, isZero_zeroPat]

theorem noteFlush_exc_of {f : Fmt} {flushed : Bool} {e : ExcSet} {r : FpResult f} (h : flushed = true) :
    (noteFlush flushed e r).exc = withFlush e r.exc := by
  rw [h, noteFlush_exc]

/-- Settles O43: each operation is the one on the flushed operands with the flush noted; for a subtraction, up to the sign of
a flushed second operand. -/
theorem flushToZero : Obligations.FlushToZero := by
  refine ⟨fun f env a b => ?_, fun env a h => ?_, fun env a h => ?_⟩
  · refine ⟨fun h => fzIn_of_not_flushes (by simp [flushes, h]), fun h => fzIn_of_not_flushes (by simp [flushes, h]),
      fun h h' => fzIn_of_flushes (by simp [flushes, h, h']), ?_, ?_, ?_, ?_, ?_, ?_, ?_, ?_, ?_, ?_⟩
    · rw [fpAdd_flush, noteFlush_val]
    · intro ha hb
      rw [fpSub_flush, noteFlush_val, nanOr_value (by rw [isNan_fzIn, ha]) (by rw [isNan_fzIn, hb]),
        fpAdd_unflushed (flushes_fzIn ..) (flushes_fzIn ..),
        nanOr_value (by rw [isNan_fzIn, ha]) (by rw [isNan_fzIn, isNan_fpNeg, hb])]
    · intro hk
      rw [fpSub_flush, noteFlush_val, fzIn_fpNeg fun _ => hk, fpSub_unflushed (flushes_fzIn ..) (flushes_fzIn ..)]
    · rw [fpMul_flush, noteFlush_val]
    · rw [fpDiv_flush, noteFlush_val]
    · rw [fpSqrt_flush, noteFlush_val]
    · intro e; rw [compareValues_flush]
    · intro unsigned mode; rw [fpToInt_flush, noteFlush_val]
    · intro h
      have h : (flushes f env a || flushes f env b) = true := by simpa using h
      refine ⟨?_, ?_, ?_, ?_, fun e => ?_⟩
      · rw [fpAdd_flush, noteFlush_exc_of h]
      · rw [fpSub_flush, noteFlush_exc_of h, fpSub_flushed_exc]
      · rw [fpMul_flush, noteFlush_exc_of h]
      · rw [fpDiv_flush, noteFlush_exc_of h]
      · rw [compareValues_flush]; exact noteFlush_exc_of h
    · intro h
      exact ⟨by rw [fpSqrt_flush, noteFlush_exc_of h], fun unsigned mode => by rw [fpToInt_flush, noteFlush_exc_of h]⟩
  · rw [singleToDouble_flush]; exact ⟨rfl, noteFlush_exc_of h⟩
  · rw [doubleToSingle_flush]; exact ⟨rfl, noteFlush_exc_of h⟩

end Sys2Proof.Machine
end

section
/-! PROOFS. NaN operands (40_basic_arith.md R118, 43_convert.md R171, R172), and infinities, zeros, invalid combinations and
division by zero (40_basic_arith.md R115 to R117). -/

namespace Sys2Proof.Machine

/-! ### NaNs that an operation makes -/

section Quiet

variable {f : Fmt} {a b : Pat f}

theorem expOf_quieten (f : Fmt) (a : Pat f) : expOf f (quieten f a) = expOf f a := by
  have mask : expOf f (BitVec.ofNat f.width (2 ^ (f.fracBits - 1))) = 0 := by cases f <;> decide
  rw [quieten, expOf_or, mask, Nat.or_zero]

theorem fracOf_quieten (f : Fmt) (a : Pat f) : fracOf f (quieten f a) = fracOf f a ||| 2 ^ (f.fracBits - 1) := by
  have mask : fracOf f (BitVec.ofNat f.width (2 ^ (f.fracBits - 1))) = 2 ^ (f.fracBits - 1) := by cases f <;> decide
  rw [quieten, fracOf_or, mask]

theorem signOf_quieten (f : Fmt) (a : Pat f) : signOf f (quieten f a) = signOf f a := by
  have mask : (BitVec.ofNat f.width (2 ^ (f.fracBits - 1))).msb = false := by cases f <;> decide
  rw [signOf, quieten, BitVec.msb_or, mask, Bool.or_false]; rfl

/-- A pattern with the exponent field of a NaN is a quiet NaN once its top fraction bit is set. -/
theorem isQnan_quieten (h : expOf f a = f.expOnes) : isQnan f (quieten f a) = true := by
  rw [isQnan_iff, expOf_quieten, fracOf_quieten]
  exact ⟨h, Nat.right_le_or⟩

theorem isQnan_asQuietNan (f : Fmt) (a : Pat f) : isQnan f (asQuietNan f a) = true := by
  have expMask : expOf f (BitVec.ofNat f.width (f.expOnes * 2 ^ f.fracBits + 2 ^ (f.fracBits - 1))) = f.expOnes := by
    cases f <;> decide
  have fracMask : fracOf f (BitVec.ofNat f.width (f.expOnes * 2 ^ f.fracBits + 2 ^ (f.fracBits - 1))) =
      2 ^ (f.fracBits - 1) := by cases f <;> decide
  rw [isQnan_iff, asQuietNan, expOf_or, fracOf_or, expMask, fracMask]
  refine ⟨le_antisymm ?_ Nat.right_le_or, Nat.right_le_or⟩
  have ones : f.expOnes < 2 ^ f.expBits := Nat.sub_lt (by positivity) one_pos
  exact Nat.le_sub_one_of_lt (Nat.or_lt_two_pow (expOf_lt f a) ones)

theorem isNan_of_isSnan (h : isSnan f a = true) : isNan f a = true := by
  rw [isSnan, Bool.and_eq_true] at h; exact h.1

theorem isSnan_of_isQnan (h : isQnan f a = true) : isSnan f a = false := by
  rw [isQnan, Bool.and_eq_true] at h; simpa using h.2

theorem isQnan_of_not_isSnan (hn : isNan f a = true) (hs : isSnan f a = false) : isQnan f a = true := by
  rw [isQnan, hn, hs]; rfl

theorem isQnan_recommendedNan {dn : Bool} (h : (isNan f a || isNan f b) = true) :
    isQnan f (recommendedNan f dn a b) = true := by
  unfold recommendedNan
  split
  · exact isQnan_defaultNan f
  · split
    · rename_i hs; exact isQnan_quieten (isNan_iff.1 (isNan_of_isSnan hs)).1
    · split
      · rename_i hs; exact isQnan_quieten (isNan_iff.1 (isNan_of_isSnan hs)).1
      · rename_i hsa hsb
        rw [Bool.not_eq_true] at hsa hsb
        split
        · rename_i ha; exact isQnan_of_not_isSnan ha hsa
        · rename_i ha; exact isQnan_of_not_isSnan (by simpa [ha] using h) hsb

theorem isQnan_freeNanResult (f : Fmt) (op : NanOp) (dn : Bool) (a b : Pat f) :
    isQnan f (freeNanResult f op dn a b) = true := by
  unfold freeNanResult
  split
  · rename_i h; rw [Bool.and_eq_true] at h; exact h.2
  · exact isQnan_asQuietNan f _

theorem isQnan_processNans {env : FpEnv} {op : NanOp} (h : (isNan f a || isNan f b) = true) :
    isQnan f (processNans f env op a b).val = true := by
  rw [processNans]
  cases env.cfg.nanSelect with
  | recommended => exact isQnan_recommendedNan h
  | free => exact isQnan_freeNanResult ..

theorem processNans_recommended {env : FpEnv} {op : NanOp} (h : env.cfg.nanSelect = .recommended) :
    (processNans f env op a b).val = recommendedNan f env.dn a b := by
  rw [processNans, h]

/-- A subtraction of a quiet NaN from no NaN answers that NaN (R118 item 4). -/
theorem processNans_sub {env : FpEnv} (ha : isNan f a = false) (hb : isQnan f b = true)
    (hdn : env.cfg.nanSelect = .recommended → env.dn = false) : (processNans f env .sub a b).val = b := by
  rw [processNans]
  cases hs : env.cfg.nanSelect with
  | recommended =>
    have hsa : isSnan f a = false := by rw [isSnan, ha]; rfl
    simp [recommendedNan, hdn hs, hsa, isSnan_of_isQnan hb, ha]
  | free => simp [freeNanResult, ha, hb]

end Quiet

/-! ### NaNs converted (R171, R172) -/

theorem singleToDouble_nan {env : FpEnv} {a : Word} (h : isNan .sgl a = true) :
    singleToDouble env a = ⟨nanToDbl env a, .when (isSnan .sgl a) .invalid⟩ := by
  have ha : flushes .sgl env a = false := by
    rw [← Bool.not_eq_true]; intro h'; rw [isNan_of_flushes h'] at h; cases h
  rw [singleToDouble, fzIn_of_not_flushes ha, ha, noteFlush_false, if_pos h]

theorem doubleToSingle_nan {env : FpEnv} {a : DWord} (h : isNan .dbl a = true) :
    doubleToSingle env a = ⟨nanToSgl env a, .when (isSnan .dbl a) .invalid⟩ := by
  have ha : flushes .dbl env a = false := by
    rw [← Bool.not_eq_true]; intro h'; rw [isNan_of_flushes h'] at h; cases h
  rw [doubleToSingle, fzIn_of_not_flushes ha, ha, noteFlush_false, if_pos h]

/-- The fields of a NaN with a given fraction, made quiet. -/
theorem quieten_patOf_fields (f : Fmt) (sign : Bool) {t : Nat} (ht : t < 2 ^ f.fracBits) :
    expOf f (quieten f (patOf f sign (f.expOnes * 2 ^ f.fracBits + t))) = f.expOnes ∧
      signOf f (quieten f (patOf f sign (f.expOnes * 2 ^ f.fracBits + t))) = sign ∧
      fracOf f (quieten f (patOf f sign (f.expOnes * 2 ^ f.fracBits + t))) = t ||| 2 ^ (f.fracBits - 1) := by
  obtain ⟨hsign, hexp, hfrac⟩ := patOf_fields (sign := sign) le_rfl ht
  exact ⟨by rw [expOf_quieten, hexp], by rw [signOf_quieten, hsign], by rw [fracOf_quieten, hfrac]⟩

theorem widenNan_fields (a : Word) :
    expOf .dbl (widenNan a) = Fmt.dbl.expOnes ∧ signOf .dbl (widenNan a) = signOf .sgl a ∧
      fracOf .dbl (widenNan a) = fracOf .sgl a * 2 ^ 29 ||| 2 ^ 51 := by
  have ht : fracOf .sgl a < 2 ^ 23 := fracOf_lt .sgl a
  exact quieten_patOf_fields .dbl _ (show fracOf .sgl a * 2 ^ 29 < 2 ^ 52 by omega)

theorem narrowNan_fields (a : DWord) :
    expOf .sgl (narrowNan a) = Fmt.sgl.expOnes ∧ signOf .sgl (narrowNan a) = signOf .dbl a ∧
      fracOf .sgl (narrowNan a) = fracOf .dbl a / 2 ^ 29 ||| 2 ^ 22 := by
  have ht : fracOf .dbl a < 2 ^ 52 := fracOf_lt .dbl a
  exact quieten_patOf_fields .sgl _ (show fracOf .dbl a / 2 ^ 29 < 2 ^ 23 by omega)

theorem isQnan_nanToDbl (env : FpEnv) (a : Word) : isQnan .dbl (nanToDbl env a) = true := by
  obtain ⟨hexp, _, hfrac⟩ := widenNan_fields a
  rw [nanToDbl]
  cases env.cfg.nanSelect with
  | recommended =>
    dsimp only
    split
    · exact isQnan_defaultNan .dbl
    · exact isQnan_iff.2 ⟨hexp, hfrac ▸ Nat.right_le_or⟩
  | free => exact isQnan_asQuietNan ..

theorem isQnan_nanToSgl (env : FpEnv) (a : DWord) : isQnan .sgl (nanToSgl env a) = true := by
  obtain ⟨hexp, _, hfrac⟩ := narrowNan_fields a
  rw [nanToSgl]
  cases env.cfg.nanSelect with
  | recommended =>
    dsimp only
    split
    · exact isQnan_defaultNan .sgl
    · exact isQnan_iff.2 ⟨hexp, hfrac ▸ Nat.right_le_or⟩
  | free => exact isQnan_asQuietNan ..

/-- Settles O42: each operation answers `processNans` of its operands, each conversion its `NaNConvert`. -/
theorem nanOperands : Obligations.NanOperands := by
  refine ⟨fun f env a b ha hb hn => ⟨?_, ?_, ?_⟩, fun env a ha => ?_, fun env a ha => ?_⟩
  · intro r hr
    have process : ∃ op, r = processNans f env op a b := by
      rcases hr with rfl | rfl | rfl | rfl
      · exact ⟨.add, by rw [fpAdd_unflushed ha hb, nanOr_nan hn]⟩
      · exact ⟨.sub, by rw [fpSub_unflushed ha hb, nanOr_nan hn]⟩
      · exact ⟨.mul, by rw [fpMul_unflushed ha hb, nanOr_nan hn]⟩
      · exact ⟨.div, by rw [fpDiv_unflushed ha hb, nanOr_nan hn]⟩
    obtain ⟨op, rfl⟩ := process
    exact ⟨isQnan_processNans hn, rfl, processNans_recommended⟩
  · intro ha' hb' hdn
    rw [fpSub_unflushed ha hb, nanOr_nan hn]
    exact processNans_sub ha' hb' hdn
  · intro ha'
    have hn' : (isNan f a || isNan f a) = true := by simp [ha']
    rw [fpSqrt_unflushed ha, nanOr_nan hn']
    refine ⟨isQnan_processNans hn', by rw [processNans, Bool.or_self]; rfl, fun hs => ?_⟩
    rw [processNans_recommended hs, recommendedNan, if_pos ha']
    cases isSnan f a <;> rfl
  · rw [singleToDouble_nan ha]
    refine ⟨isQnan_nanToDbl env a, rfl, fun hs => ⟨fun hdn => ?_, fun hdn => ?_⟩⟩
    · simp [nanToDbl, hs, hdn]
    · simpa [nanToDbl, hs, hdn] using (widenNan_fields a).2
  · rw [doubleToSingle_nan ha]
    refine ⟨isQnan_nanToSgl env a, rfl, fun hs => ⟨fun hdn => ?_, fun hdn => ?_⟩⟩
    · simp [nanToSgl, hs, hdn]
    · simpa [nanToSgl, hs, hdn] using (narrowNan_fields a).2

/-! ### Infinities, zeros, invalid combinations and division by zero (R115 to R117) -/

section Special

variable {f : Fmt} {env : FpEnv} {a b : Pat f}

/-- The sum of two values is 0 exactly if that of their units is. -/
theorem units_sum_eq_zero : unitsOf f a + unitsOf f b = 0 ↔ valueOf f a + valueOf f b = 0 := by
  rw [valueOf_eq_units, valueOf_eq_units, ← add_mul, mul_eq_zero, or_iff_left (zpow_ne_zero _ two_ne_zero)]
  norm_cast

theorem addValues_invalid (ha : isInf f a = true) (hb : isInf f b = true) (hs : signOf f a ≠ signOf f b) :
    addValues f env a b = ⟨defaultNan f, .invalid⟩ := by
  simp [addValues, ha, hb, hs, invalidResult]

theorem addValues_inf_left (ha : isInf f a = true) (hs : isInf f b = true → signOf f a = signOf f b) :
    addValues f env a b = ⟨a, .none⟩ := by
  cases hb : isInf f b with
  | false => simp [addValues, ha, hb, quiet]
  | true => simp [addValues, ha, hb, hs hb, quiet]

theorem addValues_inf_right (ha : Numeric f a) (hb : isInf f b = true) : addValues f env a b = ⟨b, .none⟩ := by
  simp [addValues, isInf_of_numeric ha, hb, quiet]

theorem addValues_zero (ha : Numeric f a) (hb : Numeric f b) (h : valueOf f a + valueOf f b = 0) :
    addValues f env a b =
      ⟨if isZero f a && isZero f b && signOf f a == signOf f b then a else zeroPat f (env.mode == .rm), .none⟩ := by
  simp only [addValues, isInf_of_numeric ha, isInf_of_numeric hb, units_sum_eq_zero.2 h]
  simp only [Bool.and_false, Bool.false_and, Bool.false_eq_true, if_false, ne_eq, not_true, quiet]
  split <;> rfl

theorem mulValues_invalid (h : isZero f a = true ∧ isInf f b = true ∨ isInf f a = true ∧ isZero f b = true) :
    mulValues f env a b = ⟨defaultNan f, .invalid⟩ := by
  rcases h with ⟨ha, hb⟩ | ⟨ha, hb⟩ <;> simp [mulValues, ha, hb, invalidResult]

theorem mulValues_inf (h : isInf f a = true ∧ isZero f b = false ∨ isZero f a = false ∧ isInf f b = true) :
    mulValues f env a b = ⟨infPat f (signOf f a != signOf f b), .none⟩ := by
  rcases h with ⟨ha, hb⟩ | ⟨ha, hb⟩
  · simp [mulValues, ha, hb, isZero_of_isInf ha, quiet]
  · simp [mulValues, ha, hb, isZero_of_isInf hb, quiet]

theorem mulValues_zero (h : isZero f a = true ∧ Numeric f b ∨ Numeric f a ∧ isZero f b = true) :
    mulValues f env a b = ⟨zeroPat f (signOf f a != signOf f b), .none⟩ := by
  rcases h with ⟨ha, hb⟩ | ⟨ha, hb⟩
  · simp [mulValues, ha, isInf_of_numeric (numeric_of_isZero ha), isInf_of_numeric hb, quiet]
  · simp [mulValues, hb, isInf_of_numeric (numeric_of_isZero hb), isInf_of_numeric ha, quiet]

theorem divValues_invalid (h : isZero f a = true ∧ isZero f b = true ∨ isInf f a = true ∧ isInf f b = true) :
    divValues f env a b = ⟨defaultNan f, .invalid⟩ := by
  rcases h with ⟨ha, hb⟩ | ⟨ha, hb⟩ <;> simp [divValues, ha, hb, invalidResult]

theorem divValues_inf_left (ha : isInf f a = true) (hb : Numeric f b) :
    divValues f env a b = ⟨infPat f (signOf f a != signOf f b), .none⟩ := by
  simp [divValues, ha, isZero_of_isInf ha, isInf_of_numeric hb, quiet]

theorem divValues_inf_right (ha : Numeric f a) (hb : isInf f b = true) :
    divValues f env a b = ⟨zeroPat f (signOf f a != signOf f b), .none⟩ := by
  simp [divValues, hb, isZero_of_isInf hb, isInf_of_numeric ha, quiet]

theorem divValues_byZero (ha : Numeric f a) (ha' : isZero f a = false) (hb : isZero f b = true) :
    divValues f env a b = ⟨infPat f (signOf f a != signOf f b), .zeroDivide⟩ := by
  simp [divValues, ha', hb, isInf_of_numeric ha, isInf_of_numeric (numeric_of_isZero hb)]

theorem divValues_zero (ha : isZero f a = true) (hb : Numeric f b) (hb' : isZero f b = false) :
    divValues f env a b = ⟨zeroPat f (signOf f a != signOf f b), .none⟩ := by
  simp [divValues, ha, hb', isInf_of_numeric (numeric_of_isZero ha), isInf_of_numeric hb, quiet]

end Special

/-- Settles O41, by the rules for the values of each operation. -/
theorem specialOperands : Obligations.SpecialOperands := by
  intro f env a b hna hnb ha hb
  have add : fpAdd f env a b = addValues f env a b := by rw [fpAdd_unflushed ha hb, nanOr_value hna hnb]
  have sub : fpSub f env a b = fpAdd f env a (fpNeg f b) := by
    rw [fpSub_unflushed ha hb, nanOr_value hna hnb, fpAdd_unflushed ha (by rw [flushes_fpNeg, hb]),
      nanOr_value hna (by rw [isNan_fpNeg, hnb])]
  have mul : fpMul f env a b = mulValues f env a b := by rw [fpMul_unflushed ha hb, nanOr_value hna hnb]
  have div : fpDiv f env a b = divValues f env a b := by rw [fpDiv_unflushed ha hb, nanOr_value hna hnb]
  have sqrt : fpSqrt f env a = sqrtValue f env a := by rw [fpSqrt_unflushed ha, nanOr_value hna hna]
  refine ⟨?_, ?_, ?_, ?_, sub, ?_, ?_, ?_, ?_, ?_, ?_, ?_, ?_, ?_, ?_, ?_⟩
  · rw [add]; exact addValues_invalid
  · rw [add]; exact addValues_inf_left
  · rw [add]; exact addValues_inf_right
  · rw [add]; exact addValues_zero
  · rw [mul]; exact mulValues_invalid
  · rw [mul]; exact mulValues_inf
  · rw [mul]; exact mulValues_zero
  · rw [div]; exact divValues_invalid
  · rw [div]; exact divValues_inf_left
  · rw [div]; exact divValues_inf_right
  · rw [div]; exact divValues_byZero
  · rw [div]; exact divValues_zero
  · intro hz; rw [sqrt, sqrtValue, if_pos hz]; rfl
  · intro hz hs; simp [sqrt, sqrtValue, hz, hs, invalidResult]
  · intro hi hs; simp [sqrt, sqrtValue, isZero_of_isInf hi, hs, hi, quiet]

end Sys2Proof.Machine
end

section
/-! PROOFS. Rounding: what `round` answers is the exact real value rounded once (40_basic_arith.md R112, R114). -/

namespace Sys2Proof.Machine

/-! ### The multiple that a rounding mode chooses -/

theorem two_zpow_pos (q : Int) : (0 : ℝ) < 2 ^ q := zpow_pos two_pos q

/-- Choosing a multiple of `2^q` is choosing an integer for the value in units of `2^q`. -/
theorem chosen_scaled {mode : RMode} {sign : Bool} {w : ℝ} {q : Int} {n : Nat} :
    Chosen mode sign (w * 2 ^ q) q n ↔ Chosen mode sign w 0 n := by
  have hq := two_zpow_pos q
  have distance : |w * 2 ^ q - n * 2 ^ q| = |w - n| * 2 ^ q := by rw [← sub_mul, abs_mul, abs_of_pos hq]
  have lt : |w - n| * 2 ^ q < 2 ^ q ↔ |w - n| < 1 := by rw [mul_lt_iff_lt_one_left hq]
  have le_half : |w - n| * 2 ^ q ≤ 2 ^ q / 2 ↔ |w - n| ≤ 1 / 2 := by
    rw [show (2 : ℝ) ^ q / 2 = 1 / 2 * 2 ^ q by ring, mul_le_mul_iff_left₀ hq]
  have eq_half : |w - n| * 2 ^ q = 2 ^ q / 2 ↔ |w - n| = 1 / 2 := by
    rw [show (2 : ℝ) ^ q / 2 = 1 / 2 * 2 ^ q by ring, mul_left_inj' hq.ne']
  unfold Chosen
  rw [distance, lt, le_half, eq_half, mul_le_mul_iff_left₀ hq, mul_le_mul_iff_left₀ hq]
  simp only [zpow_zero, mul_one]

theorem chosen_natCast (mode : RMode) (sign : Bool) (n : Nat) : Chosen mode sign n 0 n := by
  unfold Chosen
  cases mode <;> simp

/-- The lower neighbour of `n + r` is chosen where the mode says so. -/
theorem chosen_lower {mode : RMode} {sign : Bool} {n : Nat} {r : ℝ} (h0 : 0 ≤ r) (h1 : r < 1)
    (hrn : mode = .rn → r ≤ 1 / 2 ∧ (r = 1 / 2 → n % 2 = 0)) (hrp : mode = .rp → sign = false → r = 0)
    (hrm : mode = .rm → sign = true → r = 0) : Chosen mode sign (n + r) 0 n := by
  have distance : |(n : ℝ) + r - n| = r := by rw [add_sub_cancel_left, abs_of_nonneg h0]
  unfold Chosen
  simp only [zpow_zero, mul_one, distance]
  refine ⟨h1, ?_⟩
  cases mode with
  | rn => exact hrn rfl
  | rz => linarith
  | rp =>
    cases sign with
    | true => simpa using h0
    | false => simpa using (hrp rfl rfl).le
  | rm =>
    cases sign with
    | true => simpa using (hrm rfl rfl).le
    | false => simpa using h0

/-- The upper neighbour of `n + r` is chosen where the mode says so. -/
theorem chosen_upper {mode : RMode} {sign : Bool} {n : Nat} {r : ℝ} (h0 : 0 < r) (h1 : r < 1)
    (hrn : mode = .rn → 1 / 2 ≤ r ∧ (r = 1 / 2 → n % 2 = 1)) (hrp : mode = .rp → sign = false)
    (hrm : mode = .rm → sign = true) (hrz : mode ≠ .rz) : Chosen mode sign (n + r) 0 (n + 1) := by
  have distance : |(n : ℝ) + r - (n + 1)| = 1 - r := by rw [abs_sub_comm, abs_of_nonneg] <;> linarith
  unfold Chosen
  push_cast
  simp only [zpow_zero, mul_one, distance]
  refine ⟨by linarith, ?_⟩
  cases mode with
  | rn =>
    obtain ⟨hle, hodd⟩ := hrn rfl
    exact ⟨by linarith, fun h => by have := hodd (by linarith); omega⟩
  | rz => exact absurd rfl hrz
  | rp => simpa [hrp rfl] using h1.le
  | rm => simpa [hrm rfl] using h1.le

/-- `roundsUp` decides between the two neighbours of `n + r` as the mode says, if its arguments say how `r` lies. -/
theorem chosen_roundsUp {mode : RMode} {sign odd inexact : Bool} {half : Ordering} {n : Nat} {r : ℝ} (h0 : 0 ≤ r) (h1 : r < 1)
    (hodd : odd = true ↔ n % 2 = 1) (hinexact : inexact = true ↔ r ≠ 0) (hgt : half = .gt ↔ 1 / 2 < r)
    (heq : half = .eq ↔ r = 1 / 2) :
    Chosen mode sign (n + r) 0 (n + (roundsUp mode sign odd inexact half).toNat) := by
  cases hup : roundsUp mode sign odd inexact half with
  | false =>
    refine chosen_lower h0 h1 ?_ ?_ ?_
    · rintro rfl
      simp only [roundsUp, Bool.or_eq_false_iff, beq_eq_false_iff_ne, ne_eq, Bool.and_eq_false_iff] at hup
      obtain ⟨hng, htie⟩ := hup
      refine ⟨not_lt.1 fun h => hng (hgt.2 h), fun h => ?_⟩
      have := htie.resolve_left fun h' => h' (heq.2 h)
      have : ¬n % 2 = 1 := fun h' => by rw [hodd.2 h'] at this; cases this
      omega
    · rintro rfl rfl
      simp only [roundsUp, Bool.not_false, Bool.and_true] at hup
      exact not_not.1 fun h => by rw [hinexact.2 h] at hup; cases hup
    · rintro rfl rfl
      simp only [roundsUp, Bool.and_true] at hup
      exact not_not.1 fun h => by rw [hinexact.2 h] at hup; cases hup
  | true =>
    have hr : 0 < r := by
      refine lt_of_le_of_ne h0 fun h => ?_
      subst h
      have hi : inexact = false := by simpa using hinexact
      have hg : half ≠ .gt := fun h => by have := hgt.1 h; norm_num at this
      have he : half ≠ .eq := fun h => by have := heq.1 h; norm_num at this
      cases mode <;> simp [roundsUp, hi, hg, he] at hup
    refine chosen_upper hr h1 ?_ ?_ ?_ ?_
    · rintro rfl
      simp only [roundsUp, Bool.or_eq_true, beq_iff_eq, Bool.and_eq_true] at hup
      rcases hup with h | ⟨h, ho⟩
      · exact ⟨(hgt.1 h).le, fun h' => absurd h' (hgt.1 h).ne'⟩
      · exact ⟨(heq.1 h).ge, fun _ => hodd.1 ho⟩
    · rintro rfl; simp_all [roundsUp]
    · rintro rfl; simp_all [roundsUp]
    · rintro rfl; simp [roundsUp] at hup

/-- A mode chooses one integer only. -/
theorem chosen_unique {mode : RMode} {sign : Bool} {v : ℝ} {q : Int} {n k : Nat} (hn : Chosen mode sign v q n)
    (hk : Chosen mode sign v q k) : n = k := by
  obtain ⟨w, rfl⟩ : ∃ w : ℝ, v = w * 2 ^ q := ⟨v / 2 ^ q, (div_mul_cancel₀ v (two_zpow_pos q).ne').symm⟩
  rw [chosen_scaled] at hn hk
  wlog hlt : n < k generalizing n k
  · rcases Nat.lt_trichotomy n k with h | h | h
    · exact this hn hk h
    · exact h
    · exact (this hk hn h).symm
  obtain ⟨hnd, hn⟩ := hn
  obtain ⟨hkd, hk⟩ := hk
  simp only [zpow_zero, mul_one] at hnd hn hkd hk
  have hcast : (n : ℝ) + 1 ≤ k := by exact_mod_cast hlt
  rw [abs_lt] at hnd hkd
  have hnw : (n : ℝ) < w := by linarith
  have hwk : w < k := by linarith
  exfalso
  cases mode with
  | rn =>
    obtain ⟨hn, hn'⟩ := hn
    obtain ⟨hk, hk'⟩ := hk
    rw [abs_of_pos (by linarith)] at hn hn'
    rw [abs_sub_comm, abs_of_pos (by linarith)] at hk hk'
    have hadj : (k : ℝ) = n + 1 := by linarith
    have hadj' : k = n + 1 := by exact_mod_cast hadj
    have := hn' (by linarith)
    have := hk' (by linarith)
    omega
  | rz => linarith
  | rp => cases sign <;> simp at hn hk <;> linarith
  | rm => cases sign <;> simp at hn hk <;> linarith

/-- The chosen multiple is the value exactly if the value is one. -/
theorem chosen_eq_iff {mode : RMode} {sign : Bool} {n k : Nat} {r : ℝ} (h0 : 0 ≤ r) (h1 : r < 1)
    (h : Chosen mode sign (n + r) 0 k) : (k : ℝ) = n + r ↔ r = 0 := by
  constructor
  · intro hk
    have hle : n ≤ k := by exact_mod_cast (show (n : ℝ) ≤ k by linarith)
    have hlt : k < n + 1 := by exact_mod_cast (show (k : ℝ) < n + 1 by linarith)
    have : k = n := by omega
    subst this; linarith
  · rintro rfl
    rw [add_zero] at h ⊢
    rw [chosen_unique h (chosen_natCast mode sign n)]

/-- A value below `2^k` units rounds to `2^k` at most. -/
theorem Chosen.le_two_pow {mode : RMode} {sign : Bool} {v : ℝ} {q : Int} {n k : Nat} (h : Chosen mode sign v q n)
    (hv : v < 2 ^ k * 2 ^ q) : n ≤ 2 ^ k := by
  have hq := two_zpow_pos q
  have : ((n : ℝ) - 1) * 2 ^ q < 2 ^ k * 2 ^ q := by linarith [(abs_lt.1 h.1).1]
  have : (n : ℝ) < 2 ^ k + 1 := by linarith [lt_of_mul_lt_mul_right this hq.le]
  exact Nat.lt_succ_iff.1 (by exact_mod_cast this)

/-- A value of `2^k` units at least rounds to `2^k` at least. -/
theorem Chosen.two_pow_le {mode : RMode} {sign : Bool} {v : ℝ} {q : Int} {n k : Nat} (h : Chosen mode sign v q n)
    (hv : 2 ^ k * 2 ^ q ≤ v) : 2 ^ k ≤ n := by
  have hq := two_zpow_pos q
  have : (2 ^ k : ℝ) * 2 ^ q < ((n : ℝ) + 1) * 2 ^ q := by linarith [(abs_lt.1 h.1).2]
  have : (2 ^ k : ℝ) < n + 1 := lt_of_mul_lt_mul_right this hq.le
  exact Nat.lt_succ_iff.1 (by exact_mod_cast this)

/-! ### Magnitudes -/

/-- The magnitude stands for the real number `v`: `m` and a fraction of a unit, which is 0 exactly if `sticky` is false. -/
structure Magnitude.Denotes (x : Magnitude) (v : ℝ) : Prop where
  pos : 0 < x.m
  eq : ∃ δ : ℝ, 0 ≤ δ ∧ δ < 1 ∧ (x.sticky = true ↔ δ ≠ 0) ∧ v = (x.m + δ) * 2 ^ x.e

/-- A magnitude without a sticky bit is exact. -/
theorem denotes_exact {m : Nat} (e : Int) (h : 0 < m) : Magnitude.Denotes ⟨m, e, false⟩ (m * 2 ^ e) :=
  ⟨h, 0, le_rfl, one_pos, by simp, by simp⟩

section Magnitude

variable {x : Magnitude} {v : ℝ}

theorem Magnitude.Denotes.pow_log2Of_le (h : x.Denotes v) : (2 : ℝ) ^ log2Of x ≤ v := by
  obtain ⟨hpos, δ, h0, _, _, rfl⟩ := h
  have hle : (2 : ℝ) ^ x.m.log2 ≤ x.m := by exact_mod_cast Nat.log2_self_le hpos.ne'
  rw [log2Of, zpow_add₀ two_ne_zero, zpow_natCast]
  exact mul_le_mul_of_nonneg_right (by linarith) (two_zpow_pos _).le

theorem Magnitude.Denotes.lt_pow_log2Of (h : x.Denotes v) : v < (2 : ℝ) ^ (log2Of x + 1) := by
  obtain ⟨_, δ, _, h1, _, rfl⟩ := h
  have hle : (x.m : ℝ) + 1 ≤ 2 ^ ((x.m.log2 : Int) + 1) := by exact_mod_cast Nat.lt_log2_self
  rw [log2Of, add_right_comm, zpow_add₀ two_ne_zero]
  exact mul_lt_mul_of_pos_right (by linarith) (two_zpow_pos _)

theorem Magnitude.Denotes.value_pos (h : x.Denotes v) : 0 < v := (two_zpow_pos _).trans_le h.pow_log2Of_le

theorem Magnitude.Denotes.log_eq (h : x.Denotes v) : Int.log 2 v = log2Of x := by
  have lower := (Int.zpow_le_iff_le_log one_lt_two h.value_pos).1 (by exact_mod_cast h.pow_log2Of_le)
  have upper := (Int.lt_zpow_iff_log_lt one_lt_two h.value_pos).1 (by exact_mod_cast h.lt_pow_log2Of)
  omega

theorem Magnitude.Denotes.belowNormal_iff (h : x.Denotes v) (f : Fmt) : belowNormal f x = true ↔ v < 2 ^ f.emin := by
  have := Int.lt_zpow_iff_log_lt one_lt_two (x := f.emin) h.value_pos
  rw [h.log_eq] at this
  rw [belowNormal, decide_eq_true_iff, ← this]
  norm_cast

/-- How a part cut off, `cut` units and a fraction `δ` of one, compares with half of an even number of units. -/
theorem half_compare {cut k : Nat} {sticky : Bool} {δ : ℝ} (h0 : 0 ≤ δ) (h1 : δ < 1) (hδ : sticky = true ↔ δ ≠ 0) :
    let half := if 2 * cut == 2 ^ (k + 1) && sticky then Ordering.gt else compare (2 * cut) (2 ^ (k + 1))
    (half = .gt ↔ (2 : ℝ) ^ (k + 1) < 2 * (cut + δ)) ∧ (half = .eq ↔ (2 : ℝ) ^ (k + 1) = 2 * (cut + δ)) := by
  rw [pow_succ', pow_succ']
  rcases lt_trichotomy cut (2 ^ k) with h | rfl | h
  · have hcast : (cut : ℝ) + 1 ≤ 2 ^ k := by exact_mod_cast h
    have hcmp : compare (2 * cut) (2 * 2 ^ k) = .lt := by rw [compare_lt_iff_lt]; omega
    have hne : (2 * cut == 2 * 2 ^ k) = false := by rw [beq_eq_false_iff_ne]; omega
    rw [hne, Bool.false_and, hcmp]
    exact ⟨iff_of_false nofun (by linarith), iff_of_false nofun (by linarith)⟩
  · push_cast
    cases sticky with
    | false =>
      have hδ0 : δ = 0 := by simpa using hδ
      simp [hδ0]
    | true =>
      have hpos : 0 < δ := lt_of_le_of_ne h0 (hδ.1 rfl).symm
      simp only [beq_self_eq_true, Bool.and_self, if_true]
      exact ⟨iff_of_true trivial (by linarith), iff_of_false nofun (by linarith)⟩
  · have hcast : (2 : ℝ) ^ k + 1 ≤ cut := by exact_mod_cast h
    have hcmp : compare (2 * cut) (2 * 2 ^ k) = .gt := by rw [compare_gt_iff_gt]; omega
    have hne : (2 * cut == 2 * 2 ^ k) = false := by rw [beq_eq_false_iff_ne]; omega
    rw [hne, Bool.false_and, hcmp]
    exact ⟨iff_of_true rfl (by linarith), iff_of_false nofun (by linarith)⟩

/-- `roundAt` answers the multiple of `2^q` that the mode chooses, and whether it differs from the value. -/
theorem Magnitude.Denotes.roundAt (h : x.Denotes v) (mode : RMode) (sign : Bool) {q : Int}
    (hq : x.sticky = true → x.e < q) :
    Chosen mode sign v q (roundAt mode sign x q).1 ∧
      ((roundAt mode sign x q).2 = true ↔ ((roundAt mode sign x q).1 : ℝ) * 2 ^ q ≠ v) := by
  obtain ⟨_, δ, h0, h1, hδ, rfl⟩ := h
  unfold Machine.roundAt
  split
  · rename_i hle
    have hs : x.sticky = false := by
      rw [← Bool.not_eq_true]; exact fun h => absurd (hq h) (not_lt.2 hle)
    have hδ0 : δ = 0 := by simpa [hs] using hδ
    have value : ((x.m : ℝ) + δ) * 2 ^ x.e = ((x.m * 2 ^ (x.e - q).toNat : Nat) : ℝ) * 2 ^ q := by
      push_cast
      rw [hδ0, add_zero, mul_assoc, ← zpow_natCast, Int.toNat_of_nonneg (by omega), ← zpow_add₀ two_ne_zero,
        sub_add_cancel]
    rw [value, chosen_scaled]
    exact ⟨chosen_natCast _ _ _, by simp [hs]⟩
  · rename_i hlt
    obtain ⟨k, hk⟩ : ∃ k : Nat, (q - x.e).toNat = k + 1 := ⟨(q - x.e).toNat - 1, by omega⟩
    have hunit : (2 : ℝ) ^ q = 2 ^ (k + 1) * 2 ^ x.e := by
      rw [← zpow_natCast, ← zpow_add₀ two_ne_zero]; congr 1; omega
    have hu : (0 : ℝ) < 2 ^ (k + 1) := by positivity
    have hcut : ((x.m % 2 ^ (k + 1) : Nat) : ℝ) + 1 ≤ 2 ^ (k + 1) := by
      exact_mod_cast Nat.mod_lt x.m (by positivity)
    have hsplit : (x.m : ℝ) = 2 ^ (k + 1) * (x.m / 2 ^ (k + 1) : Nat) + (x.m % 2 ^ (k + 1) : Nat) := by
      exact_mod_cast (Nat.div_add_mod x.m (2 ^ (k + 1))).symm
    obtain ⟨hgt, heq⟩ := half_compare (cut := x.m % 2 ^ (k + 1)) (k := k) h0 h1 hδ
    simp only [hk]
    generalize x.m % 2 ^ (k + 1) = cut at *
    generalize x.m / 2 ^ (k + 1) = n at *
    have value : ((x.m : ℝ) + δ) * 2 ^ x.e = (n + (cut + δ) / 2 ^ (k + 1)) * 2 ^ q := by
      rw [hsplit, hunit]; field_simp; ring
    have r0 : 0 ≤ ((cut : ℝ) + δ) / 2 ^ (k + 1) := by positivity
    have r1 : ((cut : ℝ) + δ) / 2 ^ (k + 1) < 1 := by rw [div_lt_one hu]; linarith
    have hinexact : (cut != 0 || x.sticky) = true ↔ ((cut : ℝ) + δ) / 2 ^ (k + 1) ≠ 0 := by
      have hzero : (cut : ℝ) + δ = 0 ↔ cut = 0 ∧ δ = 0 := by
        rw [add_eq_zero_iff_of_nonneg (by positivity) h0]; norm_cast
      rw [div_ne_zero_iff, and_iff_left hu.ne', Bool.or_eq_true, hδ, bne_iff_ne, ne_eq, ne_eq, ne_eq, hzero, not_and_or]
    have up := chosen_roundsUp (mode := mode) (sign := sign) (odd := n % 2 == 1) (n := n) r0 r1 (by simp) hinexact
      (hgt.trans (by rw [div_lt_div_iff₀ two_pos hu]; constructor <;> intro h <;> linarith))
      (heq.trans (by rw [div_eq_div_iff hu.ne' two_ne_zero]; constructor <;> intro h <;> linarith))
    rw [value, chosen_scaled]
    refine ⟨up, hinexact.trans (not_congr ?_)⟩
    rw [mul_left_inj' (two_zpow_pos q).ne']
    exact (chosen_eq_iff r0 r1 up).symm

end Magnitude

/-! ### Tininess and overflow -/

theorem isTiny_iff {f : Fmt} {env : FpEnv} {sign : Bool} {x : Magnitude} {v : ℝ} (h : x.Denotes v)
    (hs : x.sticky = true → x.e < log2Of x - f.fracBits) : isTiny f env sign x = true ↔ Tiny f env sign v := by
  unfold isTiny Tiny
  cases env.cfg.tininess with
  | beforeRounding => exact h.belowNormal_iff f
  | afterRounding =>
    dsimp only
    obtain ⟨hchosen, _⟩ := h.roundAt env.mode sign hs
    have hlarge : 2 ^ f.fracBits ≤ (roundAt env.mode sign x (log2Of x - f.fracBits)).1 := by
      refine hchosen.two_pow_le ?_
      rw [← zpow_natCast, ← zpow_add₀ two_ne_zero, add_sub_cancel]
      exact h.pow_log2Of_le
    have hpos : 0 < (roundAt env.mode sign x (log2Of x - f.fracBits)).1 := lt_of_lt_of_le (by positivity) hlarge
    rw [(denotes_exact _ hpos).belowNormal_iff f, h.log_eq]
    constructor
    · exact fun hlt => ⟨_, hchosen, hlt⟩
    · rintro ⟨n, hn, hlt⟩
      rwa [chosen_unique hn hchosen] at hlt

/-- The significand `n` and the exponent `q` of its last place that rounding to a format answers: a carry out of `n` may have
happened, and only a denormalized or zero result has fewer than `T + 1` bits. -/
structure Significand (f : Fmt) (n : Nat) (q : Int) : Prop where
  upper : n ≤ 2 ^ (f.fracBits + 1)
  lowest : f.emin - f.fracBits ≤ q
  normal : n < 2 ^ f.fracBits → q = f.emin - f.fracBits

theorem Magnitude.Denotes.significand {x : Magnitude} {v : ℝ} {f : Fmt} {mode : RMode} {sign : Bool} {n : Nat}
    (h : x.Denotes v) (hn : Chosen mode sign v (ulpExp f x) n) : Significand f n (ulpExp f x) where
  upper := by
    refine hn.le_two_pow (h.lt_pow_log2Of.trans_le ?_)
    rw [← zpow_natCast, ← zpow_add₀ two_ne_zero]
    refine zpow_le_zpow_right₀ one_le_two ?_
    unfold ulpExp; push_cast; omega
  lowest := by unfold ulpExp; omega
  normal := by
    intro hlt
    by_contra hne
    have hq : ulpExp f x = log2Of x - f.fracBits := by unfold ulpExp at hne ⊢; omega
    refine absurd hlt (not_lt.2 (hn.two_pow_le ?_))
    rw [hq, ← zpow_natCast, ← zpow_add₀ two_ne_zero, add_sub_cancel]
    exact h.pow_log2Of_le

theorem fmt_emin_le_emax (f : Fmt) : f.emin ≤ f.emax := by cases f <;> decide

theorem maxNorm_eq (f : Fmt) : (maxNorm f : ℝ) = (2 ^ (f.fracBits + 1) - 1) * 2 ^ (f.emax - f.fracBits) := by
  have : (2 : ℝ) ^ f.emax = 2 ^ f.fracBits * 2 ^ (f.emax - f.fracBits) := by
    rw [← zpow_natCast, ← zpow_add₀ two_ne_zero, add_sub_cancel]
  unfold maxNorm
  push_cast
  rw [this, zpow_neg, zpow_natCast]
  field_simp
  ring

/-- A rounded value is above `MaxNorm_F` exactly if its exponent is above `emax`. -/
theorem Significand.overflow_iff {f : Fmt} {n : Nat} {q : Int} (h : Significand f n q) :
    f.emax < (n.log2 : Int) + q ↔ (maxNorm f : ℝ) < n * 2 ^ q := by
  have hT := fmt_emin_le_emax f
  constructor
  · intro hlt
    have hn0 : n ≠ 0 := by
      rintro rfl
      have := h.normal (by positivity)
      simp only [Nat.log2_zero] at hlt
      omega
    have hlog : (2 : ℝ) ^ n.log2 ≤ n := by exact_mod_cast Nat.log2_self_le hn0
    calc (maxNorm f : ℝ) < 2 ^ (f.fracBits + 1) * 2 ^ (f.emax - f.fracBits) := by
          rw [maxNorm_eq]; exact mul_lt_mul_of_pos_right (by linarith) (two_zpow_pos _)
      _ = 2 ^ (f.emax + 1) := by rw [← zpow_natCast, ← zpow_add₀ two_ne_zero]; congr 1; push_cast; ring
      _ ≤ 2 ^ ((n.log2 : Int) + q) := zpow_le_zpow_right₀ one_le_two (by omega)
      _ = 2 ^ n.log2 * 2 ^ q := by rw [zpow_add₀ two_ne_zero, zpow_natCast]
      _ ≤ n * 2 ^ q := mul_le_mul_of_nonneg_right hlog (two_zpow_pos _).le
  · refine fun hlt => not_le.1 fun hle => absurd hlt (not_lt.2 ?_)
    have hlog : 2 ^ f.fracBits ≤ n → f.fracBits ≤ n.log2 := fun hge =>
      (Nat.le_log2 (by have : 0 < 2 ^ f.fracBits := by positivity
                       omega)).2 hge
    rw [maxNorm_eq]
    rcases h.upper.lt_or_eq with hn | rfl
    · have hq : q ≤ f.emax - f.fracBits := by
        by_cases hsmall : n < 2 ^ f.fracBits
        · have := h.normal hsmall; omega
        · have := hlog (not_lt.1 hsmall); omega
      have hn' : (n : ℝ) ≤ 2 ^ (f.fracBits + 1) - 1 := by
        have : (n : ℝ) + 1 ≤ 2 ^ (f.fracBits + 1) := by exact_mod_cast hn
        linarith
      exact mul_le_mul hn' (zpow_le_zpow_right₀ one_le_two hq) (two_zpow_pos _).le (n.cast_nonneg.trans hn')
    · rw [Nat.log2_two_pow] at hle
      calc ((2 ^ (f.fracBits + 1) : Nat) : ℝ) * 2 ^ q = 2 ^ ((f.fracBits : Int) + 1 + q) := by
            rw [zpow_add₀ two_ne_zero]; norm_cast
        _ ≤ 2 ^ ((f.fracBits : Int) + (f.emax - f.fracBits)) := zpow_le_zpow_right₀ one_le_two (by push_cast at hle; omega)
        _ = 2 ^ f.fracBits * 2 ^ (f.emax - f.fracBits) := by rw [zpow_add₀ two_ne_zero, zpow_natCast]
        _ ≤ (2 ^ (f.fracBits + 1) - 1) * 2 ^ (f.emax - f.fracBits) := by
            refine mul_le_mul_of_nonneg_right ?_ (two_zpow_pos _).le
            have : (1 : ℝ) ≤ 2 ^ f.fracBits := one_le_pow₀ one_le_two
            rw [pow_succ']; linarith

/-! ### Patterns of rounded values -/

theorem fmt_expOnes_eq (f : Fmt) : (f.expOnes : Int) = 2 * f.emax + 1 := by cases f <;> rfl

/-- The magnitude of a pattern with an exponent field below all ones. -/
theorem abs_valueOf_patOf {f : Fmt} {sign : Bool} {E t : Nat} (hE : E ≤ f.expOnes) (ht : t < 2 ^ f.fracBits) :
    |(valueOf f (patOf f sign (E * 2 ^ f.fracBits + t)) : ℝ)| =
      if E = 0 then (t : ℝ) * 2 ^ (f.emin - f.fracBits) else (2 ^ f.fracBits + t) * 2 ^ ((E : Int) - f.emax - f.fracBits) := by
  obtain ⟨_, hexp, hfrac⟩ := patOf_fields (sign := sign) hE ht
  have habs := congrArg (Rat.cast : ℚ → ℝ) (abs_valueOf f (patOf f sign (E * 2 ^ f.fracBits + t)))
  push_cast at habs
  rw [habs, mantOf, scaleOf, hexp, hfrac]
  by_cases h : E = 0 <;> simp [h]

/-- A significand that does not overflow is encoded as a numeric pattern of its value: the exponent field counts the units
of `q` above the lowest, and takes the carry out of the fraction. -/
theorem Significand.encodePat {f : Fmt} {sign : Bool} {n : Nat} {q : Int} (h : Significand f n q)
    (hmax : (n.log2 : Int) + q ≤ f.emax) :
    signOf f (encodePat f sign n q) = sign ∧ Numeric f (encodePat f sign n q) ∧
      |(valueOf f (encodePat f sign n q) : ℝ)| = n * 2 ^ q := by
  have hones := fmt_expOnes_eq f
  have hemin := fmt_emin_eq f
  have hlowest := h.lowest
  obtain ⟨k, hk, hkq⟩ : ∃ k : Nat, (q - (f.emin - f.fracBits)).toNat = k ∧ q = k + (f.emin - f.fracBits) :=
    ⟨_, rfl, by omega⟩
  obtain ⟨E, t, hsum, hE, ht, hvalue⟩ : ∃ E t : Nat, k * 2 ^ f.fracBits + n = E * 2 ^ f.fracBits + t ∧ E < f.expOnes ∧
      t < 2 ^ f.fracBits ∧ (if E = 0 then (t : ℝ) * 2 ^ (f.emin - f.fracBits)
        else (2 ^ f.fracBits + t) * 2 ^ ((E : Int) - f.emax - f.fracBits)) = n * 2 ^ q := by
    have hlog : 2 ^ f.fracBits ≤ n → f.fracBits ≤ n.log2 := fun hge =>
      (Nat.le_log2 (Nat.pos_iff_ne_zero.1 ((Nat.two_pow_pos _).trans_le hge))).2 hge
    rcases lt_or_ge n (2 ^ f.fracBits) with hsmall | hlarge
    · have hk0 : k = 0 := by have := h.normal hsmall; omega
      exact ⟨0, n, by rw [hk0], fmt_expOnes_pos f, hsmall, by rw [if_pos rfl, h.normal hsmall]⟩
    · rcases h.upper.lt_or_eq with hn | hn
      · have := hlog hlarge
        refine ⟨k + 1, n - 2 ^ f.fracBits, by rw [add_mul]; omega, by omega, by rw [pow_succ] at hn; omega, ?_⟩
        rw [if_neg (Nat.succ_ne_zero k), Nat.cast_sub hlarge]
        push_cast
        rw [add_sub_cancel]
        congr 2; omega
      · rw [hn, Nat.log2_two_pow] at hmax
        refine ⟨k + 2, 0, by rw [hn, pow_succ, add_mul]; omega, by omega, by positivity, ?_⟩
        have hq : ((k + 2 : Nat) : Int) - f.emax - f.fracBits = q + 1 := by push_cast; omega
        rw [if_neg (Nat.succ_ne_zero _), hn, hq, zpow_add_one₀ two_ne_zero]
        push_cast; ring
  rw [Machine.encodePat, hk, hsum]
  obtain ⟨hsign, hexp, _⟩ := patOf_fields (sign := sign) hE.le ht
  exact ⟨hsign, by rw [Numeric, hexp]; exact hE.ne, (abs_valueOf_patOf hE.le ht).trans hvalue⟩

/-! ### Rounding -/

theorem isInf_infPat (f : Fmt) (sign : Bool) : isInf f (infPat f sign) = true := by cases f <;> cases sign <;> decide

theorem signOf_infPat (f : Fmt) (sign : Bool) : signOf f (infPat f sign) = sign := by cases f <;> cases sign <;> decide

/-- `MaxNorm_F` is the numeric pattern below the infinity of its sign. -/
theorem maxNormPat_spec (f : Fmt) (sign : Bool) :
    signOf f (maxNormPat f sign) = sign ∧ Numeric f (maxNormPat f sign) ∧
      |(valueOf f (maxNormPat f sign) : ℝ)| = maxNorm f := by
  have ht : 2 ^ f.fracBits - 1 < 2 ^ f.fracBits := Nat.sub_lt (by positivity) one_pos
  have hones := fmt_expOnes_eq f
  have hpat : maxNormPat f sign = patOf f sign ((f.expOnes - 1) * 2 ^ f.fracBits + (2 ^ f.fracBits - 1)) := by
    cases f <;> rfl
  have hne : f.expOnes - 1 ≠ 0 := by cases f <;> decide
  obtain ⟨hsign, hexp, _⟩ := patOf_fields (sign := sign) (Nat.sub_le f.expOnes 1) ht
  rw [hpat]
  refine ⟨hsign, by rw [Numeric, hexp]; omega, ?_⟩
  rw [abs_valueOf_patOf (Nat.sub_le f.expOnes 1) ht, if_neg hne, maxNorm_eq, Nat.cast_sub Nat.one_le_two_pow,
    Nat.cast_sub (fmt_expOnes_pos f)]
  push_cast
  have hexp' : (f.expOnes : Int) - 1 - f.emax - f.fracBits = f.emax - f.fracBits := by omega
  rw [hexp']
  ring

/-- The result of an overflow (R112). -/
theorem overflowPat_spec (f : Fmt) (mode : RMode) (sign : Bool) :
    signOf f (overflowPat f mode sign) = sign ∧
      if overflowsToInfinity mode sign then isInf f (overflowPat f mode sign) = true
      else Numeric f (overflowPat f mode sign) ∧ |(valueOf f (overflowPat f mode sign) : ℝ)| = maxNorm f := by
  have hpat : overflowPat f mode sign = if overflowsToInfinity mode sign then infPat f sign else maxNormPat f sign := by
    cases mode <;> cases sign <;> rfl
  rw [hpat]
  split
  · exact ⟨signOf_infPat f sign, isInf_infPat f sign⟩
  · exact maxNormPat_spec f sign

section Round

variable {f : Fmt} {env : FpEnv} {sign : Bool} {x : Magnitude}

theorem round_flushed (h : (env.fz && belowNormal f x) = true) :
    round f env sign x = ⟨flushedZero f env.cfg sign, env.cfg.fzResult⟩ := if_pos h

theorem round_overflow (h : (env.fz && belowNormal f x) = false)
    (ho : f.emax < ((roundAt env.mode sign x (ulpExp f x)).1.log2 : Int) + ulpExp f x) :
    round f env sign x = ⟨overflowPat f env.mode sign, { ExcSet.none with overflow := true, inexact := true }⟩ := by
  rw [round, h]; exact if_pos ho

theorem round_finite (h : (env.fz && belowNormal f x) = false)
    (ho : ¬f.emax < ((roundAt env.mode sign x (ulpExp f x)).1.log2 : Int) + ulpExp f x) :
    round f env sign x =
      ⟨encodePat f sign (roundAt env.mode sign x (ulpExp f x)).1 (ulpExp f x),
        { ExcSet.none with
          underflow := isTiny f env sign x && (roundAt env.mode sign x (ulpExp f x)).2
          inexact := (roundAt env.mode sign x (ulpExp f x)).2 }⟩ := by
  rw [round, h]; exact if_neg ho

end Round

/-- `round` of a magnitude is `Round_F` of the real number that it stands for. -/
theorem roundsTo_round {f : Fmt} {env : FpEnv} {sign : Bool} {x : Magnitude} {v : ℝ} (h : x.Denotes v)
    (hs : x.sticky = true → x.e < log2Of x - f.fracBits) : RoundsTo f env sign v (round f env sign x) := by
  have hflush : (env.fz && belowNormal f x) = true ↔ env.fz = true ∧ v < 2 ^ f.emin := by
    rw [Bool.and_eq_true, h.belowNormal_iff]
  unfold RoundsTo
  by_cases hf : env.fz = true ∧ v < 2 ^ f.emin
  · rw [if_pos hf, round_flushed (hflush.2 hf), flushedZero_eq]
  · have hf' : (env.fz && belowNormal f x) = false := by rw [← Bool.not_eq_true, hflush]; exact hf
    have hq : ulpExp f x = max (Int.log 2 v) f.emin - f.fracBits := by rw [h.log_eq]; rfl
    have hulp : x.sticky = true → x.e < ulpExp f x := fun hsticky => by have := hs hsticky; unfold ulpExp; omega
    obtain ⟨hchosen, hinexact⟩ := h.roundAt env.mode sign hulp
    have hsig := h.significand hchosen
    rw [if_neg hf]
    refine ⟨_, _, hq, hchosen, ?_⟩
    by_cases hover : f.emax < ((roundAt env.mode sign x (ulpExp f x)).1.log2 : Int) + ulpExp f x
    · obtain ⟨hsign, hval⟩ := overflowPat_spec f env.mode sign
      rw [round_overflow hf' hover, if_pos (hsig.overflow_iff.1 hover)]
      exact ⟨hsign, rfl, hval⟩
    · obtain ⟨hsign, hnum, hval⟩ := hsig.encodePat (sign := sign) (not_lt.1 hover)
      rw [round_finite hf' hover, if_neg fun h' => hover (hsig.overflow_iff.2 h')]
      exact ⟨hsign, hnum, hval, _, _, rfl, hinexact, by rw [Bool.and_eq_true, isTiny_iff h hs, hinexact]⟩

end Sys2Proof.Machine
end

section
/-! PROOFS. The five arithmetic operations, the narrowing conversion and the conversions of integers are the exact real
results rounded once (40_basic_arith.md R112, R116, R117, 43_convert.md R172, R184). -/

namespace Sys2Proof.Machine

/-! ### Quotients -/

/-- A magnitude of more than `T + 1` bits has room for a sticky bit. -/
theorem lt_log2Of_sub {f : Fmt} {x : Magnitude} (h : 2 ^ (f.fracBits + 1) ≤ x.m) : x.e < log2Of x - f.fracBits := by
  have : f.fracBits + 1 ≤ x.m.log2 := (Nat.le_log2 (by have := Nat.two_pow_pos (f.fracBits + 1); omega)).2 h
  unfold log2Of; omega

theorem quotient_large {f : Fmt} {ma mb : Nat} {ea eb : Int} (ha : 0 < ma) (hb : 0 < mb) :
    2 ^ (f.fracBits + 1) ≤ (quotient f ma ea mb eb).m := by
  refine (Nat.le_div_iff_mul_le hb).2 ?_
  calc 2 ^ (f.fracBits + 1) * mb ≤ 2 ^ (f.fracBits + 1) * 2 ^ (mb.log2 + 1) := Nat.mul_le_mul_left _ Nat.lt_log2_self.le
    _ = 2 ^ (f.fracBits + 2 + mb.log2) := by rw [← pow_add]; congr 1; omega
    _ ≤ 2 ^ (f.fracBits + 4 + mb.log2) := Nat.pow_le_pow_right two_pos (by omega)
    _ ≤ ma * 2 ^ (f.fracBits + 4 + mb.log2) := Nat.le_mul_of_pos_left _ ha

/-- The integer quotient, with the remainder as its sticky bit, denotes the quotient of the two magnitudes. -/
theorem quotient_denotes {f : Fmt} {ma mb : Nat} {ea eb : Int} (ha : 0 < ma) (hb : 0 < mb) :
    (quotient f ma ea mb eb).Denotes ((ma * 2 ^ ea) / (mb * 2 ^ eb)) where
  pos := lt_of_lt_of_le (by positivity) (quotient_large (f := f) (ea := ea) (eb := eb) ha hb)
  eq := by
    have hb' : (0 : ℝ) < mb := by exact_mod_cast hb
    unfold quotient
    generalize f.fracBits + 4 + mb.log2 = k
    have hsplit : (ma : ℝ) * 2 ^ k = mb * (ma * 2 ^ k / mb : Nat) + (ma * 2 ^ k % mb : Nat) := by
      exact_mod_cast (Nat.div_add_mod (ma * 2 ^ k) mb).symm
    have hrem : ((ma * 2 ^ k % mb : Nat) : ℝ) < mb := by exact_mod_cast Nat.mod_lt _ hb
    refine ⟨(ma * 2 ^ k % mb : Nat) / mb, by positivity, (div_lt_one hb').2 hrem, ?_, ?_⟩
    · rw [bne_iff_ne, div_ne_zero_iff, and_iff_left hb'.ne', Nat.cast_ne_zero]
    · have hexp : (2 : ℝ) ^ (ea - eb - k) * 2 ^ k * 2 ^ eb = 2 ^ ea := by
        rw [← zpow_natCast, ← zpow_add₀ two_ne_zero, ← zpow_add₀ two_ne_zero]; congr 1; omega
      dsimp only
      rw [div_eq_iff (mul_pos hb' (two_zpow_pos eb)).ne', ← hexp]
      field_simp
      linear_combination hsplit

/-! ### Square roots -/

/-- The bits found so far are a root from below, and one more unit of the last bit is too large: so to the end. -/
theorem isqrtFrom_spec {n k r : Nat} (hle : r * r ≤ n) (hlt : n < (r + 2 ^ k) * (r + 2 ^ k)) :
    isqrtFrom n k r * isqrtFrom n k r ≤ n ∧ n < (isqrtFrom n k r + 1) * (isqrtFrom n k r + 1) := by
  induction k generalizing r with
  | zero => exact ⟨hle, hlt⟩
  | succ k ih =>
    rw [isqrtFrom]
    split
    · rename_i h
      refine ih h (hlt.trans_eq ?_)
      rw [pow_succ]; ring
    · rename_i h
      exact ih hle (not_le.1 h)

theorem isqrt_spec (n : Nat) : isqrt n * isqrt n ≤ n ∧ n < (isqrt n + 1) * (isqrt n + 1) := by
  refine isqrtFrom_spec (Nat.zero_le n) ?_
  rw [zero_add, ← pow_add]
  exact Nat.lt_log2_self.trans_le (Nat.pow_le_pow_right two_pos (by omega))

theorem rootOf_large {f : Fmt} {m : Nat} {e : Int} (hm : 0 < m) : 2 ^ (f.fracBits + 1) ≤ (rootOf f m e).m := by
  have hspec := (isqrt_spec (m * 2 ^ (e % 2).toNat * 2 ^ (2 * (f.fracBits + 3)))).2
  refine Nat.lt_succ_iff.1 (lt_of_mul_self_lt_mul_self₀ (Nat.zero_le _) (lt_of_le_of_lt ?_ hspec))
  rw [← pow_add]
  calc 2 ^ (f.fracBits + 1 + (f.fracBits + 1)) ≤ 2 ^ (2 * (f.fracBits + 3)) := Nat.pow_le_pow_right two_pos (by omega)
    _ ≤ m * 2 ^ (e % 2).toNat * 2 ^ (2 * (f.fracBits + 3)) := Nat.le_mul_of_pos_left _ (by positivity)

/-- The integer root, with a sticky bit for the rest, denotes the square root of a magnitude. -/
theorem rootOf_denotes {f : Fmt} {m : Nat} {e : Int} (hm : 0 < m) : (rootOf f m e).Denotes (Real.sqrt (m * 2 ^ e)) where
  pos := lt_of_lt_of_le (by positivity) (rootOf_large (f := f) (e := e) hm)
  eq := by
    unfold rootOf
    dsimp only
    generalize hk : f.fracBits + 3 = k
    generalize hN : m * 2 ^ (e % 2).toNat * 2 ^ (2 * k) = N
    obtain ⟨hle, hlt⟩ := isqrt_spec N
    have hle' : (isqrt N : ℝ) * isqrt N ≤ N := by exact_mod_cast hle
    have hlt' : (N : ℝ) < (isqrt N + 1) * (isqrt N + 1) := by exact_mod_cast hlt
    have lower : (isqrt N : ℝ) ≤ Real.sqrt N := Real.le_sqrt_of_sq_le (by rw [sq]; exact hle')
    have upper : Real.sqrt N < isqrt N + 1 := (Real.sqrt_lt' (by positivity)).2 (by rw [sq]; exact hlt')
    refine ⟨Real.sqrt N - isqrt N, by linarith, by linarith, ?_, ?_⟩
    · rw [bne_iff_ne, sub_ne_zero, ne_eq, ne_eq, Real.sqrt_eq_iff_mul_self_eq (by positivity) (by positivity), eq_comm]
      norm_cast
    · have hvalue : (m : ℝ) * 2 ^ e = N * (2 ^ (e / 2 - k)) ^ 2 := by
        rw [← hN]
        push_cast
        rw [← zpow_natCast, ← zpow_natCast, ← zpow_natCast, ← zpow_mul, mul_assoc, mul_assoc, ← zpow_add₀ two_ne_zero,
          ← zpow_add₀ two_ne_zero]
        congr 2; push_cast; omega
      rw [add_sub_cancel, hvalue, Real.sqrt_mul (by positivity), Real.sqrt_sq (two_zpow_pos _).le]

/-! ### The operations -/

section Arithmetic

variable {f : Fmt} {env : FpEnv} {a b : Pat f}

/-- A magnitude without a sticky bit is rounded as the real number it is. -/
theorem roundsTo_exact {sign : Bool} {m : Nat} {e : Int} {v : ℝ} (h : 0 < m) (hv : v = m * 2 ^ e) :
    RoundsTo f env sign v (round f env sign ⟨m, e, false⟩) :=
  hv ▸ roundsTo_round (denotes_exact e h) nofun

theorem mantOf_pos (h : isZero f a = false) : 0 < mantOf f a := by
  rw [Nat.pos_iff_ne_zero, ne_eq, mantOf_eq_zero, h]; simp

theorem abs_valueOf_real (f : Fmt) (a : Pat f) : |(valueOf f a : ℝ)| = mantOf f a * 2 ^ scaleOf f a := by
  have := congrArg (Rat.cast : ℚ → ℝ) (abs_valueOf f a)
  push_cast at this; exact this

theorem addValues_numeric (ha : Numeric f a) (hb : Numeric f b) (h : valueOf f a + valueOf f b ≠ 0) :
    RoundsTo f env (decide (valueOf f a + valueOf f b < 0)) |((valueOf f a + valueOf f b : ℚ) : ℝ)|
      (addValues f env a b) := by
  have hx : unitsOf f a + unitsOf f b ≠ 0 := fun h' => h (units_sum_eq_zero.1 h')
  have hsum : valueOf f a + valueOf f b = ((unitsOf f a + unitsOf f b : Int) : ℚ) * 2 ^ (f.emin - f.fracBits) := by
    rw [valueOf_eq_units, valueOf_eq_units, ← add_mul]; push_cast; rfl
  have hsign : valueOf f a + valueOf f b < 0 ↔ unitsOf f a + unitsOf f b < 0 := by
    rw [hsum, ← not_le, ← not_le, mul_nonneg_iff_of_pos_right (zpow_pos two_pos _)]; norm_cast
  have hround : addValues f env a b = round f env (decide (unitsOf f a + unitsOf f b < 0))
      ⟨(unitsOf f a + unitsOf f b).natAbs, f.emin - f.fracBits, false⟩ := by
    simp [addValues, isInf_of_numeric ha, isInf_of_numeric hb, hx]
  rw [hround, decide_eq_decide.2 hsign]
  refine roundsTo_exact (Int.natAbs_pos.2 hx) ?_
  rw [hsum]
  push_cast
  rw [abs_mul, abs_of_pos (two_zpow_pos _), Nat.cast_natAbs]
  push_cast; rfl

/-- The sign of a product or a quotient of values is the sign bits' exclusive or. -/
theorem signs_differ_iff (ha : isZero f a = false) (hb : isZero f b = false) :
    (signOf f a != signOf f b) = true ↔
      (0 < valueOf f a ∧ valueOf f b < 0) ∨ (valueOf f a < 0 ∧ 0 < valueOf f b) := by
  have hpos : ∀ c : Pat f, isZero f c = false → (0 < valueOf f c ↔ signOf f c = false) := fun c hc => by
    have hne : valueOf f c ≠ 0 := by rw [ne_eq, valueOf_eq_zero, hc]; simp
    rw [← Bool.not_eq_true, ← valueOf_neg_iff hc, not_lt, lt_iff_le_and_ne, and_iff_left hne.symm]
  rw [hpos a ha, hpos b hb, valueOf_neg_iff ha, valueOf_neg_iff hb]
  cases signOf f a <;> cases signOf f b <;> simp

theorem isZero_of_value_ne (h : valueOf f a ≠ 0) : isZero f a = false := by
  rw [← Bool.not_eq_true, ← valueOf_eq_zero]; exact h

theorem mulValues_numeric (ha : Numeric f a) (hb : Numeric f b) (h : valueOf f a * valueOf f b ≠ 0) :
    RoundsTo f env (decide (valueOf f a * valueOf f b < 0)) |((valueOf f a * valueOf f b : ℚ) : ℝ)|
      (mulValues f env a b) := by
  have hza := isZero_of_value_ne (left_ne_zero_of_mul h)
  have hzb := isZero_of_value_ne (right_ne_zero_of_mul h)
  have hround : mulValues f env a b = round f env (signOf f a != signOf f b)
      ⟨mantOf f a * mantOf f b, scaleOf f a + scaleOf f b, false⟩ := by
    simp [mulValues, isInf_of_numeric ha, isInf_of_numeric hb, hza, hzb]
  have hsign : decide (valueOf f a * valueOf f b < 0) = (signOf f a != signOf f b) := by
    rw [Bool.eq_iff_iff, decide_eq_true_iff, signs_differ_iff hza hzb, mul_neg_iff]
  rw [hround, hsign]
  refine roundsTo_exact (Nat.mul_pos (mantOf_pos hza) (mantOf_pos hzb)) ?_
  push_cast
  rw [abs_mul, abs_valueOf_real, abs_valueOf_real, zpow_add₀ two_ne_zero]
  ring

theorem divValues_numeric (ha : Numeric f a) (hb : Numeric f b) (ha' : valueOf f a ≠ 0) (hb' : valueOf f b ≠ 0) :
    RoundsTo f env (decide (valueOf f a / valueOf f b < 0)) |((valueOf f a / valueOf f b : ℚ) : ℝ)|
      (divValues f env a b) := by
  have hza := isZero_of_value_ne ha'
  have hzb := isZero_of_value_ne hb'
  have hround : divValues f env a b = round f env (signOf f a != signOf f b)
      (quotient f (mantOf f a) (scaleOf f a) (mantOf f b) (scaleOf f b)) := by
    simp [divValues, isInf_of_numeric ha, isInf_of_numeric hb, hza, hzb]
  have hsign : decide (valueOf f a / valueOf f b < 0) = (signOf f a != signOf f b) := by
    rw [Bool.eq_iff_iff, decide_eq_true_iff, signs_differ_iff hza hzb, div_neg_iff]
  have habs : |((valueOf f a / valueOf f b : ℚ) : ℝ)| =
      (mantOf f a * 2 ^ scaleOf f a) / (mantOf f b * 2 ^ scaleOf f b) := by
    push_cast
    rw [abs_div, abs_valueOf_real, abs_valueOf_real]
  rw [hround, hsign, habs]
  exact roundsTo_round (quotient_denotes (mantOf_pos hza) (mantOf_pos hzb))
    fun _ => lt_log2Of_sub (quotient_large (mantOf_pos hza) (mantOf_pos hzb))

theorem sqrtValue_numeric (ha : Numeric f a) (h : 0 < valueOf f a) :
    RoundsTo f env false (Real.sqrt (valueOf f a)) (sqrtValue f env a) := by
  have hza := isZero_of_value_ne h.ne'
  have hs : signOf f a = false := by
    rw [← Bool.not_eq_true, ← valueOf_neg_iff hza]; exact h.not_gt
  have hround : sqrtValue f env a = round f env false (rootOf f (mantOf f a) (scaleOf f a)) := by
    simp [sqrtValue, isInf_of_numeric ha, hza, hs]
  have habs : (valueOf f a : ℝ) = mantOf f a * 2 ^ scaleOf f a := by
    rw [← abs_valueOf_real, abs_of_pos (by exact_mod_cast h)]
  rw [hround, habs]
  exact roundsTo_round (rootOf_denotes (mantOf_pos hza)) fun _ => lt_log2Of_sub (rootOf_large (mantOf_pos hza))

end Arithmetic

/-- Settles O39: each operation rounds a magnitude that stands for the exact result; a difference is the sum with the negated
operand. -/
theorem roundedArithmetic : Obligations.RoundedArithmetic := by
  intro f env a b ha hb ha' hb'
  have hna := isNan_of_numeric ha
  have hnb := isNan_of_numeric hb
  refine ⟨fun h => ?_, fun h => ?_, fun h => ?_, fun h h' => ?_, fun h => ?_⟩
  · rw [fpAdd_unflushed ha' hb', nanOr_value hna hnb]
    exact addValues_numeric ha hb h
  · rw [sub_eq_add_neg, ← valueOf_fpNeg] at h ⊢
    rw [fpSub_unflushed ha' hb', nanOr_value hna hnb]
    exact addValues_numeric ha (numeric_fpNeg.2 hb) h
  · rw [fpMul_unflushed ha' hb', nanOr_value hna hnb]
    exact mulValues_numeric ha hb h
  · rw [fpDiv_unflushed ha' hb', nanOr_value hna hnb]
    exact divValues_numeric ha hb h h'
  · rw [fpSqrt_unflushed ha', nanOr_value hna hna]
    exact sqrtValue_numeric ha h

/-! ### Conversions -/

theorem doubleToSingle_numeric {env : FpEnv} {a : DWord} (ha : Numeric .dbl a) (ha' : flushes .dbl env a = false)
    (h : valueOf .dbl a ≠ 0) :
    RoundsTo .sgl env (decide (valueOf .dbl a < 0)) |(valueOf .dbl a : ℝ)| (doubleToSingle env a) := by
  have hza := isZero_of_value_ne h
  have hround : doubleToSingle env a = round .sgl env (signOf .dbl a) ⟨mantOf .dbl a, scaleOf .dbl a, false⟩ := by
    simp [doubleToSingle, fzIn_of_not_flushes ha', ha', noteFlush_false, isNan_of_numeric ha, isInf_of_numeric ha, hza]
  have hsign : decide (valueOf .dbl a < 0) = signOf .dbl a := by
    rw [Bool.eq_iff_iff, decide_eq_true_iff, valueOf_neg_iff hza]
  rw [hround, hsign]
  exact roundsTo_exact (mantOf_pos hza) (abs_valueOf_real .dbl a)

theorem intToFp_nonzero {f : Fmt} {env : FpEnv} {unsigned : Bool} {i : Word} {x : Int}
    (hx : x = if unsigned then (i.toNat : Int) else i.toInt) (h : x ≠ 0) :
    RoundsTo f env (decide (x < 0)) |(x : ℝ)| (intToFp f env unsigned i) := by
  have hround : intToFp f env unsigned i = round f env (decide (x < 0)) ⟨x.natAbs, 0, false⟩ := by
    subst hx; exact if_neg h
  rw [hround]
  refine roundsTo_exact (Int.natAbs_pos.2 h) ?_
  rw [zpow_zero, mul_one, Nat.cast_natAbs]
  push_cast; rfl

/-- Settles O40: each conversion rounds the magnitude of the value it converts. -/
theorem roundedConversions : Obligations.RoundedConversions := by
  refine ⟨fun env a ha ha' h => doubleToSingle_numeric ha ha' h, fun f env i => ⟨fun h => ?_, fun h => ?_, ?_⟩⟩
  · have hne : (i.toNat : Int) ≠ 0 := fun h' => h (BitVec.eq_of_toNat_eq (by simpa using h'))
    have := intToFp_nonzero (f := f) (env := env) (unsigned := true) (if_pos rfl).symm hne
    rw [decide_eq_false (not_lt.2 (Int.natCast_nonneg i.toNat))] at this
    simpa using this
  · have hne : i.toInt ≠ 0 := fun h' => h (BitVec.toInt_inj.1 (by simpa using h'))
    exact intToFp_nonzero (unsigned := false) rfl hne
  · rintro rfl unsigned
    cases unsigned <;> simp [intToFp, quiet]

end Sys2Proof.Machine
end

section
/-! PROOFS. The multiply-accumulates complete with the result of MAC (41_mac.md R140 to R148). -/

namespace Sys2Proof.Machine

/-- Settles O21: each instruction is the multiply-accumulate template with its two signs, whose body delivers the result of
`fpMac`; the accumulator is read before it is written, so its register may be written. -/
theorem multiplyAccumulates_complete : Obligations.MultiplyAccumulate := by
  constructor
  · intro c d n m s h ht hl hd hn hm
    have result := fun np na i =>
      multiplyAccumulate_delivered (f := .sgl) (double := false) (np := np) (na := na) (i := i) h ht hl hd hn hm
    exact ⟨result false false (.fmacs c d n m), result true false (.fnmacs c d n m), result false true (.fmscs c d n m),
      result true true (.fnmscs c d n m)⟩
  · intro c d n m s h ht hl hd hn hm
    have result := fun np na i =>
      multiplyAccumulate_delivered (f := .dbl) (double := true) (np := np) (na := na) (i := i) h ht hl hd hn hm
    exact ⟨result false false (.fmacd c d n m), result true false (.fnmacd c d n m), result false true (.fmscd c d n m),
      result true true (.fnmscd c d n m)⟩

end Sys2Proof.Machine
end

section
/-! PROOFS. The eight comparisons complete with their relation and exceptions (42_compare.md R151 to R160, R164). -/

namespace Sys2Proof.Machine

/-! ### Comparison bodies that answer -/

theorem compareRegs_of_readable {f : Fmt} {e : Bool} {d m : VReg f} {s : State} (hd : Readable f d s) (hm : Readable f m s) :
    compareRegs f e d m s = deliverFlags (compareValues f (fpEnv s) e (s.rawReg f d) (s.rawReg f m)) s := by
  simp only [compareRegs, readReg_of_readable hd, readReg_of_readable hm, ok_bind]

theorem zeroPat_false (f : Fmt) : zeroPat f false = 0 := by cases f <;> decide

theorem compareWithZero_of_readable {f : Fmt} {e : Bool} {d : VReg f} {s : State} (hd : Readable f d s) :
    compareWithZero f e d s = deliverFlags (compareValues f (fpEnv s) e (s.rawReg f d) 0) s := by
  simp only [compareWithZero, readReg_of_readable hd, ok_bind, zeroPat_false]

section Template

variable {f : Fmt} {e : Bool} {c : Cond} {i : Instr} {double : Bool} {s : State}

theorem compareRegs_compared {d m : VReg f} (h : Ready c double s) (ht : Untrapped s) (hd : Readable f d s)
    (hm : Readable f m s) :
    ∃ t, instruction c i double (compareRegs f e d m) s = .next t ∧
      Compared (compareValues f (fpEnv s) e (s.rawReg f d) (s.rawReg f m)) s t :=
  instruction_compared h ht (compareRegs_of_readable hd hm)

theorem compareWithZero_compared {d : VReg f} (h : Ready c double s) (ht : Untrapped s) (hd : Readable f d s) :
    ∃ t, instruction c i double (compareWithZero f e d) s = .next t ∧
      Compared (compareValues f (fpEnv s) e (s.rawReg f d) 0) s t :=
  instruction_compared h ht (compareWithZero_of_readable hd)

end Template

/-- Settles O22: each instruction is a comparison template, run without a check of `LEN`, whose body ends with the flags and
exceptions of `compareValues`. -/
theorem comparisons : Obligations.Comparisons := by
  refine ⟨fun c d m s h ht hd hm => ?_, fun c d s h ht hd => ?_, fun c d m s h ht hd hm => ?_, fun c d s h ht hd => ?_⟩
  · have result := fun e i => compareRegs_compared (f := .sgl) (double := false) (e := e) (i := i) h ht hd hm
    exact ⟨result false (.fcmps c d m), result true (.fcmpes c d m)⟩
  · have result := fun e i => compareWithZero_compared (f := .sgl) (double := false) (e := e) (i := i) h ht hd
    exact ⟨result false (.fcmpzs c d), result true (.fcmpezs c d)⟩
  · have result := fun e i => compareRegs_compared (f := .dbl) (double := true) (e := e) (i := i) h ht hd hm
    exact ⟨result false (.fcmpd c d m), result true (.fcmped c d m)⟩
  · have result := fun e i => compareWithZero_compared (f := .dbl) (double := true) (e := e) (i := i) h ht hd
    exact ⟨result false (.fcmpzd c d), result true (.fcmpezd c d)⟩

end Sys2Proof.Machine
end

section
/-! PROOFS. The relation a comparison finds is that of the two places on the extended real line (42_compare.md R150). -/

namespace Sys2Proof.Machine

/-! ### Places on the extended real line -/

section Places

variable {f : Fmt} {a b : Pat f}

theorem extendedValue_of_isInf (h : isInf f a = true) :
    extendedValue f a = if signOf f a then ⊥ else ⊤ := if_pos h

theorem extendedValue_of_finite (h : isInf f a = false) :
    extendedValue f a = ((valueOf f a : WithTop ℚ) : WithBot (WithTop ℚ)) := if_neg (by simp [h])

theorem finite_lt_top (v : ℚ) : ((v : WithTop ℚ) : WithBot (WithTop ℚ)) < ⊤ := WithBot.coe_lt_coe.2 (WithTop.coe_lt_top v)

/-- Numeric patterns lie on the line as their integers of the smallest denormalized magnitude. -/
theorem valueOf_lt_iff : valueOf f a < valueOf f b ↔ unitsOf f a < unitsOf f b := by
  rw [valueOf_eq_units, valueOf_eq_units, mul_lt_mul_iff_left₀ (zpow_pos two_pos _), Int.cast_lt]

theorem valueOf_eq_iff : valueOf f a = valueOf f b ↔ unitsOf f a = unitsOf f b := by
  rw [valueOf_eq_units, valueOf_eq_units, mul_left_inj' (zpow_ne_zero _ two_ne_zero), Int.cast_inj]

end Places

/-! ### The relation found -/

/-- The relation holds between two places on a line, where nothing is unordered. -/
def Relation.Holds {α : Type} [LT α] (x y : α) : Relation → Prop
  | .equal => x = y
  | .less => x < y
  | .greater => y < x
  | .unordered => False

/-- Precisely one relation holds between two places of a line (R150). -/
theorem Relation.Holds.unique {α : Type} [LinearOrder α] {x y : α} {r : Relation} (h : r.Holds x y) :
    (r = .equal ↔ x = y) ∧ (r = .less ↔ x < y) ∧ (r = .greater ↔ y < x) ∧ r ≠ .unordered := by
  cases r with
  | equal => cases (h : x = y); simp
  | less => have h : x < y := h; simp [h, h.ne, h.le]
  | greater => have h : y < x := h; simp [h, h.ne', h.le]
  | unordered => exact h.elim

section Compare

variable {f : Fmt} {a b : Pat f}

theorem fpCompare_unordered (h : isNan f a = true ∨ isNan f b = true) : fpCompare f a b = .unordered :=
  if_pos (by simpa using h)

/-- An infinity on the left is at an end of the line: its own sign decides, unless the right operand is at the same end. -/
theorem fpCompare_inf_left (ha : isInf f a = true) (hna : isNan f a = false) (hnb : isNan f b = false) :
    (fpCompare f a b).Holds (extendedValue f a) (extendedValue f b) := by
  cases hb : isInf f b with
  | true =>
    rw [extendedValue_of_isInf ha, extendedValue_of_isInf hb]
    cases hsa : signOf f a <;> cases hsb : signOf f b <;>
      simp [fpCompare, hna, hnb, ha, hb, hsa, hsb, Relation.Holds]
  | false =>
    rw [extendedValue_of_isInf ha, extendedValue_of_finite hb]
    cases hsa : signOf f a <;>
      simp [fpCompare, hna, hnb, ha, hb, hsa, Relation.Holds, WithBot.bot_lt_coe, finite_lt_top]

/-- An infinity on the right only: its sign decides. -/
theorem fpCompare_inf_right (ha : isInf f a = false) (hb : isInf f b = true) (hna : isNan f a = false)
    (hnb : isNan f b = false) : (fpCompare f a b).Holds (extendedValue f a) (extendedValue f b) := by
  rw [extendedValue_of_finite ha, extendedValue_of_isInf hb]
  cases hsb : signOf f b <;>
    simp [fpCompare, hna, hnb, ha, hb, hsb, Relation.Holds, WithBot.bot_lt_coe, finite_lt_top]

/-- Two finite operands are compared as integers in the same unit, in which both zeros are 0. -/
theorem fpCompare_finite (ha : isInf f a = false) (hb : isInf f b = false) (hna : isNan f a = false)
    (hnb : isNan f b = false) : (fpCompare f a b).Holds (extendedValue f a) (extendedValue f b) := by
  rw [extendedValue_of_finite ha, extendedValue_of_finite hb]
  rcases lt_trichotomy (unitsOf f a) (unitsOf f b) with hlt | heq | hgt
  · have answer : fpCompare f a b = .less := by simp [fpCompare, hna, hnb, ha, hb, hlt, hlt.ne]
    rw [answer]
    exact WithBot.coe_lt_coe.2 (WithTop.coe_lt_coe.2 (valueOf_lt_iff.2 hlt))
  · have answer : fpCompare f a b = .equal := by simp [fpCompare, hna, hnb, ha, hb, heq]
    rw [answer, valueOf_eq_iff.2 heq]
    rfl
  · have answer : fpCompare f a b = .greater := by simp [fpCompare, hna, hnb, ha, hb, hgt.not_gt, hgt.ne']
    rw [answer]
    exact WithBot.coe_lt_coe.2 (WithTop.coe_lt_coe.2 (valueOf_lt_iff.2 hgt))

theorem fpCompare_holds (hna : isNan f a = false) (hnb : isNan f b = false) :
    (fpCompare f a b).Holds (extendedValue f a) (extendedValue f b) := by
  cases ha : isInf f a with
  | true => exact fpCompare_inf_left ha hna hnb
  | false =>
    cases hb : isInf f b with
    | true => exact fpCompare_inf_right ha hb hna hnb
    | false => exact fpCompare_finite ha hb hna hnb

theorem compareValues_relation (env : FpEnv) (e : Bool) (a b : Pat f) :
    (compareValues f env e a b).relation = fpCompare f (fzIn f env a) (fzIn f env b) := rfl

/-- Without a flushed operand a comparison signals Invalid Operation or nothing (R152). -/
theorem compareValues_exc_unflushed {env : FpEnv} {e : Bool} (ha : flushes f env a = false) (hb : flushes f env b = false) :
    (compareValues f env e a b).exc =
      if isSnan f a || isSnan f b || (e && (isNan f a || isNan f b)) then ExcSet.invalid else .none := by
  simp only [compareValues, fzIn_of_not_flushes ha, fzIn_of_not_flushes hb, ha, hb, Bool.or_self, Bool.false_and]
  exact excSet_union_none _

end Compare

/-- Settles O44: the relation is that of `fpCompare` on the flushed operands, which holds between their places and so is the
only one that does. -/
theorem comparisonRelation : Obligations.ComparisonRelation := by
  intro f env e a b
  refine ⟨fun h => ?_, fun hna hnb => ?_, compareValues_exc_unflushed⟩
  · rw [compareValues_relation, fpCompare_unordered h]
  · rw [compareValues_relation]
    exact (fpCompare_holds hna hnb).unique

end Sys2Proof.Machine
end

section
/-! PROOFS. The conversions complete with the converted value (43_convert.md R171 to R188). -/

namespace Sys2Proof.Machine

/-- A conversion reads a register of one format and delivers to one of another, without a check of `LEN`. -/
theorem conversion_delivered {g f : Fmt} {op : FpEnv → Pat g → FpResult f} {d : VReg f} {m : VReg g} {c : Cond} {i : Instr}
    {double : Bool} {s : State} (h : Ready c double s) (ht : Untrapped s) (hm : Readable g m s) (hd : Writable f d s) :
    ∃ t, instruction c i double (unary g f op d m) s = .next t ∧ Delivered f d (op (fpEnv s) (s.rawReg g m)) s t :=
  instruction_delivered h ht hd (unary_of_readable hm)

/-- Settles O23: each instruction is the conversion template, whose body delivers the converted value. -/
theorem precisionConversions : Obligations.PrecisionConversions :=
  ⟨fun _ _ _ _ h ht hm hd => conversion_delivered (g := .sgl) (f := .dbl) h ht hm hd,
    fun _ _ _ _ h ht hm hd => conversion_delivered (g := .dbl) (f := .sgl) h ht hm hd⟩

/-- Settles O24: each instruction is the conversion template with its signedness, and with the mode of the FPSCR or, in the Z
forms, RZ. -/
theorem integerResults : Obligations.IntegerResults := by
  constructor
  · intro c d m s h ht hm hd
    have result := fun op i => conversion_delivered (g := .sgl) (f := .sgl) (double := false) (op := op) (i := i) h ht hm hd
    exact ⟨result (fun env a => fpToInt .sgl env true env.mode a) (.ftouis c d m),
      result (fun env a => fpToInt .sgl env true .rz a) (.ftouizs c d m),
      result (fun env a => fpToInt .sgl env false env.mode a) (.ftosis c d m),
      result (fun env a => fpToInt .sgl env false .rz a) (.ftosizs c d m)⟩
  · intro c d m s h ht hm hd
    have result := fun op i => conversion_delivered (g := .dbl) (f := .sgl) (double := true) (op := op) (i := i) h ht hm hd
    exact ⟨result (fun env a => fpToInt .dbl env true env.mode a) (.ftouid c d m),
      result (fun env a => fpToInt .dbl env true .rz a) (.ftouizd c d m),
      result (fun env a => fpToInt .dbl env false env.mode a) (.ftosid c d m),
      result (fun env a => fpToInt .dbl env false .rz a) (.ftosizd c d m)⟩

/-- Settles O25: each instruction is the conversion template with its signedness; the integer is the bits of a single-precision
register. -/
theorem integerOperands : Obligations.IntegerOperands := by
  constructor
  · intro c d m s h ht hm hd
    have result := fun op i => conversion_delivered (g := .sgl) (f := .sgl) (double := false) (op := op) (i := i) h ht hm hd
    exact ⟨result (fun env a => intToFp .sgl env true a) (.fuitos c d m),
      result (fun env a => intToFp .sgl env false a) (.fsitos c d m)⟩
  · intro c d m s h ht hm hd
    have result := fun op i => conversion_delivered (g := .sgl) (f := .dbl) (double := true) (op := op) (i := i) h ht hm hd
    exact ⟨result (fun env a => intToFp .dbl env true a) (.fuitod c d m),
      result (fun env a => intToFp .dbl env false a) (.fsitod c d m)⟩

end Sys2Proof.Machine
end

section
/-! PROOFS. A float-to-integer conversion rounds the value to an integer, and answers it or an end of the range (43_convert.md
R175). -/

namespace Sys2Proof.Machine

/-! ### Rounding to an integer -/

/-- The integer of a given sign and magnitude. -/
def signedInt (sign : Bool) (n : Nat) : Int := if sign then -n else n

/-- The sign changes neither how far an integer is from a value nor its parity. -/
theorem signedInt_distance (sign : Bool) (w : ℚ) (n : Nat) :
    |(if sign then -1 else 1) * w - (signedInt sign n : ℚ)| = |w - n| := by
  cases sign with
  | false => simp [signedInt]
  | true => simp [signedInt, abs_sub_comm w, neg_add_eq_sub]

theorem signedInt_mod_two (sign : Bool) (n : Nat) : signedInt sign n % 2 = 0 ↔ n % 2 = 0 := by
  unfold signedInt; split <;> omega

/-- A choice between multiples of 1 for the magnitude of a value is a choice between integers for the value. -/
theorem intChosen_of_chosen {mode : RMode} {sign : Bool} {w : ℚ} {n : Nat} (hw : 0 ≤ w) (h : Chosen mode sign w 0 n) :
    IntChosen mode ((if sign then -1 else 1) * w) (signedInt sign n) := by
  obtain ⟨hd, hm⟩ := h
  simp only [zpow_zero, mul_one] at hd hm
  norm_cast at hd
  obtain ⟨hlower, hupper⟩ := abs_lt.1 hd
  unfold IntChosen
  cases mode with
  | rn =>
    dsimp only at hm ⊢
    rw [signedInt_distance, signedInt_mod_two]
    rw [show (1 / 2 : ℝ) = ((1 / 2 : ℚ) : ℝ) by norm_num] at hm
    exact_mod_cast hm
  | rz =>
    dsimp only at hm ⊢
    norm_cast at hm
    have hmag : |(signedInt sign n : ℚ)| = n := by cases sign <;> simp [signedInt]
    have hval : |(if sign then -1 else 1) * w| = w := by cases sign <;> simp [abs_of_nonneg hw]
    rw [hmag, hval]
    refine ⟨hm, by linarith, ?_⟩
    cases sign <;> simp [signedInt] <;> positivity
  | rp =>
    dsimp only at hm ⊢
    refine (Int.ceil_eq_iff.2 ?_).symm
    cases sign with
    | false =>
      have hle : w ≤ n := by exact_mod_cast hm
      simp only [signedInt, Bool.false_eq_true, if_false, one_mul, Int.cast_natCast]
      exact ⟨by linarith, hle⟩
    | true =>
      have hle : (n : ℚ) ≤ w := by exact_mod_cast hm
      simp only [signedInt, if_true, neg_one_mul, Int.cast_neg, Int.cast_natCast]
      exact ⟨by linarith, by linarith⟩
  | rm =>
    dsimp only at hm ⊢
    refine (Int.floor_eq_iff.2 ?_).symm
    cases sign with
    | false =>
      have hle : (n : ℚ) ≤ w := by exact_mod_cast hm
      simp only [signedInt, Bool.false_eq_true, if_false, one_mul, Int.cast_natCast]
      exact ⟨hle, by linarith⟩
    | true =>
      have hle : w ≤ n := by exact_mod_cast hm
      simp only [signedInt, if_true, neg_one_mul, Int.cast_neg, Int.cast_natCast]
      exact ⟨by linarith, by linarith⟩

theorem roundAt_zero (mode : RMode) (sign : Bool) (e q : Int) : roundAt mode sign ⟨0, e, false⟩ q = (0, false) := by
  unfold roundAt
  split
  · simp
  · have hpos : 0 < 2 ^ (q - e).toNat := by positivity
    have hcmp : compare 0 (2 ^ (q - e).toNat) = .lt := compare_lt_iff_lt.2 hpos
    cases mode <;> simp [roundsUp, hcmp]

theorem roundToInt_eq (f : Fmt) (mode : RMode) (a : Pat f) :
    roundToInt f mode a =
      (signedInt (signOf f a) (roundAt mode (signOf f a) ⟨mantOf f a, scaleOf f a, false⟩ 0).1,
        (roundAt mode (signOf f a) ⟨mantOf f a, scaleOf f a, false⟩ 0).2) := rfl

/-- `roundAt` at the unit 1 chooses between the two integers next to the magnitude of a pattern. -/
theorem roundAt_mant_chosen (f : Fmt) (mode : RMode) (sign : Bool) (a : Pat f) :
    Chosen mode sign (|valueOf f a| : ℚ) 0 (roundAt mode sign ⟨mantOf f a, scaleOf f a, false⟩ 0).1 ∧
      ((roundAt mode sign ⟨mantOf f a, scaleOf f a, false⟩ 0).2 = true ↔
        ((roundAt mode sign ⟨mantOf f a, scaleOf f a, false⟩ 0).1 : ℚ) ≠ |valueOf f a|) := by
  rw [abs_valueOf]
  rcases Nat.eq_zero_or_pos (mantOf f a) with h0 | hpos
  · rw [h0, roundAt_zero]
    simpa using chosen_natCast mode sign 0
  · obtain ⟨hchosen, hinexact⟩ := (denotes_exact (scaleOf f a) hpos).roundAt mode sign (q := 0) nofun
    refine ⟨by push_cast; exact hchosen, hinexact.trans (not_congr ?_)⟩
    rw [zpow_zero, mul_one, ← Rat.cast_inj (α := ℝ)]
    push_cast; rfl

theorem roundToInt_chosen (f : Fmt) (mode : RMode) (a : Pat f) : IntChosen mode (valueOf f a) (roundToInt f mode a).1 := by
  rw [roundToInt_eq, valueOf_eq_mant, ← abs_valueOf]
  exact intChosen_of_chosen (abs_nonneg _) (roundAt_mant_chosen f mode _ a).1

theorem roundToInt_inexact (f : Fmt) (mode : RMode) (a : Pat f) :
    (roundToInt f mode a).2 = true ↔ ((roundToInt f mode a).1 : ℚ) ≠ valueOf f a := by
  rw [roundToInt_eq]
  refine (roundAt_mant_chosen f mode _ a).2.trans (not_congr ?_)
  rw [← sub_eq_zero, ← abs_eq_zero, abs_sub_comm, ← signedInt_distance (signOf f a), abs_eq_zero, sub_eq_zero, abs_valueOf,
    ← valueOf_eq_mant]
  exact eq_comm

/-! ### The range of the destination -/

theorem intMax_eq (unsigned : Bool) : intMax unsigned = if unsigned then 4294967295 else 2147483647 := by
  cases unsigned <;> rfl

theorem intMin_eq (unsigned : Bool) : intMin unsigned = if unsigned then 0 else -2147483648 := by cases unsigned <;> rfl

theorem intMin_le_intMax (unsigned : Bool) : intMin unsigned ≤ intMax unsigned := by cases unsigned <;> decide

section ToInt

variable {f : Fmt} {unsigned : Bool} {mode : RMode} {a : Pat f}

theorem isNan_of_isInf (h : isInf f a = true) : isNan f a = false := by
  rw [← Bool.not_eq_true, isNan_iff]; exact fun h' => h'.2 (isInf_iff.1 h).2

/-- A pattern that is neither numeric nor an infinity is a NaN. -/
theorem isNan_of_not_numeric (h : ¬Numeric f a) (hinf : isInf f a = false) : isNan f a = true := by
  have hexp : expOf f a = f.expOnes := not_not.1 h
  refine isNan_iff.2 ⟨hexp, fun hfrac => ?_⟩
  rw [isInf_iff.2 ⟨hexp, hfrac⟩] at hinf
  cases hinf

theorem toIntValue_nan (h : isNan f a = true) : toIntValue f unsigned mode a = invalidInt 0 := if_pos h

theorem toIntValue_inf (h : isInf f a = true) :
    toIntValue f unsigned mode a = invalidInt (if signOf f a then intMin unsigned else intMax unsigned) := by
  simp [toIntValue, isNan_of_isInf h, h]

theorem toIntValue_numeric (h : Numeric f a) :
    toIntValue f unsigned mode a =
      if intMax unsigned < (roundToInt f mode a).1 then invalidInt (intMax unsigned)
      else if (roundToInt f mode a).1 < intMin unsigned then invalidInt (intMin unsigned)
      else ⟨BitVec.ofInt 32 (roundToInt f mode a).1, { ExcSet.none with inexact := (roundToInt f mode a).2 }⟩ := by
  simp [toIntValue, isNan_of_numeric h, isInf_of_numeric h]

/-- An integer and exceptions that a conversion of `a` may answer (R175). -/
structure ConvertsTo (f : Fmt) (unsigned : Bool) (mode : RMode) (a : Pat f) (i : Int) (exc : ExcSet) : Prop where
  nan : isNan f a = true → i = 0 ∧ exc = .invalid
  inf : isInf f a = true → i = (if signOf f a then intMin unsigned else intMax unsigned) ∧ exc = .invalid
  numeric : Numeric f a → ∃ k : Int, IntChosen mode (valueOf f a) k ∧
    (intMax unsigned < k → i = intMax unsigned ∧ exc = .invalid) ∧
    (k < intMin unsigned → i = intMin unsigned ∧ exc = .invalid) ∧
    (intMin unsigned ≤ k → k ≤ intMax unsigned →
      i = k ∧ ∃ inexact : Bool, (inexact = true ↔ (k : ℚ) ≠ valueOf f a) ∧ exc = { ExcSet.none with inexact := inexact })

theorem toIntValue_convertsTo (f : Fmt) (unsigned : Bool) (mode : RMode) (a : Pat f) :
    ∃ i exc, toIntValue f unsigned mode a = ⟨BitVec.ofInt 32 i, exc⟩ ∧ ConvertsTo f unsigned mode a i exc := by
  by_cases hnum : Numeric f a
  · have hnan : isNan f a ≠ true := by simp [isNan_of_numeric hnum]
    have hinf : isInf f a ≠ true := by simp [isInf_of_numeric hnum]
    have hrange := intMin_le_intMax unsigned
    have hchosen := roundToInt_chosen f mode a
    rw [toIntValue_numeric hnum]
    split
    · rename_i hhigh
      exact ⟨_, _, rfl, fun h => absurd h hnan, fun h => absurd h hinf,
        fun _ => ⟨_, hchosen, fun _ => ⟨rfl, rfl⟩, fun _ => by omega, fun _ _ => by omega⟩⟩
    · split
      · rename_i hlow
        exact ⟨_, _, rfl, fun h => absurd h hnan, fun h => absurd h hinf,
          fun _ => ⟨_, hchosen, fun _ => by omega, fun _ => ⟨rfl, rfl⟩, fun _ _ => by omega⟩⟩
      · exact ⟨_, _, rfl, fun h => absurd h hnan, fun h => absurd h hinf,
          fun _ => ⟨_, hchosen, fun _ => by omega, fun _ => by omega,
            fun _ _ => ⟨rfl, _, roundToInt_inexact f mode a, rfl⟩⟩⟩
  · cases hinf : isInf f a with
    | true =>
      exact ⟨_, _, toIntValue_inf hinf, fun h => absurd h (by simp [isNan_of_isInf hinf]), fun _ => ⟨rfl, rfl⟩,
        fun h => absurd h hnum⟩
    | false =>
      exact ⟨_, _, toIntValue_nan (isNan_of_not_numeric hnum hinf), fun _ => ⟨rfl, rfl⟩, fun h => absurd h (by simp [hinf]),
        fun h => absurd h hnum⟩

end ToInt

/-- Settles O46: the conversion of the flushed operand, which is a NaN, an infinity or numeric. -/
theorem integerConversion : Obligations.IntegerConversion := by
  intro f env unsigned mode a
  obtain ⟨i, exc, hvalue, hconv⟩ := toIntValue_convertsTo f unsigned mode (fzIn f env a)
  refine ⟨i, exc, by rw [fpToInt, noteFlush_val, hvalue], fun h => ?_, hconv.nan, ?_, ?_⟩
  · rw [fpToInt, h, noteFlush_false, hvalue]
  · simpa only [intMax_eq, intMin_eq] using hconv.inf
  · simpa only [intMax_eq, intMin_eq] using hconv.numeric

end Sys2Proof.Machine
end

section
/-! PROOFS. Exact conversions: single to double precision and back, integer to double precision and back (43_convert.md R171,
R172, R175, R184). -/

namespace Sys2Proof.Machine

/-! ### Real numbers that a format represents -/

/-- A positive real number that the format represents: a multiple of its unit in the last place, `MaxNorm_F` at most (R110). -/
structure Representable (f : Fmt) (v : ℝ) : Prop where
  pos : 0 < v
  bound : v ≤ maxNorm f
  multiple : ∃ k : Nat, v = k * 2 ^ (max (Int.log 2 v) f.emin - f.fracBits)

/-- A significand that fits the format, in the range of its exponents, is represented. -/
theorem representable_of_significand {f : Fmt} {m : Nat} {e : Int} (hpos : 0 < m) (hm : m < 2 ^ (f.fracBits + 1))
    (hlow : f.emin - f.fracBits ≤ e) (hhigh : e ≤ f.emax - f.fracBits) : Representable f (m * 2 ^ e) where
  pos := mul_pos (by exact_mod_cast hpos) (two_zpow_pos e)
  bound := by
    have hm' : (m : ℝ) ≤ 2 ^ (f.fracBits + 1) - 1 := by
      have : (m : ℝ) + 1 ≤ 2 ^ (f.fracBits + 1) := by exact_mod_cast hm
      linarith
    rw [maxNorm_eq]
    exact mul_le_mul hm' (zpow_le_zpow_right₀ one_le_two hhigh) (two_zpow_pos _).le (m.cast_nonneg.trans hm')
  multiple := by
    have hlog : m.log2 < f.fracBits + 1 := (Nat.log2_lt hpos.ne').2 hm
    rw [(denotes_exact e hpos).log_eq, log2Of]
    dsimp only
    generalize hq : max ((m.log2 : Int) + e) f.emin - f.fracBits = q
    refine ⟨m * 2 ^ (e - q).toNat, ?_⟩
    push_cast
    rw [mul_assoc, ← zpow_natCast, Int.toNat_of_nonneg (by omega), ← zpow_add₀ two_ne_zero, sub_add_cancel]

/-- A mode chooses the value itself where it is a multiple. -/
theorem Chosen.eq_of_multiple {mode : RMode} {sign : Bool} {q : Int} {n k : Nat} (h : Chosen mode sign (k * 2 ^ q) q n) :
    n = k := chosen_unique h (chosen_scaled.2 (chosen_natCast mode sign k))

/-- Rounding a number that the format represents, and that is not flushed, answers it exactly. -/
theorem RoundsTo.exact {f : Fmt} {env : FpEnv} {sign : Bool} {v : ℝ} {r : FpResult f} (h : RoundsTo f env sign v r)
    (hv : Representable f v) (hflush : ¬(env.fz = true ∧ v < 2 ^ f.emin)) :
    r.exc = .none ∧ signOf f r.val = sign ∧ Numeric f r.val ∧ |(valueOf f r.val : ℝ)| = v := by
  obtain ⟨k, hk⟩ := hv.multiple
  rw [RoundsTo, if_neg hflush] at h
  obtain ⟨n, q, rfl, hchosen, hsign, h⟩ := h
  generalize max (Int.log 2 v) f.emin - f.fracBits = q at *
  subst hk
  cases hchosen.eq_of_multiple
  rw [if_neg (not_lt.2 hv.bound)] at h
  obtain ⟨hnum, hvalue, underflow, inexact, hexc, hinexact, hunderflow⟩ := h
  have hi : inexact = false := by simpa using hinexact
  have hu : underflow = false := by simpa using hunderflow
  exact ⟨by rw [hexc, hi, hu]; rfl, hsign, hnum, hvalue⟩

/-- Encoding a number that the format represents gives its pattern. -/
theorem encodeExact_of_representable {f : Fmt} {m : Nat} {e : Int} (sign : Bool) (hpos : 0 < m)
    (hv : Representable f (m * 2 ^ e)) :
    signOf f (encodeExact f sign ⟨m, e, false⟩) = sign ∧ Numeric f (encodeExact f sign ⟨m, e, false⟩) ∧
      |(valueOf f (encodeExact f sign ⟨m, e, false⟩) : ℝ)| = m * 2 ^ e := by
  have hx := denotes_exact e hpos
  have hq : ulpExp f ⟨m, e, false⟩ = max (Int.log 2 ((m : ℝ) * 2 ^ e)) f.emin - f.fracBits := by rw [hx.log_eq]; rfl
  obtain ⟨hchosen, -⟩ := hx.roundAt .rz sign (q := ulpExp f ⟨m, e, false⟩) nofun
  have hsig := hx.significand hchosen
  obtain ⟨k, hk⟩ := hv.multiple
  rw [← hq] at hk
  have hn : ((roundAt .rz sign ⟨m, e, false⟩ (ulpExp f ⟨m, e, false⟩)).1 : ℝ) * 2 ^ ulpExp f ⟨m, e, false⟩ = m * 2 ^ e := by
    rw [hk] at hchosen ⊢
    rw [hchosen.eq_of_multiple]
  have hmax := not_lt.1 fun hover => absurd (hsig.overflow_iff.1 hover) (by rw [hn]; exact not_lt.2 hv.bound)
  rw [← hn]
  exact hsig.encodePat hmax

/-! ### Patterns and their values -/

section Patterns

variable {f : Fmt} {a b : Pat f}

theorem mantOf_lt (f : Fmt) (a : Pat f) : mantOf f a < 2 ^ (f.fracBits + 1) := by
  have := fracOf_lt f a
  unfold mantOf
  split <;> omega

theorem le_scaleOf (f : Fmt) (a : Pat f) : f.emin - f.fracBits ≤ scaleOf f a := by
  have := fmt_emin_eq f
  unfold scaleOf
  split
  · exact le_rfl
  · rename_i h
    have : expOf f a ≠ 0 := by simpa using h
    omega

theorem scaleOf_le (h : Numeric f a) : scaleOf f a ≤ f.emax - f.fracBits := by
  have hexp : expOf f a < f.expOnes := Nat.lt_of_le_of_ne (Nat.le_pred_of_lt (expOf_lt f a)) h
  have hones := fmt_expOnes_eq f
  have := fmt_emin_le_emax f
  unfold scaleOf
  split <;> omega

theorem representable_valueOf (h : Numeric f a) (h0 : isZero f a = false) : Representable f |(valueOf f a : ℝ)| := by
  rw [abs_valueOf_real]
  exact representable_of_significand (mantOf_pos h0) (mantOf_lt f a) (le_scaleOf f a) (scaleOf_le h)

/-- The magnitudes below `2^(E - bias)` are those with an exponent field below `E`. -/
theorem abs_valueOf_lt_zpow_iff {E : Nat} (hE : 0 < E) :
    |(valueOf f a : ℝ)| < 2 ^ ((E : Int) - f.emax) ↔ expOf f a < E := by
  have hfrac := fracOf_lt f a
  have hemin := fmt_emin_eq f
  have below : ∀ k : Nat, mantOf f a < 2 ^ k → k + scaleOf f a ≤ E - f.emax →
      |(valueOf f a : ℝ)| < 2 ^ ((E : Int) - f.emax) := by
    intro k hm hk
    have hm' : (mantOf f a : ℝ) < 2 ^ k := by exact_mod_cast hm
    calc |(valueOf f a : ℝ)| = mantOf f a * 2 ^ scaleOf f a := abs_valueOf_real f a
      _ < 2 ^ k * 2 ^ scaleOf f a := mul_lt_mul_of_pos_right hm' (two_zpow_pos _)
      _ = 2 ^ (k + scaleOf f a) := by rw [zpow_add₀ two_ne_zero, zpow_natCast]
      _ ≤ 2 ^ ((E : Int) - f.emax) := zpow_le_zpow_right₀ one_le_two hk
  by_cases h0 : expOf f a = 0
  · refine iff_of_true (below f.fracBits ?_ ?_) (by omega)
    · simpa [mantOf, h0] using hfrac
    · simp [scaleOf, h0]; omega
  · have hs : scaleOf f a = expOf f a - f.emax - f.fracBits := by simp [scaleOf, h0]
    rcases Nat.lt_or_ge (expOf f a) E with hlt | hge
    · exact iff_of_true (below (f.fracBits + 1) (mantOf_lt f a) (by rw [hs]; push_cast; omega)) hlt
    · have hm : (2 : ℝ) ^ f.fracBits ≤ mantOf f a := by
        have : 2 ^ f.fracBits ≤ mantOf f a := by simp [mantOf, h0]
        exact_mod_cast this
      refine iff_of_false (not_lt.2 ?_) (by omega)
      calc (2 : ℝ) ^ ((E : Int) - f.emax) ≤ 2 ^ (f.fracBits + scaleOf f a) := zpow_le_zpow_right₀ one_le_two (by omega)
        _ = 2 ^ f.fracBits * 2 ^ scaleOf f a := by rw [zpow_add₀ two_ne_zero, zpow_natCast]
        _ ≤ mantOf f a * 2 ^ scaleOf f a := mul_le_mul_of_nonneg_right hm (two_zpow_pos _).le
        _ = |(valueOf f a : ℝ)| := (abs_valueOf_real f a).symm

/-- The patterns below `MinNorm_F` are those with exponent field 0. -/
theorem abs_valueOf_lt_iff : |(valueOf f a : ℝ)| < 2 ^ f.emin ↔ expOf f a = 0 := by
  rw [fmt_emin_eq, ← Nat.lt_one_iff]
  exact abs_valueOf_lt_zpow_iff Nat.one_pos

theorem isDenorm_of_large (h : 2 ^ f.emin ≤ |(valueOf f a : ℝ)|) : isDenorm f a = false := by
  have : expOf f a ≠ 0 := fun h0 => absurd (abs_valueOf_lt_iff.2 h0) (not_lt.2 h)
  simp [isDenorm, this]

theorem flushes_of_not_isDenorm {env : FpEnv} (h : isDenorm f a = false) : flushes f env a = false := by simp [flushes, h]

theorem flushes_of_isInf {env : FpEnv} (h : isInf f a = true) : flushes f env a = false :=
  flushes_of_not_isDenorm (by simp [isDenorm, (isInf_iff.1 h).2])

theorem flushes_of_isZero {env : FpEnv} (h : isZero f a = true) : flushes f env a = false :=
  flushes_of_not_isDenorm (by simp [isDenorm, (isZero_iff.1 h).2])

theorem flushes_false_iff {env : FpEnv} (h0 : isZero f a = false) :
    flushes f env a = false ↔ ¬(env.fz = true ∧ |(valueOf f a : ℝ)| < 2 ^ f.emin) := by
  rw [abs_valueOf_lt_iff]
  simp only [flushes, isDenorm, isZero] at h0 ⊢
  cases env.fz <;> simp_all

/-- A pattern is its sign bit, its exponent field and its fraction. -/
theorem pat_ext (hs : signOf f a = signOf f b) (he : expOf f a = expOf f b) (ht : fracOf f a = fracOf f b) : a = b := by
  rw [signOf, signOf, BitVec.msb_eq_decide, BitVec.msb_eq_decide, decide_eq_decide] at hs
  have ha := a.isLt
  have hb := b.isLt
  refine BitVec.eq_of_toNat_eq ?_
  cases f <;> simp only [expOf, fracOf, Fmt.fracBits, Fmt.expBits, Fmt.width] at hs he ht ha hb <;> omega

theorem eq_infPat (h : isInf f a = true) : a = infPat f (signOf f a) := by
  obtain ⟨he, ht⟩ := isInf_iff.1 h
  obtain ⟨he', ht'⟩ := isInf_iff.1 (isInf_infPat f (signOf f a))
  exact pat_ext (signOf_infPat f _).symm (he.trans he'.symm) (ht.trans ht'.symm)

theorem signOf_zeroPat (f : Fmt) (sign : Bool) : signOf f (zeroPat f sign) = sign := by cases f <;> cases sign <;> decide

theorem eq_zeroPat (h : isZero f a = true) : a = zeroPat f (signOf f a) := by
  obtain ⟨he, ht⟩ := isZero_iff.1 h
  obtain ⟨he', ht'⟩ := isZero_iff.1 (isZero_zeroPat f (signOf f a))
  exact pat_ext (signOf_zeroPat f _).symm (he.trans he'.symm) (ht.trans ht'.symm)

/-- A magnitude with a smaller exponent field is smaller. -/
theorem abs_valueOf_lt_of_expOf_lt (h : expOf f a < expOf f b) : |(valueOf f a : ℝ)| < |(valueOf f b : ℝ)| := by
  have hpos : 0 < expOf f b := Nat.zero_lt_of_lt h
  exact ((abs_valueOf_lt_zpow_iff hpos).2 h).trans_le (not_lt.1 fun h' => Nat.lt_irrefl _ ((abs_valueOf_lt_zpow_iff hpos).1 h'))

/-- A pattern is its sign bit and its magnitude. -/
theorem eq_of_abs_valueOf (hs : signOf f a = signOf f b) (h : |(valueOf f a : ℝ)| = |(valueOf f b : ℝ)|) : a = b := by
  have he : expOf f a = expOf f b := by
    rcases lt_trichotomy (expOf f a) (expOf f b) with hlt | heq | hgt
    · exact absurd h (abs_valueOf_lt_of_expOf_lt hlt).ne
    · exact heq
    · exact absurd h (abs_valueOf_lt_of_expOf_lt hgt).ne'
  refine pat_ext hs he ?_
  have hscale : scaleOf f a = scaleOf f b := by simp only [scaleOf, he]
  rw [abs_valueOf_real, abs_valueOf_real, hscale, mul_left_inj' (two_zpow_pos _).ne', Nat.cast_inj] at h
  simp only [mantOf, he] at h
  split at h <;> omega

theorem valueOf_eq_sign_mul (f : Fmt) (a : Pat f) : valueOf f a = (if signOf f a then -1 else 1) * |valueOf f a| := by
  rw [abs_valueOf, ← valueOf_eq_mant]

/-- The sign bit and the magnitude determine the value, in whatever format. -/
theorem valueOf_eq_of_abs {g : Fmt} {b : Pat g} (hs : signOf g b = signOf f a)
    (h : |(valueOf g b : ℝ)| = |(valueOf f a : ℝ)|) : valueOf g b = valueOf f a := by
  have h' : |valueOf g b| = |valueOf f a| := by exact_mod_cast h
  rw [valueOf_eq_sign_mul, valueOf_eq_sign_mul f, hs, h']

end Patterns

/-! ### Single to double precision and back -/

section Widen

variable {env : FpEnv} {a : Word}

theorem singleToDouble_inf (h : isInf .sgl a = true) : singleToDouble env a = quiet (infPat .dbl (signOf .sgl a)) := by
  have hf := flushes_of_isInf (env := env) h
  simp [singleToDouble, fzIn_of_not_flushes hf, hf, noteFlush_false, isNan_of_isInf h, h]

theorem doubleToSingle_infPat (env : FpEnv) (sign : Bool) :
    doubleToSingle env (infPat .dbl sign) = quiet (infPat .sgl sign) := by
  have hinf := isInf_infPat .dbl sign
  have hf := flushes_of_isInf (env := env) hinf
  simp [doubleToSingle, fzIn_of_not_flushes hf, hf, noteFlush_false, isNan_of_isInf hinf, hinf, signOf_infPat]

theorem singleToDouble_zero (h : isZero .sgl a = true) : singleToDouble env a = quiet (zeroPat .dbl (signOf .sgl a)) := by
  have hnum := numeric_of_isZero h
  have hf := flushes_of_isZero (env := env) h
  simp [singleToDouble, fzIn_of_not_flushes hf, hf, noteFlush_false, isNan_of_numeric hnum, isInf_of_numeric hnum, h]

theorem doubleToSingle_zeroPat (env : FpEnv) (sign : Bool) :
    doubleToSingle env (zeroPat .dbl sign) = quiet (zeroPat .sgl sign) := by
  have hzero := isZero_zeroPat .dbl sign
  have hnum := numeric_of_isZero hzero
  have hf := flushes_of_isZero (env := env) hzero
  simp [doubleToSingle, fzIn_of_not_flushes hf, hf, noteFlush_false, isNan_of_numeric hnum, isInf_of_numeric hnum, hzero,
    signOf_zeroPat]

/-- A single-precision value is represented in double precision. -/
theorem singleToDouble_nonzero (hf : flushes .sgl env a = false) (hnum : Numeric .sgl a) (h0 : isZero .sgl a = false) :
    (singleToDouble env a).exc = .none ∧ signOf .dbl (singleToDouble env a).val = signOf .sgl a ∧
      Numeric .dbl (singleToDouble env a).val ∧ valueOf .dbl (singleToDouble env a).val = valueOf .sgl a := by
  have answer : singleToDouble env a = quiet (encodeExact .dbl (signOf .sgl a) ⟨mantOf .sgl a, scaleOf .sgl a, false⟩) := by
    simp [singleToDouble, fzIn_of_not_flushes hf, hf, noteFlush_false, isNan_of_numeric hnum, isInf_of_numeric hnum, h0]
  have hlow := le_scaleOf .sgl a
  have hhigh := scaleOf_le hnum
  have hm := mantOf_lt .sgl a
  have hrep : Representable .dbl (mantOf .sgl a * 2 ^ scaleOf .sgl a) := by
    simp only [Fmt.emin, Fmt.emax, Fmt.fracBits] at hlow hhigh hm
    refine representable_of_significand (mantOf_pos h0) (hm.trans (by decide)) ?_ ?_ <;>
      simp only [Fmt.emin, Fmt.emax, Fmt.fracBits] <;> omega
  obtain ⟨hsign, hnum', hvalue⟩ := encodeExact_of_representable (signOf .sgl a) (mantOf_pos h0) hrep
  rw [← abs_valueOf_real] at hvalue
  rw [answer]
  exact ⟨rfl, hsign, hnum', valueOf_eq_of_abs hsign hvalue⟩

/-- The values of single precision but 0 are all normalized in double precision. -/
theorem isDenorm_dbl_of_single {b : DWord} (h0 : isZero .sgl a = false) (h : valueOf .dbl b = valueOf .sgl a) :
    isDenorm .dbl b = false := by
  refine isDenorm_of_large ?_
  have hm : (1 : ℝ) ≤ mantOf .sgl a := by exact_mod_cast mantOf_pos h0
  have hlow : Fmt.dbl.emin ≤ scaleOf .sgl a := le_trans (by decide) (le_scaleOf .sgl a)
  calc (2 : ℝ) ^ Fmt.dbl.emin ≤ 2 ^ scaleOf .sgl a := zpow_le_zpow_right₀ one_le_two hlow
    _ ≤ mantOf .sgl a * 2 ^ scaleOf .sgl a := le_mul_of_one_le_left (two_zpow_pos _).le hm
    _ = |(valueOf .dbl b : ℝ)| := by rw [h, abs_valueOf_real]

/-- Narrowing a double that holds the value of a single answers that single (R172). -/
theorem doubleToSingle_of_value {b : DWord} (hf : flushes .sgl env a = false) (hnum : Numeric .sgl a)
    (h0 : isZero .sgl a = false) (hb : Numeric .dbl b) (h : valueOf .dbl b = valueOf .sgl a) :
    doubleToSingle env b = ⟨a, .none⟩ := by
  have hne : valueOf .dbl b ≠ 0 := by rw [h, ne_eq, valueOf_eq_zero, h0]; simp
  have hround := doubleToSingle_numeric hb (flushes_of_not_isDenorm (env := env) (isDenorm_dbl_of_single h0 h)) hne
  rw [h] at hround
  obtain ⟨hexc, hsign, -, hvalue⟩ := hround.exact (representable_valueOf hnum h0) ((flushes_false_iff h0).1 hf)
  have hneg : decide (valueOf .sgl a < 0) = signOf .sgl a := by
    rw [Bool.eq_iff_iff, decide_eq_true_iff, valueOf_neg_iff h0]
  have hval := eq_of_abs_valueOf (hsign.trans hneg) hvalue
  generalize doubleToSingle env b = r at *
  cases r
  cases hexc
  cases hval
  rfl

/-- What `Obligations.ExactConversions` says of a single-precision operand. -/
structure WidensExactly (env : FpEnv) (a : Word) : Prop where
  exc : (singleToDouble env a).exc = .none
  value : extendedValue .dbl (singleToDouble env a).val = extendedValue .sgl a
  sign : signOf .dbl (singleToDouble env a).val = signOf .sgl a
  back : doubleToSingle env (singleToDouble env a).val = ⟨a, .none⟩

theorem widensExactly_inf (h : isInf .sgl a = true) : WidensExactly env a := by
  have answer := singleToDouble_inf (env := env) h
  have hsign := signOf_infPat .dbl (signOf .sgl a)
  constructor <;> rw [answer]
  · rfl
  · exact (extendedValue_of_isInf (isInf_infPat .dbl _)).trans (by rw [hsign, extendedValue_of_isInf h])
  · exact hsign
  · exact (doubleToSingle_infPat env _).trans (by rw [← eq_infPat h]; rfl)

theorem widensExactly_zero (h : isZero .sgl a = true) : WidensExactly env a := by
  have answer := singleToDouble_zero (env := env) h
  have hzero := isZero_zeroPat .dbl (signOf .sgl a)
  constructor <;> rw [answer]
  · rfl
  · refine (extendedValue_of_finite (isInf_of_numeric (numeric_of_isZero hzero))).trans ?_
    rw [extendedValue_of_finite (isInf_of_numeric (numeric_of_isZero h)), valueOf_eq_zero.2 hzero, valueOf_eq_zero.2 h]
  · exact signOf_zeroPat .dbl _
  · exact (doubleToSingle_zeroPat env _).trans (by rw [← eq_zeroPat h]; rfl)

theorem widensExactly_nonzero (hf : flushes .sgl env a = false) (hnum : Numeric .sgl a) (h0 : isZero .sgl a = false) :
    WidensExactly env a := by
  obtain ⟨hexc, hsign, hb, hvalue⟩ := singleToDouble_nonzero hf hnum h0
  refine ⟨hexc, ?_, hsign, doubleToSingle_of_value hf hnum h0 hb hvalue⟩
  rw [extendedValue_of_finite (isInf_of_numeric hb), extendedValue_of_finite (isInf_of_numeric hnum), hvalue]

theorem widensExactly (hf : flushes .sgl env a = false) (hnan : isNan .sgl a = false) : WidensExactly env a := by
  by_cases hnum : Numeric .sgl a
  · cases h0 : isZero .sgl a with
    | true => exact widensExactly_zero h0
    | false => exact widensExactly_nonzero hf hnum h0
  · cases hinf : isInf .sgl a with
    | true => exact widensExactly_inf hinf
    | false => rw [isNan_of_not_numeric hnum hinf] at hnan; cases hnan

end Widen

/-! ### Integer to double and back -/

/-- The integer that a word stands for (R175, R184). -/
def intOf (unsigned : Bool) (i : Word) : Int := if unsigned then i.toNat else i.toInt

theorem intOf_bounds (unsigned : Bool) (i : Word) :
    intMin unsigned ≤ intOf unsigned i ∧ intOf unsigned i ≤ intMax unsigned := by
  have hlt := i.isLt
  have hlow := BitVec.le_toInt i
  have hhigh := BitVec.toInt_lt (x := i)
  cases unsigned <;> simp only [intOf, intMin, intMax, if_true, Bool.false_eq_true, if_false] <;> omega

theorem natAbs_intOf_lt (unsigned : Bool) (i : Word) : (intOf unsigned i).natAbs < 2 ^ 53 := by
  obtain ⟨hlow, hhigh⟩ := intOf_bounds unsigned i
  cases unsigned <;> simp only [intMin, intMax, if_true, Bool.false_eq_true, if_false] at hlow hhigh <;> omega

theorem ofInt_intOf (unsigned : Bool) (i : Word) : BitVec.ofInt 32 (intOf unsigned i) = i := by
  cases unsigned with
  | true => simp [intOf, BitVec.ofInt_natCast]
  | false => exact BitVec.ofInt_toInt

/-- A mode chooses the value itself where it is an integer. -/
theorem IntChosen.eq_of_int {mode : RMode} {x k : Int} (h : IntChosen mode (x : ℚ) k) : k = x := by
  unfold IntChosen at h
  cases mode with
  | rn =>
    obtain ⟨hlow, hhigh⟩ := abs_le.1 h.1
    have h1 : (x : ℚ) < k + 1 := by linarith
    have h2 : (k : ℚ) < x + 1 := by linarith
    norm_cast at h1 h2
    omega
  | rz =>
    obtain ⟨hle, hlt, hsign⟩ := h
    norm_cast at hle hlt hsign
    have habs : |k| = |x| := by omega
    rcases abs_eq_abs.1 habs with h | h
    · exact h
    · subst h
      have : x = 0 := by nlinarith
      omega
  | rp => rwa [Int.ceil_intCast] at h
  | rm => rwa [Int.floor_intCast] at h

/-- A pattern whose value is an integer of the destination converts to it without an exception. -/
theorem fpToInt_of_int {f : Fmt} {env : FpEnv} {unsigned : Bool} {mode : RMode} {a : Pat f} {x : Int}
    (hf : flushes f env a = false) (hnum : Numeric f a) (hvalue : valueOf f a = x) (hlow : intMin unsigned ≤ x)
    (hhigh : x ≤ intMax unsigned) : fpToInt f env unsigned mode a = ⟨BitVec.ofInt 32 x, .none⟩ := by
  have hchosen := roundToInt_chosen f mode a
  have hinexact := roundToInt_inexact f mode a
  rw [hvalue] at hchosen hinexact
  have hx := hchosen.eq_of_int
  have hi : (roundToInt f mode a).2 = false := by
    rw [← Bool.not_eq_true, hinexact, hx]; simp
  rw [fpToInt, hf, noteFlush_false, fzIn_of_not_flushes hf, toIntValue_numeric hnum, hx, hi, if_neg (not_lt.2 hhigh),
    if_neg (not_lt.2 hlow)]
  rfl

theorem representable_of_int {x : Int} (hx : x ≠ 0) (h : x.natAbs < 2 ^ 53) : Representable .dbl |(x : ℝ)| := by
  have hmag : |(x : ℝ)| = x.natAbs * 2 ^ (0 : Int) := by
    rw [zpow_zero, mul_one, Nat.cast_natAbs]; push_cast; rfl
  rw [hmag]
  exact representable_of_significand (Int.natAbs_pos.2 hx) h (by decide) (by decide)

theorem minNorm_le_of_int (f : Fmt) {x : Int} (hx : x ≠ 0) : (2 : ℝ) ^ f.emin ≤ |(x : ℝ)| := by
  have hone : (1 : ℝ) ≤ |(x : ℝ)| := by exact_mod_cast Int.one_le_abs hx
  have hemin : f.emin ≤ 0 := by cases f <;> decide
  exact (zpow_le_one_of_nonpos₀ one_le_two hemin).trans hone

theorem sign_mul_abs (x : Int) : (if decide (x < 0) then -1 else 1) * |(x : ℚ)| = x := by
  rcases lt_or_ge x 0 with hneg | hpos
  · rw [abs_of_neg (by exact_mod_cast hneg)]; simp [hneg]
  · rw [abs_of_nonneg (by exact_mod_cast hpos)]; simp [not_lt.2 hpos]

/-- A 32-bit integer is represented in double precision (R184). -/
theorem intToFp_dbl (env : FpEnv) (unsigned : Bool) (i : Word) :
    (intToFp .dbl env unsigned i).exc = .none ∧ Numeric .dbl (intToFp .dbl env unsigned i).val ∧
      isDenorm .dbl (intToFp .dbl env unsigned i).val = false ∧
      valueOf .dbl (intToFp .dbl env unsigned i).val = (intOf unsigned i : ℚ) := by
  by_cases hx : intOf unsigned i = 0
  · have answer : intToFp .dbl env unsigned i = quiet (zeroPat .dbl false) := if_pos hx
    have hzero := isZero_zeroPat .dbl false
    rw [answer]
    exact ⟨rfl, numeric_of_isZero hzero, isDenorm_zeroPat .dbl false, by rw [hx, Int.cast_zero]; exact valueOf_eq_zero.2 hzero⟩
  · have hround := intToFp_nonzero (f := .dbl) (env := env) (x := intOf unsigned i) rfl hx
    have hrep := representable_of_int hx (natAbs_intOf_lt unsigned i)
    generalize intOf unsigned i = x at *
    have hlarge := minNorm_le_of_int .dbl hx
    obtain ⟨hexc, hsign, hnum, hvalue⟩ := hround.exact hrep fun h => absurd h.2 (not_lt.2 hlarge)
    refine ⟨hexc, hnum, isDenorm_of_large (hlarge.trans_eq hvalue.symm), ?_⟩
    have hvalue' : |valueOf .dbl (intToFp .dbl env unsigned i).val| = |(x : ℚ)| := by exact_mod_cast hvalue
    rw [valueOf_eq_sign_mul, hsign, hvalue']
    exact sign_mul_abs x

/-- Settles O47: a represented value is rounded to itself, and a pattern is its sign bit and its magnitude. -/
theorem exactConversions : Obligations.ExactConversions := by
  refine ⟨fun env a hf hnan => ?_, fun env unsigned mode i => ?_⟩
  · have h := widensExactly hf hnan
    exact ⟨h.exc, h.value, h.sign, h.back⟩
  · obtain ⟨hexc, hnum, hdenorm, hvalue⟩ := intToFp_dbl env unsigned i
    obtain ⟨hlow, hhigh⟩ := intOf_bounds unsigned i
    refine ⟨hexc, hnum, hvalue.trans ?_, ?_⟩
    · cases unsigned <;> simp [intOf]
    · rw [fpToInt_of_int (flushes_of_not_isDenorm hdenorm) hnum hvalue hlow hhigh, ofInt_intOf]

end Sys2Proof.Machine
end

section
/-! PROOFS. The copies complete with the bits of the source, the sign bit adjusted (44_copy.md R200 to R206). -/

namespace Sys2Proof.Machine

/-! ### The sign masks of the two formats -/

theorem fpNeg_sgl (a : Word) : fpNeg .sgl a = a ^^^ 0x80000000#32 := rfl
theorem fpAbs_sgl (a : Word) : fpAbs .sgl a = a &&& 0x7FFFFFFF#32 := rfl
theorem fpNeg_dbl (a : DWord) : fpNeg .dbl a = a ^^^ 0x8000000000000000#64 := rfl
theorem fpAbs_dbl (a : DWord) : fpAbs .dbl a = a &&& 0x7FFFFFFFFFFFFFFF#64 := rfl

/-- Settles O26: each instruction is the copy template, which signals nothing and so needs no premise on traps, with the mask
of its format. -/
theorem copies : Obligations.Copies := by
  constructor
  · intro c d m s h hl hm hd
    have copy := fun adjust i => copyReg_delivered (f := .sgl) (double := false) (adjust := adjust) (i := i) h hl hm hd
    rw [← fpNeg_sgl, ← fpAbs_sgl]
    exact ⟨copy id (.fcpys c d m), copy (fpNeg .sgl) (.fnegs c d m), copy (fpAbs .sgl) (.fabss c d m)⟩
  · intro c d m s h hl hm hd
    have copy := fun adjust i => copyReg_delivered (f := .dbl) (double := true) (adjust := adjust) (i := i) h hl hm hd
    rw [← fpNeg_dbl, ← fpAbs_dbl]
    exact ⟨copy id (.fcpyd c d m), copy (fpNeg .dbl) (.fnegd c d m), copy (fpAbs .dbl) (.fabsd c d m)⟩

end Sys2Proof.Machine
end

section
/-! PROOFS. The bytes of memory that an instruction can change: those of the words of a store (45_load_store.md R216 to R218,
R236). -/

namespace Sys2Proof.Machine

/-- The instruction is a store, and the byte is one of the words that it may write: `k` registers' (45_load_store.md R218), or
`2k + 1` of an FSTMX (R236). -/
structure InStoredWords (i : Instr) (s : State) (a : Nat) : Prop where
  store : i.cls = .store
  place : (∃ T, i.transfer = some T ∧
      InBlock (startAddress T.mode (s.armReg T.rn) T.offset) (T.k * wordsOf T.format) a) ∨
    (∃ T, i.unknownTransfer = some T ∧ InBlock (startAddress T.mode (s.armReg T.rn) T.offset) (2 * T.k + 1) a)

theorem unknownTransfer_of_transfer {i : Instr} {T : Transfer} (h : i.transfer = some T) : i.unknownTransfer = none := by
  cases i with
  | fldmxUnindexed | fldmxIncrement | fldmxDecrement | fstmxUnindexed | fstmxIncrement | fstmxDecrement => cases h
  | _ => rfl

theorem InBlock.mono {a : Word} {m n byte : Nat} (h : InBlock a m byte) (hmn : m ≤ n) : InBlock a n byte := by
  obtain ⟨i, hi, e⟩ := h
  exact ⟨i, by omega, e⟩

theorem imageSize_le (cfg : Config) (k : Nat) : imageSize cfg k ≤ 2 * k + 1 := by
  rw [imageSize_eq]; split <;> omega

theorem writeImage_standard {s : State} {start : Word} {vs : List DWord} (h : s.cfg.fstmxFormat = .standard) :
    writeImage s start vs = storePats .dbl s.cfg.bigEnd start vs s.mem := by rw [writeImage, h]

theorem writeImage_free {s : State} {start : Word} {vs : List DWord} (h : s.cfg.fstmxFormat = .free) :
    writeImage s start vs = writeFree s.cfg.bigEnd s.freeNext (2 * vs.length + 1) start s.mem := by rw [writeImage, h]

/-- An FSTMX leaves every byte outside the words that its format may write as it was (R236). -/
theorem readByte_writeImage_other {s : State} {start : Word} {vs : List DWord} {b : Nat}
    (outside : ¬InBlock start (imageSize s.cfg vs.length) b) : readByte b (writeImage s start vs) = readByte b s.mem := by
  rw [imageSize_eq] at outside
  cases hf : s.cfg.fstmxFormat with
  | standard =>
    rw [hf, if_pos rfl, Nat.mul_comm] at outside
    rw [writeImage_standard hf]
    exact readByte_storePats_other (f := .dbl) fun i hi e => outside ⟨i, hi, e⟩
  | free =>
    rw [hf, if_neg (by decide)] at outside
    rw [writeImage_free hf]
    exact readByte_writeFree_other fun i hi e => outside ⟨i, hi, e⟩

@[simp] theorem State.afterFstmx_mem (s : State) (d : DReg) (start : Word) (vs : List (Pairing × DWord)) :
    (s.afterFstmx d start vs).mem = writeImage s start (vs.map Prod.snd) := by simp [State.afterFstmx]

/-- The effects that change a byte are those of the stores, each within its own words. -/
theorem Effect.inStoredWords {i : Instr} {s u : State} {a : Nat} (h : Effect i s u)
    (changed : readByte a u.mem ≠ readByte a s.mem) : InStoredWords i s a := by
  cases h with
  | stored hc hi _ hv =>
    refine ⟨hc, .inl ⟨_, hi, by_contra fun outside => changed ?_⟩⟩
    rw [State.writeBack_mem, State.setMem_mem]
    exact readByte_storePats_other fun j hj e => outside ⟨j, hv ▸ hj, e⟩
  | storedDoubles hc hi hf _ _ hv =>
    refine ⟨hc, .inl ⟨_, hi, by_contra fun outside => changed ?_⟩⟩
    rw [State.noteImages_mem, State.writeBack_mem, State.setMem_mem]
    exact readByte_storePats_other (f := .dbl) fun j hj e => outside ⟨j, by rwa [hf, ← hv], e⟩
  | saved hc _ hi =>
    refine ⟨hc, .inr ⟨_, hi, by_contra fun outside => changed ?_⟩⟩
    rw [State.writeBack_mem, State.afterFstmx_mem]
    refine readByte_writeImage_other fun inside => outside (inside.mono ?_)
    rw [List.length_map, savedOf_length]
    exact imageSize_le _ _
  | _ => exact absurd (by simp) changed

/-- A byte of no word that the instruction stores is as it was. -/
theorem readByte_exec_of_not_stored {i : Instr} {s t : State} {a : Nat} (h : exec i s = .next t)
    (outside : ¬InStoredWords i s a) : readByte a t.mem = readByte a s.mem := by
  rcases exec_effect h with ⟨_, rfl⟩ | ⟨_, u, hu, rfl⟩
  · rfl
  · exact by_contra fun changed => outside (hu.inStoredWords changed)

/-- Settles O14: a byte outside the words of the transfer is no word that the instruction stores, since no instruction has a
transfer of both kinds. -/
theorem storesWriteTheirWords : Obligations.StoresWriteTheirWords := by
  intro i s t h
  refine ⟨fun load a => readByte_exec_of_not_stored h fun stored => load stored.store,
    fun T hT a outside => readByte_exec_of_not_stored h ?_, fun T hT a outside => readByte_exec_of_not_stored h ?_⟩
  · rintro ⟨_, ⟨T', hT', inside⟩ | ⟨T', hT', _⟩⟩
    · cases hT.symm.trans hT'
      exact outside inside
    · exact nomatch (unknownTransfer_of_transfer hT).symm.trans hT'
  · rintro ⟨_, ⟨T', hT', _⟩ | ⟨T', hT', inside⟩⟩
    · exact nomatch (unknownTransfer_of_transfer hT').symm.trans hT
    · cases hT.symm.trans hT'
      exact outside inside

end Sys2Proof.Machine
end

section
/-! PROOFS. FSTMX and FLDMX complete: the image recorded and the half-written registers released, or the image restored, the
base written back, and nothing else changed (45_load_store.md R228, R229, R236; 70_reset_and_hazards.md R325, R326). -/

namespace Sys2Proof.Machine

/-! ### The registers of a list -/

theorem inList_iff {i k : Nat} {n : DReg} (h : i + k ≤ 16) : InList i k n ↔ ∃ l, l < k ∧ n = regAt .dbl (i + l) := by
  constructor
  · rintro ⟨low, high⟩
    refine ⟨n.val - i, by omega, ?_⟩
    rw [Nat.add_sub_cancel' low]
    exact (regAt_regIndex .dbl n).symm
  · rintro ⟨l, hl, rfl⟩
    have place : (regAt .dbl (i + l)).val = i + l := regIndex_regAt (f := .dbl) (by simp only [regCount]; omega)
    exact ⟨by omega, by omega⟩

theorem mem_wordsOfReg_dbl {n : DReg} {j : SReg} : j ∈ wordsOfReg .dbl n ↔ doubleOf j = n := by
  refine ⟨mem_wordsOfReg_pair, ?_⟩
  rintro rfl
  simpa [wordsOfReg] using index_cases j

theorem mem_wordsOfRegs_dbl {i k : Nat} {j : SReg} (h : i + k ≤ 16) :
    j ∈ wordsOfRegs .dbl i k ↔ InList i k (doubleOf j) := by
  simp only [mem_wordsOfRegs, mem_wordsOfReg_dbl, inList_iff h]

/-! ### FSTMX -/

section AfterFstmx

variable (s : State) (d : DReg) (start : Word) (vs : List (Pairing × DWord))

@[simp] theorem State.afterFstmx_vreg : (s.afterFstmx d start vs).vreg = s.vreg := by simp [State.afterFstmx]
@[simp] theorem State.afterFstmx_arm : (s.afterFstmx d start vs).arm = s.arm := by simp [State.afterFstmx]
@[simp] theorem State.afterFstmx_fpsid : (s.afterFstmx d start vs).fpsid = s.fpsid := by simp [State.afterFstmx]
@[simp] theorem State.afterFstmx_fpexc : (s.afterFstmx d start vs).fpexc = s.fpexc := by simp [State.afterFstmx]
@[simp] theorem State.afterFstmx_subArch : (s.afterFstmx d start vs).subArch = s.subArch := by simp [State.afterFstmx]
@[simp] theorem State.afterFstmx_textBase : (s.afterFstmx d start vs).textBase = s.textBase := by simp [State.afterFstmx]
@[simp] theorem State.afterFstmx_text : (s.afterFstmx d start vs).text = s.text := by simp [State.afterFstmx]
@[simp] theorem State.afterFstmx_cfg : (s.afterFstmx d start vs).cfg = s.cfg := by simp [State.afterFstmx]
@[simp] theorem State.afterFstmx_images :
    (s.afterFstmx d start vs).images = imageOf d start vs :: untouched s.images start (imageSize s.cfg vs.length) := by
  simp [State.afterFstmx]
@[simp] theorem State.afterFstmx_freeNext :
    (s.afterFstmx d start vs).freeNext = s.freeNext + imageFrees s.cfg vs.length := by
  simp [State.afterFstmx]
@[simp] theorem State.afterFstmx_word (j : SReg) : (s.afterFstmx d start vs).word j = s.word j := word_congr (by simp)

end AfterFstmx

section Released

variable {s : State} {d : DReg} {start : Word} {vs : List (Pairing × DWord)} {n : DReg} {j : SReg}

/-- What an FSTMX does to the tags and the pairing states is to release its registers (70_reset_and_hazards.md R325). -/
theorem afterFstmx_eq_releaseHalves (s : State) (d : DReg) (start : Word) (vs : List (Pairing × DWord)) :
    ∃ t : State, s.afterFstmx d start vs = t.releaseHalves d.val vs.length ∧ t.pair = s.pair ∧ t.tag = s.tag :=
  ⟨_, rfl, rfl, rfl⟩

theorem pair_afterFstmx_of_listed (h : d.val + vs.length ≤ 16) (hn : InList d.val vs.length n) :
    (s.afterFstmx d start vs).pairAt n = .whole := by
  obtain ⟨t, e, _, _⟩ := afterFstmx_eq_releaseHalves s d start vs
  rcases pair_releaseHalves (s := t) h with ⟨whole, _⟩ | ⟨_, other⟩
  · rw [e, whole]
  · exact absurd hn other

theorem pair_afterFstmx_of_other (h : d.val + vs.length ≤ 16) (hn : ¬InList d.val vs.length n) :
    (s.afterFstmx d start vs).pairAt n = s.pairAt n := by
  obtain ⟨t, e, pair, _⟩ := afterFstmx_eq_releaseHalves s d start vs
  rcases pair_releaseHalves (s := t) h with ⟨_, listed⟩ | ⟨kept, _⟩
  · exact absurd listed hn
  · rw [e, kept, pairAt_congr pair]

/-- A half-written register is left without a value. -/
theorem tag_afterFstmx_of_half (h : d.val + vs.length ≤ 16) (hj : InList d.val vs.length (doubleOf j))
    (half : s.pairAt (doubleOf j) ≠ .whole) : (s.afterFstmx d start vs).tagAt j = .none := by
  obtain ⟨t, e, pair, _⟩ := afterFstmx_eq_releaseHalves s d start vs
  rcases tag_releaseHalves (s := t) h with ⟨none, _⟩ | ⟨_, whole⟩
  · rw [e, none]
  · exact absurd ((pairAt_congr pair).symm.trans (whole hj)) half

theorem tag_afterFstmx_of_kept (h : d.val + vs.length ≤ 16)
    (hj : InList d.val vs.length (doubleOf j) → s.pairAt (doubleOf j) = .whole) :
    (s.afterFstmx d start vs).tagAt j = s.tagAt j := by
  obtain ⟨t, e, pair, tag⟩ := afterFstmx_eq_releaseHalves s d start vs
  rcases tag_releaseHalves (s := t) h with ⟨_, listed, half⟩ | ⟨kept, _⟩
  · exact absurd ((pairAt_congr pair).trans (hj listed)) half
  · rw [e, kept, tagAt_congr tag]

end Released

/-- What an FSTMX leaves. -/
theorem storedUnknown_advance {mode : AddrMode} {d : DReg} {k : Nat} {start : Word} {rn : RReg} {offset : BitVec 8} {s : State}
    (ho : TransferOk .dbl d.val k rn s) (hw : s.mem.wf) :
    StoredUnknown d k start rn (newBase mode (s.armReg rn) offset) s
      ((s.afterFstmx d start (savedOf s d k)).writeBack mode rn offset).advance := by
  have list : d.val + k ≤ 16 := ho.list
  have list' : d.val + (savedOf s d k).length ≤ 16 := by rwa [savedOf_length]
  have listed (i : Nat) (hi : i < k) : InList d.val (savedOf s d k).length (regAt .dbl (d.val + i)) := by
    rw [savedOf_length]; exact (inList_iff list).2 ⟨i, hi, rfl⟩
  have arm (r : RReg) : (s.afterFstmx d start (savedOf s d k)).armReg r = s.armReg r :=
    armReg_congr (by simp) (fun _ => by simp)
  have values : (savedOf s d k).map Prod.snd = valuesOf .dbl s d k := by simp [savedOf, valuesOf, State.rawReg, regIndex]
  exact
    { images := by simp [imageOf, savedOf, Function.comp_def]
      standard := fun hf => by
        have block := loadPats_storePats (f := .dbl) (bigEnd := s.cfg.bigEnd) (vs := valuesOf .dbl s d k) (a := start) hw
          (by rw [valuesOf_length]; exact ho.short)
        rw [State.advance_mem, State.writeBack_mem, State.afterFstmx_mem, writeImage_standard hf, values]
        rwa [valuesOf_length] at block
      bytes := fun a outside => by
        rw [State.advance_mem, State.writeBack_mem, State.afterFstmx_mem]
        exact readByte_writeImage_other (by simpa using outside)
      words := fun j => by simp
      released := fun i hi half => by
        simp only [State.advance_tagAt, State.writeBack_tagAt]
        exact ⟨tag_afterFstmx_of_half list' (by simpa using listed i hi) (by simpa using half),
          tag_afterFstmx_of_half list' (by simpa using listed i hi) (by simpa using half)⟩
      kept := fun n whole => by
        simp only [State.advance_tagAt, State.writeBack_tagAt]
        exact ⟨tag_afterFstmx_of_kept list' fun _ => by simpa using whole,
          tag_afterFstmx_of_kept list' fun _ => by simpa using whole⟩
      whole := fun i hi => by
        rw [State.advance_pairAt, State.writeBack_pairAt, pair_afterFstmx_of_listed list' (listed i hi)]
      pair := fun n other => by
        rw [State.advance_pairAt, State.writeBack_pairAt, pair_afterFstmx_of_other list' fun c => ?_]
        rw [savedOf_length, inList_iff list] at c
        obtain ⟨i, hi, e⟩ := c
        exact other i hi e
      base := by rw [armReg_advance ho.base, armReg_writeBack ho.base, if_pos rfl, arm]
      fpscr := by simp
      cpsr := by simp
      freeNext := by simp
      frame :=
        { vreg := fun j _ => by simp
          tag := fun j other => by
            rw [State.advance_tagAt, State.writeBack_tagAt, tag_afterFstmx_of_kept list' fun c => absurd c ?_]
            rwa [savedOf_length, ← mem_wordsOfRegs_dbl list]
          arm := fun r hr other => by
            rw [armReg_advance hr, armReg_writeBack ho.base, if_neg (by simpa using other), arm]
          pc := by simp
          fpsid := by simp
          fpexc := by simp
          subArch := by simp
          textBase := by simp
          text := by simp
          cfg := by simp } }

/-- An FSTMX that is ready completes (45_load_store.md R229). -/
theorem instruction_storedUnknown {mode : AddrMode} {d : DReg} {rn : RReg} {offset : BitVec 8} {c : Cond} {i : Instr}
    {double : Bool} {s : State} (h : Ready c double s)
    (hs : UnknownStoreReady mode d.val (unknownCount offset) rn offset s) :
    ∃ t, instruction c i double (storeUnknown mode d rn offset) s = .next t ∧
      StoredUnknown d (unknownCount offset) (startAddress mode (s.armReg rn) offset) rn
        (newBase mode (s.armReg rn) offset) s t :=
  ⟨_, instruction_next_of_ok h (storeUnknown_eq_ok.2 ⟨hs.operands, hs.storable, hs.admitted, hs.outsideText, rfl⟩),
    storedUnknown_advance hs.operands hs.memory⟩

/-- Settles O29: each form is an FSTMX in one mode, whose start address and new base are those of R216. -/
theorem unknownPrecisionStores : Obligations.UnknownPrecisionStores := fun _ _ _ _ _ h =>
  ⟨instruction_storedUnknown h, instruction_storedUnknown h, instruction_storedUnknown h⟩

/-! ### FLDMX -/

theorem imageWords_getElem?_lo (vs : List DWord) (i : Nat) : (imageWords vs)[2 * i]? = vs[i]?.map loWord := by
  induction vs generalizing i with
  | nil => simp [imageWords]
  | cons v vs ih =>
    cases i with
    | zero => rfl
    | succ i => simpa [imageWords, Nat.mul_add] using ih i

theorem imageWords_getElem?_hi (vs : List DWord) (i : Nat) : (imageWords vs)[2 * i + 1]? = vs[i]?.map hiWord := by
  induction vs generalizing i with
  | nil => simp [imageWords]
  | cons v vs ih =>
    cases i with
    | zero => rfl
    | succ i => simpa [imageWords, Nat.mul_add] using ih i

/-- The words and pairing states of a well-formed image are those of a list of registers (R236). -/
theorem exists_saved {ws : List Word} {ps : List Pairing} (h : ws.length = 2 * ps.length) :
    ∃ vs : List (Pairing × DWord), ws = imageWords (vs.map Prod.snd) ∧ ps = vs.map Prod.fst := by
  induction ps generalizing ws with
  | nil => exact ⟨[], List.length_eq_zero_iff.1 h, rfl⟩
  | cons p ps ih =>
    rcases ws with _ | ⟨lo, _ | ⟨hi, ws⟩⟩
    · simp at h
    · simp at h; omega
    · obtain ⟨vs, rfl, rfl⟩ := ih (ws := ws) (by simp only [List.length_cons] at h; omega)
      exact ⟨(p, dwordOf hi lo) :: vs, by simp [imageWords, loWord_dwordOf, hiWord_dwordOf], rfl⟩

theorem restoredTag_loIndex (n : DReg) (p : Pairing) : restoredTag (loIndex n) p = if p = .highOnly then .none else .any := by
  simp [restoredTag, loIndex_ne_hiIndex]

theorem restoredTag_hiIndex (n : DReg) (p : Pairing) : restoredTag (hiIndex n) p = if p = .lowOnly then .none else .any := by
  simp [restoredTag, (loIndex_ne_hiIndex n n).symm]

theorem word_loIndex (s : State) (n : DReg) : s.word (loIndex n) = loWord (s.rawDouble n) := (loWord_dwordOf _ _).symm

theorem word_hiIndex (s : State) (n : DReg) : s.word (hiIndex n) = hiWord (s.rawDouble n) := (hiWord_dwordOf _ _).symm

/-- What an FLDMX leaves. -/
theorem loadedUnknown_advance {mode : AddrMode} {d : DReg} {ws : List Word} {ps : List Pairing} {rn : RReg}
    {offset : BitVec 8} {s : State} (hn : rn ≠ 15) (list : d.val + ps.length ≤ 16) (hws : ws.length = 2 * ps.length) :
    LoadedUnknown d ws ps rn (newBase mode (s.armReg rn) offset) s
      ((s.restoreRegs d.val ws ps).writeBack mode rn offset).advance := by
  obtain ⟨vs, rfl, rfl⟩ := exists_saved hws
  rw [List.length_map] at list
  obtain ⟨restored, others, pairs⟩ := restoreRegs_spec (s := s) list
  have arm (r : RReg) : (s.restoreRegs d.val (imageWords (vs.map Prod.snd)) (vs.map Prod.fst)).armReg r = s.armReg r :=
    armReg_congr (by simp) (fun _ => by simp)
  have saved {i : Nat} {p : Pairing} (h : (vs.map Prod.fst)[i]? = some p) : ∃ v, vs[i]? = some (p, v) := by
    rw [List.getElem?_map] at h
    obtain ⟨⟨_, v⟩, hv, rfl⟩ := Option.map_eq_some_iff.1 h
    exact ⟨v, hv⟩
  have savedWord {i : Nat} {g : DWord → Word} {w : Word} (h : (vs.map Prod.snd)[i]?.map g = some w) :
      ∃ p v, vs[i]? = some (p, v) ∧ g v = w := by
    simp only [List.getElem?_map, Option.map_map] at h
    obtain ⟨⟨p, v⟩, hv, rfl⟩ := Option.map_eq_some_iff.1 h
    exact ⟨p, v, hv, rfl⟩
  exact
    { lo := fun i w _ hw => by
        rw [imageWords_getElem?_lo] at hw
        obtain ⟨p, v, hv, rfl⟩ := savedWord hw
        rw [State.advance_word, State.writeBack_word, word_loIndex, (restored i p v hv).1]
      hi := fun i w _ hw => by
        rw [imageWords_getElem?_hi] at hw
        obtain ⟨p, v, hv, rfl⟩ := savedWord hw
        rw [State.advance_word, State.writeBack_word, word_hiIndex, (restored i p v hv).1]
      tagLo := fun i p hp => by
        obtain ⟨v, hv⟩ := saved hp
        rw [State.advance_tagAt, State.writeBack_tagAt, (restored i p v hv).2.2 _ (doubleOf_loIndex _), restoredTag_loIndex]
      tagHi := fun i p hp => by
        obtain ⟨v, hv⟩ := saved hp
        rw [State.advance_tagAt, State.writeBack_tagAt, (restored i p v hv).2.2 _ (doubleOf_hiIndex _), restoredTag_hiIndex]
      pairing := fun i p hp => by
        obtain ⟨v, hv⟩ := saved hp
        rw [State.advance_pairAt, State.writeBack_pairAt, (restored i p v hv).2.1]
      pair := fun n other => by
        rw [State.advance_pairAt, State.writeBack_pairAt, pairs n fun c => ?_]
        obtain ⟨i, hi, e⟩ := (inList_iff list).1 c
        exact other i (by simpa using hi) e
      base := by rw [armReg_advance hn, armReg_writeBack hn, if_pos rfl, arm]
      fpscr := by simp
      cpsr := by simp
      memory := ⟨by simp, by simp, by simp⟩
      frame :=
        { vreg := fun j other => by
            rw [List.length_map, mem_wordsOfRegs_dbl list] at other
            rw [State.advance_word, State.writeBack_word, (others j other).1]
          tag := fun j other => by
            rw [List.length_map, mem_wordsOfRegs_dbl list] at other
            rw [State.advance_tagAt, State.writeBack_tagAt, (others j other).2]
          arm := fun r hr other => by rw [armReg_advance hr, armReg_writeBack hn, if_neg (by simpa using other), arm]
          pc := by simp
          fpsid := by simp
          fpexc := by simp
          subArch := by simp
          textBase := by simp
          text := by simp
          cfg := by simp } }

section Loads

variable {mode : AddrMode} {d : DReg} {rn : RReg} {offset : BitVec 8} {c : Cond} {i : Instr} {double : Bool} {s : State}

/-- An FLDMX that is ready and has a matching image completes (45_load_store.md R228, R236). -/
theorem instruction_loadedUnknown {img : FstmxImage} (h : Ready c double s)
    (hl : UnknownLoadReady mode d.val (unknownCount offset) rn offset s)
    (hm : matchingImage s d (unknownCount offset) (startAddress mode (s.armReg rn) offset) = some img)
    (words : img.words.length = 2 * img.pairs.length) :
    ∃ t, instruction c i double (loadUnknown mode d rn offset) s = .next t ∧
      LoadedUnknown d img.words img.pairs rn (newBase mode (s.armReg rn) offset) s t := by
  obtain ⟨_, _, _, count⟩ := matchingImage_eq_some hm
  exact ⟨_, instruction_next_of_ok h (loadUnknown_eq_ok.2 ⟨hl.operands, hl.admitted, img, hm, rfl⟩),
    loadedUnknown_advance hl.operands.base (count ▸ hl.operands.list) words⟩

/-- An FLDMX that is ready but for a matching image is refused (R236 item 3). -/
theorem instruction_unmatched (h : Ready c double s) (hl : UnknownLoadReady mode d.val (unknownCount offset) rn offset s)
    (hm : matchingImage s d (unknownCount offset) (startAddress mode (s.armReg rn) offset) = none) :
    instruction c i double (loadUnknown mode d rn offset) s = .refused .unmatchedFldmx := by
  have refused : loadUnknown mode d rn offset s = .error (.refused .unmatchedFldmx) := by
    simp only [loadUnknown, (requireTransfer_eq_ok (u := ())).2 hl.operands, (requireAdmitted_eq_ok (u := ())).2 hl.admitted,
      unknownSource, hm, ok_bind, error_bind]
  rw [instruction_ready h, refused, finish]

end Loads

/-- Settles O30: each form is an FLDMX in one mode, whose start address and new base are those of R216. -/
theorem unknownPrecisionLoads : Obligations.UnknownPrecisionLoads := by
  intro c d rn offset s h images
  have words {start : Word} {img : FstmxImage} (hm : matchingImage s d (unknownCount offset) start = some img) :
      img.words.length = 2 * img.pairs.length := (images img (matchingImage_eq_some hm).1).words
  refine ⟨fun hl => ⟨fun img hm => ?_, ?_⟩, fun hl => ⟨fun img hm => ?_, ?_⟩, fun hl => ⟨fun img hm => ?_, ?_⟩⟩
  · exact instruction_loadedUnknown h hl hm (words hm)
  · exact instruction_unmatched h hl
  · exact instruction_loadedUnknown h hl hm (words hm)
  · exact instruction_unmatched h hl
  · exact instruction_loadedUnknown h hl hm (words hm)
  · exact instruction_unmatched h hl

end Sys2Proof.Machine
end

section
/-! PROOFS. An FSTMX, or an FSTMD in the recommended format, and the FLDMX of its image restore registers and pairing states
(45_load_store.md R236; 70_reset_and_hazards.md R325, R326). -/

namespace Sys2Proof.Machine

/-! ### The image that a store leaves -/

/-- An instruction that leaves an image is an FSTMX, or in the recommended format an FSTMD. -/
theorem exec_of_leavesImage {i : Instr} {format : FstmxFormat} {T : Transfer} (h : i.LeavesImage format T) :
    ∃ d : DReg, d.val = T.first ∧
      ((unknownCount T.offset = T.k ∧
          ∀ s, exec i s = instruction i.cond i false (storeUnknown T.mode d T.rn T.offset) s) ∨
        (format = .standard ∧ T.offset.toNat / 2 = T.k ∧
          ∀ s, exec i s = instruction i.cond i true (storeDoubles T.mode d T.rn T.offset) s)) := by
  obtain ⟨store, hT | ⟨standard, doubles, hT⟩⟩ := h
  · cases i with
    | fstmxUnindexed _ d _ _ | fstmxIncrement _ d _ _ | fstmxDecrement _ d _ _ =>
      cases hT; exact ⟨d, rfl, .inl ⟨rfl, fun _ => rfl⟩⟩
    | fldmxUnindexed | fldmxIncrement | fldmxDecrement => cases store
    | _ => cases hT
  · cases i with
    | fstmdUnindexed _ d _ _ | fstmdIncrement _ d _ _ | fstmdDecrement _ d _ _ =>
      cases hT; exact ⟨d, rfl, .inr ⟨standard, rfl, fun _ => rfl⟩⟩
    | _ => cases doubles

/-- An FLDMX is one of the FLDMX template. -/
theorem exec_of_unknownLoad {j : Instr} {T : Transfer} (hT : j.unknownTransfer = some T) (load : j.cls = .load) :
    ∃ d : DReg, d.val = T.first ∧ unknownCount T.offset = T.k ∧
      ∀ s, exec j s = instruction j.cond j false (loadUnknown T.mode d T.rn T.offset) s := by
  cases j with
  | fldmxUnindexed _ d _ _ | fldmxIncrement _ d _ _ | fldmxDecrement _ d _ _ =>
    cases hT; exact ⟨d, rfl, rfl, fun _ => rfl⟩
  | fstmxUnindexed | fstmxIncrement | fstmxDecrement => cases load
  | _ => cases hT

/-- The image of the registers from `d` up as they are (R236). -/
def currentImage (s : State) (d : DReg) (k : Nat) (start : Word) : FstmxImage := imageOf d start (savedOf s d k)

/-- An FSTMD stores no half-written register, so in the recommended format its image is the one an FSTMX would leave. -/
theorem doublesImage_of_whole {s : State} {cfg : Config} {d : DReg} {k : Nat} {start : Word} (hf : cfg.fstmxFormat = .standard)
    (whole : ∀ l, l < k → s.pairAt (regAt .dbl (d.val + l)) = .whole) :
    doublesImage cfg d start ((List.range k).map fun l => s.rawDouble (regAt .dbl (d.val + l))) =
      [currentImage s d k start] := by
  have saved : ((List.range k).map fun l => s.rawDouble (regAt .dbl (d.val + l))).map (fun v => (Pairing.whole, v)) =
      savedOf s d k := by
    rw [List.map_map]
    exact List.map_congr_left fun l hl => by rw [whole l (List.mem_range.1 hl)]; rfl
  rw [doublesImage, hf, currentImage, ← saved]

/-- The newest image is the one that an FLDMX of its start, first register and count matches. -/
theorem matchingImage_of_newest {s t : State} {d : DReg} {k : Nat} {start : Word}
    (h : t.images.head? = some (currentImage s d k start)) :
    matchingImage t d k start = some (currentImage s d k start) := by
  obtain ⟨older, e⟩ := List.head?_eq_some_iff.1 h
  rw [matchingImage, e, List.find?_cons_of_pos]
  simp [currentImage, imageOf]

/-- After an instruction that leaves an image, the image of the registers as they were is the one that matches. -/
theorem matchingImage_of_leavesImage {i : Instr} {T : Transfer} {s t : State} (h : i.LeavesImage s.cfg.fstmxFormat T)
    (hc : conditionPassed i.cond s.cpsr = true) (hx : exec i s = .next t) :
    ∃ d : DReg, d.val = T.first ∧ TransferOk .dbl d.val T.k T.rn s ∧
      matchingImage t d T.k (startAddress T.mode (s.armReg T.rn) T.offset) =
        some (currentImage s d T.k (startAddress T.mode (s.armReg T.rn) T.offset)) := by
  obtain ⟨d, first, ⟨count, hi⟩ | ⟨standard, count, hi⟩⟩ := exec_of_leavesImage h
  · rw [hi] at hx
    obtain ⟨u, stores, rfl⟩ := body_of_ready (double := false) ⟨hc, nofun⟩ hx
    rw [storeUnknown_eq_ok, count] at stores
    obtain ⟨operands, _, _, _, rfl⟩ := stores
    refine ⟨d, first, operands, matchingImage_of_newest ?_⟩
    rw [State.advance_images, State.writeBack_images, State.afterFstmx_images]
    rfl
  · rw [hi] at hx
    obtain ⟨hc', _⟩ | ⟨_, u, doubles, rfl⟩ := instruction_eq_next.1 hx
    · exact absurd (hc.symm.trans hc') (by decide)
    obtain ⟨v, stores, rfl⟩ := storeDoubles_eq_ok.1 doubles
    rw [count] at stores
    obtain ⟨operands, readable, _⟩ := store_eq_ok.1 stores
    refine ⟨d, first, operands, matchingImage_of_newest ?_⟩
    rw [State.advance_images, State.noteImages_images, count,
      doublesImage_of_whole standard fun l hl => (readable l hl).writable]
    rfl

/-! ### The FLDMX that restores it -/

/-- Every start address is aligned as its base is (45_load_store.md R216, 20_memory.md R55). -/
theorem startAddress_aligned (mode : AddrMode) (base : Word) (offset : BitVec 8) :
    (startAddress mode base offset).extractLsb' 0 2 = base.extractLsb' 0 2 := by
  have add (a : Word) : (a + off4 offset).extractLsb' 0 2 = a.extractLsb' 0 2 := by
    apply BitVec.eq_of_toNat_eq
    simp only [off4, BitVec.extractLsb'_toNat, BitVec.toNat_add, BitVec.toNat_ofNat, Nat.shiftRight_zero]
    omega
  have sub (a : Word) : (a - off4 offset).extractLsb' 0 2 = a.extractLsb' 0 2 := by
    rw [← add (a - off4 offset), BitVec.sub_add_cancel]
  cases mode with
  | positiveOffset => exact add base
  | negativeOffset | decrement => exact sub base
  | unindexed | increment => rfl

/-- Registers restored from the image of `s` are as they were in `s`. -/
theorem LoadedUnknown.restores {s u v : State} {d : DReg} {k : Nat} {start : Word} {rn : RReg} {wb : Option Word}
    (h : LoadedUnknown d (currentImage s d k start).words (currentImage s d k start).pairs rn wb u v) {l : Nat} (hl : l < k) :
    v.word (loIndex (regAt .dbl (d.val + l))) = s.word (loIndex (regAt .dbl (d.val + l))) ∧
      v.word (hiIndex (regAt .dbl (d.val + l))) = s.word (hiIndex (regAt .dbl (d.val + l))) ∧
      v.pairAt (regAt .dbl (d.val + l)) = s.pairAt (regAt .dbl (d.val + l)) := by
  have place : l < (currentImage s d k start).pairs.length := by simpa [currentImage, imageOf] using hl
  refine ⟨h.lo l _ place ?_, h.hi l _ place ?_, h.pairing l _ ?_⟩
  · rw [word_loIndex]
    simp [currentImage, imageOf, imageWords_getElem?_lo, savedOf, hl]
  · rw [word_hiIndex]
    simp [currentImage, imageOf, imageWords_getElem?_hi, savedOf, hl]
  · simp [currentImage, imageOf, savedOf, hl]

/-- Settles O51: the store's image is that of the registers as they were, and the load is ready, since it starts where the store
did. -/
theorem imageRestored : Obligations.ImageRestored := by
  intro i j T T' s t u leaves hc hx hT' load hc' first count base start kept admitted
  obtain ⟨d, hd, operands, image⟩ := matchingImage_of_leavesImage leaves hc hx
  obtain ⟨d', hd', count', hj⟩ := exec_of_unknownLoad hT' load
  obtain rfl : d' = d := Fin.ext (by rw [hd', hd, first])
  have reg : regAt .dbl T.first = d' := hd ▸ regAt_regIndex .dbl d'
  have k : T.k = unknownCount T'.offset := (count'.trans count).symm
  rw [reg, image, ← start, k] at kept
  rw [← start, k] at admitted
  rw [k] at operands
  have aligned : (u.armReg T'.rn).extractLsb' 0 2 = 0 := by
    rw [← startAddress_aligned T'.mode, start, startAddress_aligned, operands.aligned]
  have ready : UnknownLoadReady T'.mode d'.val (unknownCount T'.offset) T'.rn T'.offset u :=
    ⟨⟨base, operands.some, operands.list, aligned⟩, admitted⟩
  obtain ⟨v, hv, loaded⟩ := instruction_loadedUnknown (i := j) (double := false) ⟨hc', nofun⟩ ready kept
    (by simp [currentImage, imageOf, imageWords_length])
  refine ⟨v, (hj u).trans hv, fun down up offset => ?_, fun l hl => ?_⟩
  · rw [down, up, offset, startAddress, startAddress] at start
    rw [loaded.base, up, newBase, Option.getD_some, start, offset, BitVec.sub_add_cancel]
  · rw [k] at hl
    rw [← hd]
    exact loaded.restores hl

end Sys2Proof.Machine
end

section
/-! PROOFS. Single register transfers that complete: what each changes, and that it changes nothing else (46_single_transfer.md
R250 to R258, R260; 70_reset_and_hazards.md R325). -/

namespace Sys2Proof.Machine

/-! ### What an update of the state leaves as it was -/

/-- The fields that `Frame` lists one by one as `State.constants`, after the program counter has advanced. -/
theorem frame_advance {words : List SReg} {arms : List RReg} {s u : State} (vreg : ∀ j, j ∉ words → u.word j = s.word j)
    (tag : ∀ j, j ∉ words → u.tagAt j = s.tagAt j) (arm : ∀ r, r ∉ arms → u.armReg r = s.armReg r) (pc : u.pc = s.pc)
    (subArch : u.subArch = s.subArch) (constants : u.constants = s.constants) : Frame words arms s u.advance := by
  obtain ⟨fpsid, fpexc, text, textBase, cfg⟩ := constants_eq_iff.1 constants
  exact
    { vreg := vreg
      tag := tag
      arm := fun r hr hm => (armReg_advance hr).trans (arm r hm)
      pc := by rw [State.advance_pc, pc]
      fpsid := fpsid
      fpexc := fpexc
      subArch := subArch
      textBase := textBase
      text := text
      cfg := cfg }

/-- The bits of a register written without an exception. -/
theorem delivered_setReg {f : Fmt} (d : VReg f) (v : Pat f) (s : State) :
    Delivered f d ⟨v, .none⟩ s (s.setReg f d v).advance := by
  have accrue_none : s.accrue .none = s := by simp [State.accrue]
  have := delivered_advance (d := d) (r := ⟨v, .none⟩) (s := s)
  rwa [accrue_none] at this

theorem registersOnly_setArm {s : State} {rd : RReg} (hr : rd ≠ 15) (v : Word) :
    RegistersOnly [] [rd] s (s.setArm rd v).advance where
  frame := frame_advance (by simp) (by simp) (fun q hq => by rw [armReg_setArm hr, if_neg (by simpa using hq)]) (by simp)
    (by simp) (by simp)
  memory := ⟨by simp, by simp, by simp⟩
  pair := by simp
  cpsr := by simp

/-- A body that transfers a word to an ARM register makes the instruction complete with it there. -/
theorem instruction_setArm {c : Cond} {i : Instr} {double : Bool} {body : State → Except Stop State} {s : State} {rd : RReg}
    {v : Word} (h : Ready c double s) (hr : rd ≠ 15) (hb : body s = .ok (s.setArm rd v)) :
    ∃ t, instruction c i double body s = .next t ∧ t.armReg rd = v ∧ t.fpscr = s.fpscr ∧ RegistersOnly [] [rd] s t :=
  ⟨_, instruction_next_of_ok h hb, by rw [armReg_advance hr, armReg_setArm hr, if_pos rfl], by simp,
    registersOnly_setArm hr v⟩

/-- Settles O31: FMSR writes the register, which is whole, and FMRS reads it, which is readable. -/
theorem singleTransfers : Obligations.SingleTransfers := by
  refine ⟨fun c n rd s h hr hw => ?_, fun c rd n s h hr hn => ?_⟩
  · have written := delivered_setReg (f := .sgl) n (s.armReg rd) s
    exact ⟨_, instruction_next_of_ok h (singleFromArm_eq_ok.2 ⟨hr, hw, rfl⟩), written.value,
      written.tags n (by simp [wordsOfReg]), by simp, written.rest⟩
  · exact instruction_setArm h hr (armFromSingle_eq_ok.2 ⟨hr, hn, rfl⟩)

/-- Settles O33: each instruction is the template that reads the whole double, with one of its two words. -/
theorem halfReads : Obligations.HalfReads := by
  intro c rd n s h hr hn
  rw [word_loIndex, word_hiIndex]
  exact ⟨instruction_setArm h hr (armFromHalf_eq_ok.2 ⟨hr, hn, rfl⟩),
    instruction_setArm h hr (armFromHalf_eq_ok.2 ⟨hr, hn, rfl⟩)⟩

/-! ### FMDLR and FMDHR (R254, R256) -/

/-- The pairing state of a double of which FMDLR (`low`) or FMDHR has written its half alone. -/
def halfState (low : Bool) : Pairing := if low then .lowOnly else .highOnly

/-- The second write of the same half has no meaning; the write of the other half completes the pair (R325). -/
theorem afterHalf_eq (low : Bool) (p : Pairing) :
    afterHalf low p = if p = halfState low then none else some (if p = .whole then halfState low else .whole) := by
  cases low <;> cases p <;> rfl

section Half

variable {low : Bool} {n : DReg} {rd : RReg} {c : Cond} {i : Instr} {s : State}

/-- FMDLR or FMDHR of a half that is not written yet completes. -/
theorem instruction_half (h : Ready c true s) (hr : rd ≠ 15) (hp : s.pairAt n ≠ halfState low) :
    ∃ t, instruction c i true (halfFromArm low n rd) s = .next t ∧ t.word (halfIndex low n) = s.armReg rd ∧
      t.tagAt (halfIndex low n) = .dbl ∧ t.pairAt n = (if s.pairAt n = .whole then halfState low else .whole) ∧
      (∀ k, k ≠ n → t.pairAt k = s.pairAt k) ∧ t.fpscr = s.fpscr ∧ t.cpsr = s.cpsr ∧ MemoryKept s t ∧
      Frame [halfIndex low n] [] s t := by
  have body := halfFromArm_eq_ok.2 ⟨hr, _, (afterHalf_eq low _).trans (if_neg hp), rfl⟩
  refine ⟨_, instruction_next_of_ok h body, ?_, ?_, ?_, fun k hk => ?_, by simp, by simp, ⟨by simp, by simp, by simp⟩,
    frame_advance (fun j hj => ?_) (fun j hj => ?_) (fun r _ => armReg_congr (by simp) fun _ => by simp) (by simp) (by simp)
      (by simp)⟩
  · rw [State.advance_word, State.setPair_word, State.setWord_word, if_pos rfl]
  · rw [State.advance_tagAt, State.setPair_tagAt, State.setWord_tagAt, if_pos rfl]
  · rw [State.advance_pairAt, State.setPair_pairAt, if_pos rfl]
  · rw [State.advance_pairAt, State.setPair_pairAt, if_neg hk, State.setWord_pairAt]
  · rw [State.setPair_word, State.setWord_word, if_neg (by simpa using hj)]
  · rw [State.setPair_tagAt, State.setWord_tagAt, if_neg (by simpa using hj)]

/-- The second FMDLR, or the second FMDHR, of a pair is refused (R258, R325). -/
theorem instruction_half_twice (h : Ready c true s) (hr : rd ≠ 15) (hp : s.pairAt n = halfState low) :
    instruction c i true (halfFromArm low n rd) s = .refused .halfWrittenDouble := by
  have body : halfFromArm low n rd s = .error (.refused .halfWrittenDouble) := by
    rw [halfFromArm, (requireNotR15_eq_ok (u := ())).2 hr, ok_bind, writeHalf, afterHalf_eq, if_pos hp]
  rw [instruction_ready h, body, finish]

end Half

/-- Settles O32: FMDLR and FMDHR are one template, for the low and for the high half. -/
theorem halfWrites : Obligations.HalfWrites :=
  ⟨fun _ _ _ _ h hr => ⟨instruction_half (low := true) h hr, instruction_half_twice (low := true) h hr⟩,
    fun _ _ _ _ h hr => ⟨instruction_half (low := false) h hr, instruction_half_twice (low := false) h hr⟩⟩

/-- Settles O36: FMSTAT has no operand to check, so its body always answers. -/
theorem fmstat : Obligations.Fmstat := by
  intro c s h
  refine ⟨s.copyFlags.advance, instruction_next_of_ok (body := fun s => .ok s.copyFlags) h rfl, rfl, rfl, rfl,
    ⟨fun _ => rfl, rfl, rfl⟩, ?_⟩
  exact frame_advance (fun _ _ => rfl) (fun _ _ => rfl) (fun _ _ => rfl) rfl rfl rfl

end Sys2Proof.Machine
end

section
/-! PROOFS. FMXR and FMRX: what the write and the read of each system register does, and where the two stop
(46_single_transfer.md R251, R259, R261; 60_exceptions.md R293, R300, R306). -/

namespace Sys2Proof.Machine

/-! ### The words that FMXR may write to the FPSCR (R261) -/

theorem getLsbD_of_extractLsb'_eq_zero {w : Word} {k n i : Nat} (h : w.extractLsb' k n = 0) (hi : k ≤ i ∧ i < k + n) :
    w.getLsbD i = false := by
  have bit := congrArg (BitVec.getLsbD · (i - k)) h
  simpa [show i - k < n by omega, show k + (i - k) = i by omega] using bit

/-- The check of the model is the one that the statements spell out bit by bit. -/
theorem fpscrWriteOk_iff {w : Word} : fpscrWriteOk w = true ↔ FpscrAdmits w := by
  refine ⟨fun h => ?_, FpscrAdmits.writeOk⟩
  simp only [fpscrWriteOk, Bool.and_eq_true, Bool.or_eq_true, beq_iff_eq] at h
  obtain ⟨⟨⟨⟨⟨h26, h19⟩, h13⟩, h5⟩, enables⟩, stride⟩ := h
  refine ⟨fun i hi => ?_, fun i hi => ?_, ?_⟩
  · have block : (26 ≤ i ∧ i < 26 + 2) ∨ (19 ≤ i ∧ i < 19 + 1) ∨ (13 ≤ i ∧ i < 13 + 2) ∨ (5 ≤ i ∧ i < 5 + 2) := by
      simp only [List.mem_cons, List.not_mem_nil, or_false] at hi; omega
    obtain hi | hi | hi | hi := block
    · exact getLsbD_of_extractLsb'_eq_zero h26 hi
    · exact getLsbD_of_extractLsb'_eq_zero h19 hi
    · exact getLsbD_of_extractLsb'_eq_zero h13 hi
    · exact getLsbD_of_extractLsb'_eq_zero h5 hi
  · simp only [enablesOf, ExcSet.none, ExcSet.mk.injEq] at enables
    obtain ⟨b8, b9, b10, b11, b12, b15⟩ := enables
    simp only [List.mem_cons, List.not_mem_nil, or_false] at hi
    obtain rfl | rfl | rfl | rfl | rfl | rfl := hi <;> assumption
  · have equal : ∀ b : BitVec 2, b = 0 ∨ b = 3 → b.getLsbD 1 = b.getLsbD 0 := by decide
    simpa using equal _ stride

/-! ### The access is allowed (R251, R306) -/

/-- The register may be reached: execution is privileged, or the register is neither FPSID nor FPEXC (R306). -/
def Reachable (reg : SysReg) (s : State) : Prop := s.cfg.userMode = true → reg ≠ .fpsid ∧ reg ≠ .fpexc

theorem reachable_fpscr (s : State) : Reachable .fpscr s := fun _ => ⟨by decide, by decide⟩

theorem reachable_subArch (low : BitVec 4) (s : State) : Reachable (.subArch low) s := fun _ => ⟨by simp, by simp⟩

theorem reachable_of_privileged {reg : SysReg} {s : State} (h : s.cfg.userMode = false) : Reachable reg s :=
  fun hm => absurd (h.symm.trans hm) (by decide)

section Access

variable {c : Cond} {reg : SysReg} {rd : RReg} {s : State}

/-- FMXR is the write of the register, once the access is allowed. -/
theorem exec_fmxr (h : Ready c false s) (hr : rd ≠ 15) (hu : Reachable reg s) :
    exec (.fmxr c reg rd) s = finish (writeSysReg reg (s.armReg rd) s) := by
  refine (instruction_ready h).trans (congrArg finish ?_)
  rw [systemFromArm, (requirePrivilege_eq_ok (u := ())).2 hu, ok_bind, (requireNotR15_eq_ok (u := ())).2 hr, ok_bind]

/-- FMRX is the read of the register, once the access is allowed. -/
theorem exec_fmrx (h : Ready c false s) (hr : rd ≠ 15) (hu : Reachable reg s) :
    exec (.fmrx c rd reg) s = finish (readSysReg reg rd s) := by
  refine (instruction_ready h).trans (congrArg finish ?_)
  rw [armFromSystem, (requirePrivilege_eq_ok (u := ())).2 hu, ok_bind, if_neg fun e => hr e.1,
    (requireNotR15_eq_ok (u := ())).2 hr, ok_bind]

/-- An FMRX whose read answers completes with the word in the ARM register. -/
theorem exec_fmrx_of_read {v : Word} (h : Ready c false s) (hr : rd ≠ 15) (hu : Reachable reg s)
    (hv : readSysReg reg rd s = .ok (s.setArm rd v)) :
    ∃ t, exec (.fmrx c rd reg) s = .next t ∧ t.armReg rd = v ∧ t.fpscr = s.fpscr ∧ RegistersOnly [] [rd] s t :=
  instruction_setArm h hr (armFromSystem_eq_ok.2 ⟨hu, .inr ⟨hr, hv⟩⟩)

end Access

/-! ### FMXR and FMRX that complete -/

theorem registersOnly_setFpscr (s : State) (w : Word) : RegistersOnly [] [] s (s.setFpscr w).advance where
  frame := frame_advance (fun _ _ => rfl) (fun _ _ => rfl) (fun _ _ => rfl) rfl rfl rfl
  memory := ⟨fun _ => rfl, rfl, rfl⟩
  pair := rfl
  cpsr := rfl

theorem registersOnly_advance (s : State) : RegistersOnly [] [] s s.advance where
  frame := frame_advance (fun _ _ => rfl) (fun _ _ => rfl) (fun _ _ => rfl) rfl rfl rfl
  memory := ⟨fun _ => rfl, rfl, rfl⟩
  pair := rfl
  cpsr := rfl

theorem exec_fmxr_subArch {c : Cond} {rd : RReg} {s : State} (h : Ready c false s) (hr : rd ≠ 15) {low : BitVec 4}
    (hs : 1#1 ++ low ∈ s.cfg.subArch) :
    exec (.fmxr c (.subArch low) rd) s =
      .next (s.setSubArch low (Config.subArchWrite (1#1 ++ low) (s.armReg rd) (s.subArchReg low))).advance := by
  rw [exec_fmxr h hr (reachable_subArch low s), writeSysReg, if_pos (supplies_eq_true.2 hs), finish, SysReg.bits]

/-- Settles O34, by the row of the table of R261 for each register. -/
theorem systemWrites : Obligations.SystemWrites := by
  intro c rd s h hr
  refine ⟨fun hw => ?_, fun hm hw => ?_, fun low hs => ?_⟩
  · exact ⟨_, exec_fmxr_fpscr h hr hw.writeOk, by simp, registersOnly_setFpscr _ _⟩
  · have write : writeSysReg .fpexc (s.armReg rd) s = .ok s := writeSysReg_eq_ok.2 (.inr (.inl ⟨rfl, hw, rfl⟩))
    refine ⟨s.advance, ?_, rfl, registersOnly_advance s⟩
    rw [exec_fmxr h hr (reachable_of_privileged hm), write, finish]
  · exact ⟨_, exec_fmxr_subArch h hr hs, rfl, fun k => State.setSubArch_subArchReg s low _ k⟩

/-- Settles O35, by the row of the table of R259 for each register. -/
theorem systemReads : Obligations.SystemReads := by
  intro c rd s h hr
  refine ⟨?_, fun hm => ⟨?_, ?_⟩, fun low hs => ?_⟩
  · exact exec_fmrx_of_read h hr (reachable_fpscr s) rfl
  · exact exec_fmrx_of_read h hr (reachable_of_privileged hm) rfl
  · exact exec_fmrx_of_read h hr (reachable_of_privileged hm) rfl
  · exact exec_fmrx_of_read h hr (reachable_subArch low s) (if_pos (supplies_eq_true.2 hs))

/-! ### FMXR and FMRX that stop -/

section Stops

variable {c : Cond} {reg : SysReg} {rd : RReg} {s : State}

/-- A sub-architecture defined register that is not supplied has neither a write nor a read behaviour (R293). -/
theorem exec_subArch_refused (h : Ready c false s) (hr : rd ≠ 15) {low : BitVec 4} (hs : 1#1 ++ low ∉ s.cfg.subArch) :
    exec (.fmxr c (.subArch low) rd) s = .refused .subArchDefined ∧
      exec (.fmrx c rd (.subArch low)) s = .refused .subArchDefined := by
  have missing : ¬s.supplies low = true := mt supplies_eq_true.1 hs
  constructor
  · rw [exec_fmxr h hr (reachable_subArch low s), writeSysReg, if_neg missing, finish]
  · rw [exec_fmrx h hr (reachable_subArch low s), readSysReg, if_neg missing, finish]

theorem requirePrivilege_refused {i : Instr} (hm : s.cfg.userMode = true) (hreg : reg = .fpsid ∨ reg = .fpexc) :
    requirePrivilege i reg s = .error (.fault (.undefinedInstruction s.pc (encode i))) :=
  if_pos ⟨hm, hreg⟩

/-- FPSID and FPEXC are out of reach in unprivileged execution, before `Rd` is looked at (R306, R300). -/
theorem exec_unprivileged (h : Ready c false s) (hm : s.cfg.userMode = true) (hreg : reg = .fpsid ∨ reg = .fpexc) :
    exec (.fmxr c reg rd) s = .fault (.undefinedInstruction s.pc (encode (.fmxr c reg rd))) ∧
      exec (.fmrx c rd reg) s = .fault (.undefinedInstruction s.pc (encode (.fmrx c rd reg))) := by
  constructor
  · refine (instruction_ready h).trans ?_
    rw [systemFromArm, requirePrivilege_refused hm hreg, error_bind, finish]
  · refine (instruction_ready h).trans ?_
    rw [armFromSystem, requirePrivilege_refused hm hreg, error_bind, finish]

end Stops

/-! ### Words that name FPSID or FPEXC in unprivileged execution -/

section Words

variable {w : Word} {c : Cond} {s : State}

theorem sysRegOf_privileged {a : BitVec 4} {b : BitVec 1} (h : (a ++ b).toNat = 0 ∨ (a ++ b).toNat = 16) :
    ∃ reg, sysRegOf a b = some reg ∧ (reg = .fpsid ∨ reg = .fpexc) := by
  obtain h | h := h
  · exact ⟨.fpsid, by rw [sysRegOf, h]; rfl, .inl rfl⟩
  · exact ⟨.fpexc, by rw [sysRegOf, h]; rfl, .inr rfl⟩

/-- FMXR or FMRX of a register other than the FPSCR is what the fields name, `Rd` and the SBZ bits checked last (R91). -/
theorem decodeXfer1_system {f : Xfer1Fields} {reg : SysReg} (hp : f.cp = 10) (ho : f.opcode.toNat = 7)
    (hreg : sysRegOf f.Fn f.N = some reg) (hne : reg ≠ .fpscr) :
    decodeXfer1 c f = f.rdChecked (if f.L = 0 then .fmxr c reg (regOf f.Rd) else .fmrx c (regOf f.Rd) reg) := by
  have notStat : notFmstat (regOf f.Rd) reg = true :=
    Bool.eq_true_of_not_eq_false fun h => hne (notFmstat_eq_false.1 h).2
  rw [decodeXfer1, if_pos hp, ho, hreg]
  by_cases hL : f.L = 0
  · simp only [if_pos hL]
  · simp only [if_neg hL, if_pos notStat]

/-- Where the decoder refuses such a word by `Rd` or an SBZ bit, it is UNDEFINED first (R300). -/
theorem noInstruction_unprivileged (hc : condOf (w.extractLsb' 28 4) = some c) (h : Ready c (isCp11 w) s)
    (hp : privilegedWord w s = true) :
    noInstruction (xfer1Fields w).refusal w s = .fault (.undefinedInstruction s.pc w) := by
  have passed : ¬(!conditionPassed c s.cpsr) = true := by rw [h.1]; decide
  have present : ¬absentWord w s = true := by rw [absentWord_of_ready h]; decide
  have undefined (r : UnpredictableReason) : refuseTransferWord r w s = .fault (.undefinedInstruction s.pc w) := if_pos hp
  obtain e | e | e := (xfer1Fields w).refusal_cases <;> rw [e] <;> unfold noInstruction <;> rw [hc] <;>
    exact (if_neg passed).trans ((if_neg present).trans (undefined _))

theorem step_unprivileged (hf : Fetched w s) (hc : condOf (w.extractLsb' 28 4) = some c)
    (hpass : conditionPassed c s.cpsr = true) (hm : s.cfg.userMode = true) (h24 : w.extractLsb' 24 4 = 0b1110)
    (hp : w.extractLsb' 8 4 = 10) (h4 : w.getLsbD 4 = true) (ho : w.extractLsb' 21 3 = 0b111)
    (hx : extOf w = 0 ∨ extOf w = 16) : step s = .fault (.undefinedInstruction s.pc w) := by
  obtain ⟨reg, hreg, named⟩ := sysRegOf_privileged (a := (xfer1Fields w).Fn) (b := (xfer1Fields w).N) hx
  have hne : reg ≠ .fpscr := by obtain rfl | rfl := named <;> decide
  have decoded := (decode_transfer hc (.inl hp) h24 h4).trans
    (decodeXfer1_system (c := c) (f := xfer1Fields w) hp (by rw [show (xfer1Fields w).opcode = 0b111 from ho]; rfl) hreg hne)
  cases hd : decode w with
  | ok i =>
    obtain ⟨_, rfl⟩ := rdChecked_eq_ok.1 (decoded.symm.trans hd)
    have ready : Ready c false s := ⟨hpass, nofun⟩
    have word := (decode_hasWord hd).2
    rw [step_of_decode_ok hf hd]
    split at word
    next hL => rw [if_pos hL, (exec_unprivileged ready hm named).1, word]
    next hL => rw [if_neg hL, (exec_unprivileged ready hm named).2, word]
  | error e =>
    have notStat : ¬(xfer1Fields w).IsFmstat := fun ⟨_, _, _, h2, _⟩ => by
      obtain hx | hx := hx <;> exact absurd (hx.symm.trans h2) (by decide)
    have checked : (xfer1Fields w).Checked c (decode w) := .inr ⟨notStat, _, decoded⟩
    obtain ⟨_, rfl⟩ := checked.eq_error.1 hd
    have privileged : privilegedWord w s = true := by
      simp only [privilegedWord, hm, hreg, show (xfer1Fields w).cp = 10 from hp, show (xfer1Fields w).opcode = 7 from ho]
      obtain rfl | rfl := named <;> rfl
    have ready : Ready c (isCp11 w) s := ⟨hpass, fun h11 => by rw [isCp11_of_cp10 hp] at h11; cases h11⟩
    rw [step_of_decode_error hf hd, noInstruction_unprivileged hc ready privileged]

end Words

/-- Settles O58: the refusals of the write and of the read of each register, and the check of privilege, which comes before
every other for an instruction and for a word that is none. -/
theorem systemStops : Obligations.SystemStops := by
  refine ⟨fun c rd s h hr => ⟨fun hm => ?_, fun hw => ?_, fun hm hw => ?_, fun low hs => exec_subArch_refused h hr hs⟩,
    fun c rd s reg h hm hreg => exec_unprivileged h hm hreg,
    fun w c s hf hc hpass hm h24 hp h4 ho hx => step_unprivileged hf hc hpass hm h24 hp h4 ho hx⟩
  · rw [exec_fmxr h hr (reachable_of_privileged hm), writeSysReg, finish]
  · rw [exec_fmxr h hr (reachable_fpscr s), writeSysReg, if_neg (mt fpscrWriteOk_iff.1 hw), finish]
  · rw [exec_fmxr h hr (reachable_of_privileged hm), writeSysReg, if_neg (show ¬_ = fpexcLaunch from hw), finish]

end Sys2Proof.Machine
end

section
/-! PROOFS. Half-written doubles: which instructions may name one, and what every other use is refused as
(70_reset_and_hazards.md R325). -/

namespace Sys2Proof.Machine

/-! ### Words of doubles that are whole -/

/-- None of the words is part of a half-written double. -/
def AllWhole (js : List SReg) (s : State) : Prop := ∀ j, j ∈ js → s.pairAt (doubleOf j) = .whole

theorem allWhole_nil (s : State) : AllWhole [] s := nofun

theorem allWhole_append {js js' : List SReg} {s : State} : AllWhole (js ++ js') s ↔ AllWhole js s ∧ AllWhole js' s := by
  simp only [AllWhole, List.mem_append, or_imp, forall_and]

theorem allWhole_of_writable {f : Fmt} {r : VReg f} {s : State} (h : Writable f r s) : AllWhole (wordsOfReg f r) s :=
  fun _ hj => (mem_wordsOfReg_pair hj).symm ▸ h

theorem allWhole_of_readable {f : Fmt} {r : VReg f} {s : State} (h : Readable f r s) : AllWhole (wordsOfReg f r) s :=
  allWhole_of_writable h.writable

theorem allWhole_of_list {f : Fmt} {i k : Nat} {s : State} (h : ∀ l, l < k → Writable f (regAt f (i + l)) s) :
    AllWhole (wordsOfRegs f i k) s := fun j hj => by
  obtain ⟨l, hl, hj⟩ := mem_wordsOfRegs.1 hj
  exact allWhole_of_writable (h l hl) j hj

/-! ### The bodies that answer for whole doubles only -/

/-- Where the body answers, none of the words is part of a half-written double. -/
def NeedsWhole (js : List SReg) (body : State → Except Stop State) : Prop := ∀ s u, body s = .ok u → AllWhole js s

section DataProcessing

variable {f g : Fmt}

theorem needsWhole_binary {op : FpEnv → Pat f → Pat f → FpResult f} {d n m : VReg f} :
    NeedsWhole (wordsOfReg f d ++ wordsOfReg f n ++ wordsOfReg f m) (binary f op d n m) := fun s u hu => by
  obtain ⟨hn, hm, hu⟩ := binary_eq_ok.1 hu
  obtain ⟨hd, _, _⟩ := deliver_eq_ok.1 hu
  exact allWhole_append.2 ⟨allWhole_append.2 ⟨allWhole_of_writable hd, allWhole_of_readable hn⟩, allWhole_of_readable hm⟩

theorem needsWhole_multiplyAccumulate {np na : Bool} {d n m : VReg f} :
    NeedsWhole (wordsOfReg f d ++ wordsOfReg f n ++ wordsOfReg f m) (multiplyAccumulate f np na d n m) := fun s u hu => by
  obtain ⟨hd, hn, hm, _⟩ := multiplyAccumulate_eq_ok.1 hu
  exact allWhole_append.2 ⟨allWhole_append.2 ⟨allWhole_of_readable hd, allWhole_of_readable hn⟩, allWhole_of_readable hm⟩

theorem needsWhole_unary {op : FpEnv → Pat g → FpResult f} {d : VReg f} {m : VReg g} :
    NeedsWhole (wordsOfReg f d ++ wordsOfReg g m) (unary g f op d m) := fun s u hu => by
  obtain ⟨hm, hu⟩ := unary_eq_ok.1 hu
  obtain ⟨hd, _, _⟩ := deliver_eq_ok.1 hu
  exact allWhole_append.2 ⟨allWhole_of_writable hd, allWhole_of_readable hm⟩

theorem needsWhole_copyReg {adjust : Pat f → Pat f} {d m : VReg f} :
    NeedsWhole (wordsOfReg f d ++ wordsOfReg f m) (copyReg f adjust d m) := fun s u hu => by
  obtain ⟨hm, hd, _⟩ := copyReg_eq_ok.1 hu
  exact allWhole_append.2 ⟨allWhole_of_writable hd, allWhole_of_readable hm⟩

theorem needsWhole_compareRegs {e : Bool} {d m : VReg f} :
    NeedsWhole (wordsOfReg f d ++ wordsOfReg f m) (compareRegs f e d m) := fun s u hu => by
  obtain ⟨hd, hm, _⟩ := compareRegs_eq_ok.1 hu
  exact allWhole_append.2 ⟨allWhole_of_readable hd, allWhole_of_readable hm⟩

theorem needsWhole_compareWithZero {e : Bool} {d : VReg f} : NeedsWhole (wordsOfReg f d) (compareWithZero f e d) := fun s _ hu => by
  obtain ⟨hd, _⟩ := compareWithZero_eq_ok.1 hu
  exact allWhole_of_readable hd

end DataProcessing

section LoadStore

variable {f : Fmt} {mode : AddrMode} {k : Nat} {rn : RReg} {offset : BitVec 8}

theorem needsWhole_load {d : VReg f} : NeedsWhole (wordsOfRegs f (regIndex f d) k) (load f mode d k rn offset) := by
  intro s _ hu
  obtain ⟨_, writable, _⟩ := load_eq_ok.1 hu
  exact allWhole_of_list writable

theorem needsWhole_store {d : VReg f} : NeedsWhole (wordsOfRegs f (regIndex f d) k) (store f mode d k rn offset) := by
  intro s _ hu
  obtain ⟨_, readable, _⟩ := store_eq_ok.1 hu
  exact allWhole_of_list fun l hl => (readable l hl).writable

theorem needsWhole_storeDoubles {d : DReg} :
    NeedsWhole (wordsOfRegs .dbl d.val (offset.toNat / 2)) (storeDoubles mode d rn offset) := fun s _ hu => by
  obtain ⟨t, stores, _⟩ := storeDoubles_eq_ok.1 hu
  exact needsWhole_store (f := .dbl) (d := d) s t stores

/-- A list of one register. -/
theorem NeedsWhole.of_one {d : VReg f} {body : State → Except Stop State}
    (h : NeedsWhole (wordsOfRegs f (regIndex f d) 1) body) :
    NeedsWhole (wordsOfReg f d) body := fun s u hu j hj =>
  h s u hu j (mem_wordsOfRegs.2 ⟨0, Nat.one_pos, by rwa [Nat.add_zero, regAt_regIndex]⟩)

end LoadStore

section Transfers

variable {rd rn : RReg}

theorem needsWhole_singleFromArm {n : SReg} : NeedsWhole [n] (singleFromArm n rd) := fun s _ hu => by
  obtain ⟨_, hn, _⟩ := singleFromArm_eq_ok.1 hu
  exact allWhole_of_writable (f := .sgl) hn

theorem needsWhole_armFromSingle {n : SReg} : NeedsWhole [n] (armFromSingle rd n) := fun s _ hu => by
  obtain ⟨_, hn, _⟩ := armFromSingle_eq_ok.1 hu
  exact allWhole_of_readable (f := .sgl) hn

theorem needsWhole_armFromHalf {half : DWord → Word} {n : DReg} : NeedsWhole (wordsOfReg .dbl n) (armFromHalf half rd n) := by
  intro s _ hu
  obtain ⟨_, hn, _⟩ := armFromHalf_eq_ok.1 hu
  exact allWhole_of_readable (f := .dbl) hn

/-- `S[m]` and its successor are the list of two registers from `m` up. -/
theorem wordsOfRegs_two {m m' : SReg} (h : m'.val = m.val + 1) : wordsOfRegs .sgl m.val 2 = [m, m'] := by
  have succ : regAt .sgl (m.val + 1) = m' := h ▸ regAt_regIndex .sgl m'
  have self : regAt .sgl (m.val + 0) = m := regAt_regIndex .sgl m
  simp only [wordsOfRegs, List.range_succ, List.range_zero, List.nil_append, List.cons_append, List.flatMap_cons,
    List.flatMap_nil, wordsOfReg, succ, self]

theorem needsWhole_singlesFromArm {m : SReg} : NeedsWhole (wordsOfRegs .sgl m.val 2) (singlesFromArm m rd rn) := by
  intro s _ hu
  obtain ⟨_, _, m', next, hm, hm', _⟩ := singlesFromArm_eq_ok.1 hu
  rw [wordsOfRegs_two next]
  exact allWhole_append.2 ⟨allWhole_of_writable (f := .sgl) hm, allWhole_of_writable (f := .sgl) hm'⟩

theorem needsWhole_armFromSingles {m : SReg} : NeedsWhole (wordsOfRegs .sgl m.val 2) (armFromSingles rd rn m) := by
  intro s _ hu
  obtain ⟨_, _, _, m', next, hm, hm', _⟩ := armFromSingles_eq_ok.1 hu
  rw [wordsOfRegs_two next]
  exact allWhole_append.2 ⟨allWhole_of_readable (f := .sgl) hm, allWhole_of_readable (f := .sgl) hm'⟩

theorem needsWhole_doubleFromArm {m : DReg} : NeedsWhole (wordsOfReg .dbl m) (doubleFromArm m rd rn) := by
  intro s _ hu
  obtain ⟨_, _, hm, _⟩ := doubleFromArm_eq_ok.1 hu
  exact allWhole_of_writable (f := .dbl) hm

theorem needsWhole_armFromDouble {m : DReg} : NeedsWhole (wordsOfReg .dbl m) (armFromDouble rd rn m) := by
  intro s _ hu
  obtain ⟨_, _, _, hm, _⟩ := armFromDouble_eq_ok.1 hu
  exact allWhole_of_readable (f := .dbl) hm

end Transfers

/-! ### Every instruction -/

section Completes

variable {js : List SReg} {c : Cond} {i : Instr} {double : Bool} {body : State → Except Stop State} {s t : State}

theorem allWhole_of_next (hb : NeedsWhole js body) (hc : conditionPassed c s.cpsr = true)
    (h : instruction c i double body s = .next t) : AllWhole js s := by
  obtain ⟨failed, _⟩ | ⟨_, u, hu, _⟩ := instruction_eq_next.1 h
  · exact absurd (hc.symm.trans failed) (by decide)
  · exact hb s u hu

theorem allWhole_of_scalar (hb : NeedsWhole js body) (hc : conditionPassed c s.cpsr = true)
    (h : instruction c i double (scalarOnly body) s = .next t) : AllWhole js s :=
  allWhole_of_next (fun s u hu => hb s u (scalarOnly_eq_ok.1 hu).2) hc h

end Completes

/-- An instruction other than FMDLR, FMDHR, FSTMX and FLDMX completes for whole doubles only (R325). -/
theorem exec_allWhole {i : Instr} {s t : State} (hi : ¬i.mayNameHalf) (hc : conditionPassed i.cond s.cpsr = true)
    (h : exec i s = .next t) : AllWhole i.words s := by
  cases i with
  | fmacs | fnmacs | fmscs | fnmscs => exact allWhole_of_scalar (needsWhole_multiplyAccumulate (f := .sgl)) hc h
  | fmacd | fnmacd | fmscd | fnmscd => exact allWhole_of_scalar (needsWhole_multiplyAccumulate (f := .dbl)) hc h
  | fmuls | fnmuls | fadds | fsubs | fdivs => exact allWhole_of_scalar (needsWhole_binary (f := .sgl)) hc h
  | fmuld | fnmuld | faddd | fsubd | fdivd => exact allWhole_of_scalar (needsWhole_binary (f := .dbl)) hc h
  | fcpys | fabss | fnegs => exact allWhole_of_scalar (needsWhole_copyReg (f := .sgl)) hc h
  | fcpyd | fabsd | fnegd => exact allWhole_of_scalar (needsWhole_copyReg (f := .dbl)) hc h
  | fsqrts => exact allWhole_of_scalar (needsWhole_unary (f := .sgl) (g := .sgl)) hc h
  | fsqrtd => exact allWhole_of_scalar (needsWhole_unary (f := .dbl) (g := .dbl)) hc h
  | fcmps | fcmpes => exact allWhole_of_next (needsWhole_compareRegs (f := .sgl)) hc h
  | fcmpd | fcmped => exact allWhole_of_next (needsWhole_compareRegs (f := .dbl)) hc h
  | fcmpzs | fcmpezs => exact allWhole_of_next (needsWhole_compareWithZero (f := .sgl)) hc h
  | fcmpzd | fcmpezd => exact allWhole_of_next (needsWhole_compareWithZero (f := .dbl)) hc h
  | fuitos | fsitos | ftouis | ftouizs | ftosis | ftosizs =>
    exact allWhole_of_next (needsWhole_unary (f := .sgl) (g := .sgl)) hc h
  | fcvtds | fuitod | fsitod => exact allWhole_of_next (needsWhole_unary (f := .dbl) (g := .sgl)) hc h
  | fcvtsd | ftouid | ftouizd | ftosid | ftosizd => exact allWhole_of_next (needsWhole_unary (f := .sgl) (g := .dbl)) hc h
  | flds _ _ d => exact allWhole_of_next (needsWhole_load (f := .sgl) (d := d)).of_one hc h
  | fldd _ _ d => exact allWhole_of_next (needsWhole_load (f := .dbl) (d := d)).of_one hc h
  | fsts _ _ d => exact allWhole_of_next (needsWhole_store (f := .sgl) (d := d)).of_one hc h
  | fstd _ _ d => exact allWhole_of_next (needsWhole_store (f := .dbl) (d := d)).of_one hc h
  | fldmsUnindexed _ d | fldmsIncrement _ d | fldmsDecrement _ d =>
    exact allWhole_of_next (needsWhole_load (f := .sgl) (d := d)) hc h
  | fldmdUnindexed _ d | fldmdIncrement _ d | fldmdDecrement _ d =>
    exact allWhole_of_next (needsWhole_load (f := .dbl) (d := d)) hc h
  | fstmsUnindexed _ d | fstmsIncrement _ d | fstmsDecrement _ d =>
    exact allWhole_of_next (needsWhole_store (f := .sgl) (d := d)) hc h
  | fstmdUnindexed | fstmdIncrement | fstmdDecrement => exact allWhole_of_next needsWhole_storeDoubles hc h
  | fmstat | fmxr | fmrx => exact allWhole_nil s
  | fmsr => exact allWhole_of_next needsWhole_singleFromArm hc h
  | fmrs => exact allWhole_of_next needsWhole_armFromSingle hc h
  | fmrdl | fmrdh => exact allWhole_of_next needsWhole_armFromHalf hc h
  | fmsrr => exact allWhole_of_next needsWhole_singlesFromArm hc h
  | fmrrs => exact allWhole_of_next needsWhole_armFromSingles hc h
  | fmdrr => exact allWhole_of_next needsWhole_doubleFromArm hc h
  | fmrrd => exact allWhole_of_next needsWhole_armFromDouble hc h
  | _ => exact absurd trivial hi

/-! ### The refusal -/

/-- What a use of a half-written double is refused as. -/
abbrev halfWritten : Stop := .refused .halfWrittenDouble

theorem requireWhole_halfWritten {n : DReg} {s : State} (h : s.pairAt n ≠ .whole) : requireWhole n s = .error halfWritten :=
  if_neg h

theorem readReg_halfWritten {f : Fmt} {r : VReg f} {s : State} (h : ¬Writable f r s) : readReg f r s = .error halfWritten := by
  rw [readReg, requireWhole_halfWritten h, error_bind]

/-- The first register of a list that is half-written stops its check, whatever comes after it. -/
theorem requireWholes_halfWritten {f : Fmt} {i k l : Nat} {s : State} (hl : l < k) (h : ¬Writable f (regAt f (i + l)) s) :
    requireWholes f i k s = .error halfWritten := by
  induction k generalizing i l with
  | zero => omega
  | succ k ih =>
    rw [requireWholes]
    by_cases first : Writable f (regAt f i) s
    · cases l with
      | zero => exact absurd first h
      | succ l =>
        rw [requireWhole_of_writable first, ok_bind]
        exact ih (i := i + 1) (l := l) (by omega) (by rwa [Nat.add_assoc, Nat.add_comm 1 l])
    · rw [requireWhole_halfWritten first, error_bind]

/-- A list is read up to its first half-written register, if the registers before it are readable. -/
theorem readRegs_halfWritten {f : Fmt} {i k l : Nat} {s : State} (hl : l < k) (h : ¬Writable f (regAt f (i + l)) s)
    (before : ∀ j, j < l → Readable f (regAt f (i + j)) s) : readRegs f i k s = .error halfWritten := by
  induction k generalizing i l with
  | zero => omega
  | succ k ih =>
    rw [readRegs]
    cases l with
    | zero => rw [readReg_halfWritten (r := regAt f i) h, error_bind]
    | succ l =>
      rw [readReg_of_readable (r := regAt f i) (before 0 (by omega)), ok_bind,
        ih (i := i + 1) (l := l) (by omega) (by rwa [Nat.add_assoc, Nat.add_comm 1 l]) fun j hj => ?_, error_bind]
      have := before (j + 1) (by omega)
      rwa [Nat.add_assoc, Nat.add_comm 1 j]

/-- A body that stops for a half-written double makes the instruction refused by that name. -/
theorem instruction_halfWritten {c : Cond} {i : Instr} {double : Bool} {body : State → Except Stop State} {s : State}
    (h : Ready c double s) (hb : body s = .error halfWritten) :
    instruction c i double body s = .refused .halfWrittenDouble := by
  rw [instruction_ready h, hb, finish]

section Uses

variable {c : Cond} {double : Bool} {i : Instr} {s : State}

theorem copyReg_halfWritten {f : Fmt} {adjust : Pat f → Pat f} {d m : VReg f} (h : Ready c double s) (hl : Scalar s)
    (half : ¬Writable f m s ∨ (Readable f m s ∧ ¬Writable f d s)) :
    instruction c i double (scalarOnly (copyReg f adjust d m)) s = .refused .halfWrittenDouble := by
  refine instruction_halfWritten h ((scalarOnly_of_scalar hl).trans ?_)
  obtain hm | ⟨hm, hd⟩ := half
  · rw [copyReg, readReg_halfWritten hm, error_bind]
  · rw [copyReg, readReg_of_readable hm, ok_bind, requireWhole_halfWritten hd, error_bind]

variable {rd rn : RReg} (hr : rd ≠ 15)
include hr

theorem singleFromArm_halfWritten {n : SReg} (half : s.pairAt (doubleOf n) ≠ .whole) :
    singleFromArm n rd s = .error halfWritten := by
  rw [singleFromArm, (requireNotR15_eq_ok (u := ())).2 hr, ok_bind, requireWhole_halfWritten half, error_bind]

theorem armFromSingle_halfWritten {n : SReg} (half : ¬Writable .sgl n s) : armFromSingle rd n s = .error halfWritten := by
  rw [armFromSingle, (requireNotR15_eq_ok (u := ())).2 hr, ok_bind, readReg_halfWritten half, error_bind]

theorem armFromHalf_halfWritten {half : DWord → Word} {n : DReg} (hn : ¬Writable .dbl n s) :
    armFromHalf half rd n s = .error halfWritten := by
  rw [armFromHalf, (requireNotR15_eq_ok (u := ())).2 hr, ok_bind, readReg_halfWritten hn, error_bind]

variable (hn : rn ≠ 15)
include hn

theorem singlesFromArm_halfWritten {m m' : SReg} (next : m'.val = m.val + 1)
    (half : s.pairAt (doubleOf m) ≠ .whole ∨ s.pairAt (doubleOf m') ≠ .whole) :
    singlesFromArm m rd rn s = .error halfWritten := by
  rw [singlesFromArm, (requireNoR15_eq_ok (u := ())).2 ⟨hn, hr⟩, ok_bind, nextSingle_eq_ok.2 next, ok_bind]
  by_cases hm : s.pairAt (doubleOf m) = .whole
  · rw [(requireWhole_eq_ok (u := ())).2 hm, ok_bind, requireWhole_halfWritten (half.resolve_left (not_not.2 hm)), error_bind]
  · rw [requireWhole_halfWritten hm, error_bind]

theorem doubleFromArm_halfWritten {m : DReg} (half : s.pairAt m ≠ .whole) : doubleFromArm m rd rn s = .error halfWritten := by
  rw [doubleFromArm, (requireNoR15_eq_ok (u := ())).2 ⟨hn, hr⟩, ok_bind, requireWhole_halfWritten half, error_bind]

variable (hd : rn ≠ rd)
include hd

theorem armFromSingles_halfWritten {m m' : SReg} (next : m'.val = m.val + 1)
    (half : ¬Writable .sgl m s ∨ (Readable .sgl m s ∧ ¬Writable .sgl m' s)) :
    armFromSingles rd rn m s = .error halfWritten := by
  rw [armFromSingles, (requireNoR15_eq_ok (u := ())).2 ⟨hn, hr⟩, ok_bind, nextSingle_eq_ok.2 next, ok_bind,
    (requireDistinct_eq_ok (u := ())).2 hd, ok_bind]
  obtain hm | ⟨hm, hm'⟩ := half
  · rw [readReg_halfWritten hm, error_bind]
  · rw [readReg_of_readable hm, ok_bind, readReg_halfWritten hm', error_bind]

theorem armFromDouble_halfWritten {m : DReg} (half : ¬Writable .dbl m s) : armFromDouble rd rn m s = .error halfWritten := by
  rw [armFromDouble, (requireNoR15_eq_ok (u := ())).2 ⟨hn, hr⟩, ok_bind, (requireDistinct_eq_ok (u := ())).2 hd, ok_bind,
    readReg_halfWritten half, error_bind]

end Uses

/-! ### Loads and stores -/

theorem needsDouble_of_transfer {i : Instr} {T : Transfer} (hi : i.transfer = some T) (hf : T.format = .dbl) :
    i.needsDouble = true := by
  cases i with
  | fldd | fstd | fldmdUnindexed | fldmdIncrement | fldmdDecrement | fstmdUnindexed | fstmdIncrement | fstmdDecrement => rfl
  | _ => cases hi <;> cases hf

theorem load_halfWritten {f : Fmt} {mode : AddrMode} {d : VReg f} {k l : Nat} {rn : RReg} {offset : BitVec 8} {s : State}
    (ho : TransferOk f (regIndex f d) k rn s) (hl : l < k) (half : ¬Writable f (regAt f (regIndex f d + l)) s) :
    load f mode d k rn offset s = .error halfWritten := by
  rw [load, (requireTransfer_eq_ok (u := ())).2 ho, ok_bind, requireWholes_halfWritten hl half, error_bind]

theorem store_halfWritten {f : Fmt} {mode : AddrMode} {d : VReg f} {k l : Nat} {rn : RReg} {offset : BitVec 8} {s : State}
    (ho : TransferOk f (regIndex f d) k rn s) (hl : l < k) (half : ¬Writable f (regAt f (regIndex f d + l)) s)
    (before : ∀ j, j < l → Readable f (regAt f (regIndex f d + j)) s) :
    store f mode d k rn offset s = .error halfWritten := by
  rw [store, (requireTransfer_eq_ok (u := ())).2 ho, ok_bind, readRegs_halfWritten hl half before, error_bind]

/-- A load of a half-written double is refused, and a store of one whose registers before it are readable. -/
theorem exec_transfer_halfWritten {i : Instr} {T : Transfer} {s : State} {l : Nat} (hi : i.transfer = some T)
    (h : Ready i.cond i.needsDouble s) (ho : TransferOk T.format T.first T.k T.rn s) (hl : l < T.k)
    (half : ¬Writable T.format (regAt T.format (T.first + l)) s)
    (before : i.cls = .store → ∀ j, j < l → Readable T.format (regAt T.format (T.first + j)) s) :
    exec i s = .refused .halfWrittenDouble := by
  obtain ⟨d, first, ⟨_, stops⟩ | ⟨cls, stops⟩⟩ :=
    exec_of_transfer hi h.1 fun hf => h.2 (needsDouble_of_transfer hi hf)
  · rw [← first] at ho half
    exact stops _ (load_halfWritten ho hl half)
  · rw [← first] at ho half before
    exact stops _ (store_halfWritten ho hl half (before cls))

/-- Settles O52: no body but those of FMDLR, FMDHR, FSTMX and FLDMX answers without the check of the pairing states, and the
check stops with its refusal where the operands before it pass. -/
theorem halfWrittenUses : Obligations.HalfWrittenUses := by
  refine ⟨fun i s j hj half hi hc t h => half (exec_allWhole hi hc h j hj), fun c d m s h hl half i hi => ?_,
    fun c d m s h hl half i hi => ?_, fun c n rd s h hr half => ⟨?_, ?_⟩, fun c n rd s h hr half => ⟨?_, ?_⟩,
    fun c m m' rd rn s h hr hn next => ⟨fun half => ?_, fun hd half => ?_⟩,
    fun c m rd rn s h hr hn half => ⟨?_, fun hd => ?_⟩, fun i T s l hi h ho hl half => ⟨fun cls => ?_, fun _ before => ?_⟩⟩
  · simp only [List.mem_cons, List.not_mem_nil, or_false] at hi
    obtain rfl | rfl | rfl := hi <;> exact copyReg_halfWritten (f := .sgl) h hl half
  · simp only [List.mem_cons, List.not_mem_nil, or_false] at hi
    obtain rfl | rfl | rfl := hi <;> exact copyReg_halfWritten (f := .dbl) h hl half
  · exact instruction_halfWritten h (singleFromArm_halfWritten hr half)
  · exact instruction_halfWritten h (armFromSingle_halfWritten hr half)
  · exact instruction_halfWritten h (armFromHalf_halfWritten hr half)
  · exact instruction_halfWritten h (armFromHalf_halfWritten hr half)
  · exact instruction_halfWritten h (singlesFromArm_halfWritten hr hn next half)
  · exact instruction_halfWritten h (armFromSingles_halfWritten hr hn hd next half)
  · exact instruction_halfWritten h (doubleFromArm_halfWritten hr hn half)
  · exact instruction_halfWritten h (armFromDouble_halfWritten hr hn hd half)
  · exact exec_transfer_halfWritten hi h ho hl half fun cls' => nomatch cls.symm.trans cls'
  · exact exec_transfer_halfWritten hi h ho hl half fun _ => before

end Sys2Proof.Machine
end

section
/-! PROOFS. Two-register transfers that complete: what each changes, in either order of `SREG_PAIR_ORDER`, and that it changes
nothing else (47_two_reg_transfer.md R277 to R280). -/

namespace Sys2Proof.Machine

/-! ### The order of the pair (R277, R278) -/

theorem pairOrder_source {s : State} (h : s.cfg.pairOrder = .source) (rd rn : RReg) : pairOrder s rd rn = (rn, rd) := by
  unfold pairOrder; rw [h]

theorem pairOrder_swapped {s : State} (h : s.cfg.pairOrder = .swapped) (rd rn : RReg) : pairOrder s rd rn = (rd, rn) := by
  unfold pairOrder; rw [h]

/-- What holds along the order of the pair holds along `rn, rd` or along `rd, rn`, by the parameter. -/
theorem of_pairOrder {s : State} {rd rn : RReg} {P : RReg → RReg → Prop}
    (h : P (pairOrder s rd rn).1 (pairOrder s rd rn).2) :
    (s.cfg.pairOrder = .source → P rn rd) ∧ (s.cfg.pairOrder = .swapped → P rd rn) :=
  ⟨fun ho => by rwa [pairOrder_source ho] at h, fun ho => by rwa [pairOrder_swapped ho] at h⟩

/-! ### Two registers written -/

theorem sreg_ne_of_next {m m' : SReg} (next : m'.val = m.val + 1) : m ≠ m' := by rintro rfl; omega

/-- Two single-precision registers written, and nothing else. -/
theorem registersOnly_setSingles (m m' : SReg) (v v' : Word) (s : State) :
    RegistersOnly [m, m'] [] s ((s.setReg .sgl m v).setReg .sgl m' v').advance where
  frame := by
    refine frame_advance (fun j hj => ?_) (fun j hj => ?_) (fun r _ => armReg_congr (by simp) fun _ => by simp) (by simp)
      (by simp) (by simp)
    all_goals
      rw [List.mem_cons, not_or] at hj
      have first : j ∉ wordsOfReg .sgl m := by simpa [wordsOfReg] using hj.1
      have second : j ∉ wordsOfReg .sgl m' := hj.2
    · rw [vreg_setReg_other second, vreg_setReg_other first]
    · rw [tag_setReg_other second, tag_setReg_other first]
  memory := ⟨by simp, by simp, by simp⟩
  pair := by simp
  cpsr := by simp

/-- A body that writes two different single-precision registers makes the instruction complete with both words there. -/
theorem instruction_setSingles {c : Cond} {i : Instr} {double : Bool} {body : State → Except Stop State} {s : State}
    {m m' : SReg} {v v' : Word} (h : Ready c double s) (hm : m ≠ m')
    (hb : body s = .ok ((s.setReg .sgl m v).setReg .sgl m' v')) :
    ∃ t, instruction c i double body s = .next t ∧ t.word m = v ∧ t.word m' = v' ∧ t.tagAt m = .sgl ∧ t.tagAt m' = .sgl ∧
      t.fpscr = s.fpscr ∧ RegistersOnly [m, m'] [] s t := by
  refine ⟨_, instruction_next_of_ok h hb, ?_, ?_, ?_, ?_, by simp, registersOnly_setSingles m m' v v' s⟩
  all_goals simp [State.setReg, State.setWord_word, State.setWord_tagAt, hm]

/-- Two ARM registers written, and nothing else. -/
theorem registersOnly_setArms {s : State} {r q : RReg} {arms : List RReg} (hr : r ≠ 15) (hq : q ≠ 15) (listed : r ∈ arms)
    (listed' : q ∈ arms) (v w : Word) : RegistersOnly [] arms s ((s.setArm r v).setArm q w).advance where
  frame := by
    refine frame_advance (by simp) (by simp) (fun p hp => ?_) (by simp) (by simp) (by simp)
    have other : p ≠ r := fun e => hp (e ▸ listed)
    have other' : p ≠ q := fun e => hp (e ▸ listed')
    rw [armReg_setArm hq, if_neg other', armReg_setArm hr, if_neg other]
  memory := ⟨by simp, by simp, by simp⟩
  pair := by simp
  cpsr := by simp

/-- A body that writes two different ARM registers makes the instruction complete with both words there. -/
theorem instruction_setArms {c : Cond} {i : Instr} {double : Bool} {body : State → Except Stop State} {s : State} {r q : RReg}
    {arms : List RReg} {v w : Word} (h : Ready c double s) (hr : r ≠ 15) (hq : q ≠ 15) (hrq : r ≠ q) (listed : r ∈ arms)
    (listed' : q ∈ arms) (hb : body s = .ok ((s.setArm r v).setArm q w)) :
    ∃ t, instruction c i double body s = .next t ∧ t.armReg r = v ∧ t.armReg q = w ∧ t.fpscr = s.fpscr ∧
      RegistersOnly [] arms s t := by
  refine ⟨_, instruction_next_of_ok h hb, ?_, ?_, by simp, registersOnly_setArms hr hq listed listed' v w⟩
  · rw [armReg_advance hr, armReg_setArm hq, if_neg hrq, armReg_setArm hr, if_pos rfl]
  · rw [armReg_advance hq, armReg_setArm hq, if_pos rfl]

/-! ### The four instructions -/

/-- FMSRR completes: `S[m]` has the word of the first register of the pair's order, `S[m+1]` that of the second. -/
theorem exec_fmsrr {c : Cond} {m m' : SReg} {rd rn : RReg} {s : State} (h : Ready c false s) (hr : rd ≠ 15) (hn : rn ≠ 15)
    (next : m'.val = m.val + 1) (hm : Writable .sgl m s) (hm' : Writable .sgl m' s) :
    ∃ t, exec (.fmsrr c m rd rn) s = .next t ∧ t.word m = s.armReg (pairOrder s rd rn).1 ∧
      t.word m' = s.armReg (pairOrder s rd rn).2 ∧ t.tagAt m = .sgl ∧ t.tagAt m' = .sgl ∧ t.fpscr = s.fpscr ∧
      RegistersOnly [m, m'] [] s t :=
  instruction_setSingles h (sreg_ne_of_next next) (singlesFromArm_eq_ok.2 ⟨hn, hr, m', next, hm, hm', rfl⟩)

/-- FMRRS completes: the first register of the pair's order has the word of `S[m]`, the second that of `S[m+1]`. -/
theorem exec_fmrrs {c : Cond} {m m' : SReg} {rd rn : RReg} {s : State} (h : Ready c false s) (hr : rd ≠ 15) (hn : rn ≠ 15)
    (hd : rn ≠ rd) (next : m'.val = m.val + 1) (hm : Readable .sgl m s) (hm' : Readable .sgl m' s) :
    ∃ t, exec (.fmrrs c rd rn m) s = .next t ∧ t.armReg (pairOrder s rd rn).1 = s.word m ∧
      t.armReg (pairOrder s rd rn).2 = s.word m' ∧ t.fpscr = s.fpscr ∧ RegistersOnly [] [rn, rd] s t := by
  have body := armFromSingles_eq_ok.2 ⟨hn, hr, hd, m', next, hm, hm', rfl⟩
  obtain ⟨first, second⟩ := pairOrder_ne (s := s) hn hr
  obtain ⟨distinct, listed, listed'⟩ : (pairOrder s rd rn).1 ≠ (pairOrder s rd rn).2 ∧ (pairOrder s rd rn).1 ∈ [rn, rd] ∧
      (pairOrder s rd rn).2 ∈ [rn, rd] := by
    cases ho : s.cfg.pairOrder with
    | source => rw [pairOrder_source ho]; simp [hd]
    | swapped => rw [pairOrder_swapped ho]; simp [hd.symm]
  exact instruction_setArms h first second distinct listed listed' body

/-- Settles O37: each instruction copies along the pair's order, which is one of two. -/
theorem pairTransfers : Obligations.PairTransfers := by
  refine ⟨fun c m m' rd rn s h hr hn next hm hm' => ?_, fun c rd rn m m' s h hr hn hd next hm hm' => ?_⟩
  · obtain ⟨t, ht, word, word', rest⟩ := exec_fmsrr h hr hn next hm hm'
    obtain ⟨source, swapped⟩ := of_pairOrder (P := fun a b => t.word m = s.armReg a ∧ t.word m' = s.armReg b) ⟨word, word'⟩
    exact ⟨t, ht, source, swapped, rest⟩
  · obtain ⟨t, ht, arm, arm', rest⟩ := exec_fmrrs h hr hn hd next hm hm'
    obtain ⟨source, swapped⟩ := of_pairOrder (P := fun a b => t.armReg a = s.word m ∧ t.armReg b = s.word m') ⟨arm, arm'⟩
    exact ⟨t, ht, source, swapped, rest⟩

/-- Settles O38: FMDRR writes the double of the two words, and FMRRD reads its halves. -/
theorem doubleTransfers : Obligations.DoubleTransfers := by
  refine ⟨fun c m rd rn s h hr hn hm => ?_, fun c rd rn m s h hr hn hd hm => ?_⟩
  · have written := delivered_setReg (f := .dbl) m (dwordOf (s.armReg rn) (s.armReg rd)) s
    have double : State.rawDouble _ m = dwordOf (s.armReg rn) (s.armReg rd) := written.value
    refine ⟨_, instruction_next_of_ok h (doubleFromArm_eq_ok.2 ⟨hn, hr, hm, rfl⟩), ?_, ?_,
      written.tags _ (by simp [wordsOfReg]), written.tags _ (by simp [wordsOfReg]), by simp, written.rest⟩
    · rw [word_loIndex, double, loWord_dwordOf]
    · rw [word_hiIndex, double, hiWord_dwordOf]
  · rw [word_loIndex, word_hiIndex]
    exact instruction_setArms h hr hn hd.symm (by simp) (by simp) (armFromDouble_eq_ok.2 ⟨hn, hr, hd, hm, rfl⟩)

end Sys2Proof.Machine
end

section
/-! PROOFS. Signalling floating-point exceptions (60_exceptions.md R297), and the instructions that signal none (R299). -/

namespace Sys2Proof.Machine

/-! ### Which exception is trapped (R297) -/

/-- Nothing is trapped exactly when no enabled exception is signalled. -/
theorem trapped_eq_none_iff {enables e : ExcSet} :
    trapped enables e = none ↔ ∀ x, enables.has x = true → e.has x = false := by
  have all (x : FpExc) : x ∈ [FpExc.invalidOp, .divByZero, .overflow, .underflow, .inexact, .inputDenormal] := by
    cases x <;> decide
  simp only [trapped, List.find?_eq_none, Bool.and_eq_true, not_and, Bool.not_eq_true]
  exact ⟨fun h x => h x (all x), fun h x _ => h x⟩

/-- What is trapped is enabled and signalled. -/
theorem has_of_trapped {enables e : ExcSet} {y : FpExc} (h : trapped enables e = some y) :
    enables.has y = true ∧ e.has y = true := by
  have found := List.find?_some h
  rwa [Bool.and_eq_true] at found

/-- Where an enabled exception is signalled, an enabled and signalled one is trapped. -/
theorem signal_of_enabled {e : ExcSet} {s : State} {x : FpExc} (hx : s.fpscr.enables.has x = true) (he : e.has x = true) :
    ∃ y, signal e s = .error (.fault (.fpTrap y)) ∧ s.fpscr.enables.has y = true ∧ e.has y = true := by
  cases h : trapped s.fpscr.enables e with
  | none => exact absurd (trapped_eq_none_iff.1 h x hx) (by simp [he])
  | some y => exact ⟨y, by rw [signal, h], has_of_trapped h⟩

/-- A result whose signalling stops is not written. -/
theorem deliver_of_signal_error {f : Fmt} {d : VReg f} {r : FpResult f} {s : State} {e : Stop} (hd : Writable f d s)
    (h : signal r.exc s = .error e) : deliver f d r s = .error e := by
  rw [deliver, requireWhole_of_writable hd, ok_bind, h, error_bind]

/-- Settles O57: signalling stops at what `trapped` finds, before the destination is written. -/
theorem signalling : Obligations.Signalling := by
  refine ⟨fun e s => ⟨fun untrapped => ?_, fun x => signal_of_enabled⟩, fun c d n m s x h hl hn hm hd hx he => ?_⟩
  · exact ⟨s.accrue e, signal_eq_ok.2 ⟨trapped_eq_none_iff.2 untrapped, rfl⟩, rfl, has_union _ e⟩
  · obtain ⟨y, hy, enabled⟩ := signal_of_enabled hx he
    have body : scalarOnly (binary .sgl (fpAdd .sgl) d n m) s = .error (.fault (.fpTrap y)) := by
      rw [scalarOnly_of_scalar hl, binary_of_readable hn hm]
      exact deliver_of_signal_error hd hy
    have stop : exec (.fadds c d n m) s = .fault (.fpTrap y) :=
      (instruction_ready h).trans (by rw [body, finish])
    exact ⟨y, stop, enabled⟩

/-! ### Computations that do not trap -/

/-- The computation does not stop with the trap of a floating-point exception. -/
structure TrapFree {α : Type} (x : Except Stop α) : Prop where
  ne_trap : ∀ e, x ≠ .error (.fault (.fpTrap e))

@[simp] theorem trapFree_ok {α : Type} (a : α) : TrapFree (.ok a) := ⟨nofun⟩

@[simp] theorem trapFree_error {α : Type} (e : Stop) : TrapFree (α := α) (.error e) ↔ ∀ x, e ≠ .fault (.fpTrap x) :=
  ⟨fun h x hx => h.ne_trap x (congrArg _ hx), fun h => ⟨fun x hx => h x (Except.error.inj hx)⟩⟩

@[simp] theorem trapFree_bind {α β : Type} {x : Except Stop α} {f : α → Except Stop β} :
    TrapFree (x >>= f) ↔ TrapFree x ∧ ∀ a, x = .ok a → TrapFree (f a) := by
  cases x with
  | ok a => simp
  | error e => simp

@[simp] theorem trapFree_ite {α : Type} {p : Prop} [Decidable p] {x y : Except Stop α} :
    TrapFree (if p then x else y) ↔ (p → TrapFree x) ∧ (¬p → TrapFree y) := by
  split <;> simp [*]

/-! ### No check of an operand traps -/

section Checks

variable {f : Fmt} {s : State} {i k n : Nat} {rd rn : RReg} {a : Word}

@[simp] theorem trapFree_requireWhole (x : DReg) : TrapFree (requireWhole x s) := by simp [requireWhole]

@[simp] theorem trapFree_requireTag (other : Tag) (j : SReg) : TrapFree (requireTag other j s) := by simp [requireTag]

@[simp] theorem trapFree_readReg (r : VReg f) : TrapFree (readReg f r s) := by
  cases f <;> simp [readReg, requireReadable]

@[simp] theorem trapFree_readRegs : TrapFree (readRegs f i k s) := by
  induction k generalizing i with
  | zero => exact trapFree_ok _
  | succ k ih => simp [readRegs, ih]

@[simp] theorem trapFree_requireWholes : TrapFree (requireWholes f i k s) := by
  induction k generalizing i with
  | zero => exact trapFree_ok _
  | succ k ih => simp [requireWholes, ih]

@[simp] theorem trapFree_readUnknowns : TrapFree (readUnknowns i k s) := by
  induction k generalizing i with
  | zero => exact trapFree_ok _
  | succ k ih => simp [readUnknowns, readUnknown, ih]

@[simp] theorem trapFree_requireTransfer : TrapFree (requireTransfer f i k rn s) := by simp [requireTransfer]

@[simp] theorem trapFree_requireAdmitted (write : Bool) : TrapFree (requireAdmitted write a n s) := by
  unfold requireAdmitted; split <;> simp

@[simp] theorem trapFree_requireOutsideText : TrapFree (requireOutsideText a n s) := by
  unfold requireOutsideText; split <;> simp

@[simp] theorem trapFree_unknownSource (d : DReg) : TrapFree (unknownSource s d k a) := by
  unfold unknownSource; split <;> simp

@[simp] theorem trapFree_requireNotR15 (reason : UnpredictableReason) : TrapFree (requireNotR15 reason rd) := by
  simp [requireNotR15]

@[simp] theorem trapFree_requireNoR15 : TrapFree (requireNoR15 rd rn) := by simp [requireNoR15]

@[simp] theorem trapFree_requireDistinct : TrapFree (requireDistinct rd rn) := by simp [requireDistinct]

@[simp] theorem trapFree_nextSingle (m : SReg) : TrapFree (nextSingle m) := by
  unfold nextSingle; split <;> simp

@[simp] theorem trapFree_requirePrivilege (i : Instr) (reg : SysReg) : TrapFree (requirePrivilege i reg s) := by
  simp [requirePrivilege, undefinedInstruction]

@[simp] theorem trapFree_writeHalf (low : Bool) (x : DReg) : TrapFree (writeHalf low x a s) := by
  unfold writeHalf; split <;> simp

@[simp] theorem trapFree_writeSysReg (reg : SysReg) : TrapFree (writeSysReg reg a s) := by
  cases reg <;> simp [writeSysReg]

@[simp] theorem trapFree_readSysReg (reg : SysReg) : TrapFree (readSysReg reg rd s) := by
  cases reg <;> simp [readSysReg]

end Checks

/-! ### Copies, loads, stores and transfers (R299) -/

theorem trapFree_copyReg {f : Fmt} {adjust : Pat f → Pat f} {d m : VReg f} {s : State} :
    TrapFree (scalarOnly (copyReg f adjust d m) s) := by simp [scalarOnly, copyReg]

theorem trapFree_load {f : Fmt} {mode : AddrMode} {d : VReg f} {k : Nat} {rn : RReg} {offset : BitVec 8} {s : State} :
    TrapFree (load f mode d k rn offset s) := by simp [load]

theorem trapFree_store {f : Fmt} {mode : AddrMode} {d : VReg f} {k : Nat} {rn : RReg} {offset : BitVec 8} {s : State} :
    TrapFree (store f mode d k rn offset s) := by simp [store]

/-- The instruction is of a class that R299 lists: it moves bits and computes nothing. -/
def MovesBits (i : Instr) : Prop :=
  i.cls = .copy ∨ i.cls = .load ∨ i.cls = .store ∨ i.cls = .singleTransfer ∨ i.cls = .twoRegisterTransfer

/-- An instruction traps only if its body does. -/
theorem instruction_ne_trap {c : Cond} {i : Instr} {double : Bool} {body : State → Except Stop State} {s : State}
    (hb : TrapFree (body s)) (e : FpExc) : instruction c i double body s ≠ .fault (.fpTrap e) := by
  unfold instruction
  split
  · split
    · exact nofun
    · cases hx : body s with
      | ok t => exact nofun
      | error x =>
        cases x with
        | fault y => intro h; cases h; exact hb.ne_trap e hx
        | refused r => exact nofun
  · exact nofun

/-- Of these instructions, every body is a sequence of checks that do not trap and an update of the state. -/
theorem exec_ne_trap {i : Instr} (hi : MovesBits i) (s : State) (e : FpExc) : exec i s ≠ .fault (.fpTrap e) := by
  cases i with
  | fcpys | fcpyd | fabss | fabsd | fnegs | fnegd => exact instruction_ne_trap trapFree_copyReg e
  | flds | fldd | fldmsUnindexed | fldmsIncrement | fldmsDecrement | fldmdUnindexed | fldmdIncrement | fldmdDecrement =>
    exact instruction_ne_trap trapFree_load e
  | fldmxUnindexed | fldmxIncrement | fldmxDecrement => exact instruction_ne_trap (by simp [loadUnknown]) e
  | fsts | fstd | fstmsUnindexed | fstmsIncrement | fstmsDecrement => exact instruction_ne_trap trapFree_store e
  | fstmdUnindexed | fstmdIncrement | fstmdDecrement => exact instruction_ne_trap (by simp [storeDoubles, trapFree_store]) e
  | fstmxUnindexed | fstmxIncrement | fstmxDecrement => exact instruction_ne_trap (by simp [storeUnknown]) e
  | fmstat => exact instruction_ne_trap (body := fun s => .ok s.copyFlags) (trapFree_ok _) e
  | fmsr => exact instruction_ne_trap (by simp [singleFromArm]) e
  | fmrs => exact instruction_ne_trap (by simp [armFromSingle, trapFree_readReg (f := .sgl)]) e
  | fmxr => exact instruction_ne_trap (by simp [systemFromArm]) e
  | fmrx => exact instruction_ne_trap (by simp [armFromSystem]) e
  | fmdlr | fmdhr => exact instruction_ne_trap (by simp [halfFromArm]) e
  | fmrdl | fmrdh => exact instruction_ne_trap (by simp [armFromHalf, trapFree_readReg (f := .dbl)]) e
  | fmsrr => exact instruction_ne_trap (by simp [singlesFromArm]) e
  | fmrrs => exact instruction_ne_trap (by simp [armFromSingles, trapFree_readReg (f := .sgl)]) e
  | fmdrr => exact instruction_ne_trap (by simp [doubleFromArm]) e
  | fmrrd => exact instruction_ne_trap (by simp [armFromDouble, trapFree_readReg (f := .dbl)]) e
  | _ => simp [MovesBits, Instr.cls] at hi

/-- The effects that accrue exceptions are of other classes, so the one that writes the FPSCR here is FMXR's. -/
theorem Effect.fpscr_eq {i : Instr} {s u : State} (h : Effect i s u) (hi : MovesBits i) (hw : ¬i.writesFpscr) :
    u.fpscr = s.fpscr := by
  cases h with
  | result hc => rcases hc with hc | hc | hc <;> simp [MovesBits, hc] at hi
  | compared hc => simp [MovesBits, hc] at hi
  | fpscr _ hi' => exact absurd hi' hw
  | _ => simp

/-- Settles O18: no check of such an instruction traps, and none of its effects accrues an exception. -/
theorem neverSignal : Obligations.NeverSignal := by
  refine fun i s hi => ⟨exec_ne_trap hi s, fun t h hw => ?_⟩
  rcases exec_effect h with ⟨_, rfl⟩ | ⟨_, u, hu, rfl⟩
  · rw [State.advance_fpscr]
  · rw [State.advance_fpscr, hu.fpscr_eq hi hw]

end Sys2Proof.Machine
end

section
/-! PROOFS. A step runs what is decoded from the word at the program counter (70_reset_and_hazards.md R322, 30_encoding.md
R91). -/

namespace Sys2Proof.Machine

theorem step_of_fetched {w : Word} {i : Instr} {s : State} (hf : Fetched w s) (hd : decode w = .ok i) : step s = exec i s := by
  unfold step
  rw [fetch_of_fetched hf]
  simp only [hd]

/-- The placed word is at the program counter, in the text or as a text of its own. -/
theorem fetched_placeWord {s : State} (w : Word) (ha : s.pc.extractLsb' 0 2 = 0) : Fetched w (placeWord w s) := by
  unfold placeWord
  dsimp only
  split
  · rename_i inside
    exact ⟨ha, _, (Nat.mul_div_cancel' (Nat.dvd_of_mod_eq_zero inside.1)).symm, List.getElem?_set_self inside.2⟩
  · exact ⟨ha, 0, by simp, rfl⟩

theorem decodeTableWord_eq_some {nbits w : Nat} {i : Instr} :
    decodeTableWord nbits w = some i ↔ decode (BitVec.ofNat 32 (w % 2 ^ nbits)) = .ok i := by
  unfold decodeTableWord
  cases decode (BitVec.ofNat 32 (w % 2 ^ nbits)) <;> simp

/-- Settles O5: what `withFetchWord` places is fetched, and what is fetched is decoded and run. -/
theorem stepRunsDecoded : Obligations.StepRunsDecoded :=
  ⟨fun _ _ _ => step_of_fetched, fun _ _ _ _ ha hd => step_of_fetched (fetched_placeWord _ ha) (decodeTableWord_eq_some.1 hd)⟩

end Sys2Proof.Machine
end
